-- ==== Sys2Proof/Word.lean ====
section
/-! DEFINITION. The words of the part (spec 00_scope.md, "Conventions"): bytes, 32-bit words, 24-bit byte
addresses, web positions, lanes, and the four-fold record in which per-lane state is kept. -/

namespace Sys2Proof

/-- A byte of job memory. -/
abbrev Byte := BitVec 8
/-- A 32-bit data word, and every 32-bit wrapping counter of the part. -/
abbrev Word := BitVec 32
/-- A 24-bit byte address of job memory. -/
abbrev Addr := BitVec 24
/-- A web position or nip position: 32 bits, wrapping (R67). -/
abbrev Pos := BitVec 32
/-- A lane, 0 to 3. -/
abbrev Lane := Fin 4

/-- The four lanes in order. -/
def allLanes : List Lane := [0, 1, 2, 3]

/-- One value for each of the four lanes. -/
structure PerLane (α : Type) where
  l0 : α
  l1 : α
  l2 : α
  l3 : α
deriving DecidableEq, Repr

/-- The same value on every lane. -/
def PerLane.const {α : Type} (a : α) : PerLane α := ⟨a, a, a, a⟩

/-- The value of lane `n`. -/
def PerLane.get {α : Type} (p : PerLane α) (n : Lane) : α :=
  match n with
  | 0 => p.l0
  | 1 => p.l1
  | 2 => p.l2
  | 3 => p.l3

/-- The value of lane `n` replaced. -/
def PerLane.set {α : Type} (p : PerLane α) (n : Lane) (a : α) : PerLane α :=
  match n with
  | 0 => { p with l0 := a }
  | 1 => { p with l1 := a }
  | 2 => { p with l2 := a }
  | 3 => { p with l3 := a }

/-- Each lane's value computed from the lane and its old value. -/
def PerLane.mapLane {α β : Type} (f : Lane → α → β) (p : PerLane α) : PerLane β :=
  ⟨f 0 p.l0, f 1 p.l1, f 2 p.l2, f 3 p.l3⟩

/-- Each lane's value computed from its old value. -/
def PerLane.map {α β : Type} (f : α → β) (p : PerLane α) : PerLane β :=
  ⟨f p.l0, f p.l1, f p.l2, f p.l3⟩

end Sys2Proof
end

