-- ==== Sys2Proof/Syntax.lean ====
section
/-! DEFINITION. The commands of the part: one constructor for each row of spec/opcode_table.json. -/

namespace Sys2Proof

/-- One word of a burst: its four byte enables, and the data of a write (R1). A read's data is not used. -/
structure WordReq where
  en : BitVec 4
  data : Word
deriving DecidableEq, Repr

/-- What the two kinds of press line that change without a row of their own have become when a step is taken: HEAT_RDY
asserted, and each FOILBRK still asserted. A false `heat` and a true `brk` change nothing (log 6). -/
structure Levels where
  heat : Bool
  brk : PerLane Bool
deriving DecidableEq, Repr

/-- Where the order of an order row comes from. `entry`: the Order Unit's read of the ring entry being taken
completes and the entry holds an order of the row's kind (R44). `tap n lane arg`: a tap order of the row's kind made
by tap `n` with that lane and tap argument is delivered (R63, R64). -/
inductive OrderSource
  | entry
  | tap (n : Fin 16) (lane : Lane) (arg : BitVec 16)
deriving DecidableEq, Repr

/-- The commands, in the order of the table. -/
inductive Instr
  | processorWrite (lv : Levels) (addr : Addr) (words : List WordReq)
  | processorRead (addr : Addr) (enables : List (BitVec 4))
  | portGrant
  | forwardedBurstEnd (lv : Levels)
  | forwardedAccessError (lv : Levels) (word : Nat)
  | resetNAsserted (wordsAccepted : Nat)
  | resetNReleased (straps : BitVec 2) (webA webB : Bool)
  | headerReadComplete
  | tableReadComplete
  | seedingReadComplete (lv : Levels)
  | discardedReadComplete
  | ownAccessError (lv : Levels) (word : Nat)
  | orderTakeBegin
  | unknownOrderKind (lv : Levels) (src : OrderSource) (kind : Byte)
  | watch (lv : Levels) (src : OrderSource)
  | run (lv : Levels) (src : OrderSource)
  | stampOff (lv : Levels) (src : OrderSource)
  | hold (lv : Levels) (src : OrderSource)
  | skip (lv : Levels) (src : OrderSource)
  | laneRestart (lv : Levels) (src : OrderSource)
  | setPosition (lv : Levels) (src : OrderSource)
  | trimReset (lv : Levels) (src : OrderSource)
  | foilLoad (lv : Levels) (src : OrderSource)
  | countTarget (lv : Levels) (src : OrderSource)
  | survey (lv : Levels) (src : OrderSource)
  | reportPolicy (lv : Levels) (src : OrderSource)
  | ack (lv : Levels) (src : OrderSource)
  | resultWriteComplete (lv : Levels)
  | stationFaultApplied (which : Nat)
  | webForwardCount
  | webBackwardCount
  | encoderDoubleChange
  | markLeadingEdge (lane : Lane)
  | markTrailingEdge (lane : Lane)
  | windowEndReached (lane : Lane)
  | samplePositionReached (lane : Lane)
  | stopSampleReached (lane : Lane)
  | spliceDetection (lane : Lane)
  | readTaken (lane : Lane)
  | strayNotice (lane : Lane)
  | skewDiscardNotice (lane : Lane)
  | cellPlaced (lv : Levels) (lane : Lane)
  | spliceDetectionTaken (lane : Lane)
  | lightReturnTaken (lane : Lane)
  | resumePositionReached (lane : Lane)
  | decisionPointReached (lv : Levels)
  | nipReached
  | releasePointReached
  | throwOkRise
  | throwOkFall
  | cylIndex
  | heatRdyFall
  | foilbrkAsserted (lane : Lane)
  | pullStartReached (lane : Lane)
  | ownPullEndReached (lane : Lane)
  | pullEndReached (lane : Lane)
  | pullReport (lane : Lane)
  | rejectPointReached
  | rejectEndReached (lane : Lane)
  | fillComplete (lv : Levels)
  | statusWriteComplete
  | orderEntryReadComplete (lv : Levels)
deriving DecidableEq, Repr

end Sys2Proof
end

