-- ==== Sys2Proof/WellFormed.lean ====
section
/-! DEFINITION. Which commands are well formed: what R1, R2 and R44 say the sender of a command keeps to. A malformed
burst (R3) is a well-formed command: the part answers it. -/

namespace Sys2Proof

/-- A word address: the two low bits are zero (R1). -/
def Addr.isWord (a : Addr) : Bool := a.toNat % 4 == 0

/-- The order codes of 11.2: 01h to 0Dh. -/
def isOrderCode (kind : Byte) : Bool := 1 ≤ kind.toNat && kind.toNat ≤ 13

/-- Well-formed commands. R1: an access has a word address and at least one word. R2: an own access covers at most 64
words. R44: an unknown order's kind is none of the thirteen. -/
def Instr.wellFormed : Instr → Bool
  | .processorWrite _ addr words => Addr.isWord addr && !words.isEmpty
  | .processorRead addr enables => Addr.isWord addr && !enables.isEmpty
  | .ownAccessError _ word => word < 64
  | .resetNAsserted wordsAccepted => wordsAccepted ≤ 64
  | .unknownOrderKind _ _ kind => !isOrderCode kind
  | _ => true

end Sys2Proof
end

