-- ==== Sys2Proof/Config.lean ====
section
/-! DEFINITION. What the part fixes (the capacities the rules state) and the one free value of the model. -/

namespace Sys2Proof.Config

/-- The free choice among blocks whose reports are offered in one step. R169: "Two offers that arrive together are
taken in either order, and the order taken is the order written." It has no body, so a statement holds for every
choice. It is applied to the counter `State.choice` (log 7). -/
opaque pick : Nat → Nat

/-- R9: the memory access queue holds up to 16 own accesses. -/
def queueCapacity : Nat := 16
/-- R10: the pass-over count at which the queue head is given the port. -/
def passOverLimit : Nat := 4
/-- R64: the tap order queue holds up to 4 tap orders. -/
def tapQueueCapacity : Nat := 4
/-- R174: the post queue holds up to 8 reports. -/
def postQueueCapacity : Nat := 8
/-- R112: the row track holds at most 32 rows. -/
def trackCapacity : Nat := 32
/-- R155: a Foil Drive's list holds up to 32 records. -/
def pullCapacity : Nat := 32
/-- R101: the quality counter value at which a lane is BLOCKED. -/
def blockedQuality : Nat := 32
/-- R53: the largest value of a skip counter. -/
def skipMax : Nat := 255
/-- R20: the configuration window is 1,536 bytes. -/
def configWindowBytes : Nat := 1536
/-- The bytes of job memory: 24-bit addresses (00_scope.md). -/
def memoryBytes : Nat := 16777216
/-- R174: the gap count holds at its largest value. -/
def gapMax : Nat := 4294967295

end Sys2Proof.Config
end

