-- ==== Sys2Proof/Machine/State.lean ====
section
/-! DEFINITION. The state of the part: every register, queue, counter, mode and line the spec gives it, the job memory
it reaches, the messages its blocks hand each other, and the queue of waiting commands. Plain data. -/

namespace Sys2Proof.Machine

/-! ## Names the spec gives to values -/

/-- The station modes (02 section 2.3). -/
inductive Mode
  | bypass | unconfigured | loading | held | watch | run | safe
deriving DecidableEq, Repr

/-- The station faults (R39). -/
inductive FaultKind
  | throwLate | throwLost | throwUncommanded | cylinderSlip | trimLimit | trackOverflow
  | allLanesDown | webReverse | memory
deriving DecidableEq, Repr

/-- The mode causes (02 section 2.3). -/
inductive ModeCause
  | reset | commit | loaded | loadFailed | edit | watchOrder | runOrder | holdOrder | windDown
  | fault (k : FaultKind)
deriving DecidableEq, Repr

/-- The load phases (02 section 2.2). -/
inductive LoadPhase
  | idle | header | tables | seeding | checking
deriving DecidableEq, Repr

/-- The configuration error codes (02 section 2.2), in the order of 11.4. -/
inductive ErrorCode
  | none | statusAddress | windows | ringSize | lanes | classTable | codeLength | plates | variants
  | setList | geometry | trackCapacity | foilRatio | trim | edited | memory
deriving DecidableEq, Repr

/-- The attention causes (R183), in the order of their bits (11.4). -/
inductive Cause
  | fault | lane | splice | foilLow | foil | survey | order | loss | guard | config | memory | heat
deriving DecidableEq, Repr

/-- The report policies (R176). -/
inductive Policy
  | all | exceptions | follow | variant
deriving DecidableEq, Repr

/-- The lane states (05 section 5.2). -/
inductive LaneState
  | off | idle | hunt | locked | flywheel | blocked
deriving DecidableEq, Repr

/-- The throw states (R136). -/
inductive ThrowState
  | off | engaging | on | releasing
deriving DecidableEq, Repr

/-- The states of a Mark Reader (04 section 4.2). -/
inductive ReaderState
  | idle | seek | pulse | code
deriving DecidableEq, Repr

/-- Why a read or a cell is unread (R82, R108). -/
inductive UnreadCause
  | classOverflow | framing | abort | cls | unknown
deriving DecidableEq, Repr

/-- The read status of a cell (R108, R111). -/
inductive ReadStatus
  | identified | sequence | hunting | unread (c : UnreadCause) | absent
deriving DecidableEq, Repr

/-- The mark kind of a read or cell (R82). -/
inductive MarkKind
  | accepted | flywheel
deriving DecidableEq, Repr

/-- The result of a read (R82); `absent` for FLYWHEEL. -/
inductive ReadResult
  | complete (code : BitVec 12) | unread (c : UnreadCause) | absent
deriving DecidableEq, Repr

/-- The decision of a cell (R120). -/
inductive Decision
  | strike | pass | skip
deriving DecidableEq, Repr

/-- The reasons of the decision table, in its order (R120). -/
inductive Reason
  | absent | watching | safe | stopped | splice | hunting | unread | predicted | sequence | noStrike
  | plate | heat | foil | ordered | strike
deriving DecidableEq, Repr

/-- The outcome of a cell at the nip (R143). -/
inductive CellOutcome
  | foiled | embossed | passed | blind | missed | clear
deriving DecidableEq, Repr

/-- The state of a cell's pull (R111). -/
inductive PullState
  | armed | active | completed | stopped | notStarted
deriving DecidableEq, Repr

/-- The stage of a row (R110). -/
inductive Stage
  | opened | decided | struck
deriving DecidableEq, Repr

/-- The result codes of an order (03 section 3.1). -/
inductive ResultCode
  | done | accepted | refusedKind | refusedMode | refusedArgument | refusedBusy | refusedState
  | refusedMemory
deriving DecidableEq, Repr

/-- The thirteen orders (03 section 3.2). -/
inductive OrderKind
  | watch | run | stampOff | hold | skip | laneRestart | setPosition | trimReset | foilLoad
  | countTarget | survey | reportPolicy | ack
deriving DecidableEq, Repr

/-- The outcomes of a survey (R186). -/
inductive SurveyOutcome
  | none | running | pass | failQuiet | failIncomplete | failSplice | cancelled
deriving DecidableEq, Repr

/-! ## Positions held until they are reached (R69) -/

/-- A position a block holds, and whether the web has reached it. A position is reached once; the block takes it by a
command of its own (log 10). -/
structure Held where
  pos : Pos
  reached : Bool
deriving DecidableEq, Repr

/-! ## The loaded copy (02 section 2.1, 11.1) -/

/-- The header fields of the configuration window. -/
structure Header where
  edition : BitVec 16
  laneMask : Byte
  leadLane : Nat
  codeLength : Nat
  plates : Nat
  nominalPitch : Word
  windowEarly : Word
  windowLate : Word
  minMarkWidth : Word
  sensorToNip : PerLane Word
  nipToReject : Word
  rejectWidth : Word
  skewTolerance : Word
  spliceDarkLength : Word
  spliceMarginBefore : Word
  spliceMarginAfter : Word
  flywheelLimit : Nat
  flywheelStrike : Bool
  setLength : Nat
  trimGain : Nat
  indexOffset : Word
  throwLead : Word
  releaseClearance : Word
  trimStepMax : Nat
  trimLimit : Nat
  ratioNum : Nat
  ratioDen : Nat
  foilLead : Word
  foilTrail : Word
  foilLow : Word
  reverseTolerance : Word
  orderBase : Nat
  orderSize : Nat
  reportSize : Nat
  reportBase : Nat
  statusBase : Nat
  attentionMask : BitVec 12
  policy : Nat
  policyVariant : Nat
  setList : PerLane (List Nat)
deriving DecidableEq, Repr

/-- One entry of the mark class table. -/
structure ClassEntry where
  maxWidth : Nat
  unitWidth : Nat
deriving DecidableEq, Repr

/-- One entry of the tap table. -/
structure TapEntry where
  enabled : Bool
  wordAddr : Addr
  addrMask : Addr
  pattern : Word
  byteMask : BitVec 4
  consume : Bool
  kind : Byte
  lane : Lane
  fromByte : Bool
  arg : BitVec 16
deriving DecidableEq, Repr

/-- One entry of the variant table. -/
structure VariantEntry where
  valid : Bool
  code : BitVec 12
  codeMask : BitVec 12
  cls : Nat
  plate : Nat
  strike : Bool
  imageOffset : BitVec 16
  imageLength : BitVec 16
deriving DecidableEq, Repr

/-- The loaded copy: the header, the N loaded mark classes (R21), the 16 taps and the 32 variants. -/
structure Loaded where
  hdr : Header
  classes : List ClassEntry
  taps : List TapEntry
  variants : List VariantEntry
deriving DecidableEq, Repr

/-- The bounds of the order ring, the report ring and the status block, as the Window Monitor decodes them (R14). -/
structure Bounds where
  orderBase : Nat
  orderSize : Nat
  reportBase : Nat
  reportSize : Nat
  statusBase : Nat
deriving DecidableEq, Repr

/-! ## Messages between blocks -/

/-- A read handed to a Lane Tracker (R82). -/
structure ReadMsg where
  markKind : MarkKind
  markPos : Pos
  width : Option Nat
  cls : Option Nat
  result : ReadResult
deriving DecidableEq, Repr

/-- The pull of a cell as the Row Track records it (R111, R122). -/
structure Pull where
  start : Pos
  stop : Pos
  state : PullState
deriving DecidableEq, Repr

/-- A cell (R108), with the fields the decision and later events add (R111). -/
structure Cell where
  markPos : Option Pos
  nipPos : Option Pos
  markKind : Option MarkKind
  status : ReadStatus
  variant : Option Nat
  setPos : Option Nat
  predicted : Bool
  decision : Option Decision
  reason : Option Reason
  pull : Option Pull
  outcome : Option CellOutcome
  reject : Bool
  foilUsed : Word
deriving DecidableEq, Repr

/-- What a Mark Reader reports to the Row Track of a splice (R85). -/
inductive SpliceMsg
  | detection (darkStart : Pos)
  | lightReturn (pos : Pos)
deriving DecidableEq, Repr

/-- What a Foil Drive reports of a cell's pull (R128). -/
inductive PullEvent
  | begun | notBegun | ended | stopped
deriving DecidableEq, Repr

/-- A pull report on its way to the Row Track: the row it names, the event and the foil counts (R128). -/
structure PullMsg where
  row : Nat
  event : PullEvent
  credit : Word
deriving DecidableEq, Repr

/-- A station fault raised and not yet applied (R39). -/
structure RaisedFault where
  kind : FaultKind
  lane : Option Lane
deriving DecidableEq, Repr

/-- What one block has handed another and the other has not yet taken. Each list is one path, oldest first (log 9). -/
structure Messages where
  reads : PerLane (List ReadMsg)
  strays : PerLane Nat
  skews : PerLane Nat
  cells : PerLane (List Cell)
  splices : PerLane (List SpliceMsg)
  pulls : PerLane (List PullMsg)
  faults : List RaisedFault
deriving DecidableEq, Repr

/-! ## Orders -/

/-- The origin of an order: its ring entry index or its tap number (R48). -/
inductive Origin
  | ring (entry : Nat)
  | tap (n : Nat)
deriving DecidableEq, Repr

/-- A tap order (R63): the tap, the order kind code, the lane and the tap argument. -/
structure TapOrder where
  tap : Nat
  kind : Byte
  lane : Lane
  arg : BitVec 16
deriving DecidableEq, Repr

/-- The ring entry being taken (R43): its index, its address, the bounds it belongs to, and whether its result write
has been placed. -/
structure Taking where
  entry : Nat
  addr : Nat
  gen : Nat
  writing : Bool
deriving DecidableEq, Repr

/-- The last tap result (R66). -/
structure TapResult where
  tap : Nat
  kind : Byte
  code : ResultCode
  value : Word
deriving DecidableEq, Repr

/-- The pending slots of the standing orders (R48). -/
structure Slots where
  stampOff : Option Origin
  countTarget : Option Origin
  survey : Option Origin
deriving DecidableEq, Repr

/-! ## Rows -/

/-- A row (R110). `uid` is the model's own name for the row (log 29). -/
structure Row where
  uid : Nat
  serial : Word
  nip : Pos
  decisionPoint : Held
  stage : Stage
  slot : Option Nat
  regError : Option Int
  splice : Bool
  throwAtNip : Option ThrowState
  rejectPoint : Option Held
  cells : PerLane (Option Cell)
deriving DecidableEq, Repr

/-- A splice span (R86). `uid` is the model's own name for the span. -/
structure Span where
  uid : Nat
  start : Pos
  openLanes : PerLane Bool
  endSoFar : Option Pos
deriving DecidableEq, Repr

/-- A resume position of a lane, set when a span closes (R89). -/
structure Resume where
  span : Nat
  lane : Lane
  at_ : Held
deriving DecidableEq, Repr

/-! ## Reports (R169) -/

/-- The survey figures a SURVEY report carries for one lane (R191). -/
structure SurveyFigures where
  meanPitch : Option Int
  meanSkew : Option Int
  violations : Nat
deriving DecidableEq, Repr

/-- What a LANE report names as the source of the last raise (R101). -/
inductive LaneSource
  | cell (status : ReadStatus)
  | stray
  | skew
deriving DecidableEq, Repr

/-- Why the track was abandoned (R132, R133). -/
inductive AbandonCause
  | hold | webReverse
deriving DecidableEq, Repr

/-- The completion code of a standing order (R48). -/
inductive Completion
  | done | cancelled
deriving DecidableEq, Repr

/-- The nine kinds of report with their contents. -/
inductive Report
  | row (r : Row)
  | splice (lane : Lane) (darkStart spanStart : Pos)
  | lane (lane : Lane) (web : Pos) (setPos : Nat) (source : LaneSource)
  | mode (old new : Mode) (cause : ModeCause) (web : Pos)
  | fault (kind : FaultKind) (web : Pos) (lane : Option Lane)
  | survey (outcome : SurveyOutcome) (k q counted retired : Nat) (lanes : PerLane SurveyFigures)
  | orderDone (kind : OrderKind) (origin : Origin) (completion : Completion)
  | abandon (cause : AbandonCause) (rows : Nat) (serials : Option (Word × Word))
  | gap (lost : Nat)
deriving DecidableEq, Repr

/-- The blocks that offer reports. Offers of one block reach the Report Unit in the order it made them (R169). -/
inductive Source
  | station | rowTrack | tracker (lane : Lane) | survey | orderUnit
deriving DecidableEq, Repr

/-! ## Bus -/

/-- A burst on the memory port (R2). -/
structure Burst where
  addr : Addr
  words : List WordReq
deriving DecidableEq, Repr

/-- What an own access is for; its producer follows from it (R9). `table k` is the k-th table read, `seedOrder n` and
`seedReport n` the seeding reads that begin at entry `n`. -/
inductive Purpose
  | header | table (k : Nat) | seedOrder (first : Nat) | seedReport (first : Nat)
  | entryRead | resultWrite | fill (entry : Nat) | statusWrite
deriving DecidableEq, Repr

/-- An entry of the memory access queue (R9). -/
structure OwnAccess where
  id : Nat
  purpose : Purpose
  write : Bool
  bursts : List Burst
deriving DecidableEq, Repr

/-- A processor access (R1). -/
structure Access where
  write : Bool
  addr : Addr
  words : List WordReq
deriving DecidableEq, Repr

/-- A condition of a hold set (R6). -/
inductive HoldCond
  | ownWrite (id : Nat)
  | fill (entry : Nat)
deriving DecidableEq, Repr

/-- Where the access in hand stands: held on its hold set, a contender for the port, or issued on it. -/
inductive Phase
  | held (conds : List HoldCond)
  | contender
  | issued
deriving DecidableEq, Repr

/-- An event of an observed word (R15 to R18). A configuration word keeps whether it is the commit word with its
command byte enabled and carrying 01h; whether that is a commit or an edit is judged at delivery (R16). A handoff or a
release keeps the bounds it was observed under (R23). -/
inductive WinEvent
  | config (commitPattern : Bool)
  | handoff (entry gen : Nat)
  | release (entry gen : Nat)
deriving DecidableEq, Repr

/-- An observed word's event, with the index of the word in its burst. -/
structure Observed where
  word : Nat
  event : WinEvent
deriving DecidableEq, Repr

/-- The access in hand (R1), with the events and the tap order settled for it (R4, R5). -/
structure InHand where
  acc : Access
  phase : Phase
  events : List Observed
  tap : Option TapOrder
deriving DecidableEq, Repr

/-- The answer to one word on the processor port: ready (for a read, with the bytes enabled), or an error. -/
inductive WordAnswer
  | ready (bytes : List (Option Byte))
  | error
deriving DecidableEq, Repr

/-- Who has the memory port (R2). -/
inductive Port
  | free | forwarded | own
deriving DecidableEq, Repr

/-! ## The state of each block -/

/-- The levels of the input lines. RESET_N is asserted exactly while the mode is BYPASS. -/
structure Pins where
  webA : Bool
  webB : Bool
  base : BitVec 2
  mark : PerLane Bool
  throwOk : Bool
  heatRdy : Bool
  foilbrk : PerLane Bool
deriving DecidableEq, Repr

/-- The Access Forwarder (01). -/
structure Bus where
  port : Port
  inHand : Option InHand
  queue : List OwnAccess
  passOver : Nat
  guardDrops : Word
  answer : List WordAnswer
deriving DecidableEq, Repr

/-- The Configuration Loader and the bounds it gives the Window Monitor (02 section 2.2). -/
structure Loader where
  phase : LoadPhase
  edited : Bool
  discard : Bool
  header : Option (List Word)
  tables : List Word
  loaded : Option Loaded
  confirmed : Bool
  edition : BitVec 16
  error : ErrorCode
  bounds : Option Bounds
  gen : Nat
deriving DecidableEq, Repr

/-- The fault record (R40). -/
structure FaultRecord where
  kind : FaultKind
  web : Pos
  lane : Option Lane
deriving DecidableEq, Repr

/-- The Station Controller (02 section 2.3). -/
structure Station where
  mode : Mode
  cause : ModeCause
  windDown : Bool
  countTarget : Option Nat
  record : Option FaultRecord
  secondary : Word
deriving DecidableEq, Repr

/-- The Order Unit (03). `handed` lists the entries marked HANDED, rising. -/
structure OrderUnit where
  handed : List Nat
  takeIndex : Nat
  inProgress : Option Taking
  tapQueue : List TapOrder
  slots : Slots
  refusals : Word
  tapOrders : Word
  tapLosses : Word
  lastTap : Option TapResult
deriving DecidableEq, Repr

/-- The Web Counter (04 section 4.1). -/
structure Web where
  pos : Pos
  high : Pos
  behind : Bool
deriving DecidableEq, Repr

/-- A pulse being measured: its leading edge, its candidate flag (R75), and whether the window end of the mark it may
become has been reached meanwhile (R76). -/
structure Pulse where
  lead : Pos
  candidate : Bool
  endPassed : Bool
deriving DecidableEq, Repr

/-- A read in hand (R79). -/
structure ReadInHand where
  markPos : Pos
  width : Nat
  cls : Option Nat
  unit : Nat
  trailing : Pos
  bits : BitVec 12
  nbits : Nat
  nextSample : Option Held
  stop : Held
deriving DecidableEq, Repr

/-- A Mark Reader (04 section 4.2). -/
structure Reader where
  state : ReaderState
  expected : Option Pos
  windowEnd : Option Held
  pulse : Option Pulse
  read : Option ReadInHand
  darkStart : Option Pos
  spliceAt : Option Held
  spliceOpen : Bool
deriving DecidableEq, Repr

/-- A Lane Tracker (05 section 5.2). -/
structure Tracker where
  state : LaneState
  setPos : Nat
  quality : Nat
  misses : Nat
  skip : Nat
deriving DecidableEq, Repr

/-- The Row Track (06). Rows and spans are oldest first. REJ of a lane is asserted while its reject end is present. -/
structure Track where
  rows : List Row
  splices : List Span
  resumes : List Resume
  serial : Word
  rejectEnd : PerLane (Option Held)
  lastReason : PerLane (Option Reason)
deriving DecidableEq, Repr

/-- A nip the Impression Controller holds (R137). -/
structure HeldNip where
  row : Nat
  nip : Held
deriving DecidableEq, Repr

/-- The Impression Controller (07). `trimUp` and `trimDn` count the pulses issued on the two lines. -/
structure Impression where
  throw : ThrowState
  horizon : Option Pos
  release : Option Held
  nips : List HeldNip
  slotCounter : Nat
  slotSync : Bool
  lastIndex : Option Pos
  trim : Int
  trimStopped : Bool
  lastError : Option Int
  trimUp : Nat
  trimDn : Nat
deriving DecidableEq, Repr

/-- A pull record (08 section 8.1). -/
structure PullRec where
  row : Nat
  start : Held
  ownEnd : Held
  served : Bool
  credit : Word
deriving DecidableEq, Repr

/-- A Foil Drive (08). `fstep` counts the pulses issued on the lane's FSTEP. -/
structure Foil where
  records : List PullRec
  pullEnd : Option Held
  acc : Nat
  remaining : Word
  lowArmed : Bool
  out : Bool
  brk : Bool
  fstep : Nat
deriving DecidableEq, Repr

/-- What the Survey Unit keeps for a lane (R186). -/
structure SurveyLane where
  prevMark : Option Pos
  pitchSum : Int
  skewSum : Int
  recent : List Pos
  watch : Option (Pos × Pos)
  violations : Nat
  offsets : List Int
  meanPitch : Option Int
  meanSkew : Option Int
deriving DecidableEq, Repr

/-- The Survey Unit (10). -/
structure Survey where
  running : Bool
  k : Nat
  q : Nat
  counted : Nat
  retired : Nat
  outcome : SurveyOutcome
  lanes : PerLane SurveyLane
deriving DecidableEq, Repr

/-- The fill in progress (R172): the entry, the bounds it belongs to, and the report it carries. -/
structure FillInProgress where
  entry : Nat
  gen : Nat
  report : Report
deriving DecidableEq, Repr

/-- The Report Unit (09). `released` lists the entries marked RELEASED, rising. `offers` and `statusAt` are used within
one step only: the reports offered in it and the base of a status write that a failed load asks for. -/
structure ReportUnit where
  released : List Nat
  fillIndex : Nat
  fill : Option FillInProgress
  post : List Report
  gap : Nat
  policy : Policy
  policyVariant : Nat
  followOpen : Bool
  latched : BitVec 12
  mask : BitVec 12
  dirty : Bool
  statusQueued : Bool
  updateCount : Word
  offers : List (Source × Report)
  statusAt : Option Nat
deriving DecidableEq, Repr

/-- The status block counters kept by the Row Track, the Mark Readers and the Lane Trackers (R178). -/
structure Counters where
  rowsRetired : Word
  strikeRows : Word
  rejects : PerLane Word
  skewDiscards : Word
  strays : Word
  misses : Word
  unread : Word
  resyncs : Word
deriving DecidableEq, Repr

/-- The state of the part. `uid` and `choice` are the model's own (log 29, log 7). -/
structure State where
  pending : List Instr
  mem : List Host.Cell
  pins : Pins
  bus : Bus
  loader : Loader
  station : Station
  orders : OrderUnit
  web : Web
  readers : PerLane Reader
  lanes : PerLane Tracker
  track : Track
  imp : Impression
  foil : PerLane Foil
  survey : Survey
  rep : ReportUnit
  cnt : Counters
  msgs : Messages
  uid : Nat
  choice : Nat
deriving DecidableEq, Repr

/-- There is no fault: the spec describes what every event does. -/
inductive Fault
deriving DecidableEq, Repr

/-- Why a command has no meaning. -/
inductive Refusal
  /-- Raised by an arm of `exec` whose command is not modelled; safe (the model stops). No arm raises it. -/
  | notModelled (mnemonic : String)
deriving DecidableEq, Repr

/-! ## Reset values -/

/-- R72, "After RESET_N". -/
def Reader.reset : Reader :=
  { state := .idle, expected := none, windowEnd := none, pulse := none, read := none
    darkStart := none, spliceAt := none, spliceOpen := false }

/-- R94, "After RESET_N". -/
def Tracker.reset : Tracker := { state := .off, setPos := 0, quality := 0, misses := 0, skip := 0 }

/-- R156, "After RESET_N". -/
def Foil.reset : Foil :=
  { records := [], pullEnd := none, acc := 0, remaining := 0, lowArmed := false, out := false
    brk := false, fstep := 0 }

/-- R186, the values of a lane after RESET_N. -/
def SurveyLane.reset : SurveyLane :=
  { prevMark := none, pitchSum := 0, skewSum := 0, recent := [], watch := none, violations := 0
    offsets := [], meanPitch := none, meanSkew := none }

/-- R186, "RESET_N, and after its release". -/
def Survey.reset : Survey :=
  { running := false, k := 0, q := 0, counted := 0, retired := 0, outcome := .none
    lanes := PerLane.const SurveyLane.reset }

/-- R41, "After RESET_N"; R178 for the last tap result. -/
def OrderUnit.reset : OrderUnit :=
  { handed := [], takeIndex := 0, inProgress := none, tapQueue := []
    slots := ⟨none, none, none⟩, refusals := 0, tapOrders := 0, tapLosses := 0, lastTap := none }

/-- R34, "After RESET_N". -/
def Loader.reset : Loader :=
  { phase := .idle, edited := false, discard := false, header := none, tables := [], loaded := none
    confirmed := false, edition := 0, error := .none, bounds := none, gen := 0 }

/-- R34, "After RESET_N". -/
def Station.reset : Station :=
  { mode := .unconfigured, cause := .reset, windDown := false, countTarget := none, record := none
    secondary := 0 }

/-- R112, "After RESET_N"; R178 for the last reasons. -/
def Track.reset : Track :=
  { rows := [], splices := [], resumes := [], serial := 0, rejectEnd := PerLane.const none
    lastReason := PerLane.const none }

/-- R141, R146 and R154, "After RESET_N". -/
def Impression.reset : Impression :=
  { throw := .off, horizon := none, release := none, nips := [], slotCounter := 0, slotSync := false
    lastIndex := none, trim := 0, trimStopped := false, lastError := none, trimUp := 0, trimDn := 0 }

/-- R170, R180, R183 and R184, "After RESET_N"; R179: dirty is set after RESET_N is released. -/
def ReportUnit.reset : ReportUnit :=
  { released := [], fillIndex := 0, fill := none, post := [], gap := 0, policy := .all
    policyVariant := 0, followOpen := false, latched := 0, mask := 0, dirty := true
    statusQueued := false, updateCount := 0, offers := [], statusAt := none }

/-- R178: RESET_N sets every counter to 0. -/
def Counters.reset : Counters :=
  { rowsRetired := 0, strikeRows := 0, rejects := PerLane.const 0, skewDiscards := 0, strays := 0
    misses := 0, unread := 0, resyncs := 0 }

/-- No message is on its way. -/
def Messages.empty : Messages :=
  { reads := PerLane.const [], strays := PerLane.const 0, skews := PerLane.const 0
    cells := PerLane.const [], splices := PerLane.const [], pulls := PerLane.const [], faults := [] }

/-- R8, after release: the queue empty, the pass-over count, the hold set and the guard drop count 0 or empty. -/
def Bus.reset : Bus :=
  { port := .free, inHand := none, queue := [], passOver := 0, guardDrops := 0, answer := [] }

/-- The input lines at reset. DESIGN CHOICE, log 2: the spec gives no levels; the straps read 0. Unsafe. -/
def Pins.reset : Pins :=
  { webA := false, webB := false, base := 0, mark := PerLane.const false, throwOk := false
    heatRdy := false, foilbrk := PerLane.const false }

/-- The part right after RESET_N is released (R34, R41, R67, R68, R72, R94, R112, R141, R146, R154, R156, R170, R180,
R184, R186). Memory lists nothing (log 1); the queue of commands is empty. -/
def State.reset : State :=
  { pending := [], mem := [], pins := Pins.reset, bus := Bus.reset, loader := Loader.reset
    station := Station.reset, orders := OrderUnit.reset, web := ⟨0, 0, false⟩
    readers := PerLane.const Reader.reset, lanes := PerLane.const Tracker.reset
    track := Track.reset, imp := Impression.reset, foil := PerLane.const Foil.reset
    survey := Survey.reset, rep := ReportUnit.reset, cnt := Counters.reset, msgs := Messages.empty
    uid := 0, choice := 0 }

end Sys2Proof.Machine
end

