-- ==== Sys2Proof/Machine/Ops.lean ====
section
/-! DEFINITION. The named operations over positions, memory, the memory access queue, the messages between blocks and
the station mode. Every family uses these. -/

namespace Sys2Proof.Machine

/-! ## Positions (00_scope.md "Conventions", R69) -/

/-- The signed 32-bit difference of two positions. -/
def delta (a b : Pos) : Int := (a - b).toInt

/-- `a` is after `b`: `b` is before `a`, the signed difference being positive. -/
def isAfter (a b : Pos) : Bool := decide (0 < delta a b)

/-- The later of two positions. -/
def laterPos (a b : Pos) : Pos := if isAfter a b then a else b

/-- The earlier of two positions. -/
def earlierPos (a b : Pos) : Pos := if isAfter b a then a else b

/-- R69: a position set by a block is held; one that is not after the high-water position is reached at once. -/
def hold (high p : Pos) : Held := { pos := p, reached := !isAfter p high }

/-- R69: the advance that makes the high-water position equal to a held position reaches it. -/
def Held.advance (high : Pos) (h : Held) : Held := if h.pos = high then { h with reached := true } else h

/-- A position held and reached, and not yet taken. -/
def isReached (h : Option Held) : Bool :=
  match h with
  | some x => x.reached
  | none => false

/-! ## Bytes and words (little-endian, 00_scope.md "Memory") -/

/-- Byte `k` of a word. -/
def byteOf (w : Word) (k : Nat) : Byte := BitVec.setWidth 8 (w >>> (8 * k))

/-- A word from its four bytes, the lowest address first. -/
def wordOfBytes (b0 b1 b2 b3 : Byte) : Word := b3 ++ b2 ++ b1 ++ b0

/-- A word from four byte values, the lowest address first. -/
def packBytes (b0 b1 b2 b3 : Nat) : Word :=
  wordOfBytes (BitVec.ofNat 8 b0) (BitVec.ofNat 8 b1) (BitVec.ofNat 8 b2) (BitVec.ofNat 8 b3)

/-- A word from two 16-bit values, the lowest address first. -/
def packHalves (lo hi : Nat) : Word := BitVec.ofNat 16 hi ++ BitVec.ofNat 16 lo

/-- A signed value in 32-bit two's complement (11: "Signed quantities"). -/
def signedWord (i : Int) : Word := BitVec.ofInt 32 i

/-! ## Job memory -/

/-- What a byte nothing has written reads as. DESIGN CHOICE, log 1. Unsafe. -/
def unlistedByte : Byte := 0

/-- The byte at an address. -/
def memRead (m : List Host.Cell) (a : Nat) : Byte :=
  match m with
  | [] => unlistedByte
  | (k, v) :: t => if k = a then v else memRead t a

/-- One byte written; the list keeps its canonical form. -/
def memWrite (m : List Host.Cell) (a : Nat) (b : Byte) : List Host.Cell :=
  match m with
  | [] => if b = unlistedByte then [] else [(a, b)]
  | (k, v) :: t =>
    if a < k then (if b = unlistedByte then (k, v) :: t else (a, b) :: (k, v) :: t)
    else if a = k then (if b = unlistedByte then t else (a, b) :: t)
    else (k, v) :: memWrite t a b

/-- The canonical form from an address on: strictly rising, inside job memory, no entry that reads as unlisted. -/
def memWfFrom (lo : Nat) (m : List Host.Cell) : Bool :=
  match m with
  | [] => true
  | (k, v) :: t =>
    decide (lo ≤ k) && decide (k < Config.memoryBytes) && decide (v ≠ unlistedByte) && memWfFrom (k + 1) t

/-- The canonical form of job memory. -/
def Memory.wf (m : List Host.Cell) : Bool := memWfFrom 0 m

/-- The word at a byte address of job memory. -/
def memReadWord (m : List Host.Cell) (a : Addr) : Word :=
  wordOfBytes (memRead m a.toNat) (memRead m (a + 1).toNat) (memRead m (a + 2).toNat)
    (memRead m (a + 3).toNat)

/-- The enabled bytes of a word written (R1). -/
def memWriteWord (m : List Host.Cell) (a : Addr) (r : WordReq) : List Host.Cell :=
  let m0 := if r.en.getLsbD 0 then memWrite m a.toNat (byteOf r.data 0) else m
  let m1 := if r.en.getLsbD 1 then memWrite m0 (a + 1).toNat (byteOf r.data 1) else m0
  let m2 := if r.en.getLsbD 2 then memWrite m1 (a + 2).toNat (byteOf r.data 2) else m1
  if r.en.getLsbD 3 then memWrite m2 (a + 3).toNat (byteOf r.data 3) else m2

/-- The words of a burst with their addresses, in order. Past FFFFFFh the address wraps (log 22). -/
def burstWords (addr : Addr) (words : List WordReq) : List (Addr × WordReq) :=
  match words with
  | [] => []
  | w :: t => (addr, w) :: burstWords (addr + 4) t

/-- Addressed words written in order. -/
def memWriteWords (m : List Host.Cell) (ws : List (Addr × WordReq)) : List Host.Cell :=
  match ws with
  | [] => m
  | (a, w) :: t => memWriteWords (memWriteWord m a w) t

/-- The address of the word that holds a byte address (R1: the two low bits are zero). -/
def wordAddr (a : Addr) : Addr := a - BitVec.ofNat 24 (a.toNat % 4)

/-! ## Own accesses (R2, R9) -/

/-- The words of an own access with their addresses, in the order its bursts are laid down. -/
def OwnAccess.addressed (o : OwnAccess) : List (Addr × WordReq) :=
  o.bursts.flatMap fun b => burstWords b.addr b.words

/-- R9, R11: the own access writes some word of the list of word addresses. -/
def OwnAccess.writesAny (o : OwnAccess) (addrs : List Addr) : Bool :=
  o.write && o.addressed.any fun p => p.2.en ≠ 0 && addrs.contains p.1

/-- A producer places an own access at the end of the memory access queue (R9). -/
def place (purpose : Purpose) (write : Bool) (bursts : List Burst) (s : State) : State :=
  { s with
    bus := { s.bus with queue := s.bus.queue ++ [⟨s.uid, purpose, write, bursts⟩] }
    uid := s.uid + 1 }

/-- A word request that reads a whole word. -/
def readReq : WordReq := { en := 15, data := 0 }

/-- A word request that writes a whole word. -/
def writeReq (w : Word) : WordReq := { en := 15, data := w }

/-- R22, R24: 64 words as eight bursts of 8 words, from an address on. -/
def readBursts64 (base : Nat) : List Burst :=
  (List.range 8).map fun i =>
    { addr := BitVec.ofNat 24 (base + 32 * i), words := List.replicate 8 readReq }

/-- The words an own read returns: job memory as it stands (R9). -/
def ownReadWords (m : List Host.Cell) (o : OwnAccess) : List Word :=
  o.addressed.map fun p => memReadWord m p.1

/-! ## Latches, faults, reports and marks -/

/-- The bit of an attention cause (11.4). -/
def Cause.bit : Cause → Nat
  | .fault => 0
  | .lane => 1
  | .splice => 2
  | .foilLow => 3
  | .foil => 4
  | .survey => 5
  | .order => 6
  | .loss => 7
  | .guard => 8
  | .config => 9
  | .memory => 10
  | .heat => 11

/-- The mask that names one cause. -/
def Cause.mask (c : Cause) : BitVec 12 := 1#12 <<< c.bit

/-- R183: latching a cause adds it to the latched causes. -/
def latch (c : Cause) (s : State) : State :=
  { s with rep := { s.rep with latched := s.rep.latched ||| c.mask } }

/-- R169: a block offers a report. Offers are taken at the end of the step (log 7). -/
def offer (src : Source) (r : Report) (s : State) : State :=
  { s with rep := { s.rep with offers := s.rep.offers ++ [(src, r)] } }

/-- R39: a block raises a station fault to the Station Controller. -/
def raiseFault (k : FaultKind) (lane : Option Lane) (s : State) : State :=
  { s with msgs := { s.msgs with faults := s.msgs.faults ++ [⟨k, lane⟩] } }

/-- A block marks the status block for rewriting where a rule says so without a change of a field (R179). -/
def markStatus (s : State) : State := { s with rep := { s.rep with dirty := true } }

/-- The modes HELD, WATCH, RUN and SAFE: a configuration is loaded and in force. -/
def Mode.configured : Mode → Bool
  | .held | .watch | .run | .safe => true
  | .bypass | .unconfigured | .loading => false

/-- The working modes WATCH, RUN and SAFE (R68). -/
def Mode.working : Mode → Bool
  | .watch | .run | .safe => true
  | .bypass | .unconfigured | .loading | .held => false

/-- RUN and SAFE: the modes in which an event sets a reject flag (R129). -/
def Mode.rejects : Mode → Bool
  | .run | .safe => true
  | .bypass | .unconfigured | .loading | .held | .watch => false

/-- R33: a change of mode sets the mode cause, marks the status block and offers a MODE report when the new mode is
HELD, WATCH, RUN or SAFE. -/
def setMode (new : Mode) (cause : ModeCause) (s : State) : State :=
  let t := markStatus { s with station := { s.station with mode := new, cause := cause } }
  if new.configured then offer .station (.mode s.station.mode new cause s.web.pos) t else t

/-! ## The loaded copy -/

/-- A lane is active: it is in the lane mask of the loaded copy. -/
def Header.active (h : Header) (n : Lane) : Bool := h.laneMask.getLsbD n.val

/-- The lane is active in the loaded copy, if there is one. -/
def State.laneActive (s : State) (n : Lane) : Bool :=
  match s.loader.loaded with
  | some c => c.hdr.active n
  | none => false

/-- What a step does with the loaded copy; without one there is nothing to do. -/
def withLoaded (s : State) (f : Loaded → State) : State :=
  match s.loader.loaded with
  | some c => f c
  | none => s

/-- The variant of an index, when the table holds it. -/
def Loaded.variant? (c : Loaded) (v : Nat) : Option VariantEntry := c.variants[v]?

/-- The variant index a lane's set list names at a position. -/
def Header.setAt (h : Header) (n : Lane) (p : Nat) : Option Nat := (h.setList.get n)[p]?

/-! ## Small updates of one lane -/

/-- One lane's tracker replaced. -/
def setLane (n : Lane) (t : Tracker) (s : State) : State := { s with lanes := s.lanes.set n t }

/-- One lane's reader replaced. -/
def setReader (n : Lane) (r : Reader) (s : State) : State := { s with readers := s.readers.set n r }

/-- One lane's Foil Drive replaced. -/
def setFoil (n : Lane) (f : Foil) (s : State) : State := { s with foil := s.foil.set n f }

/-- A lane of the foil has a foil fault: its fault set is not empty (08). -/
def Foil.faulty (f : Foil) : Bool := f.out || f.brk

/-- A drive has an active pull while at least one of its records is SERVED (08). -/
def Foil.activePull (f : Foil) : Bool := f.records.any (·.served)

/-- R104, R165: the lanes are down when every active lane is BLOCKED or has a foil fault. -/
def lanesDown (s : State) : Bool :=
  allLanes.all fun n =>
    !s.laneActive n || (s.lanes.get n).state == .blocked || (s.foil.get n).faulty

/-- R104, R165: the lanes-down test, made in RUN alone. -/
def testLanesDown (s : State) : State :=
  if s.station.mode = .run && lanesDown s then raiseFault .allLanesDown none s else s

/-- A read is handed to a lane's tracker (R82). -/
def handRead (n : Lane) (r : ReadMsg) (s : State) : State :=
  { s with msgs := { s.msgs with reads := s.msgs.reads.set n (s.msgs.reads.get n ++ [r]) } }

/-- A stray notice is given to a lane's tracker (R77). -/
def giveStray (n : Lane) (s : State) : State :=
  { s with msgs := { s.msgs with strays := s.msgs.strays.set n (s.msgs.strays.get n + 1) } }

/-- A skew-discard notice is given to a lane's tracker (R116). -/
def giveSkew (n : Lane) (s : State) : State :=
  { s with msgs := { s.msgs with skews := s.msgs.skews.set n (s.msgs.skews.get n + 1) } }

/-- A cell is handed to the Row Track (R109). -/
def handCell (n : Lane) (c : Cell) (s : State) : State :=
  { s with msgs := { s.msgs with cells := s.msgs.cells.set n (s.msgs.cells.get n ++ [c]) } }

/-- A reader reports to the Row Track of a splice (R85). -/
def handSplice (n : Lane) (m : SpliceMsg) (s : State) : State :=
  { s with msgs := { s.msgs with splices := s.msgs.splices.set n (s.msgs.splices.get n ++ [m]) } }

/-- A Foil Drive reports to the Row Track (R128). -/
def handPull (n : Lane) (m : PullMsg) (s : State) : State :=
  { s with msgs := { s.msgs with pulls := s.msgs.pulls.set n (s.msgs.pulls.get n ++ [m]) } }

/-- The unread count advances (R82, R109). -/
def countUnread (s : State) : State := { s with cnt := { s.cnt with unread := s.cnt.unread + 1 } }

/-- Every active lane's item of a step, in lane order. -/
def forLanes (f : Lane → State → State) (s : State) : State := f 3 (f 2 (f 1 (f 0 s)))

/-- HEAT_RDY and FOILBRK as they stand when a step is taken. A rise of HEAT_RDY and a negation of FOILBRK come with
the command that sees them; a fall of HEAT_RDY and an assertion of FOILBRK have rows of their own (log 6). -/
def sense (lv : Levels) (s : State) : State :=
  { s with pins := { s.pins with
      heatRdy := s.pins.heatRdy || lv.heat
      foilbrk := s.pins.foilbrk.mapLane fun n b => b && lv.brk.get n } }

/-- An index added to a rising list without repeats. -/
def insertIndex (n : Nat) (l : List Nat) : List Nat :=
  match l with
  | [] => [n]
  | k :: t => if n < k then n :: k :: t else if n = k then k :: t else k :: insertIndex n t

end Sys2Proof.Machine
end

