-- ==== Sys2Proof/Machine/Flags.lean ====
section
/-! DEFINITION. The lines the part drives, computed from the state that fixes them (R130, R136, R184). -/

namespace Sys2Proof.Machine

/-- R184: the mask that applies: the stored mask in HELD and the working modes, all twelve causes in UNCONFIGURED and
LOADING, none in BYPASS. -/
def State.maskInForce (s : State) : BitVec 12 :=
  match s.station.mode with
  | .held | .watch | .run | .safe => s.rep.mask
  | .unconfigured | .loading => BitVec.allOnes 12
  | .bypass => 0

/-- R184: ATTN is asserted while the latched causes and the mask that applies have a cause in common. -/
def State.attn (s : State) : Bool := decide (s.rep.latched &&& s.maskInForce ≠ 0)

/-- R136: THROW_ON is asserted in ENGAGING and ON. -/
def State.throwOn (s : State) : Bool :=
  match s.imp.throw with
  | .engaging | .on => true
  | .off | .releasing => false

/-- R130: REJ of a lane is asserted while its reject end is present. -/
def State.rej (s : State) (n : Lane) : Bool := (s.track.rejectEnd.get n).isSome

/-- R8: RESET_N is asserted exactly while the mode is BYPASS. -/
def State.resetAsserted (s : State) : Bool := s.station.mode == .bypass

/-- R143: the die is in impression when the throw state is ON, or RELEASING with THROW_OK still asserted. -/
def State.inImpression (s : State) : Bool :=
  match s.imp.throw with
  | .on => true
  | .releasing => s.pins.throwOk
  | .off | .engaging => false

end Sys2Proof.Machine
end

