-- ==== Sys2Proof/Machine/Operands.lean ====
section
/-! DEFINITION. The layouts software writes (11.1, 11.2): the configuration window, the tap and variant tables and the
order ring entry, read by R194; and the order a tap makes (R63). -/

namespace Sys2Proof.Machine

/-- The byte at a byte offset of a structure given by its words. -/
def byteAt (ws : List Word) (off : Nat) : Byte := byteOf (ws.getD (off / 4) 0) (off % 4)

/-- The number in the byte at an offset. -/
def natAt (ws : List Word) (off : Nat) : Nat := (byteAt ws off).toNat

/-- The two-byte field at an offset, least significant byte first. -/
def halfAt (ws : List Word) (off : Nat) : BitVec 16 := byteAt ws (off + 1) ++ byteAt ws off

/-- The four-byte field at an offset that is a multiple of 4. -/
def wordAt (ws : List Word) (off : Nat) : Word := ws.getD (off / 4) 0

/-- The 24-bit field at an offset: a byte address (R194: the high byte is not looked at). -/
def addrAt (ws : List Word) (off : Nat) : Addr := BitVec.setWidth 24 (wordAt ws off)

/-- The set list of lane `n`: 16 bytes at offset 128 + 16 n. -/
def setListAt (ws : List Word) (n : Nat) : List Nat :=
  (List.range 16).map fun p => natAt ws (128 + 16 * n + p)

/-- The header (11.1), each field read across its whole stored size (R194). -/
def readHeader (ws : List Word) : Header :=
  { edition := halfAt ws 2
    laneMask := byteAt ws 4
    leadLane := natAt ws 5
    codeLength := natAt ws 6
    plates := natAt ws 7
    nominalPitch := wordAt ws 8
    windowEarly := wordAt ws 12
    windowLate := wordAt ws 16
    minMarkWidth := wordAt ws 20
    sensorToNip := ⟨wordAt ws 24, wordAt ws 28, wordAt ws 32, wordAt ws 36⟩
    nipToReject := wordAt ws 40
    rejectWidth := wordAt ws 44
    skewTolerance := wordAt ws 48
    spliceDarkLength := wordAt ws 52
    spliceMarginBefore := wordAt ws 56
    spliceMarginAfter := wordAt ws 60
    flywheelLimit := natAt ws 64
    flywheelStrike := (byteAt ws 65).getLsbD 0
    setLength := natAt ws 66
    trimGain := natAt ws 67
    indexOffset := wordAt ws 68
    throwLead := wordAt ws 72
    releaseClearance := wordAt ws 76
    trimStepMax := (halfAt ws 80).toNat
    trimLimit := (halfAt ws 82).toNat
    ratioNum := (halfAt ws 84).toNat
    ratioDen := (halfAt ws 86).toNat
    foilLead := wordAt ws 88
    foilTrail := wordAt ws 92
    foilLow := wordAt ws 96
    reverseTolerance := wordAt ws 100
    orderBase := (addrAt ws 104).toNat
    orderSize := (halfAt ws 108).toNat
    reportSize := (halfAt ws 110).toNat
    reportBase := (addrAt ws 112).toNat
    statusBase := (addrAt ws 116).toNat
    attentionMask := BitVec.setWidth 12 (halfAt ws 120)
    policy := natAt ws 122
    policyVariant := natAt ws 123
    setList := ⟨setListAt ws 0, setListAt ws 1, setListAt ws 2, setListAt ws 3⟩ }

/-- The bounds of the three windows that a header gives (R14, R23). -/
def Header.bounds (h : Header) : Bounds :=
  { orderBase := h.orderBase, orderSize := h.orderSize, reportBase := h.reportBase
    reportSize := h.reportSize, statusBase := h.statusBase }

/-- Mark class entry `i`, at offset 256 + 4 i of the window; the tables begin at offset 256. -/
def readClass (tbl : List Word) (i : Nat) : ClassEntry :=
  { maxWidth := (halfAt tbl (4 * i)).toNat, unitWidth := (halfAt tbl (4 * i + 2)).toNat }

/-- R21: the N loaded entries are those before the first whose max width is 0. -/
def readClasses (tbl : List Word) : List ClassEntry :=
  ((List.range 8).map (readClass tbl)).takeWhile fun c => c.maxWidth ≠ 0

/-- Tap entry `t`, at offset 288 + 16 t of the window. Of a BYTE argument the byte number alone is kept (R194). -/
def readTap (tbl : List Word) (t : Nat) : TapEntry :=
  let o := 32 + 16 * t
  let flags := byteAt tbl (o + 12)
  let arg := halfAt tbl (o + 14)
  { enabled := flags.getLsbD 0
    wordAddr := addrAt tbl o
    addrMask := addrAt tbl (o + 4)
    pattern := wordAt tbl (o + 8)
    byteMask := BitVec.setWidth 4 (flags >>> 4)
    consume := flags.getLsbD 1
    kind := byteAt tbl (o + 13)
    lane := Fin.ofNat 4 (natAt tbl (o + 3) % 4)
    fromByte := flags.getLsbD 2
    arg := if flags.getLsbD 2 then arg &&& 3 else arg }

/-- Variant entry `v`, at offset 544 + 16 v of the window. -/
def readVariant (tbl : List Word) (v : Nat) : VariantEntry :=
  let o := 288 + 16 * v
  let flags := byteAt tbl (o + 4)
  { valid := flags.getLsbD 0
    code := BitVec.setWidth 12 (halfAt tbl o)
    codeMask := BitVec.setWidth 12 (halfAt tbl (o + 2))
    cls := natAt tbl (o + 5)
    plate := natAt tbl (o + 6)
    strike := flags.getLsbD 1
    imageOffset := halfAt tbl (o + 8)
    imageLength := halfAt tbl (o + 10) }

/-- The copy a load would make of a header and the tables (R30). -/
def readCopy (hdr tbl : List Word) : Loaded :=
  { hdr := readHeader hdr
    classes := readClasses tbl
    taps := (List.range 16).map (readTap tbl)
    variants := (List.range 32).map (readVariant tbl) }

/-! ## Orders -/

/-- The order code of a kind (11.2). -/
def OrderKind.code : OrderKind → Byte
  | .watch => 0x01
  | .run => 0x02
  | .stampOff => 0x03
  | .hold => 0x04
  | .skip => 0x05
  | .laneRestart => 0x06
  | .setPosition => 0x07
  | .trimReset => 0x08
  | .foilLoad => 0x09
  | .countTarget => 0x0A
  | .survey => 0x0B
  | .reportPolicy => 0x0C
  | .ack => 0x0D

/-- The order of a code; none for an unknown kind (11.2). -/
def OrderKind.ofCode (b : Byte) : Option OrderKind :=
  match b.toNat with
  | 1 => some .watch
  | 2 => some .run
  | 3 => some .stampOff
  | 4 => some .hold
  | 5 => some .skip
  | 6 => some .laneRestart
  | 7 => some .setPosition
  | 8 => some .trimReset
  | 9 => some .foilLoad
  | 10 => some .countTarget
  | 11 => some .survey
  | 12 => some .reportPolicy
  | 13 => some .ack
  | _ => none

/-- An order as the Order Unit judges it: its kind code, lane and arguments (03 section 3.1). -/
structure Order where
  kind : Byte
  lane : Nat
  a : BitVec 16
  b : BitVec 16
  c : Word
deriving DecidableEq, Repr

/-- The order of a ring entry given by its four words (11.2). -/
def readOrder (ws : List Word) : Order :=
  { kind := byteAt ws 1, lane := natAt ws 2, a := halfAt ws 4, b := halfAt ws 6, c := wordAt ws 8 }

/-- The order a tap order stands for (R63): the arguments by its kind, those not listed 0. -/
def TapOrder.order (t : TapOrder) : Order :=
  match OrderKind.ofCode t.kind with
  | some .skip =>
    { kind := t.kind, lane := t.lane.val, a := 1#16 <<< t.lane.val, b := t.arg, c := 0 }
  | some .setPosition | some .countTarget | some .ack | some .survey =>
    { kind := t.kind, lane := t.lane.val, a := t.arg, b := 0, c := 0 }
  | some .foilLoad =>
    { kind := t.kind, lane := t.lane.val, a := 0, b := 0, c := BitVec.setWidth 32 t.arg }
  | some .reportPolicy =>
    { kind := t.kind, lane := t.lane.val, a := BitVec.ofNat 16 (t.arg.toNat % 256)
      b := BitVec.ofNat 16 (t.arg.toNat / 256), c := 0 }
  | some .watch | some .run | some .stampOff | some .hold | some .trimReset | some .laneRestart | none =>
    { kind := t.kind, lane := t.lane.val, a := 0, b := 0, c := 0 }

/-- The active lane an order names in its lane field, if it does (R54, R55, R57). -/
def Order.activeLane (o : Order) (c : Loaded) : Option Lane :=
  allLanes.find? fun n => n.val == o.lane && c.hdr.active n

/-- The code of a report policy (11.4). -/
def Policy.code : Policy → Nat
  | .all => 0
  | .exceptions => 1
  | .follow => 2
  | .variant => 3

/-- The policy of a code; none outside the four (11.4). -/
def Policy.ofCode (n : Nat) : Option Policy :=
  match n with
  | 0 => some .all
  | 1 => some .exceptions
  | 2 => some .follow
  | 3 => some .variant
  | _ => none

/-- FOLLOW and VARIANT use the policy variant (R60). -/
def Policy.usesVariant : Policy → Bool
  | .follow | .variant => true
  | .all | .exceptions => false

/-- An index names a valid variant. -/
def Loaded.validVariant (c : Loaded) (v : Nat) : Bool :=
  match c.variants[v]? with
  | some e => e.valid
  | none => false

end Sys2Proof.Machine
end

