-- ==== Sys2Proof/Machine/Layout.lean ====
section
/-! DEFINITION. The layouts the part writes (11.3 to 11.5, R195): report entries, the status block and the words of an
order result. -/

namespace Sys2Proof.Machine

/-! ## Encodings of enumerated fields (11.4) -/

def Mode.code : Mode → Nat
  | .bypass => 0
  | .unconfigured => 1
  | .loading => 2
  | .held => 3
  | .watch => 4
  | .run => 5
  | .safe => 6

def FaultKind.code : FaultKind → Nat
  | .throwLate => 1
  | .throwLost => 2
  | .throwUncommanded => 3
  | .cylinderSlip => 4
  | .trimLimit => 5
  | .trackOverflow => 6
  | .allLanesDown => 7
  | .webReverse => 8
  | .memory => 9

def ModeCause.code : ModeCause → Nat
  | .reset => 0
  | .commit => 1
  | .loaded => 2
  | .loadFailed => 3
  | .edit => 4
  | .watchOrder => 5
  | .runOrder => 6
  | .holdOrder => 7
  | .windDown => 8
  | .fault k => 16 + k.code

def ErrorCode.code : ErrorCode → Nat
  | .none => 0
  | .statusAddress => 1
  | .windows => 2
  | .ringSize => 3
  | .lanes => 4
  | .classTable => 5
  | .codeLength => 6
  | .plates => 7
  | .variants => 8
  | .setList => 9
  | .geometry => 10
  | .trackCapacity => 11
  | .foilRatio => 12
  | .trim => 13
  | .edited => 14
  | .memory => 15

def LaneState.code : LaneState → Nat
  | .off => 0
  | .idle => 1
  | .hunt => 2
  | .locked => 3
  | .flywheel => 4
  | .blocked => 5

def ThrowState.code : ThrowState → Nat
  | .off => 0
  | .engaging => 1
  | .on => 2
  | .releasing => 3

def UnreadCause.code : UnreadCause → Nat
  | .classOverflow => 1
  | .framing => 2
  | .abort => 3
  | .cls => 4
  | .unknown => 5

/-- The read status byte of a cell slot: status in bits 0 to 3, unread cause in bits 4 to 7 (11.3). -/
def ReadStatus.byte : ReadStatus → Nat
  | .identified => 0
  | .sequence => 1
  | .hunting => 2
  | .unread c => 3 + 16 * c.code
  | .absent => 4

def MarkKind.code : MarkKind → Nat
  | .accepted => 0
  | .flywheel => 1

def Decision.code : Decision → Nat
  | .strike => 1
  | .pass => 2
  | .skip => 3

def Reason.code : Reason → Nat
  | .absent => 1
  | .watching => 2
  | .safe => 3
  | .stopped => 4
  | .splice => 5
  | .hunting => 6
  | .unread => 7
  | .predicted => 8
  | .sequence => 9
  | .noStrike => 10
  | .plate => 11
  | .heat => 12
  | .foil => 13
  | .ordered => 14
  | .strike => 15

def CellOutcome.code : CellOutcome → Nat
  | .foiled => 1
  | .embossed => 2
  | .passed => 3
  | .blind => 4
  | .missed => 5
  | .clear => 6

def PullState.code : PullState → Nat
  | .armed => 1
  | .active => 2
  | .completed => 3
  | .stopped => 4
  | .notStarted => 5

def ResultCode.code : ResultCode → Nat
  | .done => 0x00
  | .accepted => 0x01
  | .refusedKind => 0x10
  | .refusedMode => 0x11
  | .refusedArgument => 0x12
  | .refusedBusy => 0x13
  | .refusedState => 0x14
  | .refusedMemory => 0x15

/-- A refusal: every result code but DONE and ACCEPTED (R45). -/
def ResultCode.isRefusal : ResultCode → Bool
  | .done | .accepted => false
  | .refusedKind | .refusedMode | .refusedArgument | .refusedBusy | .refusedState | .refusedMemory => true

def SurveyOutcome.code : SurveyOutcome → Nat
  | .none => 0
  | .running => 1
  | .pass => 2
  | .failQuiet => 3
  | .failIncomplete => 4
  | .failSplice => 5
  | .cancelled => 6

def AbandonCause.code : AbandonCause → Nat
  | .hold => 0
  | .webReverse => 1

def Completion.code : Completion → Nat
  | .done => 0
  | .cancelled => 1

/-- The value of a field that may be absent, or the value that shows its absence. -/
def orAbsent (o : Option Nat) (absent : Nat) : Nat :=
  match o with
  | some n => n
  | none => absent

/-- A flag as a bit of weight `w`. -/
def flagBit (b : Bool) (w : Nat) : Nat := if b then w else 0

/-- A signed field that may be absent: 0 when it is (R195). -/
def signedOrZero (o : Option Int) : Word :=
  match o with
  | some i => signedWord i
  | none => 0

/-! ## Report entries (11.3) -/

/-- A cell slot: three words. -/
def cellSlot (n : Lane) (c : Cell) : List Word :=
  [ packBytes n.val (orAbsent c.variant 255) (orAbsent c.setPos 255)
      (orAbsent (c.markKind.map MarkKind.code) 255),
    packBytes c.status.byte (orAbsent (c.decision.map Decision.code) 0)
      (orAbsent (c.reason.map Reason.code) 0)
      (orAbsent (c.outcome.map CellOutcome.code) 0 + flagBit c.reject 8 + flagBit c.predicted 16
        + 32 * orAbsent (c.pull.map fun p => p.state.code) 0),
    c.foilUsed ]

/-- The cells of a row with their lanes, in ascending lane order. -/
def Row.laneCells (r : Row) : List (Lane × Cell) :=
  allLanes.filterMap fun n => (r.cells.get n).map fun c => (n, c)

/-- The row flags of a ROW report: byte 3 of word 0. -/
def Row.flags (r : Row) : Nat :=
  orAbsent r.slot 0 % 4 + flagBit r.slot.isSome 4
    + 16 * orAbsent (r.throwAtNip.map ThrowState.code) 0 + flagBit r.splice 64
    + flagBit r.regError.isSome 128

/-- The kind code of a report (11.3). -/
def Report.kindCode : Report → Nat
  | .row _ => 1
  | .splice _ _ _ => 2
  | .lane _ _ _ _ => 3
  | .mode _ _ _ _ => 4
  | .fault _ _ _ => 5
  | .survey _ _ _ _ _ _ => 6
  | .orderDone _ _ _ => 7
  | .abandon _ _ _ => 8
  | .gap _ => 9

/-- The cell count: the cell slots of a ROW report, 0 for every other kind (R169). -/
def Report.cellCount : Report → Nat
  | .row r => r.laneCells.length
  | _ => 0

/-- Word 0 of a filled entry: owner 1, the kind, the cell count and the row flags. -/
def Report.word0 (r : Report) : Word :=
  packBytes 1 r.kindCode r.cellCount (match r with | .row x => x.flags | _ => 0)

/-- Bit `n` for each lane whose item is present, from weight `w` on. -/
def presence (p : PerLane Bool) (w : Nat) : Nat :=
  flagBit p.l0 w + flagBit p.l1 (2 * w) + flagBit p.l2 (4 * w) + flagBit p.l3 (8 * w)

/-- The source byte and the status byte of a LANE report. -/
def LaneSource.bytes : LaneSource → Nat × Nat
  | .cell status => (0, status.byte)
  | .stray => (1, 0)
  | .skew => (2, 0)

/-- The words a kind uses from word 1 on; those it does not use are written 0 (R195). -/
def Report.body : Report → List Word
  | .row r =>
    [r.serial, r.nip, signedOrZero r.regError] ++ r.laneCells.flatMap fun p => cellSlot p.1 p.2
  | .splice n dark start => [packBytes n.val 0 0 0, dark, start]
  | .lane n web pos src => [packBytes n.val pos src.bytes.1 src.bytes.2, web]
  | .mode old new cause web => [packBytes old.code new.code cause.code 0, web]
  | .fault k web n => [packBytes k.code (orAbsent (n.map Fin.val) 255) 0 0, web]
  | .survey o k q counted retired f =>
    [ packBytes o.code k (q % 256) (q / 256), packHalves counted retired,
      signedOrZero f.l0.meanPitch, signedOrZero f.l1.meanPitch, signedOrZero f.l2.meanPitch,
      signedOrZero f.l3.meanPitch,
      signedOrZero f.l0.meanSkew, signedOrZero f.l1.meanSkew, signedOrZero f.l2.meanSkew,
      signedOrZero f.l3.meanSkew,
      packHalves f.l0.violations f.l1.violations, packHalves f.l2.violations f.l3.violations,
      packBytes (presence (f.map fun x => x.meanPitch.isSome) 1
        + presence (f.map fun x => x.meanSkew.isSome) 16) 0 0 0 ]
  | .orderDone k origin c =>
    match origin with
    | .ring e => [packBytes k.code.toNat 0 e c.code]
    | .tap n => [packBytes k.code.toNat 1 n c.code]
  | .abandon c rows serials =>
    match serials with
    | some (oldest, newest) => [packBytes c.code rows 1 0, oldest, newest]
    | none => [packBytes c.code rows 0 0, 0, 0]
  | .gap lost => [BitVec.ofNat 32 lost]

/-- Words 1 to 15 of a filled entry. -/
def Report.words (r : Report) : List Word := (r.body ++ List.replicate 15 0).take 15

/-- R2: a report fill writes words 1 to 15 and then word 0, in bursts of 1, 2, 4, 8 and 1 words. -/
def fillBursts (base : Nat) (r : Report) : List Burst :=
  let w := r.words.map writeReq
  [ { addr := BitVec.ofNat 24 (base + 4), words := w.take 1 },
    { addr := BitVec.ofNat 24 (base + 8), words := (w.drop 1).take 2 },
    { addr := BitVec.ofNat 24 (base + 16), words := (w.drop 3).take 4 },
    { addr := BitVec.ofNat 24 (base + 32), words := (w.drop 7).take 8 },
    { addr := BitVec.ofNat 24 base, words := [writeReq r.word0] } ]

/-! ## The order result (R45, 11.2) -/

/-- The result write: words 0 to 3 with byte 3 of word 0 and all of word 3, then word 0 with its state byte. -/
def resultBursts (base : Nat) (code : ResultCode) (value : Word) : List Burst :=
  [ { addr := BitVec.ofNat 24 base
      words := [⟨8, packBytes 0 0 0 code.code⟩, ⟨0, 0⟩, ⟨0, 0⟩, writeReq value] },
    { addr := BitVec.ofNat 24 base
      words := [⟨1, packBytes (if code.isRefusal then 3 else 2) 0 0 0⟩] } ]

/-! ## The status block (11.5) -/

/-- A violation offset as a signed 16-bit number, held at the ends of the range (R195). -/
def offset16 (i : Int) : Nat :=
  (BitVec.ofInt 16 (if i < -32768 then -32768 else if 32767 < i then 32767 else i)).toNat

/-- The two words of a lane's violation offsets. -/
def offsetWords (l : List Int) : List Word :=
  [ packHalves (offset16 (l.getD 0 0)) (offset16 (l.getD 1 0)),
    packHalves (offset16 (l.getD 2 0)) (offset16 (l.getD 3 0)) ]

/-- The three words of a lane. -/
def laneWords (s : State) (n : Lane) : List Word :=
  let t := s.lanes.get n
  let f := s.foil.get n
  [ packBytes t.state.code t.setPos t.quality t.skip,
    f.remaining,
    packBytes (flagBit f.out 1 + flagBit f.brk 2)
      (orAbsent ((s.track.lastReason.get n).map Reason.code) 0) 0 0 ]

/-- Words 35 and 36: the fault record. -/
def recordWords (r : Option FaultRecord) : List Word :=
  match r with
  | some x => [packBytes x.kind.code (orAbsent (x.lane.map Fin.val) 255) 0 0, x.web]
  | none => [packBytes 0 255 0 0, 0]

/-- Words 38 and 39: the last tap result. -/
def tapWords (t : Option TapResult) : List Word :=
  match t with
  | some x => [packBytes x.tap x.kind.toNat x.code.code 0, x.value]
  | none => [packBytes 255 0 0 0, 0]

/-- Words 40 to 60: the survey results. -/
def surveyWords (v : Survey) : List Word :=
  let l := v.lanes
  [ packBytes v.outcome.code v.k (v.q % 256) (v.q / 256), packHalves v.counted v.retired,
    signedOrZero l.l0.meanPitch, signedOrZero l.l1.meanPitch, signedOrZero l.l2.meanPitch,
    signedOrZero l.l3.meanPitch,
    signedOrZero l.l0.meanSkew, signedOrZero l.l1.meanSkew, signedOrZero l.l2.meanSkew,
    signedOrZero l.l3.meanSkew,
    packHalves l.l0.violations l.l1.violations, packHalves l.l2.violations l.l3.violations ]
    ++ offsetWords l.l0.offsets ++ offsetWords l.l1.offsets ++ offsetWords l.l2.offsets
    ++ offsetWords l.l3.offsets
    ++ [ packBytes (presence (l.map fun x => x.meanPitch.isSome) 1
          + presence (l.map fun x => x.meanSkew.isSome) 16) 0 0 0 ]

/-- The words between the head and the tail count, 1 to 62. -/
def statusBody (s : State) : List Word :=
  [ packBytes s.station.mode.code s.station.cause.code s.loader.error.code
      (flagBit s.loader.confirmed 1 + flagBit s.imp.slotSync 2 + flagBit s.imp.lastError.isSome 4),
    packBytes (s.loader.edition.toNat % 256) (s.loader.edition.toNat / 256) s.orders.takeIndex
      s.track.rows.length,
    packBytes (s.rep.fillIndex % 256) (s.rep.fillIndex / 256) s.imp.slotCounter s.imp.throw.code,
    packHalves s.rep.latched.toNat s.rep.mask.toNat,
    s.web.pos,
    signedWord s.imp.trim,
    signedOrZero s.imp.lastError ]
    ++ laneWords s 0 ++ laneWords s 1 ++ laneWords s 2 ++ laneWords s 3
    ++ [ s.cnt.rowsRetired, s.cnt.strikeRows, s.cnt.rejects.l0, s.cnt.rejects.l1, s.cnt.rejects.l2,
         s.cnt.rejects.l3, s.cnt.strays, s.cnt.misses, s.cnt.unread, s.cnt.skewDiscards,
         s.cnt.resyncs, s.bus.guardDrops, s.orders.tapOrders, s.orders.tapLosses,
         s.orders.refusals ]
    ++ recordWords s.station.record ++ [s.station.secondary] ++ tapWords s.orders.lastTap
    ++ surveyWords s.survey ++ [0, 0]

/-- The 64 words of the status block with an update count as head and tail count. -/
def statusWords (s : State) (count : Word) : List Word := count :: statusBody s ++ [count]

/-- R179: the fields that mark the block when they change. The web position, and foil remaining, do not. -/
def markedFields (s : State) : List Word :=
  statusBody
    { s with
      web := { s.web with pos := 0 }
      foil := s.foil.map fun f => { f with remaining := 0 } }

/-- R180: 64 words as eight bursts of 8 words in ascending address order. -/
def statusBursts (base : Nat) (ws : List Word) : List Burst :=
  (List.range 8).map fun i =>
    { addr := BitVec.ofNat 24 (base + 32 * i), words := ((ws.drop (8 * i)).take 8).map writeReq }

end Sys2Proof.Machine
end

