-- ==== Sys2Proof/Machine/Reports.lean ====
section
/-! DEFINITION. The Report Unit (09): the policy filter, the post queue, fills, the GAP report, status-block writes, and
what ends every step. -/

namespace Sys2Proof.Machine

/-! ## The policy filter (R176, R177) -/

/-- The lead cell of a row: its lead lane's cell. -/
def Row.leadCell (c : Loaded) (r : Row) : Option Cell :=
  (allLanes.find? fun n => n.val == c.hdr.leadLane).bind fun n => r.cells.get n

/-- The variant a lead cell carries: read status IDENTIFIED, predicted or not, or SEQUENCE (R176). -/
def carriedVariant (c : Option Cell) : Option Nat :=
  match c with
  | some x =>
    match x.status with
    | .identified | .sequence => x.variant
    | .hunting | .unread _ | .absent => none
  | none => none

/-- A cell of the row has its reject flag set. -/
def Row.anyReject (r : Row) : Bool := r.laneCells.any fun p => p.2.reject

/-- An outcome that EXCEPTIONS passes over: FOILED, EMBOSSED or PASSED. -/
def cleanOutcome (o : Option CellOutcome) : Bool :=
  o == some .foiled || o == some .embossed || o == some .passed

/-- R177: the follow state after a row is taken under FOLLOW. -/
def followAfter (policyVariant : Nat) (openNow : Bool) (carried : Option Nat) : Bool :=
  match carried with
  | some v => v == policyVariant
  | none => openNow

/-- R177: the Report Unit updates the follow state at each ROW report offered to it under FOLLOW. -/
def takeFollow (r : Row) (s : State) : State :=
  match s.loader.loaded with
  | some c =>
    if s.rep.policy = .follow then
      { s with rep := { s.rep with
          followOpen := followAfter s.rep.policyVariant s.rep.followOpen (carriedVariant (r.leadCell c)) } }
    else s
  | none => s

/-- R176: the policy offers the row. -/
def policyOffers (r : Row) (s : State) : Bool :=
  r.anyReject ||
    match s.rep.policy with
    | .all => true
    | .exceptions => r.laneCells.any fun p => !cleanOutcome p.2.outcome
    | .follow => s.rep.followOpen
    | .variant =>
      match s.loader.loaded with
      | some c => carriedVariant (r.leadCell c) == some s.rep.policyVariant
      | none => false

/-! ## Fills (R172 to R175) -/

/-- R172: a fill can be placed: HELD or a working mode, no load, no fill in progress, and the entry at the fill index
released. -/
def canFill (s : State) : Bool :=
  s.station.mode.configured && s.loader.phase == .idle && s.rep.fill.isNone
    && s.rep.released.contains s.rep.fillIndex && s.loader.bounds.isSome

/-- R172: the fill of the entry at the fill index is placed. -/
def placeFill (r : Report) (s : State) : State :=
  match s.loader.bounds with
  | some b =>
    let t := place (.fill s.rep.fillIndex) true (fillBursts (b.reportBase + 64 * s.rep.fillIndex) r) s
    { t with rep := { t.rep with fill := some ⟨s.rep.fillIndex, s.loader.gen, r⟩ } }
  | none => s

/-- R172, R175: the test for a fill: a GAP report when the gap count is above 0, otherwise the oldest report of the post
queue. -/
def testFill (s : State) : State :=
  match s.rep.post with
  | [] => s
  | r :: rest =>
    if canFill s then
      if 0 < s.rep.gap then
        placeFill (.gap s.rep.gap) { s with rep := { s.rep with gap := 0 } }
      else placeFill r { s with rep := { s.rep with post := rest } }
    else s

/-- R174: a report enters the post queue, or is lost when the queue holds 8: the gap count advances, holding at its
largest value, and LOSS is latched. -/
def enqueueReport (r : Report) (s : State) : State :=
  if s.rep.post.length < Config.postQueueCapacity then
    { s with rep := { s.rep with post := s.rep.post ++ [r] } }
  else
    latch .loss { s with rep := { s.rep with
      gap := if s.rep.gap < Config.gapMax then s.rep.gap + 1 else s.rep.gap } }

/-- R172, R174, R175: an offered report goes straight to a fill when the queue is empty, no loss is counted and a fill
can be placed; otherwise it enters the queue or is lost, and the fill is tested. -/
def takeReport (r : Report) (s : State) : State :=
  if s.rep.post.isEmpty && s.rep.gap == 0 && canFill s then placeFill r s
  else testFill (enqueueReport r s)

/-- R176: an offer reaches the Report Unit; ROW reports pass the policy filter. -/
def takeOffer (r : Report) (s : State) : State :=
  match r with
  | .row x =>
    let t := takeFollow x s
    if policyOffers x t then takeReport r t else t
  | _ => takeReport r s

/-! ## The order of offers made in one step (R169, log 7) -/

/-- The blocks that have an offer waiting, each once. -/
def offerSources (l : List (Source × Report)) : List Source := (l.map Prod.fst).eraseDups

/-- The oldest offer of a block taken out of the list. -/
def takeFirstOf (src : Source) (l : List (Source × Report)) : Option Report × List (Source × Report) :=
  match l with
  | [] => (none, [])
  | (x, r) :: t =>
    if x = src then (some r, t)
    else
      let (o, rest) := takeFirstOf src t
      (o, (x, r) :: rest)

/-- The offers of one step in the order they are taken: offers of one block keep their order; among blocks the choice is
free. `fuel` is the number of offers; the second result is the number of choices used. -/
def mergeOffers (fuel : Nat) (seed : Nat) (l : List (Source × Report)) : List Report × Nat :=
  match fuel with
  | 0 => ([], 0)
  | fuel + 1 =>
    let srcs := offerSources l
    match srcs with
    | [] => ([], 0)
    | [_] => (l.map Prod.snd, 0)
    | first :: _ :: _ =>
      let src := srcs.getD (Config.pick seed % srcs.length) first
      match takeFirstOf src l with
      | (some r, rest) =>
        let (more, used) := mergeOffers fuel (seed + 1) rest
        (r :: more, used + 1)
      | (none, _) => ([], 0)

/-- Reports taken one after another. -/
def takeOffers (l : List Report) (s : State) : State :=
  match l with
  | [] => s
  | r :: t => takeOffers t (takeOffer r s)

/-- The reports offered so far in the step reach the Report Unit. The test for a fill that a release or the end of a fill
asks for goes before them (R171, R172). -/
def flushOffers (s : State) : State :=
  let m := mergeOffers s.rep.offers.length s.choice s.rep.offers
  takeOffers m.1
    (testFill { s with rep := { s.rep with offers := [] }, choice := s.choice + m.2 })

/-! ## Status-block writes (R180, R181) -/

/-- R180: the status-block write is queued at a base: the update count advances and the fields are taken. -/
def queueStatus (base : Nat) (s : State) : State :=
  let count := s.rep.updateCount + 1
  let t := place .statusWrite true (statusBursts base (statusWords s count)) s
  { t with rep := { t.rep with updateCount := count, dirty := false, statusQueued := true } }

/-- R180: the conditions for a status-block write, at the base of the loaded copy; R181: the one write of a failed
load, at the base that load read. -/
def testStatus (s : State) : State :=
  match s.rep.statusAt with
  | some base =>
    let t := { s with rep := { s.rep with statusAt := none } }
    if s.rep.statusQueued then t else queueStatus base t
  | none =>
    match s.loader.loaded with
    | some c =>
      if s.rep.dirty && !s.rep.statusQueued && s.station.mode.configured && s.loader.phase == .idle
      then queueStatus c.hdr.statusBase s
      else s
    | none => s

/-- R179: a change of a field of the block since the state `old` marks it. -/
def markChanges (old s : State) : State :=
  if markedFields old = markedFields s then s else markStatus s

/-- What the Report Unit does at the end of a step that began in `old`: it tests for a fill, takes the offers, marks the
changes and tests for a status-block write. A loss among the offers is so latched after whatever the step did before, an ACK
included (log 56). -/
def reportWork (old s : State) : State := testStatus (markChanges old (flushOffers s))

/-- Every command ends so. Only the Report Unit's state, the memory access queue and the model's own counters change. -/
def finish (old s : State) : State :=
  let t := reportWork old s
  { s with rep := t.rep, bus := t.bus, uid := t.uid, choice := t.choice }

end Sys2Proof.Machine
end

