-- ==== Sys2Proof/Machine/Station.lean ====
section
/-! DEFINITION. Shared operations of the Station Controller and of what it directs (02 section 2.3): standing orders,
wind-down, the throw release, stopping pulls, ending a survey, emptying the track, and the lane and reader values of each
change of mode. -/

namespace Sys2Proof.Machine

/-! ## Standing orders (R48) -/

/-- The slot of a standing kind. -/
def Slots.get (k : OrderKind) (s : Slots) : Option Origin :=
  match k with
  | .stampOff => s.stampOff
  | .countTarget => s.countTarget
  | .survey => s.survey
  | .watch | .run | .hold | .skip | .laneRestart | .setPosition | .trimReset | .foilLoad
  | .reportPolicy | .ack => none

/-- The slot of a standing kind filled or emptied. -/
def Slots.put (k : OrderKind) (o : Option Origin) (s : Slots) : Slots :=
  match k with
  | .stampOff => { s with stampOff := o }
  | .countTarget => { s with countTarget := o }
  | .survey => { s with survey := o }
  | .watch | .run | .hold | .skip | .laneRestart | .setPosition | .trimReset | .foilLoad
  | .reportPolicy | .ack => s

/-- An accepted standing order fills its slot with its origin. -/
def fillSlot (k : OrderKind) (o : Origin) (s : State) : State :=
  { s with orders := { s.orders with slots := s.orders.slots.put k (some o) } }

/-- R48: a pending standing order completes: its slot is emptied, an ORDER_DONE report is offered and ORDER is latched.
With no order pending nothing completes. -/
def completeStanding (k : OrderKind) (c : Completion) (s : State) : State :=
  match s.orders.slots.get k with
  | some origin =>
    latch .order (offer .orderUnit (.orderDone k origin c)
      { s with orders := { s.orders with slots := s.orders.slots.put k none } })
  | none => s

/-- The count target is removed and its COUNT_TARGET completes with a code. -/
def removeTarget (c : Completion) (s : State) : State :=
  completeStanding .countTarget c { s with station := { s.station with countTarget := none } }

/-! ## Wind-down (R37) -/

/-- No Foil Drive has an active pull. -/
def noActivePull (s : State) : Bool := allLanes.all fun n => !(s.foil.get n).activePull

/-- R37: in RUN with wind-down set, the wind-down is complete when the throw is OFF and no pull is active. -/
def windDownDone (s : State) : Bool :=
  s.station.mode == .run && s.station.windDown && s.imp.throw == .off && noActivePull s

/-- R37: the Station Controller tests the wind-down, and on completion takes the four steps: WATCH with cause WIND_DOWN,
wind-down cleared, STAMP_OFF DONE, a count target still present removed and CANCELLED. -/
def testWindDown (s : State) : State :=
  if windDownDone s then
    let s1 := setMode .watch .windDown s
    let s2 := { s1 with station := { s1.station with windDown := false } }
    let s3 := completeStanding .stampOff .done s2
    match s3.station.countTarget with
    | some _ => removeTarget .cancelled s3
    | none => s3
  else s

/-- Wind-down is set, and tested at once (R37). -/
def setWindDown (s : State) : State :=
  testWindDown { s with station := { s.station with windDown := true } }

/-! ## The throw (R136, R141) -/

/-- R136: THROW_ON is negated: the state becomes RELEASING when THROW_OK is asserted and OFF when it is not; strike
horizon and release point become absent. An entry to OFF is reported to the Station Controller. -/
def negateThrow (s : State) : State :=
  let t := { s with imp := { s.imp with
    throw := if s.pins.throwOk then .releasing else .off, horizon := none, release := none } }
  if s.pins.throwOk then t else testWindDown t

/-- R141: the Station Controller directs a release: from ENGAGING or ON, THROW_ON is negated at once; from OFF or
RELEASING nothing changes. -/
def releaseThrow (s : State) : State :=
  if s.throwOn then negateThrow s else s

/-- The held nips are given up (R141). -/
def dropNips (s : State) : State := { s with imp := { s.imp with nips := [] } }

/-! ## Stopping a pull (R162) -/

/-- The reports of a list of records, oldest first. -/
def reportRecords (n : Lane) (e : PullEvent) (l : List PullRec) (s : State) : State :=
  match l with
  | [] => s
  | r :: t => reportRecords n e t (handPull n ⟨r.row, e, r.credit⟩ s)

/-- R162: every SERVED record leaves the list and is reported stopped with its credit; the pull end becomes absent and
the accumulator is discarded; the Station Controller is told and the status block is marked. A stop with no active pull
changes nothing. -/
def stopPull (n : Lane) (s : State) : State :=
  let f := s.foil.get n
  if f.activePull then
    let s1 := reportRecords n .stopped (f.records.filter (·.served)) s
    let s2 := setFoil n { f with records := f.records.filter (!·.served), pullEnd := none, acc := 0 } s1
    testWindDown (markStatus s2)
  else s

/-- R156: a fault applied in RUN stops the pull; the pull end is absent and the accumulator 0 with no active pull too. -/
def haltPull (n : Lane) (s : State) : State :=
  let t := stopPull n s
  setFoil n { t.foil.get n with pullEnd := none, acc := 0 } t

/-- R156: HOLD and WEB_REVERSE also remove the ARMED records; they report nothing. -/
def clearPulls (n : Lane) (s : State) : State :=
  let t := stopPull n s
  setFoil n { t.foil.get n with records := [], pullEnd := none, acc := 0 } t

/-! ## The survey (R191, R192) -/

/-- R186: the figures of a SURVEY report. -/
def SurveyLane.figures (l : SurveyLane) : SurveyFigures :=
  { meanPitch := l.meanPitch, meanSkew := l.meanSkew, violations := l.violations }

/-- R191: a lane at the end of a survey: the means of a PASS, computed with floor; recent edges and quiet watch gone. -/
def endLane (c : Loaded) (pass : Bool) (len : Nat) (n : Lane) (l : SurveyLane) : SurveyLane :=
  { l with
    meanPitch := if pass && c.hdr.active n then some (Int.fdiv l.pitchSum len) else none
    meanSkew :=
      if pass && c.hdr.active n && n.val != c.hdr.leadLane then some (Int.fdiv l.skewSum len) else none
    recent := []
    watch := none }

/-- The completion code that the outcome of a survey gives its order (R191). -/
def SurveyOutcome.completion : SurveyOutcome → Completion
  | .cancelled => .cancelled
  | .none | .running | .pass | .failQuiet | .failIncomplete | .failSplice => .done

/-- R191: a survey ends with an outcome. -/
def endSurvey (o : SurveyOutcome) (s : State) : State :=
  withLoaded s fun c =>
    let v := s.survey
    let lanes := v.lanes.mapLane (endLane c (o == .pass) (2 ^ v.k))
    let v' := { v with running := false, outcome := o, lanes := lanes }
    let s1 := { s with survey := v' }
    let s2 := offer .survey (.survey o v.k v.q v.counted v.retired (lanes.map SurveyLane.figures)) s1
    completeStanding .survey o.completion (latch .survey s2)

/-- R192: an event that ends a running survey; with none running it does nothing to the survey. -/
def endRunningSurvey (o : SurveyOutcome) (s : State) : State :=
  if s.survey.running then endSurvey o s else s

/-! ## Emptying the track (R132, R133) -/

/-- The serials of the oldest and newest rows. -/
def endSerials (rows : List Row) : Option (Word × Word) :=
  match rows with
  | [] => none
  | r :: _ => some (r.serial, (rows.getLastD r).serial)

/-- R132, R133: the track and the splice list are emptied with every position held for them, and one ABANDON report is
offered. -/
def abandonTrack (cause : AbandonCause) (s : State) : State :=
  offer .rowTrack (.abandon cause s.track.rows.length (endSerials s.track.rows))
    { s with track := { s.track with rows := [], splices := [], resumes := [] } }

/-! ## Lanes and readers (R72, R94, R105) -/

/-- R105: on entry to HUNT the consecutive-miss count becomes 0 and the set position is kept; here with quality 0, as for
LANE_RESTART. The skip counter is kept. -/
def Tracker.hunt (t : Tracker) : Tracker := { t with state := .hunt, quality := 0, misses := 0 }

/-- R94, R105: each active lane goes to HUNT with quality 0 and skip counter 0 (WATCH entry). -/
def lanesToHunt (s : State) : State :=
  { s with lanes := s.lanes.mapLane fun n t =>
      if s.laneActive n then { t.hunt with skip := 0 } else t }

/-- R94: each active lane goes to HUNT at WEB_REVERSE, its skip counter kept. -/
def lanesToHuntReverse (s : State) : State :=
  { s with lanes := s.lanes.mapLane fun n t => if s.laneActive n then t.hunt else t }

/-- R94: the lane values of a load or HOLD: IDLE on an active lane and OFF on another, all else 0. -/
def lanesIdle (s : State) : State :=
  { s with lanes := s.lanes.mapLane fun n _ =>
      if s.laneActive n then { Tracker.reset with state := .idle } else Tracker.reset }

/-- R94: every lane takes the values of RESET_N (a failed load, an edit in HELD). -/
def lanesOff (s : State) : State := { s with lanes := PerLane.const Tracker.reset }

/-- R72: every reader enters IDLE and abandons what it held. -/
def readersIdle (s : State) : State := { s with readers := PerLane.const Reader.reset }

/-- R72: the reader of each active lane, leaving IDLE, enters SEEK with every other item at its reset value. -/
def readersSeek (s : State) : State :=
  { s with readers := s.readers.mapLane fun n r =>
      if s.laneActive n then { Reader.reset with state := .seek } else r }

/-- R68: the high-water position takes the web position and the reverse state becomes CLEAR. -/
def setHighWater (s : State) : State := { s with web := { s.web with high := s.web.pos, behind := false } }

/-! ## Losing the configuration (R31, R32) -/

/-- R47: the tap order queue is emptied, each order counted as lost. -/
def dropTaps (s : State) : State :=
  { s with orders := { s.orders with
      tapQueue := []
      tapLosses := s.orders.tapLosses + BitVec.ofNat 32 s.orders.tapQueue.length } }

/-- What a failed load and an edit in HELD have in common: the loaded copy is removed, the three windows are no longer
decoded, the maps, the post queue and the gap count are emptied (R41, R170), the lanes are OFF (R94), the track is empty
(R112), the pulls and the held nips are gone and the slot count starts over (R141, R146, R156), and CONFIG is latched. -/
def loseConfiguration (code : ErrorCode) (cause : ModeCause) (s : State) : State :=
  let s1 := dropTaps (setMode .unconfigured cause s)
  let s2 := latch .config
    { s1 with
      loader := { s1.loader with
        phase := .idle, header := none, tables := [], loaded := none, confirmed := false
        error := code, bounds := none }
      orders := { s1.orders with handed := [], takeIndex := 0 }
      rep := { s1.rep with released := [], fillIndex := 0, post := [], gap := 0 }
      track := { s1.track with
        rows := [], splices := [], resumes := [], rejectEnd := PerLane.const none }
      imp := { s1.imp with
        throw := if s1.throwOn then (if s1.pins.throwOk then .releasing else .off) else s1.imp.throw
        horizon := none, release := none, nips := [], slotCounter := 0, slotSync := false
        lastIndex := none }
      foil := s1.foil.map fun f => { f with records := [], pullEnd := none, acc := 0 } }
  readersIdle (lanesOff s2)

/-- R32: an edit in HELD, or an entry to HELD with confirmed clear. Reports already offered reach the Report Unit first
(log 26), the fill they place standing before the result write of a HOLD from the ring (log 8), and no status-block write is
queued for a HELD left in the same step (log 55). -/
def editInHeld (s : State) : State := loseConfiguration .edited .edit (flushOffers s)

/-! ## The fault record (R40) -/

/-- R40: an applied fault fills an empty record or advances the secondary-fault count. -/
def recordFault (k : FaultKind) (lane : Option Lane) (s : State) : State :=
  match s.station.record with
  | none => { s with station := { s.station with record := some ⟨k, s.web.pos, lane⟩ } }
  | some _ => { s with station := { s.station with secondary := s.station.secondary + 1 } }

end Sys2Proof.Machine
end

