-- ==== Sys2Proof/Machine/FoilDrive.lean ====
section
/-! DEFINITION. The Foil Drives (08): pull records, beginning, merging, stepping, ending and stopping pulls, foil
remaining, and the foil faults. -/

namespace Sys2Proof.Machine

/-! ## Foil faults and the low threshold (R163, R164, R167) -/

/-- R163: OUT is added; when it was not present FOIL is latched and the lanes-down test is made. -/
def addOut (n : Lane) (s : State) : State :=
  let f := s.foil.get n
  if f.out then s else testLanesDown (latch .foil (setFoil n { f with out := true } s))

/-- R163: a lane runs out: OUT is added, the active pull is stopped and FOIL is latched. The lanes are tested by
`testRunOut`. -/
def runOut (n : Lane) (s : State) : State :=
  let f := s.foil.get n
  let s1 := stopPull n (setFoil n { f with out := true } s)
  if f.out then s1 else latch .foil s1

/-- R163, R165: the lanes-down test of a lane that ran out since the state `old`, made when the mode was RUN there. Lanes
that run out together are each tested with the faults of all. -/
def testRunOut (old : State) (n : Lane) (s : State) : State :=
  if old.station.mode = .run && !(old.foil.get n).out && (s.foil.get n).out && lanesDown s then
    raiseFault .allLanesDown none s
  else s

/-- R164: BREAK is added, an active pull is stopped, FOIL is latched, and the lanes are tested when BREAK was not already
present. The test reads the mode at the addition (R165), which the stop can end. -/
def addBreak (n : Lane) (s : State) : State :=
  let f := s.foil.get n
  let s1 := setFoil n { f with brk := true } s
  latch .foil (stopPull n (if f.brk then s1 else testLanesDown s1))

/-- R167: the low threshold is tested: below it while low armed, FOIL_LOW is latched and low armed cleared. -/
def testLow (c : Loaded) (n : Lane) (s : State) : State :=
  let f := s.foil.get n
  if f.lowArmed && decide (f.remaining.toNat < c.hdr.foilLow.toNat) then
    latch .foilLow (setFoil n { f with lowArmed := false } s)
  else s

/-! ## Geared stepping (R158) -/

/-- One foil count credited to the SERVED record latest in the list whose own end the web has not reached. Latest in
the list is taken by place, as R158 says, and not by the time of merging (log 47). The Bool says whether a record was
found. -/
def creditLast (l : List PullRec) : List PullRec × Bool :=
  match l with
  | [] => ([], false)
  | r :: t =>
    let (t', found) := creditLast t
    if found then (r :: t', true)
    else if r.served && !r.ownEnd.reached then ({ r with credit := r.credit + 1 } :: t', true)
    else (r :: t', false)

/-- One step: a pulse on FSTEP, the denominator subtracted, foil remaining lowered by one, the credited record's credit
raised by one. -/
def Foil.stepOnce (den : Nat) (f : Foil) : Foil :=
  { f with
    records := (creditLast f.records).1
    acc := f.acc - den
    remaining := f.remaining - 1
    fstep := f.fstep + 1 }

/-- R158: steps while the accumulator is at least the denominator; a step that leaves foil remaining at 0 stops the pull
with OUT and the steps still due are not issued. `fuel` bounds the number of steps. -/
def stepLoop (c : Loaded) (n : Lane) (fuel : Nat) (s : State) : State :=
  match fuel with
  | 0 => s
  | fuel + 1 =>
    let f := s.foil.get n
    if decide (c.hdr.ratioDen ≤ f.acc) && f.remaining ≠ 0 then
      let s1 := testLow c n (setFoil n (f.stepOnce c.hdr.ratioDen) s)
      if f.remaining = 1 then runOut n s1 else stepLoop c n fuel s1
    else s

/-- R158, R159: an advance of the web is added to the active pull of a lane, unless the web has already reached its
end. -/
def foilAdvance (c : Loaded) (n : Lane) (s : State) : State :=
  let f := s.foil.get n
  if f.activePull && !isReached f.pullEnd then
    let acc := f.acc + c.hdr.ratioNum
    stepLoop c n (acc / c.hdr.ratioDen) (setFoil n { f with acc := acc } s)
  else s

/-! ## Beginning a pull (R157, R160) -/

/-- The ARMED record of a row leaves the list. -/
def dropArmed (row : Nat) (l : List PullRec) : List PullRec :=
  l.filter fun r => r.served || r.row != row

/-- The ARMED record of a row becomes SERVED, its own pull end held. -/
def serve (high : Pos) (row : Nat) (l : List PullRec) : List PullRec :=
  l.map fun r =>
    if !r.served && r.row == row then { r with served := true, ownEnd := hold high r.ownEnd.pos } else r

/-- A pull that is not begun: its record is removed and it is reported (R157). -/
def refusePull (n : Lane) (row : Nat) (s : State) : State :=
  let f := s.foil.get n
  handPull n ⟨row, .notBegun, 0⟩ (setFoil n { f with records := dropArmed row f.records } s)

/-- R160: the pull end after a merge: the later of its value and the record's own end. -/
def mergedEnd (high : Pos) (pullEnd : Option Held) (own : Pos) : Held :=
  match pullEnd with
  | some h => if isAfter own h.pos then hold high own else h
  | none => hold high own

/-- R157: the web has reached the pull start of the ARMED record of a row: the first case that applies. -/
def beginPull (n : Lane) (row : Nat) (s : State) : State :=
  withLoaded s fun c =>
    let f := s.foil.get n
    match f.records.find? fun r => !r.served && r.row == row with
    | none => s
    | some r =>
      if s.station.mode ≠ .run then refusePull n row s
      else if f.faulty then refusePull n row s
      else if !isAfter r.ownEnd.pos s.web.high then refusePull n row s
      else if f.remaining = 0 then refusePull n row (addOut n s)
      else if f.activePull then
        handPull n ⟨row, .begun, 0⟩
          (setFoil n { f with
            records := serve s.web.high row f.records
            pullEnd := some (mergedEnd s.web.high f.pullEnd r.ownEnd.pos) } s)
      else
        handPull n ⟨row, .begun, 0⟩
          (setFoil n { f with
            records := serve s.web.high row f.records
            pullEnd := some (hold s.web.high r.ownEnd.pos)
            acc := c.hdr.ratioDen - 1 } s)

/-! ## Arming a pull (R155) -/

/-- A record placed after every record whose pull start is not after its own. -/
def insertRecord (r : PullRec) (l : List PullRec) : List PullRec :=
  match l with
  | [] => [r]
  | x :: t => if isAfter x.start.pos r.start.pos then r :: x :: t else x :: insertRecord r t

/-- A SERVED record's own end, or the pull end, is reached and not yet taken: it goes before a start (R159). -/
def Foil.endDue (f : Foil) : Bool :=
  isReached f.pullEnd || f.records.any fun r => r.served && r.ownEnd.reached

/-- R155: the Row Track hands a cell's pull to the drive; a start already reached is taken in the same event (R159), an end
not yet taken or not. -/
def armPull (n : Lane) (row : Nat) (p : Pull) (s : State) : State :=
  let f := s.foil.get n
  if f.records.length < Config.pullCapacity then
    let start := hold s.web.high p.start
    let r : PullRec :=
      { row := row, start := start, ownEnd := { pos := p.stop, reached := false }, served := false, credit := 0 }
    let s1 := setFoil n { f with records := insertRecord r f.records } s
    if start.reached then beginPull n row s1 else s1
  else handPull n ⟨row, .notBegun, 0⟩ s

/-! ## The meanings -/

/-- PULL_START_REACHED (R157): the first ARMED record whose start is reached is taken, after any end due. -/
def pullStart (n : Lane) (s : State) : State :=
  let f := s.foil.get n
  if f.endDue then s
  else
    match f.records.find? fun r => !r.served && r.start.reached with
    | some r => beginPull n r.row s
    | none => s

/-- A SERVED record whose own end is reached and is not the pull end. -/
def Foil.ownEndDue (f : Foil) : Option PullRec :=
  f.records.find? fun r =>
    r.served && r.ownEnd.reached && !(f.pullEnd.map Held.pos == some r.ownEnd.pos)

/-- OWN_PULL_END_REACHED (R160): the record completes with its credit; the pull runs on. -/
def ownPullEnd (n : Lane) (s : State) : State :=
  let f := s.foil.get n
  match f.ownEndDue with
  | some r =>
    handPull n ⟨r.row, .ended, r.credit⟩
      (setFoil n { f with records := f.records.filter fun x => !(x.served && x.row == r.row) } s)
  | none => s

/-- PULL_END_REACHED (R161): every SERVED record completes with its credit, oldest first; the Station Controller is told
and the status block is marked. -/
def pullEnd (n : Lane) (s : State) : State :=
  let f := s.foil.get n
  if isReached f.pullEnd && f.ownEndDue.isNone then
    let s1 := reportRecords n .ended (f.records.filter (·.served)) s
    testWindDown (markStatus
      (setFoil n { f with records := f.records.filter (!·.served), pullEnd := none } s1))
  else s

/-- FOILBRK is watched on a lane when a loaded copy names it active, from LOADING to SAFE (R164). -/
def foilbrkWatched (n : Lane) (s : State) : Bool :=
  s.laneActive n && (s.station.mode.configured || s.station.mode == .loading)

/-- FOILBRK_ASSERTED (R164). With the line held asserted, too, the command is an assertion, after a negation that no command
has shown (log 60). -/
def foilbrkAssert (n : Lane) (s : State) : State :=
  let t := { s with pins := { s.pins with foilbrk := s.pins.foilbrk.set n true } }
  if foilbrkWatched n t then addBreak n t else t

/-- R166: a FOIL_LOAD taken by the drive; the status block is marked. -/
def foilLoadTaken (c : Loaded) (n : Lane) (count : Word) (s : State) : State :=
  let f := s.foil.get n
  let f' := { f with
    remaining := count, lowArmed := true, out := false
    brk := if s.pins.foilbrk.get n then f.brk else false }
  let s1 := testLow c n (markStatus (setFoil n f' s))
  if f.activePull && count = 0 then testRunOut s1 n (runOut n s1) else s1

/-- R156, R164: a successful load: the pulls are gone; BREAK is added, and FOIL latched, on each lane it makes active
whose FOILBRK is found asserted. -/
def foilAtLoad (n : Lane) (s : State) : State :=
  let f := s.foil.get n
  let s1 := setFoil n { f with records := [], pullEnd := none, acc := 0 } s
  if s1.laneActive n && s1.pins.foilbrk.get n then
    latch .foil (setFoil n { s1.foil.get n with brk := true } s1)
  else s1

/-! ## The meanings of the rows -/

/-- FOILBRK_ASSERTED (R164). -/
def execFoilbrkAsserted (n : Lane) (s : State) : Host.Outcome State Fault Refusal :=
  .next (finish s (foilbrkAssert n s))

/-- PULL_START_REACHED (R157). -/
def execPullStartReached (n : Lane) (s : State) : Host.Outcome State Fault Refusal :=
  .next (finish s (pullStart n s))

/-- OWN_PULL_END_REACHED (R160). -/
def execOwnPullEndReached (n : Lane) (s : State) : Host.Outcome State Fault Refusal :=
  .next (finish s (ownPullEnd n s))

/-- PULL_END_REACHED (R161). -/
def execPullEndReached (n : Lane) (s : State) : Host.Outcome State Fault Refusal :=
  .next (finish s (pullEnd n s))

end Sys2Proof.Machine
end

