-- ==== Sys2Proof/Machine/Loading.lean ====
section
/-! DEFINITION. The Configuration Loader (02 section 2.2): commits and edits, the reads of a load, seeding, the thirteen
checks, and how a load ends. -/

namespace Sys2Proof.Machine

/-- R20: the base of the configuration window by the straps BASE1:BASE0. -/
def strapBase (b : BitVec 2) : Nat :=
  match b.toNat with
  | 0 => 0x001000
  | 1 => 0x040000
  | 2 => 0x7F0000
  | _ => 0xFF0000

/-- The base of the configuration window in force. -/
def State.configBase (s : State) : Nat := strapBase s.pins.base

/-! ## The checks (R29) -/

/-- Two extents, each a first byte and a length, have a byte in common. An extent of length 0 has no byte. -/
def overlaps (a la b lb : Nat) : Bool := decide (max a b < min (a + la) (b + lb))

/-- Check 1. -/
def checkStatusAddress (base : Nat) (h : Header) : Bool :=
  h.statusBase % 32 == 0 && decide (h.statusBase + 256 ≤ Config.memoryBytes)
    && !overlaps h.statusBase 256 base Config.configWindowBytes

/-- Check 2. -/
def checkWindows (base : Nat) (h : Header) : Bool :=
  let lo := 16 * h.orderSize
  let lr := 64 * h.reportSize
  let lc := Config.configWindowBytes
  h.orderBase % 16 == 0 && h.reportBase % 32 == 0
    && decide (h.orderBase + lo ≤ Config.memoryBytes) && decide (h.reportBase + lr ≤ Config.memoryBytes)
    && !overlaps base lc h.orderBase lo && !overlaps base lc h.reportBase lr
    && !overlaps base lc h.statusBase 256 && !overlaps h.orderBase lo h.reportBase lr
    && !overlaps h.orderBase lo h.statusBase 256 && !overlaps h.reportBase lr h.statusBase 256

/-- Check 3. -/
def checkRingSize (h : Header) : Bool :=
  [4, 8, 16, 32, 64].contains h.orderSize
    && [8, 16, 32, 64, 128, 256, 512, 1024].contains h.reportSize

/-- Check 4. -/
def checkLanes (h : Header) : Bool :=
  h.laneMask ≠ 0 && decide (h.laneMask.toNat < 16) && decide (h.leadLane < 4)
    && h.laneMask.getLsbD h.leadLane

/-- The max widths strictly increase and every unit width is at least 1. -/
def classesRise (l : List ClassEntry) : Bool :=
  match l with
  | [] => true
  | [x] => decide (1 ≤ x.unitWidth)
  | x :: y :: t => decide (1 ≤ x.unitWidth) && decide (x.maxWidth < y.maxWidth) && classesRise (y :: t)

/-- Check 5: at least one entry is loaded (entry 0 has nonzero max width, R21). -/
def checkClassTable (c : Loaded) : Bool := !c.classes.isEmpty && classesRise c.classes

/-- Check 6. -/
def checkCodeLength (h : Header) : Bool := decide (4 ≤ h.codeLength) && decide (h.codeLength ≤ 12)

/-- Check 7. -/
def checkPlates (h : Header) : Bool := decide (1 ≤ h.plates) && decide (h.plates ≤ 4)

/-- Check 8. -/
def checkVariants (c : Loaded) : Bool :=
  (c.variants.all fun v =>
    !v.valid || (decide (v.plate < c.hdr.plates) && decide (v.cls < c.classes.length)))
  && match Policy.ofCode c.hdr.policy with
    | some p => !p.usesVariant || c.validVariant c.hdr.policyVariant
    | none => false

/-- Check 9. -/
def checkSetList (c : Loaded) : Bool :=
  decide (1 ≤ c.hdr.setLength) && decide (c.hdr.setLength ≤ 16)
    && allLanes.all fun n =>
      !c.hdr.active n ||
        (List.range c.hdr.setLength).all fun p =>
          match c.hdr.setAt n p with
          | some v => c.validVariant v
          | none => false

/-- A distance below 2^28. -/
def below28 (w : Word) : Bool := decide (w.toNat < 2 ^ 28)

/-- A distance of 1 to 2^28 - 1. -/
def positive28 (w : Word) : Bool := decide (1 ≤ w.toNat) && below28 w

/-- Check 10: the distance fields in their ranges. -/
def distancesInRange (h : Header) : Bool :=
  positive28 h.nominalPitch && decide (1 ≤ h.minMarkWidth.toNat)
    && (allLanes.all fun n => !h.active n || below28 (h.sensorToNip.get n))
    && below28 h.nipToReject && positive28 h.rejectWidth && positive28 h.spliceDarkLength
    && below28 h.spliceMarginBefore && below28 h.spliceMarginAfter && below28 h.indexOffset
    && below28 h.throwLead && below28 h.releaseClearance && below28 h.foilLead && below28 h.foilTrail
    && below28 h.reverseTolerance

/-- Check 10. `skew tolerance < nominal pitch / 2` is taken exactly (log 20). -/
def checkGeometry (c : Loaded) : Bool :=
  let h := c.hdr
  let pitch := h.nominalPitch.toNat
  distancesInRange h
    && decide (h.windowEarly.toNat + h.windowLate.toNat < pitch)
    && (match c.classes.head? with
      | some e => decide (h.minMarkWidth.toNat ≤ e.maxWidth)
      | none => false)
    && (c.classes.all fun e =>
        decide (e.maxWidth + e.unitWidth * (h.codeLength + 1) + h.windowEarly.toNat < pitch))
    && decide (2 * h.skewTolerance.toNat < pitch)
    && decide (h.foilLead.toNat ≤ h.throwLead.toNat)
    && decide (1 ≤ h.flywheelLimit) && decide (h.flywheelLimit ≤ 8)

/-- The largest sensor-to-nip distance of an active lane. -/
def largestSensor (h : Header) : Nat :=
  allLanes.foldl (fun m n => if h.active n then max m (h.sensorToNip.get n).toNat else m) 0

/-- Check 11. -/
def checkTrackCapacity (h : Header) : Bool :=
  let d := h.nominalPitch.toNat - h.windowEarly.toNat
  let x := largestSensor h + h.nipToReject.toNat + h.windowLate.toNat
  decide ((x + d - 1) / d + 2 ≤ 32)

/-- Check 12. -/
def checkFoilRatio (h : Header) : Bool := decide (1 ≤ h.ratioNum) && decide (1 ≤ h.ratioDen)

/-- Check 13. -/
def checkTrim (h : Header) : Bool :=
  decide (h.trimGain ≤ 8) && decide (1 ≤ h.trimStepMax) && decide (h.trimStepMax ≤ 255)
    && decide (1 ≤ h.trimLimit) && decide (h.trimLimit ≤ 32767)

/-- R29: the thirteen checks in order, each with its code. -/
def loadChecks (base : Nat) (c : Loaded) : List (ErrorCode × Bool) :=
  [ (.statusAddress, checkStatusAddress base c.hdr), (.windows, checkWindows base c.hdr),
    (.ringSize, checkRingSize c.hdr), (.lanes, checkLanes c.hdr), (.classTable, checkClassTable c),
    (.codeLength, checkCodeLength c.hdr), (.plates, checkPlates c.hdr),
    (.variants, checkVariants c), (.setList, checkSetList c), (.geometry, checkGeometry c),
    (.trackCapacity, checkTrackCapacity c.hdr), (.foilRatio, checkFoilRatio c.hdr),
    (.trim, checkTrim c.hdr) ]

/-- The code of the first check that fails (R29). -/
def firstFailure (l : List (ErrorCode × Bool)) : Option ErrorCode :=
  match l with
  | [] => none
  | (code, ok) :: t => if ok then firstFailure t else some code

/-- R24: seeding takes place when the header passes checks 1 to 3. -/
def seedable (base : Nat) (h : Header) : Bool :=
  checkStatusAddress base h && checkWindows base h && checkRingSize h

/-! ## How a load ends (R30, R31) -/

/-- R31: the base of the status-block write of a failed load: the header was read and meets STATUS_ADDRESS. -/
def failedStatusBase (s : State) : Option Nat :=
  match s.loader.header with
  | some ws =>
    let h := readHeader ws
    if checkStatusAddress s.configBase h then some h.statusBase else none
  | none => none

/-- R31: a load fails with a code. -/
def failLoad (code : ErrorCode) (s : State) : State :=
  let t := loseConfiguration code .loadFailed s
  { t with rep := { t.rep with statusAt := failedStatusBase s } }

/-- R30: the values the other blocks take when a load succeeds, but for the lanes and the Foil Drives. A tap order delivered
in LOADING, which only the burst of the commit can make, is kept for service (log 58). -/
def installBlocks (c : Loaded) (s : State) : State :=
  { s with
    bus := { s.bus with guardDrops := 0 }
    orders := { s.orders with
      takeIndex := 0, inProgress := none, slots := ⟨none, none, none⟩, refusals := 0, tapOrders := 0
      tapLosses := 0, lastTap := none }
    track := Track.reset
    imp := { s.imp with
      throw := if s.throwOn then (if s.pins.throwOk then .releasing else .off) else s.imp.throw
      horizon := none, release := none, nips := [], slotCounter := 0, slotSync := false
      lastIndex := none, trim := 0, trimStopped := false, lastError := none }
    survey := Survey.reset
    cnt := Counters.reset
    rep := { s.rep with
      fillIndex := 0, fill := none, post := [], gap := 0
      policy := (Policy.ofCode c.hdr.policy).getD .all, policyVariant := c.hdr.policyVariant
      followOpen := false, mask := c.hdr.attentionMask
      latched := s.rep.latched &&& ~~~Cause.config.mask, dirty := true } }

/-- R30: a load succeeds with a copy: it is installed, the mode becomes HELD with cause LOADED, lanes are IDLE or OFF, and
FOILBRK is sampled (R164). -/
def loadSucceeds (c : Loaded) (s : State) : State :=
  let s1 := { s with loader := { s.loader with
    phase := .idle, edited := false, header := none, tables := [], loaded := some c, confirmed := true
    error := .none } }
  let s2 := setMode .held .loaded (installBlocks c s1)
  forLanes foilAtLoad (readersIdle (lanesIdle s2))

/-- R27, R29: a load that reaches CHECKING fails with EDITED, or with its first failing check, or succeeds. -/
def runChecks (s : State) : State :=
  if s.loader.edited then failLoad .edited s
  else
    match s.loader.header with
    | none => failLoad .memory s
    | some ws =>
      let c := readCopy ws s.loader.tables
      match firstFailure (loadChecks s.configBase c) with
      | some code => failLoad code s
      | none => loadSucceeds c s

/-! ## The reads of a load (R22 to R25) -/

/-- R22: the read of the whole header. -/
def placeHeaderRead (s : State) : State := place .header false (readBursts64 s.configBase) s

/-- R24: the k-th table read. -/
def placeTableRead (k : Nat) (s : State) : State :=
  place (.table k) false (readBursts64 (s.configBase + 256 + 256 * k)) s

/-- R25: the entries a seeding read gathers: up to eight from `first` on. -/
def seedEntries (first size : Nat) : List Nat := ((List.range 8).map (first + ·)).filter (· < size)

/-- R25: one single-word burst per entry. -/
def seedBursts (base stride first size : Nat) : List Burst :=
  (seedEntries first size).map fun i =>
    { addr := BitVec.ofNat 24 (base + stride * i), words := [readReq] }

/-- R25: the seeding read of order-ring entries from `first` on. -/
def placeSeedOrder (b : Bounds) (first : Nat) (s : State) : State :=
  place (.seedOrder first) false (seedBursts b.orderBase 16 first b.orderSize) s

/-- R25: the seeding read of report-ring entries from `first` on. -/
def placeSeedReport (b : Bounds) (first : Nat) (s : State) : State :=
  place (.seedReport first) false (seedBursts b.reportBase 64 first b.reportSize) s

/-- R23: the header read completes: the edition and the new bounds take effect and new maps begin. -/
def headerRead (ws : List Word) (s : State) : State :=
  let h := readHeader ws
  placeTableRead 0
    { s with
      loader := { s.loader with
        phase := .tables, header := some ws, tables := [], edition := h.edition
        bounds := some h.bounds, gen := s.loader.gen + 1 }
      orders := { s.orders with handed := [] }
      rep := { s.rep with released := [] } }

/-- R24: a table read completes: the next is queued, or after the fifth the load goes on to SEEDING or CHECKING. -/
def tableRead (k : Nat) (ws : List Word) (s : State) : State :=
  let t := { s with loader := { s.loader with tables := s.loader.tables ++ ws } }
  if k < 4 then placeTableRead (k + 1) t
  else
    match t.loader.header, t.loader.bounds with
    | some hw, some b =>
      if seedable t.configBase (readHeader hw) then
        placeSeedOrder b 0 { t with loader := { t.loader with phase := .seeding } }
      else runChecks { t with loader := { t.loader with phase := .checking } }
    | _, _ => runChecks { t with loader := { t.loader with phase := .checking } }

/-- R25: the entries whose byte 0 has a value are recorded. -/
def seedMarks (value : Nat) (entries : List Nat) (ws : List Word) (marks : List Nat) : List Nat :=
  match entries, ws with
  | e :: es, w :: t =>
    seedMarks value es t (if (byteOf w 0).toNat = value then insertIndex e marks else marks)
  | _, _ => marks

/-- R25: an order-ring seeding read completes: entries read HANDED are recorded; a handoff recorded stands. -/
def seedOrderRead (b : Bounds) (first : Nat) (ws : List Word) (s : State) : State :=
  let t := { s with orders := { s.orders with
    handed := seedMarks 1 (seedEntries first b.orderSize) ws s.orders.handed } }
  if first + 8 < b.orderSize then placeSeedOrder b (first + 8) t else placeSeedReport b 0 t

/-- R25: a report-ring seeding read completes: entries read with owner 0 are recorded; after the last, CHECKING. -/
def seedReportRead (b : Bounds) (first : Nat) (ws : List Word) (s : State) : State :=
  let t := { s with rep := { s.rep with
    released := seedMarks 0 (seedEntries first b.reportSize) ws s.rep.released } }
  if first + 8 < b.reportSize then placeSeedReport b (first + 8) t
  else runChecks { t with loader := { t.loader with phase := .checking } }

/-! ## Commits and edits (R22, R26, R27, R32) -/

/-- An own access of the Configuration Loader. -/
def Purpose.ofLoader : Purpose → Bool
  | .header | .table _ | .seedOrder _ | .seedReport _ => true
  | .entryRead | .resultWrite | .fill _ | .statusWrite => false

/-- The loader has a read in the queue. -/
def loaderReading (s : State) : Bool := s.bus.queue.any fun o => o.purpose.ofLoader

/-- R22, R47: a commit in UNCONFIGURED or HELD begins a load. -/
def beginLoad (s : State) : State :=
  let t := setMode .loading .commit (dropTaps s)
  placeHeaderRead
    { t with loader := { t.loader with
        phase := .header, edited := false, discard := false, header := none, tables := [] } }

/-- R26: a commit in LOADING restarts the load from the header. A read still in the queue is marked discard. The maps
begun under the header read so far are discarded; a restart before a header read, the first or a later one, leaves the maps as
they are (log 16). -/
def restartLoad (s : State) : State :=
  let fresh := s.loader.header.isSome
  let t := { s with
    loader := { s.loader with phase := .header, edited := false, header := none, tables := [] }
    orders := { s.orders with handed := if fresh then [] else s.orders.handed }
    rep := { s.rep with released := if fresh then [] else s.rep.released } }
  if loaderReading s then { t with loader := { t.loader with discard := true } }
  else placeHeaderRead t

/-- R22, R26: a commit event reaches the loader. -/
def commitEvent (s : State) : State :=
  match s.station.mode with
  | .unconfigured | .held => beginLoad s
  | .loading => restartLoad s
  | .bypass | .watch | .run | .safe => s

/-- An edit event clears confirmed wherever the loaded copy exists (R32). -/
def clearConfirmed (s : State) : State := { s with loader := { s.loader with confirmed := false } }

/-- R27, R32: an edit event, by the mode. -/
def editEvent (s : State) : State :=
  match s.station.mode with
  | .held => editInHeld (clearConfirmed s)
  | .loading =>
    { s with loader := { s.loader with edited := true, confirmed := false } }
  | .watch | .run | .safe => clearConfirmed s
  | .bypass | .unconfigured => s

/-- R16: an observed configuration word is a commit when it has the commit pattern and the mode is UNCONFIGURED, HELD or
LOADING, judged when memory has accepted it; every other is an edit (log 14). -/
def configEvent (commitPattern : Bool) (s : State) : State :=
  match s.station.mode with
  | .unconfigured | .held | .loading => if commitPattern then commitEvent s else editEvent s
  | .bypass | .watch | .run | .safe => editEvent s

end Sys2Proof.Machine
end

