-- ==== Sys2Proof/Machine/Port.lean ====
section
/-! DEFINITION. The memory port and the memory access queue (01 sections 1.1 and 1.3): the arbiter, and the end of an own
access. -/

namespace Sys2Proof.Machine

/-! ## The arbiter (R10) -/

/-- The access in hand is a contender for the port. -/
def contending (s : State) : Bool :=
  match s.bus.inHand with
  | some h => h.phase == .contender
  | none => false

/-- The access in hand given the port. -/
def issueForwarded (passOver : Nat) (s : State) : State :=
  { s with bus := { s.bus with
      port := .forwarded
      passOver := passOver
      inHand := s.bus.inHand.map fun h => { h with phase := .issued } } }

/-- The queue head given the port: the pass-over count becomes 0. -/
def issueOwn (s : State) : State := { s with bus := { s.bus with port := .own, passOver := 0 } }

/-- PORT_GRANT (R10). With the port busy, or no contender, there is nothing to grant. -/
def grantPort (s : State) : State :=
  if s.bus.port = .free then
    if contending s then
      if s.bus.queue.isEmpty then issueForwarded s.bus.passOver s
      else if s.bus.passOver < Config.passOverLimit then issueForwarded (s.bus.passOver + 1) s
      else issueOwn s
    else if s.bus.queue.isEmpty then s
    else issueOwn s
  else s

/-! ## The end of an own access (R6, R9, R13) -/

/-- The own access issued on the memory port. -/
def issuedOwn (s : State) : Option OwnAccess :=
  if s.bus.port = .own then s.bus.queue.head? else none

/-- The first `k` words of an own write land in job memory. -/
def landOwn (o : OwnAccess) (k : Nat) (s : State) : State :=
  if o.write then { s with mem := memWriteWords s.mem (o.addressed.take k) } else s

/-- R6: the conditions that an own access ends. -/
def OwnAccess.ends (o : OwnAccess) (c : HoldCond) : Bool :=
  match c with
  | .ownWrite id => id == o.id
  | .fill e => o.purpose == .fill e

/-- R6: a hold set without the conditions that an own access ends. -/
def Phase.without (o : OwnAccess) (p : Phase) : Phase :=
  match p with
  | .held conds => .held (conds.filter fun c => !o.ends c)
  | .contender => .contender
  | .issued => .issued

/-- R9: an own access of which `k` words were answered ready leaves the queue; the port falls free; the hold set loses
the conditions it ends. -/
def endOwn (o : OwnAccess) (k : Nat) (s : State) : State :=
  let t := landOwn o k s
  { t with bus := { t.bus with
      port := .free
      queue := t.bus.queue.drop 1
      inHand := t.bus.inHand.map fun h => { h with phase := h.phase.without o } } }

/-- An own access all of whose words were answered ready. -/
def completeOwn (o : OwnAccess) (s : State) : State := endOwn o o.addressed.length s

/-- PORT_GRANT. -/
def execPortGrant (s : State) : Host.Outcome State Fault Refusal := .next (finish s (grantPort s))

end Sys2Proof.Machine
end

