-- ==== Sys2Proof/Machine/SurveyUnit.lean ====
section
/-! DEFINITION. The Survey Unit (10): starting a survey, judging pulses and reads against the quiet zones, counting the
rows the Row Track retires, and the tests that end a survey. -/

namespace Sys2Proof.Machine

/-- R187: SURVEY accepted: RUNNING with k and q from the order, every other item as R186 gives. -/
def startSurvey (k q : Nat) (s : State) : State :=
  { s with survey :=
      { running := true, k := k, q := q, counted := 0, retired := 0, outcome := .running
        lanes := PerLane.const SurveyLane.reset } }

/-! ## Quiet zones (R189) -/

/-- A violation: the count advances, held at 65,535, and the offset is added while the list holds fewer than 4. -/
def SurveyLane.violate (l : SurveyLane) (offset : Int) : SurveyLane :=
  { l with
    violations := if l.violations < 65535 then l.violations + 1 else l.violations
    offsets := if l.offsets.length < 4 then l.offsets ++ [offset] else l.offsets }

/-- The trailing zone: after the stop sample position, up to it plus q. -/
def inTrailingZone (q : Nat) (stop e : Pos) : Bool :=
  decide (0 < delta e stop) && decide (delta e stop ≤ q)

/-- The leading zone: from the mark position minus q up to the mark position, which is excluded. -/
def inLeadingZone (q : Nat) (mark e : Pos) : Bool :=
  decide (0 < delta mark e) && decide (delta mark e ≤ q)

/-- A leading edge kept as the newest of at most 4. -/
def keepRecent (e : Pos) (l : List Pos) : List Pos :=
  (if l.length < 4 then l else l.drop 1) ++ [e]

/-- A pulse passed is judged against the watched mark's trailing zone, or kept as a recent edge. -/
def SurveyLane.pulse (q : Nat) (e : Pos) (l : SurveyLane) : SurveyLane :=
  match l.watch with
  | some (mark, stop) =>
    if inTrailingZone q stop e then l.violate (delta e mark)
    else { l with recent := keepRecent e l.recent }
  | none => { l with recent := keepRecent e l.recent }

/-- The recent edges in a mark's leading zone are violations, oldest first. -/
def SurveyLane.leading (q : Nat) (mark : Pos) (es : List Pos) (l : SurveyLane) : SurveyLane :=
  match es with
  | [] => l
  | e :: t =>
    SurveyLane.leading q mark t (if inLeadingZone q mark e then l.violate (delta e mark) else l)

/-- A COMPLETE read passed: its leading zone is judged, the recent edges are emptied and the watch is replaced. -/
def SurveyLane.complete (q : Nat) (mark stop : Pos) (l : SurveyLane) : SurveyLane :=
  { SurveyLane.leading q mark l.recent l with recent := [], watch := some (mark, stop) }

/-- R82, R189: a pulse passed to the Survey Unit while a survey runs with q above 0. -/
def surveyPulse (n : Lane) (e : Pos) (s : State) : State :=
  if s.survey.running && decide (0 < s.survey.q) then
    { s with survey := { s.survey with
        lanes := s.survey.lanes.set n ((s.survey.lanes.get n).pulse s.survey.q e) } }
  else s

/-- R82, R189: a COMPLETE read passed to the Survey Unit while a survey runs with q above 0. -/
def surveyRead (n : Lane) (mark stop : Pos) (s : State) : State :=
  if s.survey.running && decide (0 < s.survey.q) then
    { s with survey := { s.survey with
        lanes := s.survey.lanes.set n ((s.survey.lanes.get n).complete s.survey.q mark stop) } }
  else s

/-! ## Rows (R188) -/

/-- A cell of an accepted mark. -/
def cellAccepted (c : Option Cell) : Bool :=
  match c with
  | some x => x.markKind == some .accepted
  | none => false

/-- A cell that is ACCEPTED and IDENTIFIED. -/
def cellGood (c : Option Cell) : Bool :=
  match c with
  | some x => x.markKind == some .accepted && x.status == .identified
  | none => false

/-- R188: the row is counted when every active lane's cell is ACCEPTED and IDENTIFIED and its previous mark present. -/
def rowCounted (c : Loaded) (v : Survey) (r : Row) : Bool :=
  allLanes.all fun n =>
    !c.hdr.active n || (cellGood (r.cells.get n) && (v.lanes.get n).prevMark.isSome)

/-- R188, step 3: a lane's pitch and skew added to its sums. -/
def addSums (c : Loaded) (r : Row) (n : Lane) (l : SurveyLane) : SurveyLane :=
  match r.cells.get n with
  | some cell =>
    match cell.markPos, cell.nipPos, l.prevMark with
    | some mark, some nip, some prev =>
      { l with
        pitchSum := l.pitchSum + delta mark prev
        skewSum := if n.val == c.hdr.leadLane then l.skewSum else l.skewSum + delta nip r.nip }
    | _, _, _ => l
  | none => l

/-- R188, step 4: the previous mark becomes the cell's mark position for an ACCEPTED cell, and absent otherwise. -/
def nextPrev (r : Row) (n : Lane) (l : SurveyLane) : SurveyLane :=
  match r.cells.get n with
  | some cell =>
    { l with prevMark := if cell.markKind == some .accepted then cell.markPos else none }
  | none => { l with prevMark := none }

/-- R188: what a running survey makes of a retired row. -/
def Survey.takeRow (c : Loaded) (r : Row) (v : Survey) : Survey :=
  let counted := rowCounted c v r
  { v with
    retired := v.retired + 1
    counted := if counted then v.counted + 1 else v.counted
    lanes := v.lanes.mapLane fun n l =>
      if c.hdr.active n then nextPrev r n (if counted then addSums c r n l else l) else l }

/-- R190: every active lane's violation count is 0. -/
def noViolation (c : Loaded) (v : Survey) : Bool :=
  allLanes.all fun n => !c.hdr.active n || (v.lanes.get n).violations == 0

/-- R190: the tests after each row taken. -/
def testSurvey (c : Loaded) (s : State) : State :=
  if s.survey.counted = 2 ^ s.survey.k then
    endSurvey (if noViolation c s.survey then .pass else .failQuiet) s
  else if s.survey.retired = 4 * 2 ^ s.survey.k then endSurvey .failIncomplete s
  else s

/-- R188: the Survey Unit takes a retired row while a survey runs. -/
def surveyRow (r : Row) (s : State) : State :=
  withLoaded s fun c =>
    if s.survey.running then testSurvey c { s with survey := s.survey.takeRow c r } else s

end Sys2Proof.Machine
end

