-- ==== Sys2Proof/Machine/Orders.lean ====
section
/-! DEFINITION. The Order Unit (03): the judgement of an order, one operation per order, tap orders, and taking ring
entries. The meanings of the order rows are in OrderRows.lean. -/

namespace Sys2Proof.Machine

/-- What an order gives: its result code, its result value, and the state with its effect. -/
structure OrderResult where
  code : ResultCode
  value : Word
  st : State
deriving DecidableEq, Repr

/-- A refusal has no effect and, but for RUN with REFUSED_STATE, result value 0 (R44). -/
def refuse (code : ResultCode) (s : State) : OrderResult := ⟨code, 0, s⟩

/-- A number as a result value. -/
def natValue (n : Nat) : Word := BitVec.ofNat 32 n

/-- The rows that remain on the count target, or 0 (R58). -/
def targetValue (s : State) : Word :=
  match s.station.countTarget with
  | some k => natValue k
  | none => 0

/-! ## The modes in which an order is accepted (03, "Summary of the orders") -/

/-- The order is accepted in the mode. -/
def OrderKind.acceptedIn (k : OrderKind) (m : Mode) : Bool :=
  match k with
  | .watch => m == .held || m == .safe
  | .run => m == .watch
  | .stampOff => m == .run
  | .hold => m.configured
  | .skip => m == .watch || m == .run
  | .laneRestart => m.working
  | .setPosition => m.working
  | .trimReset => m.working
  | .foilLoad => m.configured
  | .countTarget => m == .watch || m == .run
  | .survey => m == .watch
  | .reportPolicy => m.configured
  | .ack => m.configured

/-! ## The orders (R49 to R61) -/

/-- R35, R112, R141, R146, R154: WATCH from HELD. -/
def watchFromHeld (s : State) : State :=
  let t := readersSeek (lanesToHunt (setMode .watch .watchOrder s))
  setHighWater
    { t with
      track := { t.track with rows := [], splices := [], resumes := [], serial := 0 }
      imp := { t.imp with trim := 0, trimStopped := false, slotSync := false, slotCounter := 0 } }

/-- R35: WATCH from SAFE: the track is kept and a wind-down left pending is ended. -/
def watchFromSafe (s : State) : State :=
  let t := lanesToHunt (setMode .watch .watchOrder s)
  removeTarget .cancelled
    (completeStanding .stampOff .cancelled { t with station := { t.station with windDown := false } })

/-- WATCH (R49): the result value is the mode left. -/
def orderWatch (s : State) : OrderResult :=
  ⟨.done, natValue s.station.mode.code,
    if s.station.mode = .held then watchFromHeld s else watchFromSafe s⟩

/-- An active lane is LOCKED (R50). -/
def someLocked (c : Loaded) (s : State) : Bool :=
  allLanes.any fun n => c.hdr.active n && (s.lanes.get n).state == .locked

/-- RUN (R50, R36): its STATE condition is tested on three things in order. -/
def orderRun (c : Loaded) (s : State) : OrderResult :=
  if !s.pins.heatRdy then ⟨.refusedState, 1, s⟩
  else if !someLocked c s then ⟨.refusedState, 2, s⟩
  else if s.survey.running || s.orders.slots.survey.isSome then ⟨.refusedState, 3, s⟩
  else ⟨.done, 0, setMode .run .runOrder s⟩

/-- STAMP_OFF (R51). -/
def orderStampOff (origin : Origin) (s : State) : OrderResult :=
  if s.station.windDown then refuse .refusedBusy s
  else ⟨.accepted, natValue s.track.rows.length, setWindDown (fillSlot .stampOff origin s)⟩

/-- R38: what HOLD does in WATCH, RUN and SAFE. -/
def holdEffects (s : State) : State :=
  let s1 := setMode .held .holdOrder s
  let s2 := { s1 with station := { s1.station with windDown := false } }
  let s3 := removeTarget .cancelled (completeStanding .stampOff .cancelled s2)
  let s4 := abandonTrack .hold (forLanes clearPulls (dropNips (releaseThrow s3)))
  let s5 := { s4 with track := { s4.track with rejectEnd := PerLane.const none } }
  let s6 := setHighWater (readersIdle (lanesIdle (endRunningSurvey .cancelled s5)))
  if s6.loader.confirmed then s6 else editInHeld s6

/-- HOLD (R52): the result value is the number of rows abandoned. -/
def orderHold (s : State) : OrderResult :=
  if s.station.mode = .held then ⟨.done, 0, s⟩
  else ⟨.done, natValue s.track.rows.length, holdEffects s⟩

/-- A lane mask is nonzero and names active lanes alone (R53). -/
def namesActive (c : Loaded) (a : BitVec 16) : Bool :=
  decide (a ≠ 0) && decide (a &&& BitVec.setWidth 16 c.hdr.laneMask = a) && decide (a.toNat < 16)

/-- R53: a count of labels added to the skip counters of the lanes of a mask, a sum above 255 held at 255. -/
def addSkips (a : BitVec 16) (n : Nat) (s : State) : State :=
  { s with lanes := s.lanes.mapLane fun l t =>
      if a.getLsbD l.val then { t with skip := min Config.skipMax (t.skip + n) } else t }

/-- SKIP (R53). -/
def orderSkip (c : Loaded) (o : Order) (s : State) : OrderResult :=
  if namesActive c o.a && decide (1 ≤ o.b.toNat) && decide (o.b.toNat ≤ 255) then
    ⟨.done, 0, addSkips o.a o.b.toNat s⟩
  else refuse .refusedArgument s

/-- LANE_RESTART (R54): the result value is the quality counter before the order. -/
def orderLaneRestart (c : Loaded) (o : Order) (s : State) : OrderResult :=
  match o.activeLane c with
  | some n => ⟨.done, natValue (s.lanes.get n).quality, setLane n (s.lanes.get n).hunt s⟩
  | none => refuse .refusedArgument s

/-- R55, R106: a lane told its set position. -/
def Tracker.setAt (p : Nat) (t : Tracker) : Tracker :=
  match t.state with
  | .hunt => { t with setPos := p, state := .locked }
  | .blocked => { t with setPos := p, state := .locked, quality := 0 }
  | .locked | .flywheel | .idle | .off => { t with setPos := p }

/-- SET_POSITION (R55): the result value is the set position before the order. -/
def orderSetPosition (c : Loaded) (o : Order) (s : State) : OrderResult :=
  match o.activeLane c with
  | some n =>
    if o.a.toNat < c.hdr.setLength then
      ⟨.done, natValue (s.lanes.get n).setPos, setLane n ((s.lanes.get n).setAt o.a.toNat) s⟩
    else refuse .refusedArgument s
  | none => refuse .refusedArgument s

/-- TRIM_RESET (R56): the result value is the accumulated trim before the order. -/
def orderTrimReset (s : State) : OrderResult :=
  if s.station.mode = .run && s.imp.throw ≠ .off then refuse .refusedState s
  else
    ⟨.done, signedWord s.imp.trim, { s with imp := { s.imp with trim := 0, trimStopped := false } }⟩

/-- FOIL_LOAD (R57, R166): the result value is foil remaining before the order. -/
def orderFoilLoad (c : Loaded) (o : Order) (s : State) : OrderResult :=
  match o.activeLane c with
  | some n => ⟨.done, (s.foil.get n).remaining, foilLoadTaken c n o.c s⟩
  | none => refuse .refusedArgument s

/-- COUNT_TARGET (R58). -/
def orderCountTarget (o : Order) (origin : Origin) (s : State) : OrderResult :=
  if o.a = 0 then ⟨.done, targetValue s, removeTarget .cancelled s⟩
  else if s.station.windDown then refuse .refusedBusy s
  else
    let t := removeTarget .cancelled s
    ⟨.accepted, targetValue s,
      fillSlot .countTarget origin
        { t with station := { t.station with countTarget := some o.a.toNat } }⟩

/-- SURVEY (R59, R187). -/
def orderSurvey (o : Order) (origin : Origin) (s : State) : OrderResult :=
  if 6 < o.a.toNat then refuse .refusedArgument s
  else if s.survey.running then refuse .refusedBusy s
  else ⟨.accepted, 0, startSurvey o.a.toNat o.b.toNat (fillSlot .survey origin s)⟩

/-- REPORT_POLICY (R60): the result value is the policy that was in force. A policy that ignores B keeps the policy
variant (log 32). -/
def orderReportPolicy (c : Loaded) (o : Order) (s : State) : OrderResult :=
  match Policy.ofCode o.a.toNat with
  | none => refuse .refusedArgument s
  | some p =>
    if p.usesVariant && !c.validVariant o.b.toNat then refuse .refusedArgument s
    else
      ⟨.done, natValue s.rep.policy.code,
        { s with rep := { s.rep with
            policy := p
            policyVariant := if p.usesVariant then o.b.toNat else s.rep.policyVariant
            followOpen := false } }⟩

/-- R40, R61: the fault record emptied and the secondary-fault count set to 0. -/
def clearRecord (s : State) : State :=
  { s with station := { s.station with record := none, secondary := 0 } }

/-- ACK (R61, R185): the result value is the set of causes latched before the order. -/
def orderAck (o : Order) (s : State) : OrderResult :=
  let named := BitVec.setWidth 12 o.a
  let t := { s with rep := { s.rep with latched := s.rep.latched &&& ~~~named } }
  ⟨.done, BitVec.setWidth 32 s.rep.latched,
    if named.getLsbD Cause.fault.bit then clearRecord t else t⟩

/-! ## The judgement (R44) -/

/-- An order of a known kind, accepted in the mode, judged and applied. -/
def OrderKind.apply (k : OrderKind) (c : Loaded) (o : Order) (origin : Origin) (s : State) : OrderResult :=
  match k with
  | .watch => orderWatch s
  | .run => orderRun c s
  | .stampOff => orderStampOff origin s
  | .hold => orderHold s
  | .skip => orderSkip c o s
  | .laneRestart => orderLaneRestart c o s
  | .setPosition => orderSetPosition c o s
  | .trimReset => orderTrimReset s
  | .foilLoad => orderFoilLoad c o s
  | .countTarget => orderCountTarget o origin s
  | .survey => orderSurvey o origin s
  | .reportPolicy => orderReportPolicy c o s
  | .ack => orderAck o s

/-- R44: the tests on kind and mode. The modes that accept an order have a loaded copy. -/
def judgeOrder (o : Order) (origin : Origin) (s : State) : OrderResult :=
  match OrderKind.ofCode o.kind with
  | none => refuse .refusedKind s
  | some k =>
    if k.acceptedIn s.station.mode then
      match s.loader.loaded with
      | some c => k.apply c o origin s
      | none => refuse .refusedMode s
    else refuse .refusedMode s

/-- R44, R46: each refusal advances the order refusals count. -/
def countRefusal (code : ResultCode) (s : State) : State :=
  if code.isRefusal then { s with orders := { s.orders with refusals := s.orders.refusals + 1 } } else s

/-! ## Tap orders (R64 to R66) -/

/-- R65, R66: a tap order taken, judged and applied in one step. -/
def applyTap (t : TapOrder) (s : State) : State :=
  let s0 := { s with orders := { s.orders with tapOrders := s.orders.tapOrders + 1 } }
  let r := judgeOrder t.order (.tap t.tap) s0
  let s1 := countRefusal r.code r.st
  markStatus
    { s1 with orders := { s1.orders with lastTap := some ⟨t.tap, t.kind, r.code, r.value⟩ } }

/-- R43, R65: the unit is free to take an order: a mode that takes orders, no load, no order in progress. -/
def unitFree (s : State) : Bool :=
  s.station.mode.configured && s.loader.phase == .idle && s.orders.inProgress.isNone

/-- R65: waiting tap orders are served oldest first while the unit is free. `fuel` bounds the number served. -/
def serveTaps (fuel : Nat) (s : State) : State :=
  match fuel with
  | 0 => s
  | fuel + 1 =>
    if unitFree s then
      match s.orders.tapQueue with
      | [] => s
      | t :: rest => serveTaps fuel (applyTap t { s with orders := { s.orders with tapQueue := rest } })
    else s

/-- R65: the unit serves the tap orders that wait. -/
def serveWaiting (s : State) : State := serveTaps s.orders.tapQueue.length s

/-- R64: a tap order delivered: it enters the queue, or is lost and counted when 4 wait; the unit serves it at once when
free. One delivered in UNCONFIGURED waits there until the next commit drops it (log 64). -/
def deliverTap (t : TapOrder) (s : State) : State :=
  if s.orders.tapQueue.length < Config.tapQueueCapacity then
    serveWaiting { s with orders := { s.orders with tapQueue := s.orders.tapQueue ++ [t] } }
  else { s with orders := { s.orders with tapLosses := s.orders.tapLosses + 1 } }

/-! ## Ring orders (R43 to R46) -/

/-- R43: the read of an entry: four words in one burst. -/
def entryBurst (addr : Nat) : List Burst :=
  [{ addr := BitVec.ofNat 24 addr, words := List.replicate 4 readReq }]

/-- R43: the unit can take the entry at the take index. -/
def canTake (s : State) : Bool :=
  unitFree s && s.orders.tapQueue.isEmpty && s.orders.handed.contains s.orders.takeIndex

/-- ORDER_TAKE_BEGIN (R43). -/
def takeBegin (s : State) : State :=
  if canTake s then
    match s.loader.bounds with
    | some b =>
      let addr := b.orderBase + 16 * s.orders.takeIndex
      place .entryRead false (entryBurst addr)
        { s with orders := { s.orders with
            inProgress := some ⟨s.orders.takeIndex, addr, s.loader.gen, false⟩ } }
    | none => s
  else s

/-- R45: the result write of the entry being taken is placed. -/
def placeResult (t : Taking) (code : ResultCode) (value : Word) (s : State) : State :=
  place .resultWrite true (resultBursts t.addr code value)
    { s with orders := { s.orders with inProgress := some { t with writing := true } } }

/-- R44, R45: the order of an entry judged and applied, and its result write placed. -/
def applyEntry (t : Taking) (ws : List Word) (s : State) : State :=
  let r := judgeOrder (readOrder ws) (.ring t.entry) s
  placeResult t r.code r.value (countRefusal r.code r.st)

/-- R46: the entry read ended in an error: REFUSED_MEMORY is written. -/
def entryReadError (t : Taking) (s : State) : State :=
  placeResult t .refusedMemory 0 (countRefusal .refusedMemory s)

/-- R41: the take index after it: the next, and after the last 0. Without a decoded ring it stays (log 17); the take of an
entry of a ring since replaced wraps at the size of the new one (log 41). -/
def nextTake (s : State) : Nat :=
  match s.loader.bounds with
  | some b => if s.orders.takeIndex + 1 < b.orderSize then s.orders.takeIndex + 1 else 0
  | none => s.orders.takeIndex

/-- R45, R46, R47: the take ends, its result write completed or ended by an error. A mark is cleared only in the map of
the bounds the entry was taken under. -/
def endTake (s : State) : State :=
  match s.orders.inProgress with
  | some t =>
    { s with orders := { s.orders with
        handed := if t.gen = s.loader.gen then s.orders.handed.erase t.entry else s.orders.handed
        takeIndex := nextTake s
        inProgress := none } }
  | none => s

/-- The words of the own access issued when it is the read of an entry (R44). -/
def entryWords (s : State) : Option (OwnAccess × List Word) :=
  match issuedOwn s with
  | some o => if o.purpose = .entryRead then some (o, ownReadWords s.mem o) else none
  | none => none

/-- R44: the entry read completes and the order it carries is judged and applied, when its kind is one that `accepts`
lets through. -/
def entryReadDone (accepts : Byte → Bool) (s : State) : State :=
  match entryWords s with
  | some (o, ws) =>
    if accepts (readOrder ws).kind then
      match s.orders.inProgress with
      | some t => applyEntry t ws (completeOwn o s)
      | none => completeOwn o s
    else s
  | none => s

/-- An order row: the order of a ring entry whose read completes, or a tap order delivered (log 5). While RESET_N is
asserted no order reaches the unit (R8). -/
def orderRow (kind : Byte) (accepts : Byte → Bool) (src : OrderSource) (s : State) : State :=
  match src with
  | .entry => entryReadDone accepts s
  | .tap n lane arg =>
    if s.station.mode ≠ .bypass && accepts kind then deliverTap ⟨n.val, kind, lane, arg⟩ s else s

/-- An order row of a known kind. -/
def knownRow (k : OrderKind) (src : OrderSource) (s : State) : State :=
  orderRow k.code (fun b => b == k.code) src s

end Sys2Proof.Machine
end

