-- ==== Sys2Proof/Machine/Forwarder.lean ====
section
/-! DEFINITION. The Access Forwarder and the Window Monitor (01): what becomes of a processor access, tap matching, the
events of a forwarded write, and how a forwarded burst ends. -/

namespace Sys2Proof.Machine

/-! ## Accesses (R1, R3) -/

/-- R3: a burst length other than 1, 2, 4 or 8, or a burst that crosses a 32-byte boundary. -/
def Access.malformed (a : Access) : Bool :=
  !([1, 2, 4, 8].contains a.words.length) || decide (32 < a.addr.toNat % 32 + 4 * a.words.length)

/-- The words of an access with their addresses. -/
def Access.addressed (a : Access) : List (Addr × WordReq) := burstWords a.addr a.words

/-- The words an access touches: those with a byte enabled, with their index in the burst (R1). -/
def Access.touched (a : Access) : List (Nat × Addr × WordReq) :=
  (a.addressed.zipIdx.map fun p => (p.2, p.1)).filter fun p => p.2.2.en ≠ 0

/-- The byte lane `k` is enabled and carries a value. -/
def wordCarries (w : WordReq) (k : Nat) (v : Byte) : Bool :=
  w.en.getLsbD k && byteOf w.data k == v

/-- The answer record of the processor port: an access ends with these answers (log 29). -/
def answerAll (l : List WordAnswer) (s : State) : State :=
  { s with bus := { s.bus with inHand := none, answer := l } }

/-- Every word of a write answered ready. -/
def answerReady (a : Access) (s : State) : State := answerAll (a.words.map fun _ => .ready []) s

/-- The access in hand set. -/
def setHand (a : Access) (p : Phase) (events : List Observed) (tap : Option TapOrder) (s : State) : State :=
  { s with bus := { s.bus with inHand := some ⟨a, p, events, tap⟩ } }

/-! ## Classification (R14 to R18) -/

/-- Why the guard drops a write (R7). -/
inductive GuardReason
  | window | collision | status
deriving DecidableEq, Repr

/-- What the guard says of a word (R15). -/
inductive WordFate
  | hold (entry : Nat)
  | drop (why : GuardReason)
  | pass (event : Option WinEvent)
deriving DecidableEq, Repr

/-- A word at byte address `a` lies in a window of `len` bytes at `base`. A base that is no word address, which only a
header not yet checked can give, is taken at its word (log 21). -/
def inWindow (base len a : Nat) : Bool := decide (base / 4 * 4 ≤ a) && decide (a < base / 4 * 4 + len)

/-- The byte offset of a word in a window. -/
def windowOffset (base a : Nat) : Nat := a - base / 4 * 4

/-- R15, R16: a word in the configuration window. -/
def configFate (s : State) (a : Nat) (w : WordReq) : WordFate :=
  match s.station.mode with
  | .unconfigured | .loading | .held =>
    .pass (some (.config (a == s.configBase && wordCarries w 0 1)))
  | .watch | .run | .safe => .drop .window
  | .bypass => .pass none

/-- R17: the Order Unit is taking the entry, of the bounds in force. -/
def beingTaken (s : State) (e : Nat) : Bool :=
  match s.orders.inProgress with
  | some t => t.entry == e && t.gen == s.loader.gen
  | none => false

/-- R15, R17: a word in the order ring, at a byte offset of it. -/
def orderFate (s : State) (off : Nat) (w : WordReq) : WordFate :=
  let e := off / 16
  if s.orders.handed.contains e || beingTaken s e then .drop .collision
  else if off % 16 == 0 && wordCarries w 0 1 then .pass (some (.handoff e s.loader.gen))
  else .pass none

/-- R18: the Report Unit is filling the entry, of the bounds in force. -/
def beingFilled (s : State) (e : Nat) : Bool :=
  match s.rep.fill with
  | some f => f.entry == e && f.gen == s.loader.gen
  | none => false

/-- R15, R18: a word in the report ring, at a byte offset of it. -/
def reportFate (s : State) (off : Nat) (w : WordReq) : WordFate :=
  let e := off / 64
  if beingFilled s e then .hold e
  else if off % 64 == 0 && wordCarries w 0 0 then .pass (some (.release e s.loader.gen))
  else .pass none

/-- R14, R15: a word is classified by the first of the configuration window, the status block, the order ring and the
report ring that holds it. -/
def wordFate (s : State) (a : Nat) (w : WordReq) : WordFate :=
  if inWindow s.configBase Config.configWindowBytes a then configFate s a w
  else
    match s.loader.bounds with
    | none => .pass none
    | some b =>
      if inWindow b.statusBase 256 a then .drop .status
      else if inWindow b.orderBase (16 * b.orderSize) a then orderFate s (windowOffset b.orderBase a) w
      else if inWindow b.reportBase (64 * b.reportSize) a then
        reportFate s (windowOffset b.reportBase a) w
      else .pass none

/-- The fates of the words a write touches, with their indices (R4, step 2). -/
def Access.fates (s : State) (a : Access) : List (Nat × WordFate) :=
  a.touched.map fun p => (p.1, wordFate s p.2.1.toNat p.2.2)

/-- The fill conditions of a write (R18), each entry once. -/
def fillConds (l : List (Nat × WordFate)) : List HoldCond :=
  (l.filterMap fun p =>
    match p.2 with
    | .hold e => some (HoldCond.fill e)
    | .drop _ | .pass _ => none).eraseDups

/-- The guard reason of the first dropped word in address order (R4, step 4). -/
def firstDrop (l : List (Nat × WordFate)) : Option GuardReason :=
  l.findSome? fun p =>
    match p.2 with
    | .drop why => some why
    | .hold _ | .pass _ => none

/-- The observed words with their events (R5). -/
def observedEvents (l : List (Nat × WordFate)) : List Observed :=
  l.filterMap fun p =>
    match p.2 with
    | .pass (some e) => some ⟨p.1, e⟩
    | .pass none | .hold _ | .drop _ => none

/-! ## Taps (R19, R62, R63) -/

/-- R62: a tap entry matches a word of a write. -/
def TapEntry.matchesWord (t : TapEntry) (a : Addr) (w : WordReq) : Bool :=
  t.enabled
    && ((a ^^^ t.wordAddr) &&& ~~~t.addrMask &&& ~~~(3#24)) == 0
    && (List.range 4).all fun k => !t.byteMask.getLsbD k || wordCarries w k (byteOf t.pattern k)

/-- R63: the tap argument a word gives: the fixed value, or a byte of the word, 0 when it is not enabled. -/
def TapEntry.argOf (t : TapEntry) (w : WordReq) : BitVec 16 :=
  if t.fromByte then
    let k := t.arg.toNat % 4
    if w.en.getLsbD k then BitVec.setWidth 16 (byteOf w.data k) else 0
  else t.arg

/-- R62: the lowest-numbered tap that matches a word. -/
def tapOfWord (taps : List TapEntry) (a : Addr) (w : WordReq) : Option (TapEntry × TapOrder) :=
  (taps.zipIdx.find? fun p => p.1.matchesWord a w).map fun p =>
    (p.1, { tap := p.2, kind := p.1.kind, lane := p.1.lane, arg := p.1.argOf w })

/-- R62: the first word, in address order, that matches a tap fires it; one write fires at most one. -/
def tapOfWrite (taps : List TapEntry) (l : List (Nat × Addr × WordReq)) : Option (TapEntry × TapOrder) :=
  l.findSome? fun p => tapOfWord taps p.2.1 p.2.2

/-- R4, R19: the tap that fires for a write the guard passes, in HELD, WATCH, RUN or SAFE. -/
def firedTap (a : Access) (s : State) : Option (TapEntry × TapOrder) :=
  if s.station.mode.configured then
    match s.loader.loaded with
    | some c => tapOfWrite c.taps a.touched
    | none => none
  else none

/-! ## The fate of an access (R4, R7, R11) -/

/-- R7: the guard drops a write: it is answered ready, the guard drop count advances, and GUARD is latched but for the
status block. -/
def guardDrop (why : GuardReason) (a : Access) (s : State) : State :=
  let t := answerReady a { s with bus := { s.bus with guardDrops := s.bus.guardDrops + 1 } }
  match why with
  | .window | .collision => latch .guard t
  | .status => t

/-- R4, steps 5 and 6, for a write the guard passes. -/
def passWrite (a : Access) (events : List Observed) (s : State) : State :=
  match firedTap a s with
  | some (t, o) =>
    if t.consume then deliverTap o (answerReady a s) else setHand a .contender events (some o) s
  | none => setHand a .contender events none s

/-- R4, steps 2 to 6: the fate of a write. -/
def settleWrite (a : Access) (s : State) : State :=
  let l := a.fates s
  match fillConds l with
  | [] =>
    match firstDrop l with
    | some why => guardDrop why a s
    | none => passWrite a (observedEvents l) s
  | conds => setHand a (.held conds) [] none s

/-- R11: the own writes in the queue that write a word the read covers. -/
def readConds (a : Access) (s : State) : List HoldCond :=
  (s.bus.queue.filter fun o => o.writesAny (a.addressed.map Prod.fst)).map fun o => .ownWrite o.id

/-- R4, step 1: the fate of a read. -/
def settleRead (a : Access) (s : State) : State :=
  match readConds a s with
  | [] => setHand a .contender [] none s
  | conds => setHand a (.held conds) [] none s

/-- R3, R4, R8: an access arrives on the processor port. While one is in hand no other is presented (R1). -/
def arrive (a : Access) (s : State) : State :=
  match s.bus.inHand with
  | some _ => s
  | none =>
    if s.station.mode = .bypass then setHand a .contender [] none s
    else if a.malformed then answerAll (a.words.map fun _ => .error) s
    else if a.write then settleWrite a s
    else settleRead a s

/-- R6: when the last condition has left the hold set, a held write is settled again, and a held read is forwarded
without a new check. -/
def resettle (s : State) : State :=
  match s.bus.inHand with
  | some h =>
    if h.phase = .held [] then
      if h.acc.write then settleWrite h.acc s else setHand h.acc .contender [] none s
    else s
  | none => s

/-! ## Events (R5, R23, R42, R171) -/

/-- R23: a handoff or a release is recorded in the map of the bounds it was observed under. -/
def mapInForce (gen : Nat) (s : State) : Bool := gen == s.loader.gen && s.loader.bounds.isSome

/-- R42: a handoff sets the mark of its entry. -/
def recordHandoff (e gen : Nat) (s : State) : State :=
  if mapInForce gen s then
    { s with orders := { s.orders with handed := insertIndex e s.orders.handed } }
  else s

/-- R171: a release sets the mark of its entry; the test for a fill follows before any report of the step is taken. -/
def recordRelease (e gen : Nat) (s : State) : State :=
  if mapInForce gen s then { s with rep := { s.rep with released := insertIndex e s.rep.released } }
  else s

/-- R5: an event goes to its owner. -/
def deliverEvent (e : WinEvent) (s : State) : State :=
  match e with
  | .config p => configEvent p s
  | .handoff e gen => recordHandoff e gen s
  | .release e gen => recordRelease e gen s

/-- R5: the events of a burst, in address order. -/
def deliverEvents (l : List Observed) (s : State) : State :=
  match l with
  | [] => s
  | e :: t => deliverEvents t (deliverEvent e.event s)

/-- R5, R19: the tap order of a write, after its window events. -/
def deliverTapOf (o : Option TapOrder) (s : State) : State :=
  match o with
  | some t => deliverTap t s
  | none => s

/-! ## The end of a forwarded burst (R1, R5, R12) -/

/-- R1: the bytes a read returns for a word: those enabled. -/
def readBytes (m : List Host.Cell) (a : Addr) (w : WordReq) : List (Option Byte) :=
  (List.range 4).map fun k =>
    if w.en.getLsbD k then some (memRead m (a + BitVec.ofNat 24 k).toNat) else none

/-- The ready answers to the first `k` words of an access. -/
def readyAnswers (m : List Host.Cell) (a : Access) (k : Nat) : List WordAnswer :=
  (a.addressed.take k).map fun p => .ready (if a.write then [] else readBytes m p.1 p.2)

/-- The first `k` words of a forwarded access reach memory and are answered; the rest are answered with an error; the port
falls free. -/
def endForwarded (a : Access) (k : Nat) (s : State) : State :=
  let answers := readyAnswers s.mem a k ++ (a.words.drop k).map fun _ => WordAnswer.error
  let t := if a.write then { s with mem := memWriteWords s.mem (a.addressed.take k) } else s
  answerAll answers { t with bus := { t.bus with port := .free } }

/-- The access issued on the memory port. -/
def issuedForwarded (s : State) : Option InHand :=
  match s.bus.inHand with
  | some h => if s.bus.port = .forwarded && h.phase = .issued then some h else none
  | none => none

/-- FORWARDED_BURST_END (R5): memory has answered every word ready. A handoff and a tap order of one write reach a free Order
Unit in this one step: the tap order is served, and the take of the entry waits for its own command (log 62). -/
def forwardedEnd (s : State) : State :=
  match issuedForwarded s with
  | some h =>
    deliverTapOf h.tap (deliverEvents h.events (endForwarded h.acc h.acc.words.length s))
  | none => s

/-- FORWARDED_ACCESS_ERROR (R12): memory answers word `k` with an error; no tap order is delivered. -/
def forwardedError (k : Nat) (s : State) : State :=
  match issuedForwarded s with
  | some h =>
    if k < h.acc.words.length then
      deliverEvents (h.events.filter fun e => e.word < k) (endForwarded h.acc k s)
    else s
  | none => s

/-! ## The meanings -/

/-- PROCESSOR_WRITE (R4). -/
def execProcessorWrite (lv : Levels) (addr : Addr) (words : List WordReq) (s : State) :
    Host.Outcome State Fault Refusal :=
  .next (finish s (arrive ⟨true, wordAddr addr, words⟩ (sense lv s)))

/-- PROCESSOR_READ (R4, R11). -/
def execProcessorRead (addr : Addr) (enables : List (BitVec 4)) (s : State) :
    Host.Outcome State Fault Refusal :=
  .next (finish s (arrive ⟨false, wordAddr addr, enables.map fun e => ⟨e, 0⟩⟩ s))

/-- FORWARDED_BURST_END (R5). -/
def execForwardedBurstEnd (lv : Levels) (s : State) : Host.Outcome State Fault Refusal :=
  .next (finish s (forwardedEnd (sense lv s)))

/-- FORWARDED_ACCESS_ERROR (R12). -/
def execForwardedAccessError (lv : Levels) (word : Nat) (s : State) : Host.Outcome State Fault Refusal :=
  .next (finish s (forwardedError word (sense lv s)))

end Sys2Proof.Machine
end

