-- ==== Sys2Proof/Machine/ImpressionControl.lean ====
section
/-! DEFINITION. The Impression Controller (07): engaging and releasing the throw, the nip, plate slots, and registration
trim. -/

namespace Sys2Proof.Machine

/-- A cell decided STRIKE. -/
def Cell.strikes (c : Cell) : Bool := c.decision == some .strike

/-- A strike row: at least one cell is decided STRIKE (R120). -/
def Row.isStrike (r : Row) : Bool := r.laneCells.any fun p => p.2.strikes

/-- A row of the track replaced by its image under `f`. -/
def updateRow (uid : Nat) (f : Row → Row) (s : State) : State :=
  { s with track := { s.track with rows := s.track.rows.map fun r => if r.uid = uid then f r else r } }

/-- The row of the track with a name. -/
def findRow (uid : Nat) (s : State) : Option Row := s.track.rows.find? fun r => r.uid == uid

/-! ## The throw (R137 to R140) -/

/-- R137: a strike row taken in RUN engages the throw. A release point not after the high-water position is reached as it is
set, and taken by its own command (log 52). -/
def engage (c : Loaded) (nip : Pos) (s : State) : State :=
  { s with imp := { s.imp with
      horizon := some nip
      release := some (hold s.web.high (nip + c.hdr.releaseClearance))
      throw :=
        match s.imp.throw with
        | .off | .releasing => if s.pins.throwOk then .on else .engaging
        | .engaging => .engaging
        | .on => .on } }

/-- R137: the Impression Controller takes a decided row: it holds the nip, and engages for a strike row in RUN. -/
def takeDecided (c : Loaded) (r : Row) (s : State) : State :=
  let s1 := { s with imp := { s.imp with nips := s.imp.nips ++ [⟨r.uid, hold s.web.high r.nip⟩] } }
  if r.isStrike && s1.station.mode == .run then engage c r.nip s1 else s1

/-- RELEASE_POINT_REACHED (R138): after every nip reached, THROW_ON is negated. -/
def releasePoint (s : State) : State :=
  if isReached s.imp.release && s.throwOn && !(s.imp.nips.any fun h => h.nip.reached) then negateThrow s
  else s

/-- THROW_OK_RISE (R139), in any mode except BYPASS. -/
def throwRise (s : State) : State :=
  if s.pins.throwOk then s
  else
    let t := { s with pins := { s.pins with throwOk := true } }
    if s.station.mode = .bypass then t
    else
      match s.imp.throw with
      | .engaging => { t with imp := { t.imp with throw := .on } }
      | .off => raiseFault .throwUncommanded none t
      | .on | .releasing => t

/-- THROW_OK_FALL (R140), in any mode except BYPASS. -/
def throwFall (s : State) : State :=
  if s.pins.throwOk then
    let t := { s with pins := { s.pins with throwOk := false } }
    if s.station.mode = .bypass then t
    else
      match s.imp.throw with
      | .releasing => testWindDown { t with imp := { t.imp with throw := .off } }
      | .on => raiseFault .throwLost none { t with imp := { t.imp with throw := .engaging } }
      | .off | .engaging => t
  else s

/-- HEAT_RDY_FALL (R145): in RUN the cause HEAT is latched. With HEAT_RDY held negated, too, the command is a fall, after a
rise that no command has shown (log 53). -/
def heatFall (s : State) : State :=
  let t := { s with pins := { s.pins with heatRdy := false } }
  if s.station.mode = .run then latch .heat t else t

/-! ## Plate slots (R147 to R149) -/

/-- CYL_INDEX (R147): taken in the working modes while the reverse state is CLEAR. -/
def cylIndexTaken (s : State) : State :=
  if s.station.mode.working && !s.web.behind then
    let t := { s with imp := { s.imp with
      slotSync := true, slotCounter := 0, lastIndex := some s.web.pos } }
    if s.imp.slotSync && s.imp.slotCounter ≠ 0 then raiseFault .cylinderSlip none t else t
  else s

/-- R121: the slot a row decided now will meet: the slot counter plus the held nips, modulo P. -/
def predictedSlot (c : Loaded) (s : State) : Option Nat :=
  if s.imp.slotSync then some ((s.imp.slotCounter + s.imp.nips.length) % c.hdr.plates) else none

/-! ## The nip (R142 to R144) -/

/-- R143: the outcome of a cell, by whether the die is in impression and its decision. -/
def outcomeOf (impression : Bool) (cell : Cell) : CellOutcome :=
  match impression, cell.decision with
  | true, some .strike =>
    match cell.pull with
    | some p =>
      match p.state with
      | .armed | .active | .completed => .foiled
      | .stopped | .notStarted => .blind
    | none => .embossed
  | true, some .pass => .passed
  | true, _ => .blind
  | false, some .strike => .missed
  | false, _ => .clear

/-- R127, R129: the outcome recorded in a cell; BLIND and MISSED set the reject flag in RUN and SAFE. -/
def recordOutcome (impression rejects : Bool) (cell : Cell) : Cell :=
  let o := outcomeOf impression cell
  { cell with
    outcome := some o
    reject := cell.reject || (rejects && (o == .blind || o == .missed)) }

/-- R150: the lead cell is one that registration is measured from, and its nip position. -/
def measuredNip (lead : Option Cell) : Option Pos :=
  match lead with
  | some x =>
    if x.markKind == some .accepted && x.status == .identified && !x.predicted then x.nipPos else none
  | none => none

/-- R150: the registration error of a row that meets a slot. -/
def registrationError (c : Loaded) (s : State) (slot : Option Nat) (lead : Option Cell) : Option Int :=
  if s.station.mode.working then
    match slot, s.imp.lastIndex, measuredNip lead with
    | some k, some i, some p =>
      some (delta p (i + c.hdr.indexOffset + BitVec.ofNat 32 k * c.hdr.nominalPitch))
    | _, _, _ => none
  else none

/-- R151: the correction of an error: error times gain over 8 truncated toward zero, clamped to the step max. -/
def correction (h : Header) (e : Int) : Int :=
  let x := Int.tdiv (e * h.trimGain) 8
  if x < -(h.trimStepMax : Int) then -(h.trimStepMax : Int)
  else if (h.trimStepMax : Int) < x then h.trimStepMax
  else x

/-- R152: a correction applied, or refused with TRIM_LIMIT. -/
def applyCorrection (c : Loaded) (x : Int) (s : State) : State :=
  let sum := s.imp.trim + x
  if (c.hdr.trimLimit : Int) < sum.natAbs then raiseFault .trimLimit none s
  else
    { s with imp := { s.imp with
        trim := sum
        trimUp := s.imp.trimUp + (if 0 < x then x.natAbs else 0)
        trimDn := s.imp.trimDn + (if x < 0 then x.natAbs else 0) } }

/-- R150, R153: a measured error is recorded; in WATCH and RUN with trim stopped clear the correction is applied. -/
def trimAt (c : Loaded) (err : Option Int) (s : State) : State :=
  match err with
  | some e =>
    let t := { s with imp := { s.imp with lastError := some e } }
    if (s.station.mode == .watch || s.station.mode == .run) && !s.imp.trimStopped then
      applyCorrection c (correction c.hdr e) t
    else t
  | none => s

/-- R127: the nip result recorded in the row: stage STRUCK, the outcomes, and the reject point held. -/
def recordNip (c : Loaded) (high : Pos) (impression rejects : Bool) (slot : Option Nat)
    (throw : ThrowState) (err : Option Int) (r : Row) : Row :=
  { r with
    stage := .struck
    slot := slot
    regError := err
    throwAtNip := some throw
    rejectPoint := some (hold high (r.nip + c.hdr.nipToReject))
    cells := r.cells.map fun o => o.map (recordOutcome impression rejects) }

/-- R142: the oldest held nip is taken, as one event. -/
def takeNip (s : State) : State :=
  withLoaded s fun c =>
    match s.imp.nips with
    | [] => s
    | h :: rest =>
      let s0 := { s with imp := { s.imp with nips := rest } }
      match findRow h.row s with
      | none => s0
      | some r =>
        let slot := if s.imp.slotSync then some s.imp.slotCounter else none
        let s1 := { s0 with imp := { s0.imp with
          slotCounter :=
            if s.imp.slotSync then (s.imp.slotCounter + 1) % c.hdr.plates else s.imp.slotCounter } }
        let s2 := if r.isStrike && s.imp.throw == .engaging then raiseFault .throwLate none s1 else s1
        let err := registrationError c s slot (r.leadCell c)
        let s3 := trimAt c err s2
        updateRow h.row
          (recordNip c s.web.high s.inImpression s.station.mode.rejects slot s.imp.throw err) s3

/-- NIP_REACHED (R142): nips are taken oldest first. -/
def nipTaken (s : State) : State :=
  match s.imp.nips with
  | h :: _ => if h.nip.reached then takeNip s else s
  | [] => s

/-! ## The meanings of the rows -/

/-- NIP_REACHED (R142). -/
def execNipReached (s : State) : Host.Outcome State Fault Refusal :=
  .next (finish s (nipTaken s))

/-- RELEASE_POINT_REACHED (R138). -/
def execReleasePointReached (s : State) : Host.Outcome State Fault Refusal :=
  .next (finish s (releasePoint s))

/-- THROW_OK_RISE (R139). -/
def execThrowOkRise (s : State) : Host.Outcome State Fault Refusal :=
  .next (finish s (throwRise s))

/-- THROW_OK_FALL (R140). -/
def execThrowOkFall (s : State) : Host.Outcome State Fault Refusal :=
  .next (finish s (throwFall s))

/-- CYL_INDEX (R147). -/
def execCylIndex (s : State) : Host.Outcome State Fault Refusal :=
  .next (finish s (cylIndexTaken s))

/-- HEAT_RDY_FALL (R145). -/
def execHeatRdyFall (s : State) : Host.Outcome State Fault Refusal :=
  .next (finish s (heatFall s))

end Sys2Proof.Machine
end

