-- ==== Sys2Proof/Machine/LaneIdent.lean ====
section
/-! DEFINITION. The Lane Trackers (05): matching codes to variants, taking a read in each lane state, the quality counter,
the notices, and the splice resume. -/

namespace Sys2Proof.Machine

/-! ## The masked match (R92, R93) -/

/-- R92: a valid variant matches a code when every code bit under its mask agrees. -/
def VariantEntry.matchesCode (v : VariantEntry) (code : BitVec 12) : Bool :=
  v.valid && (code ^^^ v.code) &&& v.codeMask == 0

/-- The result of an identification (R93). -/
inductive Ident
  | expected
  | other (v : Nat)
  | cls
  | unknown
deriving DecidableEq, Repr

/-- R93, step 2: the first valid variant, in index order, that matches. -/
def firstMatch (c : Loaded) (code : BitVec 12) : Option Nat :=
  c.variants.findIdx? fun v => v.matchesCode code

/-- R93, step 3: the class of the variant taken must equal the measured class. -/
def classConfirmed (c : Loaded) (v : Nat) (measured : Option Nat) : Bool :=
  match c.variant? v with
  | some e => measured == some e.cls
  | none => false

/-- R93: the expected variant is tried first, then every valid variant in index order; then the class is checked. -/
def identify (c : Loaded) (expected : Option Nat) (code : BitVec 12) (measured : Option Nat) : Ident :=
  let hit :=
    match expected with
    | some v =>
      match c.variant? v with
      | some e => e.matchesCode code
      | none => false
    | none => false
  if hit then
    match expected with
    | some v => if classConfirmed c v measured then .expected else .cls
    | none => .unknown
  else
    match firstMatch c code with
    | some v => if classConfirmed c v measured then .other v else .cls
    | none => .unknown

/-! ## Making a cell (R108) -/

/-- R108: the cell of a read. -/
def makeCell (c : Loaded) (n : Lane) (r : ReadMsg) (status : ReadStatus) (variant setPos : Option Nat)
    (predicted : Bool) : Cell :=
  { markPos := some r.markPos
    nipPos := some (r.markPos + c.hdr.sensorToNip.get n)
    markKind := some r.markKind
    status := status
    variant := variant
    setPos := setPos
    predicted := predicted
    decision := none, reason := none, pull := none, outcome := none, reject := false, foilUsed := 0 }

/-- What a read makes of a lane: its tracker, the cell handed, and whether the lane was resynchronised. -/
structure Judged where
  tracker : Tracker
  cell : Cell
  resync : Bool
deriving DecidableEq, Repr

/-! ## The quality counter (R101) -/

/-- R101: a raise of the quality counter, from the counter `q`, of a tracker that the event would otherwise leave as
`t`. At 32 the lane is BLOCKED in place of any other state and keeps the consecutive-miss count `misses` (log 18). -/
def raiseQuality (q misses : Nat) (t : Tracker) : Tracker :=
  if q + 1 < Config.blockedQuality then { t with quality := q + 1 }
  else { t with state := .blocked, quality := Config.blockedQuality, misses := misses }

/-! ## HUNT (R95) -/

/-- R95: in HUNT a read locks the lane when it is the anchor variant with its class confirmed. -/
def judgeHunt (c : Loaded) (n : Lane) (t : Tracker) (r : ReadMsg) : Judged :=
  let hunting : Judged := ⟨t, makeCell c n r .hunting none none false, false⟩
  match r.result with
  | .complete code =>
    match identify c (c.hdr.setAt n 0) code r.cls with
    | .expected =>
      ⟨{ t with state := .locked, setPos := 0, misses := 0 },
        makeCell c n r .identified (c.hdr.setAt n 0) (some 0) false, false⟩
    | .other _ | .cls | .unknown => hunting
  | .unread _ | .absent => hunting

/-! ## LOCKED and FLYWHEEL (R96 to R99) -/

/-- The positions 0 to S - 1 of the lane's set list that name a variant (R97). -/
def positionsOf (c : Loaded) (n : Lane) (v : Nat) : List Nat :=
  (List.range c.hdr.setLength).filter fun p => c.hdr.setAt n p == some v

/-- R96, R99: the tracker after an accepted read at a set position, LOCKED with no miss; a count kept in LOCKED goes to 0
too (log 43). -/
def lockedAt (t : Tracker) (p : Nat) : Tracker := { t with state := .locked, setPos := p, misses := 0 }

/-- R96: an unread label uses up its place; the quality counter is raised. -/
def judgeUnread (c : Loaded) (n : Lane) (t : Tracker) (r : ReadMsg) (p : Nat) (u : UnreadCause) : Judged :=
  ⟨raiseQuality t.quality t.misses (lockedAt t p), makeCell c n r (.unread u) none (some p) false, false⟩

/-- R97: an identification of another variant: resynchronised at its single position, or the lane goes to HUNT. -/
def judgeOther (c : Loaded) (n : Lane) (t : Tracker) (r : ReadMsg) (p v : Nat) : Judged :=
  match positionsOf c n v with
  | [k] =>
    ⟨raiseQuality t.quality t.misses (lockedAt t k), makeCell c n r .sequence (some v) (some k) false,
      true⟩
  | _ =>
    ⟨raiseQuality t.quality t.misses { lockedAt t p with state := .hunt },
      makeCell c n r .sequence (some v) (some p) false, false⟩

/-- R98: a missed mark: the place is carried by prediction within the flywheel limit, and given up beyond it. A count of 9
kept from BLOCKED is raised to 10 (log 44). -/
def judgeMissed (c : Loaded) (n : Lane) (t : Tracker) (r : ReadMsg) (p : Nat) : Judged :=
  let m := t.misses + 1
  if m ≤ c.hdr.flywheelLimit then
    ⟨raiseQuality t.quality m { t with state := .flywheel, setPos := p, misses := m },
      makeCell c n r .identified (c.hdr.setAt n p) (some p) true, false⟩
  else
    ⟨raiseQuality t.quality m { t with state := .hunt, setPos := p, misses := 0 },
      makeCell c n r .hunting none (some p) false, false⟩

/-- R96 to R99: a read in LOCKED or FLYWHEEL advances the set position and is judged against the variant there. -/
def judgeTracked (c : Loaded) (n : Lane) (t : Tracker) (r : ReadMsg) : Judged :=
  let p := (t.setPos + 1) % c.hdr.setLength
  match r.markKind, r.result with
  | .flywheel, _ => judgeMissed c n t r p
  | .accepted, .complete code =>
    match identify c (c.hdr.setAt n p) code r.cls with
    | .expected =>
      ⟨{ lockedAt t p with quality := t.quality - 1 },
        makeCell c n r .identified (c.hdr.setAt n p) (some p) false, false⟩
    | .other v => judgeOther c n t r p v
    | .cls => judgeUnread c n t r p .cls
    | .unknown => judgeUnread c n t r p .unknown
  | .accepted, .unread u => judgeUnread c n t r p u
  | .accepted, .absent => judgeUnread c n t r p .unknown

/-! ## Entering BLOCKED (R101, R104) -/

/-- R101: on entry to BLOCKED, LANE is latched, a LANE report is offered and in RUN the lanes are tested. -/
def enterBlocked (n : Lane) (src : LaneSource) (s : State) : State :=
  testLanesDown
    (offer (.tracker n) (.lane n s.web.pos (s.lanes.get n).setPos src) (latch .lane s))

/-- The causes a Lane Tracker counts as unread itself (R109). -/
def ReadStatus.countedHere : ReadStatus → Bool
  | .unread .cls | .unread .unknown => true
  | _ => false

/-- R96, R101, R109: what taking a judged read does: the tracker, the counts, the cell handed, and the entry to
BLOCKED. -/
def applyJudged (n : Lane) (j : Judged) (s : State) : State :=
  let s1 := setLane n j.tracker s
  let s2 := if j.cell.status.countedHere then countUnread s1 else s1
  let s3 :=
    if j.resync then { s2 with cnt := { s2.cnt with resyncs := s2.cnt.resyncs + 1 } } else s2
  let s4 := handCell n j.cell s3
  if j.tracker.state = .blocked then enterBlocked n (.cell j.cell.status) s4 else s4

/-! ## The meanings -/

/-- READ_TAKEN (R95 to R100): the oldest read handed to the lane's tracker is judged against its state. -/
def readTakenBy (n : Lane) (s : State) : State :=
  match s.msgs.reads.get n with
  | [] => s
  | r :: rest =>
    let t := { s with msgs := { s.msgs with reads := s.msgs.reads.set n rest } }
    withLoaded t fun c =>
      match (s.lanes.get n).state with
      | .hunt => applyJudged n (judgeHunt c n (s.lanes.get n) r) t
      | .locked | .flywheel => applyJudged n (judgeTracked c n (s.lanes.get n) r) t
      | .blocked | .idle | .off => t

/-- R102: a notice raises the quality counter in HUNT, LOCKED and FLYWHEEL, and changes nothing else of the lane. -/
def noticeTaken (n : Lane) (src : LaneSource) (s : State) : State :=
  let t := s.lanes.get n
  match t.state with
  | .hunt | .locked | .flywheel =>
    let t' := raiseQuality t.quality t.misses t
    let s1 := setLane n t' s
    if t'.state = .blocked then enterBlocked n src s1 else s1
  | .blocked | .idle | .off => s

/-- STRAY_NOTICE (R102). -/
def strayTaken (n : Lane) (s : State) : State :=
  match s.msgs.strays.get n with
  | 0 => s
  | k + 1 =>
    noticeTaken n .stray { s with msgs := { s.msgs with strays := s.msgs.strays.set n k } }

/-- SKEW_DISCARD_NOTICE (R102). -/
def skewTaken (n : Lane) (s : State) : State :=
  match s.msgs.skews.get n with
  | 0 => s
  | k + 1 => noticeTaken n .skew { s with msgs := { s.msgs with skews := s.msgs.skews.set n k } }

/-- The first reached resume position of a lane taken out of the list (R89). -/
def takeResume (n : Lane) (l : List Resume) : Option (List Resume) :=
  match l with
  | [] => none
  | x :: t =>
    if x.lane = n && x.at_.reached then some t
    else (takeResume n t).map fun rest => x :: rest

/-- RESUME_POSITION_REACHED (R89): the lane goes to HUNT as LANE_RESTART does; IDLE and OFF are not changed. -/
def resumeTaken (n : Lane) (s : State) : State :=
  match takeResume n s.track.resumes with
  | none => s
  | some rest =>
    let t := { s with track := { s.track with resumes := rest } }
    match (s.lanes.get n).state with
    | .hunt | .locked | .flywheel | .blocked => setLane n (s.lanes.get n).hunt t
    | .idle | .off => t

/-! ## The meanings of the rows -/

/-- READ_TAKEN (R95 to R100). -/
def execReadTaken (n : Lane) (s : State) : Host.Outcome State Fault Refusal :=
  .next (finish s (readTakenBy n s))

/-- STRAY_NOTICE (R102). -/
def execStrayNotice (n : Lane) (s : State) : Host.Outcome State Fault Refusal :=
  .next (finish s (strayTaken n s))

/-- SKEW_DISCARD_NOTICE (R102). -/
def execSkewDiscardNotice (n : Lane) (s : State) : Host.Outcome State Fault Refusal :=
  .next (finish s (skewTaken n s))

/-- RESUME_POSITION_REACHED (R89). -/
def execResumePositionReached (n : Lane) (s : State) : Host.Outcome State Fault Refusal :=
  .next (finish s (resumeTaken n s))

end Sys2Proof.Machine
end

