-- ==== Sys2Proof/Machine/MarkReading.lean ====
section
/-! DEFINITION. The Mark Readers (04 sections 4.2 to 4.4): windows, pulses, the class walk, the code, and splice
detection. -/

namespace Sys2Proof.Machine

/-! ## Windows (R74) -/

/-- R74: the expected position set, with its window end held. -/
def expectAt (c : Loaded) (high e : Pos) (r : Reader) : Reader :=
  { r with expected := some e, windowEnd := some (hold high (e + c.hdr.windowLate + 1)) }

/-- The expected position made absent, with its window end given up. -/
def Reader.expectNothing (r : Reader) : Reader := { r with expected := none, windowEnd := none }

/-- R74: a position lies inside the window of an expected position: neither before the open nor after the close. -/
def insideWindow (c : Loaded) (e p : Pos) : Bool :=
  !isAfter (e - c.hdr.windowEarly) p && !isAfter p (e + c.hdr.windowLate)

/-- R75: the candidate flag of a leading edge: no window applies, or the edge lies inside it. -/
def candidateAt (c : Loaded) (lane : LaneState) (expected : Option Pos) (p : Pos) : Bool :=
  match expected with
  | some e => lane == .hunt || insideWindow c e p
  | none => true

/-! ## Missed marks (R76) -/

/-- R76: a missed mark: a FLYWHEEL read at the expected position is handed, the misses count advances, and the expected
position moves on by the nominal pitch. -/
def missMark (c : Loaded) (n : Lane) (s : State) : State :=
  let r := s.readers.get n
  match r.expected with
  | none => s
  | some e =>
    let s1 := handRead n
      { markKind := .flywheel, markPos := e, width := none, cls := none, result := .absent } s
    let s2 := { s1 with cnt := { s1.cnt with misses := s1.cnt.misses + 1 } }
    setReader n (expectAt c s.web.high (e + c.hdr.nominalPitch) r) s2

/-- WINDOW_END_REACHED (R76). -/
def windowEndTaken (n : Lane) (s : State) : State :=
  withLoaded s fun c =>
    let r := s.readers.get n
    if isReached r.windowEnd then
      if (s.lanes.get n).state = .hunt then setReader n r.expectNothing s
      else
        match r.pulse with
        | some p =>
          if r.state == .pulse && p.candidate then
            setReader n { r with windowEnd := none, pulse := some { p with endPassed := true } } s
          else missMark c n s
        | none => missMark c n s
    else s

/-! ## Edges (R73, R75, R77, R84, R85) -/

/-- R84: a dark run starts at a leading edge taken while CLEAR. -/
def startDark (c : Loaded) (s : State) (r : Reader) : Reader :=
  { r with
    darkStart := some s.web.pos
    spliceAt := some (hold s.web.high (s.web.pos + c.hdr.spliceDarkLength)) }

/-- MARK_LEADING_EDGE (R73, R75, R83, R84). -/
def leadingEdge (n : Lane) (s : State) : State :=
  if s.pins.mark.get n then s
  else
    let t := { s with pins := { s.pins with mark := s.pins.mark.set n true } }
    withLoaded t fun c =>
      let r := t.readers.get n
      if t.web.behind then t
      else
        match r.state with
        | .idle | .pulse => t
        | .seek =>
          let p : Pulse :=
            { lead := t.web.pos
              candidate := candidateAt c (t.lanes.get n).state r.expected t.web.pos
              endPassed := false }
          setReader n { startDark c t r with state := .pulse, pulse := some p } t
        | .code => setReader n (startDark c t r) t

/-- R79: the class walk: the first loaded entry whose max width is at least the width. -/
def classWalk (c : Loaded) (w : Nat) : Option Nat := c.classes.findIdx? fun e => w ≤ e.maxWidth

/-- The unit width of a class, or of the last loaded entry for CLASS_OVERFLOW (R79). -/
def unitWidthOf (c : Loaded) (cls : Option Nat) : Nat :=
  match cls.bind fun i => c.classes[i]? with
  | some e => e.unitWidth
  | none =>
    match c.classes.getLast? with
    | some e => e.unitWidth
    | none => 0

/-- R79: the read in hand of an accepted mark whose trailing edge is at `te`. -/
def beginRead (c : Loaded) (high lead te : Pos) (w : Nat) : ReadInHand :=
  let cls := classWalk c w
  let u := unitWidthOf c cls
  { markPos := lead
    width := w
    cls := cls
    unit := u
    trailing := te
    bits := 0
    nbits := 0
    nextSample := if cls.isSome then some (hold high (te + BitVec.ofNat 32 (u / 2))) else none
    stop := hold high (te + BitVec.ofNat 32 (u * c.hdr.codeLength + u / 2)) }

/-- R74, R77, R79: an accepted mark sets the expected position and begins the code read. -/
def acceptMark (c : Loaded) (n : Lane) (p : Pulse) (w : Nat) (s : State) : State :=
  let r := expectAt c s.web.high (p.lead + c.hdr.nominalPitch) (s.readers.get n)
  setReader n
    { r with state := .code, pulse := none, read := some (beginRead c s.web.high p.lead s.web.pos w) } s

/-- R76, R77: a pulse that ends without becoming a mark; its mark is missed now when its window end has passed, whatever the
lane state has become since (log 59). -/
def endPulse (c : Loaded) (n : Lane) (p : Pulse) (s : State) : State :=
  let t := setReader n { s.readers.get n with state := .seek, pulse := none } s
  if p.candidate && p.endPassed then missMark c n t else t

/-- R77: a stray mark: the strays count advances and the Lane Tracker is given a stray notice. -/
def strayMark (n : Lane) (s : State) : State :=
  giveStray n { s with cnt := { s.cnt with strays := s.cnt.strays + 1 } }

/-- R77: a trailing edge taken in PULSE, by the reverse state, the width and the candidate flag. -/
def pulseTrailing (c : Loaded) (n : Lane) (p : Pulse) (s : State) : State :=
  let w := (s.web.pos - p.lead).toNat
  if s.web.behind then endPulse c n p s
  else if w < c.hdr.minMarkWidth.toNat then endPulse c n p s
  else
    let t := surveyPulse n p.lead s
    if p.candidate then acceptMark c n p w t else endPulse c n p (strayMark n t)

/-- R84: the dark run ends at a trailing edge in any reverse state. -/
def Reader.endDark (r : Reader) : Reader := { r with darkStart := none, spliceAt := none }

/-- R85: the light return of an open splice: the first trailing edge taken while CLEAR. -/
def lightReturn (n : Lane) (s : State) : State :=
  let r := s.readers.get n
  if r.spliceOpen && !s.web.behind then
    handSplice n (.lightReturn s.web.pos) (setReader n { r with spliceOpen := false } s)
  else s

/-- MARK_TRAILING_EDGE (R77, R84, R85). -/
def trailingEdge (n : Lane) (s : State) : State :=
  if s.pins.mark.get n then
    let t := { s with pins := { s.pins with mark := s.pins.mark.set n false } }
    withLoaded t fun c =>
      let r := t.readers.get n
      match r.state with
      | .idle => t
      | .seek | .code => lightReturn n (setReader n r.endDark t)
      | .pulse =>
        let u := setReader n r.endDark t
        match r.pulse with
        | some p => lightReturn n (pulseTrailing c n p u)
        | none => lightReturn n u
  else s

/-! ## The code (R80, R81) -/

/-- R80: one code cell sampled; the next sample position moves on by the unit width. -/
def sampleCell (codeLength : Nat) (high : Pos) (dark : Bool) (at_ : Pos) (x : ReadInHand) : ReadInHand :=
  { x with
    bits := (x.bits <<< 1) ||| (if dark then 1 else 0)
    nbits := x.nbits + 1
    nextSample :=
      if x.nbits + 1 < codeLength then some (hold high (at_ + BitVec.ofNat 32 x.unit)) else none }

/-- SAMPLE_POSITION_REACHED (R80). -/
def sampleTaken (n : Lane) (s : State) : State :=
  withLoaded s fun c =>
    let r := s.readers.get n
    match r.read with
    | none => s
    | some x =>
      match x.nextSample with
      | none => s
      | some h =>
        if h.reached then
          setReader n
            { r with read := some (sampleCell c.hdr.codeLength s.web.high (s.pins.mark.get n) h.pos x) } s
        else s

/-- R81: the result of a read at the stop cell. -/
def stopResult (dark : Bool) (x : ReadInHand) : ReadResult :=
  match x.cls with
  | none => .unread .classOverflow
  | some _ => if dark then .unread .framing else .complete x.bits

/-- The read handed of a read in hand, with a result (R82). -/
def ReadInHand.handed (x : ReadInHand) (result : ReadResult) : ReadMsg :=
  { markKind := .accepted, markPos := x.markPos, width := some x.width, cls := x.cls, result := result }

/-- R81, R82: a read is handed; an unread one is counted, and a COMPLETE one is passed to a running survey. -/
def handResult (n : Lane) (x : ReadInHand) (result : ReadResult) (s : State) : State :=
  let t := handRead n (x.handed result) s
  match result with
  | .complete _ => surveyRead n x.markPos x.stop.pos t
  | .unread _ => countUnread t
  | .absent => t

/-- STOP_SAMPLE_REACHED (R81), after the samples due. -/
def stopTaken (n : Lane) (s : State) : State :=
  let r := s.readers.get n
  match r.read with
  | none => s
  | some x =>
    if x.stop.reached && x.nextSample.isNone then
      handResult n x (stopResult (s.pins.mark.get n) x)
        (setReader n { r with state := .seek, read := none } s)
    else s

/-! ## Splice detection (R84, R85) -/

/-- R82, R85: the read of a candidate pulse that a splice ends: ACCEPTED, UNREAD with cause ABORT, no width or class. -/
def abortedPulse (lead : Pos) : ReadMsg :=
  { markKind := .accepted, markPos := lead, width := none, cls := none, result := .unread .abort }

/-- R85: what a splice ends, by the state of the reader. -/
def abortForSplice (n : Lane) (r : Reader) (s : State) : State :=
  match r.state with
  | .pulse =>
    match r.pulse with
    | some p => if p.candidate then countUnread (handRead n (abortedPulse p.lead) s) else s
    | none => s
  | .code =>
    match r.read with
    | some x => handResult n x (.unread .abort) s
    | none => s
  | .idle | .seek => s

/-- SPLICE_DETECTION (R84, R85): the web reached the dark start plus the splice dark length while the run lasts. -/
def spliceDetected (n : Lane) (s : State) : State :=
  let r := s.readers.get n
  match r.darkStart with
  | none => s
  | some d =>
    if isReached r.spliceAt then
      let t := abortForSplice n r s
      handSplice n (.detection d)
        (setReader n
          { r.expectNothing with
            state := .seek, pulse := none, read := none, spliceAt := none, spliceOpen := true } t)
    else s

/-! ## Backward counts (R78, R83) -/

/-- R83: a backward count that leaves the web before the trailing edge of a read in hand aborts the read. -/
def backwardReader (n : Lane) (s : State) : State :=
  let r := s.readers.get n
  match r.state, r.read with
  | .code, some x =>
    if isAfter x.trailing s.web.pos then
      handResult n x (.unread .abort) (setReader n { r with state := .seek, read := none } s)
    else s
  | _, _ => s

/-- R78: a reverse beyond tolerance ends whatever a reader was doing; an IDLE reader stays IDLE. A candidate pulse whose
window end has passed is discarded with no missed mark (log 42). -/
def Reader.reverse (r : Reader) : Reader :=
  match r.state with
  | .idle => r
  | .seek | .pulse | .code => { Reader.reset with state := .seek }

/-! ## The meanings of the rows -/

/-- MARK_LEADING_EDGE (R73, R75). -/
def execMarkLeadingEdge (n : Lane) (s : State) : Host.Outcome State Fault Refusal :=
  .next (finish s (leadingEdge n s))

/-- MARK_TRAILING_EDGE (R77). -/
def execMarkTrailingEdge (n : Lane) (s : State) : Host.Outcome State Fault Refusal :=
  .next (finish s (trailingEdge n s))

/-- WINDOW_END_REACHED (R76). -/
def execWindowEndReached (n : Lane) (s : State) : Host.Outcome State Fault Refusal :=
  .next (finish s (windowEndTaken n s))

/-- SAMPLE_POSITION_REACHED (R80). -/
def execSamplePositionReached (n : Lane) (s : State) : Host.Outcome State Fault Refusal :=
  .next (finish s (sampleTaken n s))

/-- STOP_SAMPLE_REACHED (R81). -/
def execStopSampleReached (n : Lane) (s : State) : Host.Outcome State Fault Refusal :=
  .next (finish s (stopTaken n s))

/-- SPLICE_DETECTION (R84, R85). -/
def execSpliceDetection (n : Lane) (s : State) : Host.Outcome State Fault Refusal :=
  .next (finish s (spliceDetected n s))

end Sys2Proof.Machine
end

