-- ==== Sys2Proof/Machine/OrderRows.lean ====
section
/-! DEFINITION. The meanings of the order rows: ORDER_TAKE_BEGIN, ORDER_ENTRY_READ_COMPLETE, UNKNOWN_ORDER_KIND and the
thirteen orders (03 sections 3.1 to 3.4). -/

namespace Sys2Proof.Machine

/-- ORDER_TAKE_BEGIN (R43). -/
def execOrderTakeBegin (s : State) : Host.Outcome State Fault Refusal := .next (finish s (takeBegin s))

/-- ORDER_ENTRY_READ_COMPLETE (R44): whatever kind the entry holds. -/
def execOrderEntryReadComplete (lv : Levels) (s : State) : Host.Outcome State Fault Refusal :=
  .next (finish s (entryReadDone (fun _ => true) (sense lv s)))

/-- UNKNOWN_ORDER_KIND (R44): an order whose kind is none of the thirteen is refused with REFUSED_KIND. -/
def execUnknownOrderKind (lv : Levels) (src : OrderSource) (kind : Byte) (s : State) :
    Host.Outcome State Fault Refusal :=
  .next (finish s (orderRow kind (fun b => b == kind && (OrderKind.ofCode b).isNone) src (sense lv s)))

/-- WATCH (R49). -/
def execWatch (lv : Levels) (src : OrderSource) (s : State) : Host.Outcome State Fault Refusal :=
  .next (finish s (knownRow .watch src (sense lv s)))

/-- RUN (R50). -/
def execRun (lv : Levels) (src : OrderSource) (s : State) : Host.Outcome State Fault Refusal :=
  .next (finish s (knownRow .run src (sense lv s)))

/-- STAMP_OFF (R51). -/
def execStampOff (lv : Levels) (src : OrderSource) (s : State) : Host.Outcome State Fault Refusal :=
  .next (finish s (knownRow .stampOff src (sense lv s)))

/-- HOLD (R52). -/
def execHold (lv : Levels) (src : OrderSource) (s : State) : Host.Outcome State Fault Refusal :=
  .next (finish s (knownRow .hold src (sense lv s)))

/-- SKIP (R53). -/
def execSkip (lv : Levels) (src : OrderSource) (s : State) : Host.Outcome State Fault Refusal :=
  .next (finish s (knownRow .skip src (sense lv s)))

/-- LANE_RESTART (R54). -/
def execLaneRestart (lv : Levels) (src : OrderSource) (s : State) : Host.Outcome State Fault Refusal :=
  .next (finish s (knownRow .laneRestart src (sense lv s)))

/-- SET_POSITION (R55). -/
def execSetPosition (lv : Levels) (src : OrderSource) (s : State) : Host.Outcome State Fault Refusal :=
  .next (finish s (knownRow .setPosition src (sense lv s)))

/-- TRIM_RESET (R56). -/
def execTrimReset (lv : Levels) (src : OrderSource) (s : State) : Host.Outcome State Fault Refusal :=
  .next (finish s (knownRow .trimReset src (sense lv s)))

/-- FOIL_LOAD (R57). -/
def execFoilLoad (lv : Levels) (src : OrderSource) (s : State) : Host.Outcome State Fault Refusal :=
  .next (finish s (knownRow .foilLoad src (sense lv s)))

/-- COUNT_TARGET (R58). -/
def execCountTarget (lv : Levels) (src : OrderSource) (s : State) : Host.Outcome State Fault Refusal :=
  .next (finish s (knownRow .countTarget src (sense lv s)))

/-- SURVEY (R59). -/
def execSurvey (lv : Levels) (src : OrderSource) (s : State) : Host.Outcome State Fault Refusal :=
  .next (finish s (knownRow .survey src (sense lv s)))

/-- REPORT_POLICY (R60). -/
def execReportPolicy (lv : Levels) (src : OrderSource) (s : State) : Host.Outcome State Fault Refusal :=
  .next (finish s (knownRow .reportPolicy src (sense lv s)))

/-- ACK (R61). -/
def execAck (lv : Levels) (src : OrderSource) (s : State) : Host.Outcome State Fault Refusal :=
  .next (finish s (knownRow .ack src (sense lv s)))

end Sys2Proof.Machine
end

