-- ==== Sys2Proof/Machine/OwnAccess.lean ====
section
/-! DEFINITION. What the producers of own accesses do when one completes or ends in an error (01 R13, 02 section 2.2, 03 R45
and R46, 09 R172, R173, R180, R182), and RESET_N (01 R8). -/

namespace Sys2Proof.Machine

/-! ## Reads of the Configuration Loader (R22 to R26) -/

/-- The own access issued and the words it returns, when it is a loader read of the current load. -/
def loaderWords (s : State) : Option (OwnAccess × List Word) :=
  match issuedOwn s with
  | some o =>
    if o.purpose.ofLoader && !s.loader.discard then some (o, ownReadWords s.mem o) else none
  | none => none

/-- HEADER_READ_COMPLETE (R23). -/
def headerDone (s : State) : State :=
  match loaderWords s with
  | some (o, ws) => if o.purpose = .header then headerRead ws (completeOwn o s) else s
  | none => s

/-- TABLE_READ_COMPLETE (R24). -/
def tableDone (s : State) : State :=
  match loaderWords s with
  | some (o, ws) =>
    match o.purpose with
    | .table k => tableRead k ws (completeOwn o s)
    | .header | .seedOrder _ | .seedReport _ | .entryRead | .resultWrite | .fill _ | .statusWrite => s
  | none => s

/-- R25: a seeding read recorded under the bounds in force. -/
def seedingRead (p : Purpose) (ws : List Word) (s : State) : State :=
  match p, s.loader.bounds with
  | .seedOrder first, some b => seedOrderRead b first ws s
  | .seedReport first, some b => seedReportRead b first ws s
  | _, _ => s

/-- A seeding read. -/
def Purpose.isSeeding : Purpose → Bool
  | .seedOrder _ | .seedReport _ => true
  | .header | .table _ | .entryRead | .resultWrite | .fill _ | .statusWrite => false

/-- SEEDING_READ_COMPLETE (R25); when it ends the load, the Order Unit serves the tap orders that wait (R65), one delivered
in LOADING by the burst of the commit included (log 58). -/
def seedingDone (s : State) : State :=
  match loaderWords s with
  | some (o, ws) =>
    if o.purpose.isSeeding then serveWaiting (seedingRead o.purpose ws (completeOwn o s)) else s
  | none => s

/-- R26: the read of an abandoned load has left the queue: discard is cleared and the header read is queued. -/
def discardEnds (s : State) : State :=
  placeHeaderRead { s with loader := { s.loader with discard := false } }

/-- DISCARDED_READ_COMPLETE (R26). -/
def discardedDone (s : State) : State :=
  match issuedOwn s with
  | some o => if o.purpose.ofLoader && s.loader.discard then discardEnds (completeOwn o s) else s
  | none => s

/-! ## Writes of the Order Unit and the Report Unit -/

/-- RESULT_WRITE_COMPLETE (R45): the take ends; the unit serves the tap orders that wait (R65). -/
def resultDone (s : State) : State :=
  match issuedOwn s with
  | some o =>
    if o.purpose = .resultWrite then serveWaiting (resettle (endTake (completeOwn o s))) else s
  | none => s

/-- R172: the fill index after it: the next, and after the last 0. Without a decoded ring it stays at the 0 of R170, and the
fill of an entry of a ring since replaced wraps at the size of the new one (log 54). -/
def nextFill (s : State) : Nat :=
  match s.loader.bounds with
  | some b => if s.rep.fillIndex + 1 < b.reportSize then s.rep.fillIndex + 1 else 0
  | none => s.rep.fillIndex

/-- R172: the fill completes: the mark becomes FILLED in the map of its bounds, the fill index advances, and the fill in
progress becomes absent. -/
def endFill (s : State) : State :=
  match s.rep.fill with
  | some f =>
    { s with rep := { s.rep with
        released := if f.gen = s.loader.gen then s.rep.released.erase f.entry else s.rep.released
        fillIndex := nextFill s
        fill := none } }
  | none => s

/-- A fill. -/
def Purpose.isFill : Purpose → Bool
  | .fill _ => true
  | .header | .table _ | .seedOrder _ | .seedReport _ | .entryRead | .resultWrite | .statusWrite => false

/-- FILL_COMPLETE (R172, R6): a write held on the fill is settled again; the next fill is tested at the end of the step
(log 23). -/
def fillDone (s : State) : State :=
  match issuedOwn s with
  | some o => if o.purpose.isFill then resettle (endFill (completeOwn o s)) else s
  | none => s

/-- Status write queued cleared (R180, R182). -/
def endStatusWrite (s : State) : State := { s with rep := { s.rep with statusQueued := false } }

/-- STATUS_WRITE_COMPLETE (R180). -/
def statusDone (s : State) : State :=
  match issuedOwn s with
  | some o => if o.purpose = .statusWrite then resettle (endStatusWrite (completeOwn o s)) else s
  | none => s

/-! ## Errors (R13) -/

/-- The losses a failed fill adds to the gap count: one, or the count a GAP report carried (R173). -/
def Report.lossOf : Report → Nat
  | .gap n => n
  | .row _ | .splice _ _ _ | .lane _ _ _ _ | .mode _ _ _ _ | .fault _ _ _ | .survey _ _ _ _ _ _
  | .orderDone _ _ _ | .abandon _ _ _ => 1

/-- R173: a fill ends in an error: its report counts as lost; the mark stays and the fill index does not advance. -/
def fillError (s : State) : State :=
  match s.rep.fill with
  | some f =>
    { s with rep := { s.rep with
        gap := min Config.gapMax (s.rep.gap + f.report.lossOf)
        fill := none } }
  | none => s

/-- R26, R28: a loader read ends in an error: the load fails with MEMORY, or a discarded read makes way for the header
read. -/
def loaderError (s : State) : State :=
  if s.loader.discard then discardEnds s else failLoad .memory s

/-- R46: the read of an entry ends in an error. -/
def takeError (s : State) : State :=
  match s.orders.inProgress with
  | some t => entryReadError t s
  | none => s

/-- R182: a status-block write ends in an error: status write queued is cleared and the block is marked again, MEMORY latched
before or not, so the next write is queued at the end of the step in the modes of R180. -/
def statusError (s : State) : State := markStatus (endStatusWrite s)

/-- R13: the producer is told of the error. -/
def producerError (p : Purpose) (s : State) : State :=
  match p with
  | .header | .table _ | .seedOrder _ | .seedReport _ => loaderError s
  | .entryRead => takeError s
  | .resultWrite => serveWaiting (endTake s)
  | .fill _ => fillError s
  | .statusWrite => statusError s

/-- OWN_ACCESS_ERROR (R13): memory answers word `k` of the own access issued with an error. After a failed status-block write
the next is queued at the end of this command, before the fault MEMORY is applied, so it carries the cause and not yet the
fault record (R182, log 61). -/
def ownError (k : Nat) (s : State) : State :=
  match issuedOwn s with
  | some o =>
    if k < o.addressed.length then
      resettle (producerError o.purpose
        (raiseFault .memory none (latch .memory (endOwn o k s))))
    else s
  | none => s

/-! ## RESET_N (R8, R20, R34) -/

/-- R8: an own write issued when RESET_N becomes asserted: the words memory accepts of it. -/
def landAtReset (k : Nat) (s : State) : State :=
  match issuedOwn s with
  | some o => landOwn o k s
  | none => s

/-- R8: the access in hand when RESET_N becomes asserted: one on the port runs on, any other is forwarded in bypass. Its
events and its tap order are no longer delivered (log 13). -/
def InHand.bypassed (h : InHand) : InHand :=
  { h with
    phase := match h.phase with
      | .held _ | .contender => .contender
      | .issued => .issued
    events := []
    tap := none }

/-- The port once RESET_N is asserted: an own access has run to the end of its burst (log 12). -/
def Port.bypassed : Port → Port
  | .forwarded => .forwarded
  | .free | .own => .free

/-- RESET_N_ASSERTED (R8, R34): every block takes its reset values, in BYPASS. The input lines, job memory and the access in
hand stay. A station fault raised and not yet applied is discarded with the other messages, and is not applied after the
release (log 57). -/
def resetAsserted (k : Nat) (s : State) : State :=
  if s.station.mode = .bypass then s
  else
    let m := landAtReset k s
    { State.reset with
      pending := s.pending
      mem := m.mem
      pins := s.pins
      bus := { Bus.reset with
        port := s.bus.port.bypassed
        inHand := s.bus.inHand.map InHand.bypassed
        answer := s.bus.answer }
      station := { Station.reset with mode := .bypass }
      uid := s.uid
      choice := s.choice }

/-- RESET_N_RELEASED (R8, R20, R34, R67): the straps and the encoder levels are taken, the mode becomes UNCONFIGURED, and
every block has the values it takes after RESET_N. The other input lines, job memory and the access in hand stay. -/
def resetReleased (straps : BitVec 2) (webA webB : Bool) (s : State) : State :=
  if s.station.mode = .bypass then
    { State.reset with
      pending := s.pending
      mem := s.mem
      pins := { s.pins with base := straps, webA := webA, webB := webB }
      bus := { Bus.reset with port := s.bus.port, inHand := s.bus.inHand, answer := s.bus.answer }
      uid := s.uid
      choice := s.choice }
  else s

/-! ## The meanings -/

/-- HEADER_READ_COMPLETE (R23). -/
def execHeaderReadComplete (s : State) : Host.Outcome State Fault Refusal :=
  .next (finish s (headerDone s))

/-- TABLE_READ_COMPLETE (R24). -/
def execTableReadComplete (s : State) : Host.Outcome State Fault Refusal :=
  .next (finish s (tableDone s))

/-- SEEDING_READ_COMPLETE (R25). -/
def execSeedingReadComplete (lv : Levels) (s : State) : Host.Outcome State Fault Refusal :=
  .next (finish s (seedingDone (sense lv s)))

/-- DISCARDED_READ_COMPLETE (R26). -/
def execDiscardedReadComplete (s : State) : Host.Outcome State Fault Refusal :=
  .next (finish s (discardedDone s))

/-- OWN_ACCESS_ERROR (R13). -/
def execOwnAccessError (lv : Levels) (word : Nat) (s : State) : Host.Outcome State Fault Refusal :=
  .next (finish s (ownError word (sense lv s)))

/-- RESULT_WRITE_COMPLETE (R45). -/
def execResultWriteComplete (lv : Levels) (s : State) : Host.Outcome State Fault Refusal :=
  .next (finish s (resultDone (sense lv s)))

/-- FILL_COMPLETE (R172). -/
def execFillComplete (lv : Levels) (s : State) : Host.Outcome State Fault Refusal :=
  .next (finish s (fillDone (sense lv s)))

/-- STATUS_WRITE_COMPLETE (R180). -/
def execStatusWriteComplete (s : State) : Host.Outcome State Fault Refusal :=
  .next (finish s (statusDone s))

/-- RESET_N_ASSERTED (R8). -/
def execResetNAsserted (wordsAccepted : Nat) (s : State) : Host.Outcome State Fault Refusal :=
  .next (finish s (resetAsserted wordsAccepted s))

/-- RESET_N_RELEASED (R34). -/
def execResetNReleased (straps : BitVec 2) (webA webB : Bool) (s : State) :
    Host.Outcome State Fault Refusal :=
  .next (finish s (resetReleased straps webA webB s))

end Sys2Proof.Machine
end

