-- ==== Sys2Proof/Machine/RowTrack.lean ====
section
/-! DEFINITION. The Row Track (06) and its splice list (04 section 4.4): joining cells into rows, the decision, splice
marking, pull reports, reject pulses and retirement. -/

namespace Sys2Proof.Machine

/-! ## Splice spans (R86 to R91) -/

/-- A span is open while some lane's light has not returned. -/
def Span.isOpen (p : Span) : Bool :=
  p.openLanes.l0 || p.openLanes.l1 || p.openLanes.l2 || p.openLanes.l3

/-- R86: an open span covers every position from its start on, a closed one those from its start to its end. -/
def Span.covers (p : Span) (x : Pos) : Bool :=
  !isAfter p.start x &&
    (p.isOpen ||
      match p.endSoFar with
      | some e => !isAfter x e
      | none => false)

/-- A position lies in a span of the list. -/
def inSplice (l : List Span) (x : Pos) : Bool := l.any fun p => p.covers x

/-- R125: rows whose nip position lies in a span get the splice flag; a flag set stays set. -/
def flagRow (l : List Span) (r : Row) : Row := { r with splice := r.splice || inSplice l r.nip }

/-- R125: after a change of the list, every row of the track is marked. -/
def flagRows (s : State) : State :=
  { s with track := { s.track with rows := s.track.rows.map (flagRow s.track.splices) } }

/-- R87, R88: the pending lane positions of a span that have not been reached are given up. -/
def dropResumes (span : Nat) (l : List Resume) : List Resume :=
  l.filter fun x => x.span != span || x.at_.reached

/-- A span of the list replaced, its unreached lane positions given up. -/
def reopenSpan (p : Span) (s : State) : State :=
  { s with track := { s.track with
      splices := s.track.splices.map fun x => if x.uid = p.uid then p else x
      resumes := dropResumes p.uid s.track.resumes } }

/-- R90: a new splice: a SPLICE report, cause SPLICE, and the end of a running survey. -/
def newSplice (n : Lane) (dark start : Pos) (s : State) : State :=
  endRunningSurvey .failSplice (latch .splice (offer .rowTrack (.splice n dark start) s))

/-- R88: a span that may be displaced: closed, its end plus the nip-to-reject distance not after the high-water
position. -/
def displaceable (c : Loaded) (high : Pos) (p : Span) : Bool :=
  !p.isOpen &&
    match p.endSoFar with
    | some e => !isAfter (e + c.hdr.nipToReject) high
    | none => false

/-- The newest span that covers a position (R87). -/
def coveringSpan (l : List Span) (x : Pos) : Option Span := l.reverse.find? fun p => p.covers x

/-- A new span of one lane (R86). -/
def freshSpan (uid : Nat) (start : Pos) (n : Lane) : Span :=
  { uid := uid, start := start, openLanes := (PerLane.const false).set n true, endSoFar := none }

/-- A new span added as the newest of a list. -/
def addSpan (l : List Span) (start : Pos) (n : Lane) (s : State) : State :=
  { s with
    track := { s.track with splices := l ++ [freshSpan s.uid start n] }
    uid := s.uid + 1 }

/-- R86 to R90: a detection of lane `n` at a dark start. A lane that the loaded copy has inactive forms its span like any
other, from the sensor-to-nip distance the copy holds for it (log 63). -/
def takeDetection (c : Loaded) (n : Lane) (dark : Pos) (s : State) : State :=
  let nipDark := dark + c.hdr.sensorToNip.get n
  let start := nipDark - c.hdr.spliceMarginBefore
  match coveringSpan s.track.splices nipDark with
  | some p =>
    flagRows (reopenSpan
      { p with start := earlierPos p.start start, openLanes := p.openLanes.set n true } s)
  | none =>
    if s.track.splices.length < 2 then
      newSplice n dark start (flagRows (addSpan s.track.splices start n s))
    else
      match s.track.splices.find? (displaceable c s.web.high) with
      | some old =>
        newSplice n dark start
          (flagRows (addSpan (s.track.splices.filter fun x => x.uid != old.uid) start n s))
      | none =>
        match s.track.splices.getLast? with
        | some p =>
          newSplice n dark p.start
            (flagRows (reopenSpan { p with openLanes := p.openLanes.set n true } s))
        | none => s

/-- SPLICE_DETECTION_TAKEN (R86): the oldest report of the lane's reader is a detection. -/
def spliceDetectionTaken (n : Lane) (s : State) : State :=
  match s.msgs.splices.get n with
  | .detection dark :: rest =>
    let t := { s with msgs := { s.msgs with splices := s.msgs.splices.set n rest } }
    withLoaded t fun c => takeDetection c n dark t
  | _ => s

/-- R89: the resume positions of a span that closes, one for each active lane. -/
def spanResumes (c : Loaded) (high : Pos) (p : Span) (e : Pos) : List Resume :=
  (allLanes.filter fun n => c.hdr.active n).map fun n =>
    { span := p.uid, lane := n, at_ := hold high (e - c.hdr.sensorToNip.get n) }

/-- R89: a light return of lane `n` at a position; ignored when no span has the lane open (R91). When both spans have it
open, the older takes it (log 48). -/
def takeLightReturn (c : Loaded) (n : Lane) (l : Pos) (s : State) : State :=
  match s.track.splices.find? fun p => p.openLanes.get n with
  | none => s
  | some p =>
    let laneEnd := l + c.hdr.sensorToNip.get n + c.hdr.spliceMarginAfter
    let e :=
      match p.endSoFar with
      | some x => laterPos x laneEnd
      | none => laneEnd
    let p' := { p with openLanes := p.openLanes.set n false, endSoFar := some e }
    { s with track := { s.track with
        splices := s.track.splices.map fun x => if x.uid = p.uid then p' else x
        resumes :=
          if p'.isOpen then s.track.resumes
          else s.track.resumes ++ spanResumes c s.web.high p' e } }

/-- LIGHT_RETURN_TAKEN (R89). -/
def lightReturnTaken (n : Lane) (s : State) : State :=
  match s.msgs.splices.get n with
  | .lightReturn l :: rest =>
    let t := { s with msgs := { s.msgs with splices := s.msgs.splices.set n rest } }
    withLoaded t fun c => takeLightReturn c n l t
  | _ => s

/-! ## The decision (R119 to R124) -/

/-- R111: the ABSENT cell of an active lane that has no cell in the row. -/
def absentCell : Cell :=
  { markPos := none, nipPos := none, markKind := none, status := .absent, variant := none
    setPos := none, predicted := false, decision := none, reason := none, pull := none
    outcome := none, reject := false, foilUsed := 0 }

/-- What a decision reads once for the whole row (R119). -/
structure RowView where
  mode : Mode
  windDown : Bool
  splice : Bool
  slot : Option Nat
  heat : Bool
deriving DecidableEq, Repr

/-- R122: the length of the pull of an image. -/
def pullLength (c : Loaded) (v : VariantEntry) : Nat :=
  v.imageLength.toNat + c.hdr.foilLead.toNat + c.hdr.foilTrail.toNat

/-- R122: the pull foil need, rounded up. -/
def foilNeed (c : Loaded) (v : VariantEntry) : Nat :=
  (pullLength c v * c.hdr.ratioNum + c.hdr.ratioDen - 1) / c.hdr.ratioDen

/-- The variant entry of a cell. -/
def cellVariant (c : Loaded) (cell : Cell) : Option VariantEntry :=
  cell.variant.bind fun v => c.variant? v

/-- R120, reason 10. -/
def noStrikeVariant (v : Option VariantEntry) : Bool :=
  match v with
  | some e => !e.strike
  | none => false

/-- R120, reason 11: slot sync clear, or a plate other than the predicted slot. -/
def plateMismatch (slot : Option Nat) (v : Option VariantEntry) : Bool :=
  match slot, v with
  | some k, some e => e.plate != k
  | _, _ => true

/-- R120, reason 13: a foil fault, or an image whose pull foil need exceeds foil remaining. -/
def foilShort (c : Loaded) (f : Foil) (v : Option VariantEntry) : Bool :=
  f.faulty ||
    match v with
    | some e => decide (0 < e.imageLength.toNat) && decide (f.remaining.toNat < foilNeed c e)
    | none => false

/-- R120: the first reason that applies to a cell. -/
def reasonOf (c : Loaded) (d : RowView) (f : Foil) (skip : Nat) (cell : Cell) : Reason :=
  let v := cellVariant c cell
  if cell.status = .absent then .absent
  else if d.mode = .watch then .watching
  else if d.mode = .safe then .safe
  else if d.windDown then .stopped
  else if d.splice then .splice
  else if cell.status = .hunting then .hunting
  else if cell.status ≠ .identified && cell.status ≠ .sequence then .unread
  else if cell.predicted && !c.hdr.flywheelStrike then .predicted
  else if cell.status = .sequence then .sequence
  else if noStrikeVariant v then .noStrike
  else if plateMismatch d.slot v then .plate
  else if !d.heat then .heat
  else if foilShort c f v then .foil
  else if 0 < skip then .ordered
  else .strike

/-- R120: the decision that goes with a reason. -/
def Reason.decision : Reason → Decision
  | .strike => .strike
  | .noStrike => .pass
  | .absent | .watching | .safe | .stopped | .splice | .hunting | .unread | .predicted | .sequence
  | .plate | .heat | .foil | .ordered => .skip

/-- R120: the reasons whose column says the reject flag is set, subject to R129. -/
def Reason.sets : Reason → Bool
  | .absent | .safe | .splice | .hunting | .unread | .predicted | .sequence | .plate | .heat | .foil
  | .ordered => true
  | .watching | .stopped | .noStrike | .strike => false

/-- R122: the pull of a STRIKE cell whose variant has an image. -/
def pullOf (c : Loaded) (r : Reason) (cell : Cell) : Option Pull :=
  match r, cellVariant c cell, cell.nipPos with
  | .strike, some v, some nip =>
    if 0 < v.imageLength.toNat then
      let start := nip + BitVec.setWidth 32 v.imageOffset - c.hdr.foilLead
      some { start := start
             stop := start + BitVec.setWidth 32 v.imageLength + c.hdr.foilLead + c.hdr.foilTrail
             state := .armed }
    else none
  | _, _, _ => none

/-- R111, R120, R129: a cell with its decision, reason, pull and reject flag. -/
def decideCell (c : Loaded) (mode : Mode) (r : Reason) (cell : Cell) : Cell :=
  { cell with
    decision := some r.decision
    reason := some r
    pull := pullOf c r cell
    reject := cell.reject || (r.sets && mode.rejects)
    foilUsed := 0 }

/-- R119: the cells of a row once decided: every active lane has one. -/
def decidedCells (c : Loaded) (d : RowView) (s : State) (r : Row) : PerLane (Option Cell) :=
  r.cells.mapLane fun n o =>
    if c.hdr.active n then
      let cell := o.getD absentCell
      some (decideCell c d.mode (reasonOf c d (s.foil.get n) (s.lanes.get n).skip cell) cell)
    else none

/-- The reason a lane's cell was decided by. -/
def cellReason (cells : PerLane (Option Cell)) (n : Lane) : Option Reason :=
  (cells.get n).bind fun x => x.reason

/-- R107, R120: a lane whose cell is decided SKIP / ORDERED lowers its skip counter by one. -/
def lowerSkips (cells : PerLane (Option Cell)) (s : State) : State :=
  { s with lanes := s.lanes.mapLane fun n t =>
      if cellReason cells n = some .ordered then { t with skip := t.skip - 1 } else t }

/-- R120: each cell's reason becomes its lane's last reason. -/
def setLastReasons (cells : PerLane (Option Cell)) (s : State) : State :=
  { s with track := { s.track with
      lastReason := s.track.lastReason.mapLane fun n o =>
        match cellReason cells n with
        | some r => some r
        | none => o } }

/-- R123, R37: a strike row advances the strike rows count and lowers the count target; at 0 the target is removed,
COUNT_TARGET completes DONE and wind-down is set if it was clear. -/
def countStrikeRow (s : State) : State :=
  let t := { s with cnt := { s.cnt with strikeRows := s.cnt.strikeRows + 1 } }
  match s.station.countTarget with
  | none => t
  | some k =>
    if k ≤ 1 then
      let u := removeTarget .done t
      if u.station.windDown then u else setWindDown u
    else { t with station := { t.station with countTarget := some (k - 1) } }

/-- R122: the pull of a lane's cell handed to its Foil Drive. -/
def armLane (uid : Nat) (cells : PerLane (Option Cell)) (n : Lane) (s : State) : State :=
  match (cells.get n).bind fun x => x.pull with
  | some p => armPull n uid p s
  | none => s

/-- R124, R142: the decided row handed to the Impression Controller and taken by it in the same step (log 51); its nip, when
already reached and the oldest held, is taken at once after the engagement. -/
def handDecided (c : Loaded) (r : Row) (s : State) : State :=
  let t := takeDecided c r s
  match t.imp.nips with
  | [h] => if h.nip.reached then takeNip t else t
  | _ => t

/-- R119: a row is decided as one event. -/
def decideRow (uid : Nat) (s : State) : State :=
  withLoaded s fun c =>
    match findRow uid s with
    | none => s
    | some r =>
      let d : RowView :=
        { mode := s.station.mode, windDown := s.station.windDown, splice := r.splice
          slot := predictedSlot c s, heat := s.pins.heatRdy }
      let cells := decidedCells c d s r
      let r' := { r with stage := .decided, cells := cells }
      let s1 := setLastReasons cells (lowerSkips cells (updateRow uid (fun _ => r') s))
      let s2 := if r'.isStrike then countStrikeRow s1 else s1
      handDecided c r' (forLanes (armLane uid cells) s2)

/-- The oldest OPEN row. -/
def oldestOpen (s : State) : Option Row := s.track.rows.find? fun r => r.stage == .opened

/-- DECISION_POINT_REACHED (R119): decision points are taken oldest row first. -/
def decisionTaken (s : State) : State :=
  match oldestOpen s with
  | some r => if r.decisionPoint.reached then decideRow r.uid s else s
  | none => s

/-- R114, R115: a row whose decision point is reached as it is set is decided at once, when no older row waits. -/
def decideIfReached (uid : Nat) (s : State) : State :=
  match oldestOpen s with
  | some r => if r.uid = uid && r.decisionPoint.reached then decideRow uid s else s
  | none => s

/-! ## Placing a cell (R113 to R117) -/

/-- The two positions lie within the skew tolerance of each other. -/
def withinSkew (c : Loaded) (a b : Pos) : Bool :=
  decide ((delta a b).natAbs ≤ c.hdr.skewTolerance.toNat)

/-- R113: the newest OPEN row within the skew tolerance of a nip position. -/
def joinRow (c : Loaded) (nip : Pos) (rows : List Row) : Option Row :=
  rows.reverse.find? fun r => r.stage == .opened && withinSkew c nip r.nip

/-- R116: a skew discard drops the cell, counts it and notifies its tracker. -/
def skewDiscard (n : Lane) (s : State) : State :=
  giveSkew n { s with cnt := { s.cnt with skewDiscards := s.cnt.skewDiscards + 1 } }

/-- R114: a new row with its first cell, added as the newest; decided at once when its decision point is reached, which is
when it is not after the high-water position, as R69, R114 and R118 say (log 46). -/
def createRow (c : Loaded) (n : Lane) (cell : Cell) (nip : Pos) (s : State) : State :=
  let r : Row :=
    { uid := s.uid, serial := s.track.serial, nip := nip
      decisionPoint := hold s.web.high (nip - c.hdr.throwLead)
      stage := .opened, slot := none, regError := none, splice := inSplice s.track.splices nip
      throwAtNip := none, rejectPoint := none
      cells := (PerLane.const none).set n (some cell) }
  decideIfReached s.uid
    { s with
      track := { s.track with rows := s.track.rows ++ [r], serial := s.track.serial + 1 }
      uid := s.uid + 1 }

/-- R114, R117: a cell that needs a new row creates one, or is dropped with TRACK_OVERFLOW when the track holds 32. -/
def needRow (c : Loaded) (n : Lane) (cell : Cell) (nip : Pos) (s : State) : State :=
  if s.track.rows.length < Config.trackCapacity then createRow c n cell nip s
  else raiseFault .trackOverflow (some n) s

/-- R115: moving the row named `uid` to a nip position keeps the track in order. -/
def keepsOrder (uid : Nat) (nip : Pos) (rows : List Row) : Bool :=
  let before := rows.takeWhile fun r => r.uid != uid
  let after := (rows.dropWhile fun r => r.uid != uid).drop 1
  (match before.getLast? with
    | some r => isAfter nip r.nip
    | none => true) &&
  match after with
  | r :: _ => isAfter r.nip nip
  | [] => true

/-- R113, R115: a cell joins a row; a lead cell moves the row to its own nip position when the order allows. The new decision
point replaces the old one, also one already reached and not yet taken (log 49). -/
def joinCell (c : Loaded) (n : Lane) (cell : Cell) (nip : Pos) (r : Row) (s : State) : State :=
  let r1 := { r with cells := r.cells.set n (some cell) }
  let moves := n.val == c.hdr.leadLane && keepsOrder r.uid nip s.track.rows
  let r2 :=
    if moves then { r1 with nip := nip, decisionPoint := hold s.web.high (nip - c.hdr.throwLead) }
    else r1
  let s1 := updateRow r.uid (fun _ => flagRow s.track.splices r2) s
  if moves then decideIfReached r.uid s1 else s1

/-- R113: a cell is placed in a working mode. -/
def placeCell (c : Loaded) (n : Lane) (cell : Cell) (nip : Pos) (s : State) : State :=
  match joinRow c nip s.track.rows with
  | some r =>
    match r.cells.get n with
    | none => joinCell c n cell nip r s
    | some _ => skewDiscard n s
  | none =>
    match s.track.rows.getLast? with
    | none => needRow c n cell nip s
    | some newest =>
      if decide ((c.hdr.skewTolerance.toNat : Int) < delta nip newest.nip) then needRow c n cell nip s
      else skewDiscard n s

/-- CELL_PLACED (R113): the oldest cell of the lane is placed, or discarded outside the working modes. A cell of a lane
that the loaded copy does not name is dropped with no count and no notice (log 45); one handed before a load and taken in a
working mode is placed like any other (log 50). -/
def cellTaken (n : Lane) (s : State) : State :=
  match s.msgs.cells.get n with
  | [] => s
  | cell :: rest =>
    let t := { s with msgs := { s.msgs with cells := s.msgs.cells.set n rest } }
    if s.station.mode.working then
      withLoaded t fun c =>
        match cell.nipPos with
        | some nip => if c.hdr.active n then placeCell c n cell nip t else t
        | none => t
    else t

/-! ## Pull reports (R128) -/

/-- R128: a pull report recorded in a cell; FOILED becomes BLIND for a pull not begun or stopped in a row that has passed
the nip. -/
def recordPull (rejects struck : Bool) (m : PullMsg) (cell : Cell) : Cell :=
  match cell.pull with
  | none => cell
  | some p =>
    match m.event with
    | .begun => { cell with pull := some { p with state := .active } }
    | .ended => { cell with pull := some { p with state := .completed }, foilUsed := m.credit }
    | .notBegun | .stopped =>
      let blind := struck && cell.outcome == some .foiled
      { cell with
        pull := some { p with state := if m.event = .stopped then .stopped else .notStarted }
        foilUsed := if m.event = .stopped then m.credit else 0
        outcome := if blind then some .blind else cell.outcome
        reject := cell.reject || (blind && rejects) }

/-- R128: a pull report recorded in the cell of its lane. -/
def recordPullRow (rejects : Bool) (n : Lane) (m : PullMsg) (r : Row) : Row :=
  let cell := (r.cells.get n).map (recordPull rejects (r.stage == .struck) m)
  { r with cells := r.cells.set n cell }

/-- PULL_REPORT (R128): the oldest report of a lane's drive; one whose row has left the track is not recorded. -/
def pullReportTaken (n : Lane) (s : State) : State :=
  match s.msgs.pulls.get n with
  | [] => s
  | m :: rest =>
    updateRow m.row (recordPullRow s.station.mode.rejects n m)
      { s with msgs := { s.msgs with pulls := s.msgs.pulls.set n rest } }

/-! ## Rejects and retirement (R129 to R131) -/

/-- R129: at the reject point of a row that carries the splice flag every cell's flag is set, in RUN and SAFE. -/
def applySplice (rejects : Bool) (r : Row) : Row :=
  if r.splice && rejects then
    { r with cells := r.cells.map fun o => o.map fun cell => { cell with reject := true } }
  else r

/-- R130: one reject pulse on a lane: the line is asserted, or its end moved on; the rejects count advances. -/
def beginPulse (c : Loaded) (point : Pos) (n : Lane) (s : State) : State :=
  let e := hold s.web.high (point + c.hdr.rejectWidth)
  let e' :=
    match s.track.rejectEnd.get n with
    | some h => if isAfter e.pos h.pos then e else h
    | none => e
  { s with
    track := { s.track with rejectEnd := s.track.rejectEnd.set n (some e') }
    cnt := { s.cnt with rejects := s.cnt.rejects.set n (s.cnt.rejects.get n + 1) } }

/-- R130: a pulse for the lane's cell when its reject flag is set. -/
def pulseLane (c : Loaded) (point : Pos) (r : Row) (n : Lane) (s : State) : State :=
  match r.cells.get n with
  | some cell => if cell.reject then beginPulse c point n s else s
  | none => s

/-- R168: the credit of a cell's record that is still SERVED. -/
def servedCredit (f : Foil) (uid : Nat) : Option Word :=
  (f.records.find? fun r => r.served && r.row == uid).map fun r => r.credit

/-- R168: a row with the foil used of the cells whose pull is still SERVED. -/
def withCredits (s : State) (r : Row) : Row :=
  { r with cells := r.cells.mapLane fun n o =>
      o.map fun cell =>
        match servedCredit (s.foil.get n) r.uid with
        | some w => { cell with foilUsed := w }
        | none => cell }

/-- R131: the row leaves the track, the count advances, the ROW report is offered and the Survey Unit takes the row. -/
def retireRow (r : Row) (s : State) : State :=
  let r' := withCredits s r
  let s1 := { s with
    track := { s.track with rows := s.track.rows.filter fun x => x.uid != r.uid }
    cnt := { s.cnt with rowsRetired := s.cnt.rowsRetired + 1 } }
  surveyRow r' (offer .rowTrack (.row r') s1)

/-- A decision point is reached and not yet taken: it goes before reject points and reject ends (R118). -/
def decisionDue (s : State) : Bool :=
  s.track.rows.any fun r => r.stage == .opened && r.decisionPoint.reached

/-- The oldest row, when it has passed the nip and its reject point is reached. -/
def rejectDue (s : State) : Option (Row × Pos) :=
  match s.track.rows with
  | r :: _ =>
    match r.rejectPoint with
    | some h => if r.stage == .struck && h.reached then some (r, h.pos) else none
    | none => none
  | [] => none

/-- REJECT_POINT_REACHED (R130, R131). -/
def rejectPointTaken (s : State) : State :=
  withLoaded s fun c =>
    if decisionDue s then s
    else
      match rejectDue s with
      | some (r, point) =>
        let r' := applySplice s.station.mode.rejects r
        retireRow r' (forLanes (pulseLane c point r') s)
      | none => s

/-- REJECT_END_REACHED (R130): REJ of the lane is negated, after the decision and reject points due. -/
def rejectEndTaken (n : Lane) (s : State) : State :=
  if isReached (s.track.rejectEnd.get n) && !decisionDue s && (rejectDue s).isNone then
    { s with track := { s.track with rejectEnd := s.track.rejectEnd.set n none } }
  else s

/-! ## The meanings of the rows -/

/-- CELL_PLACED (R113). -/
def execCellPlaced (lv : Levels) (n : Lane) (s : State) : Host.Outcome State Fault Refusal :=
  .next (finish s (cellTaken n (sense lv s)))

/-- SPLICE_DETECTION_TAKEN (R86). -/
def execSpliceDetectionTaken (n : Lane) (s : State) : Host.Outcome State Fault Refusal :=
  .next (finish s (spliceDetectionTaken n s))

/-- LIGHT_RETURN_TAKEN (R89). -/
def execLightReturnTaken (n : Lane) (s : State) : Host.Outcome State Fault Refusal :=
  .next (finish s (lightReturnTaken n s))

/-- DECISION_POINT_REACHED (R119). -/
def execDecisionPointReached (lv : Levels) (s : State) : Host.Outcome State Fault Refusal :=
  .next (finish s (decisionTaken (sense lv s)))

/-- PULL_REPORT (R128). -/
def execPullReport (n : Lane) (s : State) : Host.Outcome State Fault Refusal :=
  .next (finish s (pullReportTaken n s))

/-- REJECT_POINT_REACHED (R130, R131). -/
def execRejectPointReached (s : State) : Host.Outcome State Fault Refusal :=
  .next (finish s (rejectPointTaken s))

/-- REJECT_END_REACHED (R130). -/
def execRejectEndReached (n : Lane) (s : State) : Host.Outcome State Fault Refusal :=
  .next (finish s (rejectEndTaken n s))

end Sys2Proof.Machine
end

