-- ==== Sys2Proof/Machine/StationFault.lean ====
section
/-! DEFINITION. Applying a station fault (R39, R40) and what WEB_REVERSE does besides (R71). -/

namespace Sys2Proof.Machine

/-- R146: WEB_REVERSE sets the slot counter to 0 and clears slot sync; R141: it gives up the held nips. -/
def reverseImpression (s : State) : State :=
  { s with imp := { s.imp with nips := [], slotCounter := 0, slotSync := false } }

/-- R71: the track and the splice list are emptied with an ABANDON report, the pulls stop and the ARMED records go, the
slot count starts over, every active lane goes to HUNT, and a running survey fails. -/
def reverseEffects (s : State) : State :=
  endRunningSurvey .failIncomplete
    (lanesToHuntReverse (reverseImpression (forLanes clearPulls (abandonTrack .webReverse s))))

/-- R39: RUN becomes SAFE: the throw is released and every pull stops. -/
def enterSafe (k : FaultKind) (s : State) : State :=
  forLanes haltPull (releaseThrow (setMode .safe (.fault k) s))

/-- R39, R40: a fault is recorded, FAULT is latched, and in HELD and the working modes a FAULT report is offered. -/
def noteFault (f : RaisedFault) (s : State) : State :=
  let t := latch .fault (recordFault f.kind f.lane s)
  if s.station.mode.configured then offer .station (.fault f.kind s.web.pos f.lane) t else t

/-- R39: a station fault applied, by the mode it finds. -/
def applyFault (f : RaisedFault) (s : State) : State :=
  match s.station.mode with
  | .bypass => s
  | .unconfigured | .loading | .held => noteFault f s
  | .watch =>
    let t := noteFault f s
    if f.kind = .webReverse then reverseEffects t
    else if f.kind = .trimLimit then { t with imp := { t.imp with trimStopped := true } }
    else t
  | .run =>
    let t := enterSafe f.kind (noteFault f s)
    if f.kind = .webReverse then reverseEffects t else t
  | .safe =>
    let t := noteFault f s
    if f.kind = .webReverse then reverseEffects t else t

/-- STATION_FAULT_APPLIED (R39): one of the faults raised and not yet applied. -/
def faultTaken (which : Nat) (s : State) : State :=
  match s.msgs.faults[which]? with
  | some f => applyFault f { s with msgs := { s.msgs with faults := s.msgs.faults.eraseIdx which } }
  | none => s

/-- STATION_FAULT_APPLIED (R39, R40, R71). -/
def execStationFaultApplied (which : Nat) (s : State) : Host.Outcome State Fault Refusal :=
  .next (finish s (faultTaken which s))

end Sys2Proof.Machine
end

