-- ==== Sys2Proof/Machine/WebCounter.lean ====
section
/-! DEFINITION. The Web Counter (04 section 4.1): counts, the high-water position, reaching positions, and reverse motion. -/

namespace Sys2Proof.Machine

/-! ## Reaching positions (R69) -/

/-- A position held, if any, when the high-water position becomes `high`. -/
def advanceHeld (high : Pos) (h : Option Held) : Option Held := h.map (Held.advance high)

/-- The positions of a reader. -/
def Reader.advance (high : Pos) (r : Reader) : Reader :=
  { r with
    windowEnd := advanceHeld high r.windowEnd
    spliceAt := advanceHeld high r.spliceAt
    read := r.read.map fun x =>
      { x with nextSample := advanceHeld high x.nextSample, stop := x.stop.advance high } }

/-- The positions of a row: its decision point while OPEN, its reject point after the nip. -/
def Row.advance (high : Pos) (r : Row) : Row :=
  { r with
    decisionPoint := r.decisionPoint.advance high
    rejectPoint := advanceHeld high r.rejectPoint }

/-- The positions of the Row Track. -/
def Track.advance (high : Pos) (t : Track) : Track :=
  { t with
    rows := t.rows.map (Row.advance high)
    resumes := t.resumes.map fun x => { x with at_ := x.at_.advance high }
    rejectEnd := t.rejectEnd.map (advanceHeld high) }

/-- The positions of the Impression Controller. -/
def Impression.advance (high : Pos) (i : Impression) : Impression :=
  { i with
    release := advanceHeld high i.release
    nips := i.nips.map fun h => { h with nip := h.nip.advance high } }

/-- The positions of a pull record: its start while ARMED, its own end while SERVED. -/
def PullRec.advance (high : Pos) (r : PullRec) : PullRec :=
  if r.served then { r with ownEnd := r.ownEnd.advance high } else { r with start := r.start.advance high }

/-- The positions of a Foil Drive. -/
def Foil.advance (high : Pos) (f : Foil) : Foil :=
  { f with
    records := f.records.map (PullRec.advance high)
    pullEnd := advanceHeld high f.pullEnd }

/-- R69: an advance reaches every position held equal to the new high-water position. -/
def reachPositions (s : State) : State :=
  { s with
    readers := s.readers.map (Reader.advance s.web.high)
    track := s.track.advance s.web.high
    imp := s.imp.advance s.web.high
    foil := s.foil.map (Foil.advance s.web.high) }

/-- R68, R158, R159: an advance: the high-water position takes the web position; the drives step, and the lanes that ran
out are tested (R165); positions are reached. -/
def advanceWeb (s : State) : State :=
  let t := { s with web := { s.web with high := s.web.pos, behind := false } }
  reachPositions
    (match t.loader.loaded with
      | some c => forLanes (testRunOut t) (forLanes (foilAdvance c) t)
      | none => t)

/-! ## Counts (R67, R68, R70) -/

/-- The pair of levels one step on along the forward sequence 00, 10, 11, 01. -/
def Pins.forward (p : Pins) : Pins := { p with webA := !p.webB, webB := p.webA }

/-- The pair of levels one step against the forward sequence. -/
def Pins.backward (p : Pins) : Pins := { p with webA := p.webB, webB := !p.webA }

/-- WEB_FORWARD_COUNT (R67, R68): while RESET_N is asserted the pair is not followed. -/
def forwardCount (s : State) : State :=
  if s.station.mode = .bypass then s
  else
    let t := { s with pins := s.pins.forward, web := { s.web with pos := s.web.pos + 1 } }
    if s.station.mode.working then
      if isAfter t.web.pos t.web.high then advanceWeb t
      else if t.web.pos = t.web.high then { t with web := { t.web with behind := false } }
      else t
    else setHighWater t

/-- R70: a reverse beyond tolerance. -/
def reverseBeyond (s : State) : State :=
  raiseFault .webReverse none
    { setHighWater s with readers := s.readers.map Reader.reverse }

/-- WEB_BACKWARD_COUNT (R67, R68, R70). -/
def backwardCount (s : State) : State :=
  if s.station.mode = .bypass then s
  else
    let t := { s with pins := s.pins.backward, web := { s.web with pos := s.web.pos - 1 } }
    if s.station.mode.working then
      let u := { t with web := { t.web with behind := true } }
      withLoaded u fun c =>
        if (c.hdr.reverseTolerance.toNat : Int) < delta u.web.high u.web.pos then reverseBeyond u
        else forLanes backwardReader u
    else setHighWater t

/-- ENCODER_DOUBLE_CHANGE (R67): not a count; the counter takes the new pair as its levels. -/
def doubleChange (s : State) : State :=
  if s.station.mode = .bypass then s
  else { s with pins := { s.pins with webA := !s.pins.webA, webB := !s.pins.webB } }

/-! ## The meanings of the rows -/

/-- WEB_FORWARD_COUNT (R67, R68). -/
def execWebForwardCount (s : State) : Host.Outcome State Fault Refusal :=
  .next (finish s (forwardCount s))

/-- WEB_BACKWARD_COUNT (R67, R68, R70). -/
def execWebBackwardCount (s : State) : Host.Outcome State Fault Refusal :=
  .next (finish s (backwardCount s))

/-- ENCODER_DOUBLE_CHANGE (R67). -/
def execEncoderDoubleChange (s : State) : Host.Outcome State Fault Refusal :=
  .next (finish s (doubleChange s))

end Sys2Proof.Machine
end

