-- ==== Sys2Proof/Machine/Dispatch.lean ====
section
/-! DEFINITION. The effect of every command: one arm per row of spec/opcode_table.json. -/

namespace Sys2Proof.Machine

def exec (i : Instr) (s : State) : Host.Outcome State Fault Refusal :=
  match i with
  | .processorWrite lv addr words => Sys2Proof.Machine.execProcessorWrite lv addr words s
  | .processorRead addr enables => Sys2Proof.Machine.execProcessorRead addr enables s
  | .portGrant => Sys2Proof.Machine.execPortGrant s
  | .forwardedBurstEnd lv => Sys2Proof.Machine.execForwardedBurstEnd lv s
  | .forwardedAccessError lv word => Sys2Proof.Machine.execForwardedAccessError lv word s
  | .resetNAsserted wordsAccepted => Sys2Proof.Machine.execResetNAsserted wordsAccepted s
  | .resetNReleased straps webA webB => Sys2Proof.Machine.execResetNReleased straps webA webB s
  | .headerReadComplete => Sys2Proof.Machine.execHeaderReadComplete s
  | .tableReadComplete => Sys2Proof.Machine.execTableReadComplete s
  | .seedingReadComplete lv => Sys2Proof.Machine.execSeedingReadComplete lv s
  | .discardedReadComplete => Sys2Proof.Machine.execDiscardedReadComplete s
  | .ownAccessError lv word => Sys2Proof.Machine.execOwnAccessError lv word s
  | .orderTakeBegin => Sys2Proof.Machine.execOrderTakeBegin s
  | .unknownOrderKind lv src kind => Sys2Proof.Machine.execUnknownOrderKind lv src kind s
  | .watch lv src => Sys2Proof.Machine.execWatch lv src s
  | .run lv src => Sys2Proof.Machine.execRun lv src s
  | .stampOff lv src => Sys2Proof.Machine.execStampOff lv src s
  | .hold lv src => Sys2Proof.Machine.execHold lv src s
  | .skip lv src => Sys2Proof.Machine.execSkip lv src s
  | .laneRestart lv src => Sys2Proof.Machine.execLaneRestart lv src s
  | .setPosition lv src => Sys2Proof.Machine.execSetPosition lv src s
  | .trimReset lv src => Sys2Proof.Machine.execTrimReset lv src s
  | .foilLoad lv src => Sys2Proof.Machine.execFoilLoad lv src s
  | .countTarget lv src => Sys2Proof.Machine.execCountTarget lv src s
  | .survey lv src => Sys2Proof.Machine.execSurvey lv src s
  | .reportPolicy lv src => Sys2Proof.Machine.execReportPolicy lv src s
  | .ack lv src => Sys2Proof.Machine.execAck lv src s
  | .resultWriteComplete lv => Sys2Proof.Machine.execResultWriteComplete lv s
  | .stationFaultApplied which => Sys2Proof.Machine.execStationFaultApplied which s
  | .webForwardCount => Sys2Proof.Machine.execWebForwardCount s
  | .webBackwardCount => Sys2Proof.Machine.execWebBackwardCount s
  | .encoderDoubleChange => Sys2Proof.Machine.execEncoderDoubleChange s
  | .markLeadingEdge lane => Sys2Proof.Machine.execMarkLeadingEdge lane s
  | .markTrailingEdge lane => Sys2Proof.Machine.execMarkTrailingEdge lane s
  | .windowEndReached lane => Sys2Proof.Machine.execWindowEndReached lane s
  | .samplePositionReached lane => Sys2Proof.Machine.execSamplePositionReached lane s
  | .stopSampleReached lane => Sys2Proof.Machine.execStopSampleReached lane s
  | .spliceDetection lane => Sys2Proof.Machine.execSpliceDetection lane s
  | .readTaken lane => Sys2Proof.Machine.execReadTaken lane s
  | .strayNotice lane => Sys2Proof.Machine.execStrayNotice lane s
  | .skewDiscardNotice lane => Sys2Proof.Machine.execSkewDiscardNotice lane s
  | .cellPlaced lv lane => Sys2Proof.Machine.execCellPlaced lv lane s
  | .spliceDetectionTaken lane => Sys2Proof.Machine.execSpliceDetectionTaken lane s
  | .lightReturnTaken lane => Sys2Proof.Machine.execLightReturnTaken lane s
  | .resumePositionReached lane => Sys2Proof.Machine.execResumePositionReached lane s
  | .decisionPointReached lv => Sys2Proof.Machine.execDecisionPointReached lv s
  | .nipReached => Sys2Proof.Machine.execNipReached s
  | .releasePointReached => Sys2Proof.Machine.execReleasePointReached s
  | .throwOkRise => Sys2Proof.Machine.execThrowOkRise s
  | .throwOkFall => Sys2Proof.Machine.execThrowOkFall s
  | .cylIndex => Sys2Proof.Machine.execCylIndex s
  | .heatRdyFall => Sys2Proof.Machine.execHeatRdyFall s
  | .foilbrkAsserted lane => Sys2Proof.Machine.execFoilbrkAsserted lane s
  | .pullStartReached lane => Sys2Proof.Machine.execPullStartReached lane s
  | .ownPullEndReached lane => Sys2Proof.Machine.execOwnPullEndReached lane s
  | .pullEndReached lane => Sys2Proof.Machine.execPullEndReached lane s
  | .pullReport lane => Sys2Proof.Machine.execPullReport lane s
  | .rejectPointReached => Sys2Proof.Machine.execRejectPointReached s
  | .rejectEndReached lane => Sys2Proof.Machine.execRejectEndReached lane s
  | .fillComplete lv => Sys2Proof.Machine.execFillComplete lv s
  | .statusWriteComplete => Sys2Proof.Machine.execStatusWriteComplete s
  | .orderEntryReadComplete lv => Sys2Proof.Machine.execOrderEntryReadComplete lv s

end Sys2Proof.Machine
end

