-- ==== Sys2Proof/Safety.lean ====
section
/-! DEFINITION. What counts as a safe step and as a well-kept state, in the terms statements use. -/

namespace Sys2Proof.Machine

/-- A step is safe when it answers a next state: it neither faults nor refuses. -/
def SafeStep (s : State) : Prop := ∃ t, step s = .next t

/-- A property of states is kept by every step. -/
def KeptByStep (p : State → Prop) : Prop := ∀ s t, p s → step s = .next t → p t

/-- Job memory is in its canonical form. -/
def MemoryCanonical (s : State) : Prop := Memory.wf s.mem = true

/-- R10: the pass-over count is 0 to 4. -/
def PassOverInRange (s : State) : Prop := s.bus.passOver ≤ Config.passOverLimit

/-- R64: at most 4 tap orders wait. -/
def TapQueueInRange (s : State) : Prop := s.orders.tapQueue.length ≤ Config.tapQueueCapacity

/-- R174: at most 8 reports wait. -/
def PostQueueInRange (s : State) : Prop := s.rep.post.length ≤ Config.postQueueCapacity

/-- R112: the row track holds at most 32 rows. -/
def TrackInRange (s : State) : Prop := s.track.rows.length ≤ Config.trackCapacity

/-- R101: "The quality counter lies between 0 and 32, and equals 32 exactly while the lane is BLOCKED"; R107: the skip
counter is held at 255. -/
def Tracker.inRange (t : Tracker) : Prop :=
  t.quality ≤ Config.blockedQuality ∧ (t.quality = Config.blockedQuality ↔ t.state = .blocked) ∧
    t.skip ≤ Config.skipMax

/-- Every lane's tracker keeps R101 and R107. -/
def LanesInRange (s : State) : Prop := ∀ n : Lane, (s.lanes.get n).inRange

/-- The names the model gives rows and splice spans (log 29) are distinct, and the next one is new. -/
def Named (rows : List Row) (splices : List Span) (uid : Nat) : Prop :=
  rows.Pairwise (fun a b => a.uid ≠ b.uid) ∧ splices.Pairwise (fun a b => a.uid ≠ b.uid) ∧
    (∀ r ∈ rows, r.uid < uid) ∧ ∀ p ∈ splices, p.uid < uid

/-- The rows and the splice spans of the track keep distinct names. -/
def TrackNames (s : State) : Prop := Named s.track.rows s.track.splices s.uid

/-- R136: what each throw state says of THROW_OK, of the mode, of the strike horizon and of the release point. -/
def ThrowTable (s : State) : Prop :=
  match s.imp.throw with
  | .off => s.imp.horizon = none ∧ s.imp.release = none
  | .engaging =>
    s.pins.throwOk = false ∧ s.station.mode = .run ∧ s.imp.horizon.isSome = true ∧ s.imp.release.isSome = true
  | .on =>
    s.pins.throwOk = true ∧ s.station.mode = .run ∧ s.imp.horizon.isSome = true ∧ s.imp.release.isSome = true
  | .releasing =>
    s.pins.throwOk = true ∧ s.station.mode ≠ .bypass ∧ s.imp.horizon = none ∧ s.imp.release = none

/-! ## Vocabulary of the statements -/

/-- The row of an order kind. -/
def OrderKind.command (k : OrderKind) (lv : Levels) (src : OrderSource) : Instr :=
  match k with
  | .watch => .watch lv src
  | .run => .run lv src
  | .stampOff => .stampOff lv src
  | .hold => .hold lv src
  | .skip => .skip lv src
  | .laneRestart => .laneRestart lv src
  | .setPosition => .setPosition lv src
  | .trimReset => .trimReset lv src
  | .foilLoad => .foilLoad lv src
  | .countTarget => .countTarget lv src
  | .survey => .survey lv src
  | .reportPolicy => .reportPolicy lv src
  | .ack => .ack lv src

/-- The source of an order row brings the Order Unit the order `o` of kind code `kind`, with origin `g`: the read of the
ring entry being taken is issued and returns it (R44), or a tap makes it while the unit is free and no other tap order
waits (R65). -/
def Presents (kind : Byte) (src : OrderSource) (s : State) (o : Order) (g : Origin) : Prop :=
  match src with
  | .entry =>
    ∃ own t, issuedOwn s = some own ∧ own.purpose = .entryRead ∧ own.write = false ∧
      s.orders.inProgress = some t ∧ o = readOrder (ownReadWords s.mem own) ∧ o.kind = kind ∧
      g = .ring t.entry
  | .tap n lane arg =>
    unitFree s = true ∧ s.orders.tapQueue = [] ∧ o = TapOrder.order ⟨n.val, kind, lane, arg⟩ ∧ o.kind = kind ∧
      g = .tap n.val

/-- The state in which an order that a source brings is judged: the read of its entry has ended (R44), or the tap order
is counted (R66). -/
def judgedAt (src : OrderSource) (s : State) : State :=
  match src with
  | .entry =>
    match issuedOwn s with
    | some own => completeOwn own s
    | none => s
  | .tap _ _ _ => { s with orders := { s.orders with tapOrders := s.orders.tapOrders + 1 } }

/-- The state that shows the result of an order of kind code `kind`, from the state its effect leaves: a refusal is counted
(R44); a ring order has its result write placed at its entry (R45), a tap order is the last tap result and marks the status
block (R66). -/
def shown (kind : Byte) (src : OrderSource) (r : OrderResult) : State :=
  let v := r.st
  let n := if r.code.isRefusal then v.orders.refusals + 1 else v.orders.refusals
  match src with
  | .entry =>
    match v.orders.inProgress with
    | some t =>
      { v with
        orders := { v.orders with refusals := n, inProgress := some { t with writing := true } }
        bus := { v.bus with
          queue := v.bus.queue ++ [⟨v.uid, .resultWrite, true, resultBursts t.addr r.code r.value⟩] }
        uid := v.uid + 1 }
    | none => v
  | .tap k _ _ =>
    { v with
      orders := { v.orders with refusals := n, lastTap := some ⟨k.val, kind, r.code, r.value⟩ }
      rep := { v.rep with dirty := true } }

/-- An address is one of the bytes that addressed words enable. -/
def enabledByte (ws : List (Addr × WordReq)) (x : Nat) : Prop :=
  ∃ p ∈ ws, ∃ k < 4, p.2.en.getLsbD k = true ∧ x = (p.1 + BitVec.ofNat 24 k).toNat

/-- The state with one lane's reader read, for statements that name it. -/
def State.reader (s : State) (n : Lane) : Reader := s.readers.get n

/-- The state with one lane's tracker read. -/
def State.lane (s : State) (n : Lane) : Tracker := s.lanes.get n

/-- The state with one lane's Foil Drive read. -/
def State.drive (s : State) (n : Lane) : Foil := s.foil.get n

end Sys2Proof.Machine
end

