-- ==== Sys2Proof/Certificates/Slice0/Obligations.lean ====
section
/-! DEFINITION. The statements for the provers. In them, `finish s u` is the end of every step: the Report Unit takes the
reports offered, tests for a fill and for a status-block write (the statements EndOfStepFrame, ReportQueueing and
StatusWriteQueued say what it does); `u` is what the command itself makes of `s`. -/

open Sys2Proof Sys2Proof.Machine

/-! ## The queue of commands -/

/-- A step takes the command at the front of the queue and runs it on the state with the queue's rest; with no command
waiting the part idles (this last is the model's choice, log 3). -/
def Obligations.StepRunsFrontCommand : Prop :=
  (∀ (c : Instr) (rest : List Instr) (s : State),
    step { s with pending := c :: rest } = exec c { s with pending := rest }) ∧
    ∀ s : State, s.pending = [] → step s = .next s

/-- Every command answers a next state in every state, and none takes from or adds to the queue of commands. That a
command whose event cannot happen in the present state answers a next state, too, is the model's choice (log 4). -/
def Obligations.EveryCommandAnswersAndKeepsTheQueue : Prop :=
  ∀ (c : Instr) (s : State), ∃ t, exec c s = .next t ∧ t.pending = s.pending

/-! ## Reset -/

/-- The values the spec gives after RESET_N (R8, R34, R41, R67, R68, R72, R91, R94, R112, R141, R146, R154, R156, R170, R178,
R180, R183, R184, R186), field by field; and that the part of each block after RESET_N is the constant that other statements
name. A field of the model's own that stands for a state its rule gives (a held position, the loader's discard) is absent or
clear with it; among them no message waits between blocks (log 9). -/
def Obligations.ResetGivesTheSpecifiedValues : Prop :=
  let s := State.reset
  (s.station.mode = .unconfigured ∧ s.station.cause = .reset ∧ s.station.windDown = false ∧
      s.station.countTarget = none ∧ s.station.record = none ∧ s.station.secondary = 0) ∧
    (s.loader.phase = .idle ∧ s.loader.edited = false ∧ s.loader.discard = false ∧ s.loader.loaded = none ∧
      s.loader.bounds = none ∧ s.loader.confirmed = false ∧ s.loader.edition = 0 ∧ s.loader.error = .none) ∧
    (s.bus.queue = [] ∧ s.bus.passOver = 0 ∧ s.bus.inHand = none ∧ s.bus.guardDrops = 0) ∧
    (s.orders.handed = [] ∧ s.orders.takeIndex = 0 ∧ s.orders.inProgress = none ∧ s.orders.tapQueue = [] ∧
      s.orders.slots = ⟨none, none, none⟩ ∧ s.orders.lastTap = none ∧ s.orders.refusals = 0 ∧
      s.orders.tapOrders = 0 ∧ s.orders.tapLosses = 0) ∧
    (s.web.pos = 0 ∧ s.web.high = 0 ∧ s.web.behind = false) ∧
    (∀ n, (s.reader n).state = .idle ∧ (s.reader n).expected = none ∧ (s.reader n).pulse = none ∧
      (s.reader n).read = none ∧ (s.reader n).darkStart = none ∧ (s.reader n).spliceOpen = false ∧
      (s.reader n).windowEnd = none ∧ (s.reader n).spliceAt = none) ∧
    (∀ n, (s.lane n).state = .off ∧ (s.lane n).setPos = 0 ∧ (s.lane n).quality = 0 ∧
      (s.lane n).misses = 0 ∧ (s.lane n).skip = 0) ∧
    (s.track.rows = [] ∧ s.track.splices = [] ∧ s.track.resumes = [] ∧ s.track.serial = 0 ∧
      (∀ n, s.rej n = false ∧ s.track.rejectEnd.get n = none ∧ s.track.lastReason.get n = none)) ∧
    (s.imp.throw = .off ∧ s.throwOn = false ∧ s.imp.horizon = none ∧ s.imp.release = none ∧ s.imp.nips = [] ∧
      s.imp.slotCounter = 0 ∧ s.imp.slotSync = false ∧ s.imp.lastIndex = none ∧ s.imp.trim = 0 ∧
      s.imp.trimStopped = false ∧ s.imp.lastError = none) ∧
    (∀ n, (s.drive n).records = [] ∧ (s.drive n).pullEnd = none ∧ (s.drive n).acc = 0 ∧
      (s.drive n).remaining = 0 ∧ (s.drive n).lowArmed = false ∧ (s.drive n).faulty = false) ∧
    (s.survey.running = false ∧ s.survey.outcome = .none ∧ s.survey.k = 0 ∧ s.survey.q = 0 ∧
      s.survey.counted = 0 ∧ s.survey.retired = 0 ∧ ∀ n,
        let l := s.survey.lanes.get n
        l.prevMark = none ∧ l.pitchSum = 0 ∧ l.skewSum = 0 ∧ l.recent = [] ∧ l.watch = none ∧ l.violations = 0 ∧
          l.offsets = [] ∧ l.meanPitch = none ∧ l.meanSkew = none) ∧
    (s.rep.released = [] ∧ s.rep.fillIndex = 0 ∧ s.rep.fill = none ∧ s.rep.post = [] ∧ s.rep.gap = 0 ∧
      s.rep.policy = .all ∧ s.rep.policyVariant = 0 ∧ s.rep.followOpen = false ∧ s.rep.latched = 0 ∧
      s.rep.mask = 0 ∧ s.rep.dirty = true ∧ s.rep.statusQueued = false ∧ s.rep.updateCount = 0 ∧
      s.attn = false) ∧
    (s.cnt.rowsRetired = 0 ∧ s.cnt.strikeRows = 0 ∧ (∀ n, s.cnt.rejects.get n = 0) ∧ s.cnt.skewDiscards = 0 ∧
      s.cnt.strays = 0 ∧ s.cnt.misses = 0 ∧ s.cnt.unread = 0 ∧ s.cnt.resyncs = 0) ∧
    (s.msgs.faults = [] ∧ ∀ n, s.msgs.reads.get n = [] ∧ s.msgs.strays.get n = 0 ∧ s.msgs.skews.get n = 0 ∧
      s.msgs.cells.get n = [] ∧ s.msgs.splices.get n = [] ∧ s.msgs.pulls.get n = []) ∧
    (s.station = Station.reset ∧ s.loader = Loader.reset ∧ s.bus = Bus.reset ∧ s.orders = OrderUnit.reset ∧
      s.track = Track.reset ∧ s.imp = Impression.reset ∧ s.survey = Survey.reset ∧ s.rep = ReportUnit.reset ∧
      s.cnt = Counters.reset ∧ s.msgs = Messages.empty ∧
      ∀ n, s.reader n = Reader.reset ∧ s.lane n = Tracker.reset ∧ s.drive n = Foil.reset)

/-- State.reset meets every invariant stated below. -/
def Obligations.ResetMeetsTheInvariants : Prop :=
  MemoryCanonical State.reset ∧ PassOverInRange State.reset ∧ TapQueueInRange State.reset ∧
    PostQueueInRange State.reset ∧ TrackInRange State.reset ∧ LanesInRange State.reset ∧
    ThrowTable State.reset ∧ TrackNames State.reset

/-! ## Invariants of every step -/

/-- Job memory stays in its canonical form (log 1). -/
def Obligations.MemoryStaysCanonical : Prop := KeptByStep MemoryCanonical

/-- The pass-over count stays between 0 and 4, the tap order queue holds at most 4 orders, the post queue at most 8 reports
and the track at most 32 rows (R10, R64, R174, R112). -/
def Obligations.QueuesAndPassOverCountStayInRange : Prop :=
  KeptByStep PassOverInRange ∧ KeptByStep TapQueueInRange ∧ KeptByStep PostQueueInRange ∧ KeptByStep TrackInRange

/-- On every lane the quality counter stays between 0 and 32 and equals 32 exactly while the lane is BLOCKED, and the skip
counter stays at most 255 (R101, R107). -/
def Obligations.QualityIsThirtyTwoExactlyInBlocked : Prop := KeptByStep LanesInRange

/-- The table of throw states (R136) holds in every state that a step leaves, if it held before: THROW_ON only in RUN,
THROW_OK as the table says, strike horizon and release point present exactly in ENGAGING and ON. -/
def Obligations.ThrowTableIsKept : Prop := KeptByStep ThrowTable

/-- The model's names of rows and of splice spans stay distinct (log 29). The statements about one row of the track take
this for a premise. -/
def Obligations.TrackNamesStayDistinct : Prop := KeptByStep TrackNames

/-! ## Job memory -/

/-- Only the end of a forwarded burst, or of an own write issued on the port, changes job memory. Words written to canonical
job memory: a byte enabled in the word reads as written, every other byte as before; and of a list of words, every byte that
none enables reads as before. -/
def Obligations.JobMemoryWrites : Prop :=
  (∀ (c : Instr) (s t : State), (∀ lv, c ≠ .forwardedBurstEnd lv) → (∀ lv k, c ≠ .forwardedAccessError lv k) →
    (∀ o, issuedOwn s = some o → o.write = false) → exec c s = .next t → t.mem = s.mem) ∧
    (∀ (m : List Host.Cell) (a : Addr) (w : WordReq), Memory.wf m = true →
      (∀ k < 4, w.en.getLsbD k = true →
        memRead (memWriteWord m a w) (a + BitVec.ofNat 24 k).toNat = byteOf w.data k) ∧
      ∀ x, (∀ k < 4, w.en.getLsbD k = true → x ≠ (a + BitVec.ofNat 24 k).toNat) →
        memRead (memWriteWord m a w) x = memRead m x) ∧
    ∀ (m : List Host.Cell) (ws : List (Addr × WordReq)) (x : Nat), ¬ enabledByte ws x →
      memRead (memWriteWords m ws) x = memRead m x

/-! ## The end of a step: the Report Unit -/

/-- What ends every step changes nothing but the Report Unit's state, the memory access queue, which it only lengthens, and
the model's own counters; it keeps the release map, the fill index, the policy and the mask, and latches at most LOSS, after
whatever the step did before (the model's reading, log 56). -/
def Obligations.EndOfStepFrame : Prop :=
  ∀ old s : State, let t := finish old s
    t = { s with rep := t.rep, bus := t.bus, uid := t.uid, choice := t.choice } ∧
      (∃ l, t.bus = { s.bus with queue := s.bus.queue ++ l }) ∧ t.rep.released = s.rep.released ∧
      t.rep.fillIndex = s.rep.fillIndex ∧ t.rep.policy = s.rep.policy ∧
      t.rep.policyVariant = s.rep.policyVariant ∧ t.rep.mask = s.rep.mask ∧
      (t.rep.latched = s.rep.latched ∨ t.rep.latched = s.rep.latched ||| Cause.loss.mask)

/-- A report taken (R172, R174, R175). A fill is possible in HELD and the working modes with no load, no fill in progress and
the entry at the fill index RELEASED. With the queue empty, no loss counted and a fill possible, the report goes straight to
the fill of that entry; with a loss counted the GAP report does, and the report waits in the queue. With the queue short of 8
and no fill possible, it waits at the end of the queue. With 8 waiting it is lost: the gap count advances, held at its largest
value, and LOSS is latched. With the queue waiting and a fill possible, the fill carries the GAP report when the gap count is
above 0, which becomes 0, and otherwise the oldest report of the queue, which leaves it. -/
def Obligations.ReportQueueing : Prop :=
  ∀ (r : Report) (s : State) (b : Bounds), s.loader.bounds = some b →
    let filled := fun (x : Report) (u : State) =>
      u.rep.fill = some ⟨s.rep.fillIndex, s.loader.gen, x⟩ ∧
      u.bus.queue = s.bus.queue ++
        [⟨s.uid, .fill s.rep.fillIndex, true, fillBursts (b.reportBase + 64 * s.rep.fillIndex) x⟩]
    let lost := { s.rep with
      gap := if s.rep.gap < 4294967295 then s.rep.gap + 1 else s.rep.gap
      latched := s.rep.latched ||| Cause.loss.mask }
    let entered := if s.rep.post.length < 8 then { s.rep with post := s.rep.post ++ [r] } else lost
    (canFill s = true ↔ (s.station.mode = .held ∨ s.station.mode = .watch ∨ s.station.mode = .run ∨
      s.station.mode = .safe) ∧ s.loader.phase = .idle ∧ s.rep.fill = none ∧ s.rep.fillIndex ∈ s.rep.released) ∧
    (s.rep.post = [] → s.rep.gap = 0 → canFill s = true → ∃ u, takeReport r s = u ∧
      filled r u ∧ u.rep.post = []) ∧
    (s.rep.post = [] → 0 < s.rep.gap → canFill s = true → ∃ u, takeReport r s = u ∧
      filled (.gap s.rep.gap) u ∧ u.rep.gap = 0 ∧ u.rep.post = [r]) ∧
    (s.rep.post ≠ [] → canFill s = true → takeReport r s = testFill { s with rep := entered }) ∧
    (s.rep.post.length < 8 → canFill s = false →
      takeReport r s = { s with rep := { s.rep with post := s.rep.post ++ [r] } }) ∧
    (8 ≤ s.rep.post.length → canFill s = false → takeReport r s = { s with rep := lost }) ∧
    (s.rep.post = [] ∨ canFill s = false → testFill s = s) ∧
    (∀ x rest, s.rep.post = x :: rest → canFill s = true → 0 < s.rep.gap → ∃ u, testFill s = u ∧
      filled (.gap s.rep.gap) u ∧ u.rep.gap = 0 ∧ u.rep.post = s.rep.post) ∧
    (∀ x rest, s.rep.post = x :: rest → canFill s = true → s.rep.gap = 0 → ∃ u, testFill s = u ∧
      filled x u ∧ u.rep.post = rest)

/-- R179, R180, R181. At the end of a step, once the reports offered in it have been taken: the block is marked when dirty was
set, or when a word of the status block has changed since the step began, with the web position and foil remaining left out
(that this is judged at the end of the step is the model's reading, log 25). Marked, with no status write queued, a mode of
HELD, WATCH, RUN or SAFE, no load running and no failed load in the step, one write of the 64 words of the status block is
queued at the status block base, with the values the fields have then and the new update count first and last; dirty is
cleared and status write queued set. Not marked, nothing is queued and dirty is clear. With a status write queued, another
mode or a load running, nothing is queued and dirty shows the mark. A failed load queues one write at the base it read. The
write follows the fills of the same step, an order the rules leave open: the model's choice (log 8). StatusBlockLayout says
what the 64 words and the eight bursts are. -/
def Obligations.StatusWriteQueued : Prop :=
  ∀ old s : State,
    let t := finish old s
    let f := flushOffers s
    let count := f.rep.updateCount + 1
    let queued := fun base : Nat =>
      t.rep.updateCount = count ∧ t.rep.dirty = false ∧ t.rep.statusQueued = true ∧
        t.bus.queue = f.bus.queue ++ [⟨f.uid, .statusWrite, true, statusBursts base (statusWords f count)⟩]
    let unqueued := t.bus.queue = f.bus.queue ∧ t.rep.updateCount = f.rep.updateCount ∧
      t.rep.statusQueued = s.rep.statusQueued
    let judged := fun x : State => statusBody { x with
      web := { x.web with pos := 0 }, foil := x.foil.map fun d => { d with remaining := 0 } }
    let marked := s.rep.dirty = true ∨ judged f ≠ judged old
    (s.rep.offers = [] → f = testFill s) ∧
    (s.rep.latched = f.rep.latched → statusBody f = statusBody s) ∧
    (∀ c : Loaded, s.loader.loaded = some c → s.station.mode.configured = true → s.loader.phase = .idle →
      s.rep.statusQueued = false → s.rep.statusAt = none →
      (marked → queued c.hdr.statusBase) ∧ (¬ marked → unqueued ∧ t.rep.dirty = false)) ∧
    (s.rep.statusQueued = true ∨ (s.station.mode.configured = false ∧ s.rep.statusAt = none) ∨
        (s.loader.phase ≠ .idle ∧ s.rep.statusAt = none) →
      unqueued ∧ (t.rep.dirty = true ↔ marked)) ∧
    (∀ base, s.rep.statusAt = some base → s.rep.statusQueued = false → queued base)

/-- The words of the status block (11.4, 11.5, R178, R180, R195), each field at its byte offsets: the update count is the head
and the tail count, an absent item shows the value the layout gives for its absence, a violation offset is held at the ends of
16 bits, and the bytes no field uses are 0. The 64 words are written as eight bursts of eight words, in ascending address
order. The code of each mode, cause, error, fault, state, result and outcome is as 11.4 and 11.2 list it. -/
def Obligations.StatusBlockLayout : Prop :=
  (∀ (s : State) (count : Word),
    let w := statusWords s count
    let byte := fun i : Nat => (byteOf (w.getD (i / 4) 0) (i % 4)).toNat
    let half := fun i : Nat => byte i + 256 * byte (i + 1)
    let word := fun i : Nat => w.getD (i / 4) 0
    let bit := fun (i k : Nat) => (byteOf (w.getD (i / 4) 0) (i % 4)).getLsbD k
    w.length = 64 ∧ word 0 = count ∧ word 252 = count ∧
    (byte 4 = s.station.mode.code ∧ byte 5 = s.station.cause.code ∧ byte 6 = s.loader.error.code) ∧
    (bit 7 0 = s.loader.confirmed ∧ bit 7 1 = s.imp.slotSync ∧ bit 7 2 = s.imp.lastError.isSome ∧ byte 7 < 8) ∧
    (half 8 = s.loader.edition.toNat ∧ byte 10 = s.orders.takeIndex % 256 ∧ byte 11 = s.track.rows.length % 256) ∧
    (half 12 = s.rep.fillIndex % 65536 ∧ byte 14 = s.imp.slotCounter % 256 ∧ byte 15 = s.imp.throw.code) ∧
    (half 16 = s.rep.latched.toNat ∧ half 18 = s.rep.mask.toNat) ∧
    (word 20 = s.web.pos ∧ word 24 = BitVec.ofInt 32 s.imp.trim ∧
      word 28 = match s.imp.lastError with | some e => BitVec.ofInt 32 e | none => 0) ∧
    (∀ n : Lane, let o := 32 + 12 * n.val
      byte o = (s.lane n).state.code ∧ byte (o + 1) = (s.lane n).setPos % 256 ∧
      byte (o + 2) = (s.lane n).quality % 256 ∧ byte (o + 3) = (s.lane n).skip % 256 ∧
      word (o + 4) = (s.drive n).remaining ∧ bit (o + 8) 0 = (s.drive n).out ∧ bit (o + 8) 1 = (s.drive n).brk ∧
      byte (o + 8) < 4 ∧ byte (o + 10) = 0 ∧ byte (o + 11) = 0 ∧
      byte (o + 9) = match s.track.lastReason.get n with | some r => r.code | none => 0) ∧
    (word 80 = s.cnt.rowsRetired ∧ word 84 = s.cnt.strikeRows ∧
      (∀ n : Lane, word (88 + 4 * n.val) = s.cnt.rejects.get n) ∧ word 104 = s.cnt.strays ∧
      word 108 = s.cnt.misses ∧ word 112 = s.cnt.unread ∧ word 116 = s.cnt.skewDiscards ∧ word 120 = s.cnt.resyncs ∧
      word 124 = s.bus.guardDrops ∧ word 128 = s.orders.tapOrders ∧ word 132 = s.orders.tapLosses ∧
      word 136 = s.orders.refusals) ∧
    (byte 142 = 0 ∧ byte 143 = 0 ∧ word 148 = s.station.secondary ∧ match s.station.record with
      | some x => byte 140 = x.kind.code ∧ word 144 = x.web ∧
        byte 141 = match x.lane with | some n => n.val | none => 255
      | none => byte 140 = 0 ∧ byte 141 = 255 ∧ word 144 = 0) ∧
    (byte 155 = 0 ∧ match s.orders.lastTap with
      | some x => byte 152 = x.tap % 256 ∧ byte 153 = x.kind.toNat ∧ byte 154 = x.code.code ∧ word 156 = x.value
      | none => byte 152 = 255 ∧ byte 153 = 0 ∧ byte 154 = 0 ∧ word 156 = 0) ∧
    (byte 160 = s.survey.outcome.code ∧ byte 161 = s.survey.k % 256 ∧ half 162 = s.survey.q % 65536 ∧
      half 164 = s.survey.counted % 65536 ∧ half 166 = s.survey.retired % 65536) ∧
    (∀ n : Lane, let l := s.survey.lanes.get n
      (word (168 + 4 * n.val) = match l.meanPitch with | some e => BitVec.ofInt 32 e | none => 0) ∧
      (word (184 + 4 * n.val) = match l.meanSkew with | some e => BitVec.ofInt 32 e | none => 0) ∧
      half (200 + 2 * n.val) = l.violations % 65536 ∧
      (∀ j < 4, half (208 + 8 * n.val + 2 * j) =
        (BitVec.ofInt 16 (max (-32768) (min 32767 (l.offsets.getD j 0)))).toNat) ∧
      bit 240 n.val = l.meanPitch.isSome ∧ bit 240 (4 + n.val) = l.meanSkew.isSome) ∧
    byte 241 = 0 ∧ byte 242 = 0 ∧ byte 243 = 0 ∧ word 244 = 0 ∧ word 248 = 0) ∧
  (∀ (base : Nat) (w : List Word), w.length = 64 → (statusBursts base w).length = 8 ∧
    ∀ i < 8, (statusBursts base w)[i]? = some ⟨BitVec.ofNat 24 (base + 32 * i),
      [0, 1, 2, 3, 4, 5, 6, 7].map fun j => ⟨15, w.getD (8 * i + j) 0⟩⟩) ∧
  ([Mode.bypass, .unconfigured, .loading, .held, .watch, .run, .safe].map Mode.code = List.range 7 ∧
    [ModeCause.reset, .commit, .loaded, .loadFailed, .edit, .watchOrder, .runOrder, .holdOrder, .windDown].map
      ModeCause.code = List.range 9 ∧
    (∀ k : FaultKind, (ModeCause.fault k).code = 0x10 + k.code) ∧
    [FaultKind.throwLate, .throwLost, .throwUncommanded, .cylinderSlip, .trimLimit, .trackOverflow, .allLanesDown,
      .webReverse, .memory].map FaultKind.code = List.range' 1 9 ∧
    [ErrorCode.none, .statusAddress, .windows, .ringSize, .lanes, .classTable, .codeLength, .plates, .variants, .setList,
      .geometry, .trackCapacity, .foilRatio, .trim, .edited, .memory].map ErrorCode.code = List.range 16 ∧
    [LaneState.off, .idle, .hunt, .locked, .flywheel, .blocked].map LaneState.code = List.range 6 ∧
    [ThrowState.off, .engaging, .on, .releasing].map ThrowState.code = List.range 4 ∧
    [Reason.absent, .watching, .safe, .stopped, .splice, .hunting, .unread, .predicted, .sequence, .noStrike, .plate,
      .heat, .foil, .ordered, .strike].map Reason.code = List.range' 1 15 ∧
    [SurveyOutcome.none, .running, .pass, .failQuiet, .failIncomplete, .failSplice, .cancelled].map
      SurveyOutcome.code = List.range 7 ∧
    [ResultCode.done, .accepted, .refusedKind, .refusedMode, .refusedArgument, .refusedBusy, .refusedState,
      .refusedMemory].map ResultCode.code = [0x00, 0x01, 0x10, 0x11, 0x12, 0x13, 0x14, 0x15] ∧
    [Cause.fault, .lane, .splice, .foilLow, .foil, .survey, .order, .loss, .guard, .config, .memory, .heat].map
      Cause.bit = List.range 12 ∧
    [Policy.all, .exceptions, .follow, .variant].map Policy.code = List.range 4)

/-- The words of a report entry (11.3, R2, R169, R172, R195) and of an order result (11.2, R45). A fill writes words 1 to 15
in bursts of 1, 2, 4 and 8 words and word 0 last: owner 1, the kind, the cell count and the row flags. Each kind has its
fields at their byte offsets, with the value the layout gives for what is absent, and 0 in what it does not use; a ROW report
has one slot for each cell, in ascending lane order; that an ABSENT cell's decision, reason, reject flag, outcome and foil
used are written as they stand is the model's reading (log 35). An order result is written as its result code and value, then
its state byte. -/
def Obligations.EntryLayouts : Prop :=
  (∀ (base : Nat) (r : Report),
    let full := fun i : Nat => (⟨15, r.words.getD (i - 1) 0⟩ : WordReq)
    r.words.length = 15 ∧
    fillBursts base r = [⟨BitVec.ofNat 24 (base + 4), [full 1]⟩, ⟨BitVec.ofNat 24 (base + 8), [full 2, full 3]⟩,
      ⟨BitVec.ofNat 24 (base + 16), [full 4, full 5, full 6, full 7]⟩,
      ⟨BitVec.ofNat 24 (base + 32), [full 8, full 9, full 10, full 11, full 12, full 13, full 14, full 15]⟩,
      ⟨BitVec.ofNat 24 base, [⟨15, r.word0⟩]⟩]) ∧
  (∀ r : Report,
    let e := r.word0 :: r.words
    let byte := fun i : Nat => (byteOf (e.getD (i / 4) 0) (i % 4)).toNat
    let half := fun i : Nat => byte i + 256 * byte (i + 1)
    let word := fun i : Nat => e.getD (i / 4) 0
    let bit := fun (i k : Nat) => (byteOf (e.getD (i / 4) 0) (i % 4)).getLsbD k
    let head := fun k : Nat => byte 0 = 1 ∧ byte 1 = k
    let flagless := byte 2 = 0 ∧ byte 3 = 0
    let bytes := fun a b c d : Nat => byte 4 = a % 256 ∧ byte 5 = b % 256 ∧ byte 6 = c % 256 ∧ byte 7 = d % 256
    let restFrom := fun k : Nat => ∀ i, k ≤ i → i < 16 → e.getD i 0 = 0
    let lane := fun o : Option Lane => match o with | some n => n.val | none => 255
    let signed := fun o : Option Int => match o with | some i => BitVec.ofInt 32 i | none => (0 : Word)
    match r with
    | .row x => head 1 ∧ byte 2 = x.laneCells.length ∧
      (byte 3 % 4 = (match x.slot with | some k => k % 4 | none => 0) ∧ bit 3 2 = x.slot.isSome ∧ bit 3 3 = false ∧
        byte 3 / 16 % 4 = (match x.throwAtNip with | some k => k.code | none => 0) ∧ bit 3 6 = x.splice ∧
        bit 3 7 = x.regError.isSome) ∧
      word 4 = x.serial ∧ word 8 = x.nip ∧ word 12 = signed x.regError ∧
      (∀ (j : Nat) (n : Lane) (cell : Cell), x.laneCells[j]? = some (n, cell) →
        let o := 16 + 12 * j
        byte o = n.val ∧ byte (o + 1) = (match cell.variant with | some v => v % 256 | none => 255) ∧
        byte (o + 2) = (match cell.setPos with | some k => k % 256 | none => 255) ∧
        byte (o + 3) = (match cell.markKind with | some .accepted => 0 | some .flywheel => 1 | none => 255) ∧
        byte (o + 4) = cell.status.byte ∧
        byte (o + 5) = (match cell.decision with
          | some .strike => 1 | some .pass => 2 | some .skip => 3 | none => 0) ∧
        byte (o + 6) = (match cell.reason with | some k => k.code | none => 0) ∧
        byte (o + 7) % 8 = (match cell.outcome with
          | some .foiled => 1 | some .embossed => 2 | some .passed => 3 | some .blind => 4 | some .missed => 5
          | some .clear => 6 | none => 0) ∧
        bit (o + 7) 3 = cell.reject ∧ bit (o + 7) 4 = cell.predicted ∧
        byte (o + 7) / 32 = (match cell.pull.map fun p => p.state with
          | some .armed => 1 | some .active => 2 | some .completed => 3 | some .stopped => 4 | some .notStarted => 5
          | none => 0) ∧
        word (o + 8) = cell.foilUsed) ∧
      restFrom (4 + 3 * x.laneCells.length)
    | .splice n dark start => head 2 ∧ flagless ∧ bytes n.val 0 0 0 ∧ word 8 = dark ∧ word 12 = start ∧ restFrom 4
    | .lane n web pos src => head 3 ∧ flagless ∧ word 8 = web ∧ restFrom 3 ∧ (match src with
      | .cell status => bytes n.val pos 0 status.byte
      | .stray => bytes n.val pos 1 0
      | .skew => bytes n.val pos 2 0)
    | .mode old new cause web => head 4 ∧ flagless ∧ bytes old.code new.code cause.code 0 ∧ word 8 = web ∧ restFrom 3
    | .fault k web n => head 5 ∧ flagless ∧ bytes k.code (lane n) 0 0 ∧ word 8 = web ∧ restFrom 3
    | .survey o k q counted retired l => head 6 ∧ flagless ∧ byte 4 = o.code ∧ byte 5 = k % 256 ∧ half 6 = q % 65536 ∧
      half 8 = counted % 65536 ∧ half 10 = retired % 65536 ∧
      (∀ n : Lane, word (12 + 4 * n.val) = signed (l.get n).meanPitch ∧
        word (28 + 4 * n.val) = signed (l.get n).meanSkew ∧ half (44 + 2 * n.val) = (l.get n).violations % 65536 ∧
        bit 52 n.val = (l.get n).meanPitch.isSome ∧ bit 52 (4 + n.val) = (l.get n).meanSkew.isSome) ∧
      byte 53 = 0 ∧ byte 54 = 0 ∧ byte 55 = 0 ∧ restFrom 14
    | .orderDone k origin c => head 7 ∧ flagless ∧ restFrom 2 ∧
      (let done := match c with | .done => 0 | .cancelled => 1
       match origin with
        | .ring i => bytes k.code.toNat 0 i done
        | .tap i => bytes k.code.toNat 1 i done)
    | .abandon c rows serials => head 8 ∧ flagless ∧ restFrom 4 ∧
      (let cause := match c with | .hold => 0 | .webReverse => 1
       match serials with
        | some (oldest, newest) => bytes cause rows 1 0 ∧ word 8 = oldest ∧ word 12 = newest
        | none => bytes cause rows 0 0 ∧ word 8 = 0 ∧ word 12 = 0)
    | .gap lost => head 9 ∧ flagless ∧ word 4 = BitVec.ofNat 32 lost ∧ restFrom 2) ∧
  (∀ x : Row, (∀ n cell, (n, cell) ∈ x.laneCells ↔ x.cells.get n = some cell) ∧
    x.laneCells.Pairwise fun a b => a.1 < b.1) ∧
  ([ReadStatus.identified, .sequence, .hunting, .absent].map ReadStatus.byte = [0, 1, 2, 4] ∧
    [UnreadCause.classOverflow, .framing, .abort, .cls, .unknown].map (fun u => (ReadStatus.unread u).byte) =
      [3 + 16 * 1, 3 + 16 * 2, 3 + 16 * 3, 3 + 16 * 4, 3 + 16 * 5]) ∧
  ∀ (base : Nat) (code : ResultCode) (value : Word), ∃ x y : Word,
    resultBursts base code value = [⟨BitVec.ofNat 24 base, [⟨8, x⟩, ⟨0, 0⟩, ⟨0, 0⟩, ⟨15, value⟩]⟩,
      ⟨BitVec.ofNat 24 base, [⟨1, y⟩]⟩] ∧
    (byteOf x 3).toNat = code.code ∧
    (byteOf y 0).toNat = if code = .done ∨ code = .accepted then 2 else 3

/-- The policy filter (R176, R177): a ROW report offered updates the follow state first and is judged on what that leaves;
every other report is taken whatever the policy. A row with a reject flag is offered whatever the policy; ALL offers every
row, EXCEPTIONS a row with a cell whose outcome is not FOILED, EMBOSSED or PASSED, FOLLOW a row that leaves the follow state
OPEN, VARIANT a row whose lead cell carries the policy variant; under FOLLOW the state opens at a lead cell that carries the
policy variant, closes at one that carries another, and is kept otherwise. The lead cell is that of the lead lane; it carries
its variant when its read status is IDENTIFIED or SEQUENCE. -/
def Obligations.PolicyFilter : Prop :=
  (∀ (r : Row) (s : State), takeOffer (.row r) s =
    if policyOffers r (takeFollow r s) then takeReport (.row r) (takeFollow r s) else takeFollow r s) ∧
  (∀ (x : Report) (s : State), (∀ r, x ≠ .row r) → takeOffer x s = takeReport x s) ∧
  (∀ (x : Cell), carriedVariant none = none ∧
    carriedVariant (some x) = if x.status = .identified ∨ x.status = .sequence then x.variant else none) ∧
  ∀ (r : Row) (s : State) (c : Loaded), s.loader.loaded = some c →
    (∀ n : Lane, n.val = c.hdr.leadLane → r.leadCell c = r.cells.get n) ∧
    (r.anyReject = true ↔ ∃ n x, r.cells.get n = some x ∧ x.reject = true) ∧
    (r.anyReject = true → policyOffers r s = true) ∧
    (r.anyReject = false → s.rep.policy = .all → policyOffers r s = true) ∧
    (r.anyReject = false → s.rep.policy = .exceptions →
      (policyOffers r s = true ↔ ∃ n x, r.cells.get n = some x ∧ x.outcome ≠ some .foiled ∧
        x.outcome ≠ some .embossed ∧ x.outcome ≠ some .passed)) ∧
    (r.anyReject = false → s.rep.policy = .follow → policyOffers r (takeFollow r s) =
      match carriedVariant (r.leadCell c) with
      | some v => decide (v = s.rep.policyVariant)
      | none => s.rep.followOpen) ∧
    (r.anyReject = false → s.rep.policy = .variant →
      (policyOffers r s = true ↔ carriedVariant (r.leadCell c) = some s.rep.policyVariant)) ∧
    (s.rep.policy = .follow → takeFollow r s = { s with rep := { s.rep with
      followOpen := (match carriedVariant (r.leadCell c) with
        | some v => decide (v = s.rep.policyVariant)
        | none => s.rep.followOpen) } }) ∧
    (s.rep.policy ≠ .follow → takeFollow r s = s)

/-! ## The processor port and the memory port -/

/-- R3: a malformed access. While RESET_N is negated every word is answered with an error, and nothing else of the part
changes. While RESET_N is asserted every access, malformed or not, is forwarded unchanged, as a contender for the port with no
hold, no drop, no classification and no tap match. -/
def Obligations.MalformedAccesses : Prop :=
  ∀ (lv : Levels) (addr : Addr) (words : List WordReq) (enables : List (BitVec 4)) (s : State),
    s.bus.inHand = none →
    let bad := fun n : Nat => n ∉ [1, 2, 4, 8] ∨ 32 < (wordAddr addr).toNat % 32 + 4 * n
    let u := sense lv s
    (bad words.length → s.station.mode ≠ .bypass →
      exec (.processorWrite lv addr words) s =
        .next (finish s { u with bus := { s.bus with answer := words.map fun _ => .error } })) ∧
    (bad enables.length → s.station.mode ≠ .bypass →
      exec (.processorRead addr enables) s =
        .next (finish s { s with bus := { s.bus with answer := enables.map fun _ => .error } })) ∧
    (s.station.mode = .bypass →
      exec (.processorWrite lv addr words) s =
        .next (finish s { u with bus := { s.bus with
          inHand := some ⟨⟨true, wordAddr addr, words⟩, .contender, [], none⟩ } }) ∧
      exec (.processorRead addr enables) s =
        .next (finish s { s with bus := { s.bus with
          inHand := some ⟨⟨false, wordAddr addr, enables.map fun e => ⟨e, 0⟩⟩, .contender, [], none⟩ } }))

/-- The guard table (R15 to R18) for one word a write touches, at byte address `a`, while RESET_N is negated and the bounds
are word addresses: the configuration window first, then the status block, the order ring and the report ring. -/
def Obligations.GuardTable : Prop :=
  ∀ (s : State) (a : Nat) (w : WordReq), s.station.mode ≠ .bypass →
    let base := s.configBase
    let inCfg := base ≤ a ∧ a < base + 1536
    (inCfg → s.station.mode.working = false →
      wordFate s a w = .pass (some (.config (decide (a = base) && wordCarries w 0 1)))) ∧
    (inCfg → s.station.mode.working = true → wordFate s a w = .drop .window) ∧
    (¬ inCfg → s.loader.bounds = none → wordFate s a w = .pass none) ∧
    ∀ b : Bounds, s.loader.bounds = some b → b.statusBase % 4 = 0 → b.orderBase % 4 = 0 → b.reportBase % 4 = 0 →
      ¬ inCfg →
      let inStatus := b.statusBase ≤ a ∧ a < b.statusBase + 256
      let inOrder := b.orderBase ≤ a ∧ a < b.orderBase + 16 * b.orderSize
      let inReport := b.reportBase ≤ a ∧ a < b.reportBase + 64 * b.reportSize
      let e := (a - b.orderBase) / 16
      let f := (a - b.reportBase) / 64
      (inStatus → wordFate s a w = .drop .status) ∧
      (¬ inStatus → inOrder → (e ∈ s.orders.handed ∨ beingTaken s e = true) →
        wordFate s a w = .drop .collision) ∧
      (¬ inStatus → inOrder → e ∉ s.orders.handed → beingTaken s e = false →
        wordFate s a w = .pass (if (a - b.orderBase) % 16 = 0 ∧ wordCarries w 0 1 = true then
          some (.handoff e s.loader.gen) else none)) ∧
      (¬ inStatus → ¬ inOrder → inReport → beingFilled s f = true → wordFate s a w = .hold f) ∧
      (¬ inStatus → ¬ inOrder → inReport → beingFilled s f = false →
        wordFate s a w = .pass (if (a - b.reportBase) % 64 = 0 ∧ wordCarries w 0 0 = true then
          some (.release f s.loader.gen) else none)) ∧
      (¬ inStatus → ¬ inOrder → ¬ inReport → wordFate s a w = .pass none)

/-- PROCESSOR_WRITE of a legal burst while RESET_N is negated and no access is in hand (R4, R7, R19): it is held when a word
is held; otherwise dropped when a word is dropped, answered ready, with the guard drop count advanced by one and GUARD
latched but for the status block; otherwise a consuming tap drops it and delivers the tap order; otherwise it contends for
the port with its events and its tap order. -/
def Obligations.FateOfAWrite : Prop :=
  ∀ (lv : Levels) (addr : Addr) (words : List WordReq) (s : State),
    let a : Access := ⟨true, wordAddr addr, words⟩
    let u := sense lv s
    let ready := words.map fun _ => WordAnswer.ready []
    s.bus.inHand = none → s.station.mode ≠ .bypass → a.malformed = false →
    (fillConds (a.fates s) ≠ [] →
      exec (.processorWrite lv addr words) s = .next (finish s { u with bus := { s.bus with
        inHand := some ⟨a, .held (fillConds (a.fates s)), [], none⟩ } })) ∧
    (∀ why, fillConds (a.fates s) = [] → firstDrop (a.fates s) = some why →
      exec (.processorWrite lv addr words) s = .next (finish s { u with
        bus := { s.bus with guardDrops := s.bus.guardDrops + 1, answer := ready }
        rep := { s.rep with
          latched := if why = .status then s.rep.latched else s.rep.latched ||| Cause.guard.mask } })) ∧
    (∀ t o, fillConds (a.fates s) = [] → firstDrop (a.fates s) = none → firedTap a s = some (t, o) →
      t.consume = true →
      exec (.processorWrite lv addr words) s =
        .next (finish s (deliverTap o { u with bus := { s.bus with answer := ready } }))) ∧
    (∀ t o, fillConds (a.fates s) = [] → firstDrop (a.fates s) = none → firedTap a s = some (t, o) →
      t.consume = false →
      exec (.processorWrite lv addr words) s = .next (finish s { u with bus := { s.bus with
        inHand := some ⟨a, .contender, observedEvents (a.fates s), some o⟩ } })) ∧
    (fillConds (a.fates s) = [] → firstDrop (a.fates s) = none → firedTap a s = none →
      exec (.processorWrite lv addr words) s = .next (finish s { u with bus := { s.bus with
        inHand := some ⟨a, .contender, observedEvents (a.fates s), none⟩ } }))

/-- R62, R63: which words a tap entry matches, which entry a write fires, and the order it makes. The address agrees in every
bit that is neither masked nor one of the two low bits, and every byte of the byte mask is enabled and carries the pattern's
byte. The words touched are tried in address order, and for each the enabled entries from entry 0 upward: the first word that
matches any, with the lowest-numbered entry that matches it, fires, in HELD, WATCH, RUN and SAFE. A FIXED source gives its
value, a BYTE source the byte, or 0 when it is not enabled; each kind fills its arguments from it, and those not listed are 0.
The order so made is judged like any other, an unknown kind being refused, and its result is the last tap result. (The modes
in which a tap fires are R19's, the last tap result R66's.) -/
def Obligations.TapMatch : Prop :=
  (∀ (t : TapEntry) (a : Addr) (w : WordReq),
    (t.matchesWord a w = true ↔ t.enabled = true ∧
      (∀ i, 2 ≤ i → i < 24 → t.addrMask.getLsbD i = false → a.getLsbD i = t.wordAddr.getLsbD i) ∧
      ∀ k < 4, t.byteMask.getLsbD k = true → w.en.getLsbD k = true ∧ byteOf w.data k = byteOf t.pattern k) ∧
    (t.fromByte = false → t.argOf w = t.arg) ∧
    (t.fromByte = true →
      (t.argOf w).toNat = if w.en.getLsbD (t.arg.toNat % 4) then (byteOf w.data (t.arg.toNat % 4)).toNat else 0)) ∧
  (∀ (taps : List TapEntry) (l : List (Nat × Addr × WordReq)),
    ((∀ p ∈ l, ∀ t ∈ taps, t.matchesWord p.2.1 p.2.2 = false) → tapOfWrite taps l = none) ∧
    ∀ pre p post i t, l = pre ++ p :: post → taps[i]? = some t → t.matchesWord p.2.1 p.2.2 = true →
      (∀ q ∈ pre, ∀ u ∈ taps, u.matchesWord q.2.1 q.2.2 = false) →
      (∀ j < i, ∀ u, taps[j]? = some u → u.matchesWord p.2.1 p.2.2 = false) →
      tapOfWrite taps l = some (t, ⟨i, t.kind, t.lane, t.argOf p.2.2⟩)) ∧
  (∀ (a : Access) (s : State),
    (∀ k x w, (k, x, w) ∈ a.touched ↔
      a.words[k]? = some w ∧ w.en ≠ 0 ∧ x = a.addr + BitVec.ofNat 24 (4 * k)) ∧
    (a.touched.Pairwise fun p q => p.1 < q.1) ∧
    (∀ c : Loaded, s.loader.loaded = some c → s.station.mode.configured = true →
      firedTap a s = tapOfWrite c.taps a.touched) ∧
    (s.station.mode.configured = false → firedTap a s = none)) ∧
  ∀ t : TapOrder,
    let made := fun (a b : BitVec 16) (c : Word) => t.order = ⟨t.kind, t.lane.val, a, b, c⟩
    (∀ k : OrderKind, t.kind = k.code →
      match k with
      | .skip => made (BitVec.ofNat 16 (2 ^ t.lane.val)) t.arg 0
      | .setPosition | .countTarget | .ack | .survey => made t.arg 0 0
      | .foilLoad => made 0 0 (BitVec.setWidth 32 t.arg)
      | .reportPolicy => made (BitVec.ofNat 16 (t.arg.toNat % 256)) (BitVec.ofNat 16 (t.arg.toNat / 256)) 0
      | .watch | .run | .stampOff | .hold | .trimReset | .laneRestart => made 0 0 0) ∧
    (t.kind.toNat = 0 ∨ 13 < t.kind.toNat → made 0 0 0 ∧
      ∀ (g : Origin) (s : State), judgeOrder t.order g s = ⟨.refusedKind, 0, s⟩) ∧
    ∀ s : State,
      let r := judgeOrder t.order (.tap t.tap)
        { s with orders := { s.orders with tapOrders := s.orders.tapOrders + 1 } }
      (applyTap t s).orders.lastTap = some ⟨t.tap, t.kind, r.code, r.value⟩

/-- The tap order queue (R64, R65, R66, R47). An order row of a tap delivers its tap order in every mode but BYPASS (what an
order row names is the model's choice, log 5). With 4 orders waiting the new one is lost and counted. While the Order Unit is
not free, in another mode, with a load running or an order in progress, it joins the queue as the newest (in LOADING and in
UNCONFIGURED this is the model's choice and its reading, log 58 and 64); free with none waiting it is taken at once. The unit,
once free, serves the orders that wait one after another, the oldest first, as long as it stays free. An order taken is
counted, judged, and its result is the last tap result, which marks the status block. -/
def Obligations.TapOrderQueue : Prop :=
  (∀ (lv : Levels) (n : Fin 16) (kind : Byte) (lane : Lane) (arg : BitVec 16) (s : State),
    let t : TapOrder := ⟨n.val, kind, lane, arg⟩
    let u := if s.station.mode = .bypass then sense lv s else deliverTap t (sense lv s)
    (∀ k : OrderKind, kind = k.code → exec (k.command lv (.tap n lane arg)) s = .next (finish s u)) ∧
    (kind.toNat = 0 ∨ 13 < kind.toNat →
      exec (.unknownOrderKind lv (.tap n lane arg) kind) s = .next (finish s u))) ∧
  ∀ (t : TapOrder) (s : State),
    let free := s.station.mode.configured = true ∧ s.loader.phase = .idle ∧ s.orders.inProgress = none
    (4 ≤ s.orders.tapQueue.length → deliverTap t s =
      { s with orders := { s.orders with tapLosses := s.orders.tapLosses + 1 } }) ∧
    (s.orders.tapQueue.length < 4 → ¬ free → deliverTap t s =
      { s with orders := { s.orders with tapQueue := s.orders.tapQueue ++ [t] } }) ∧
    (s.orders.tapQueue = [] → free → deliverTap t s = applyTap t s) ∧
    (¬ free ∨ s.orders.tapQueue = [] → serveWaiting s = s) ∧
    (∀ rest, free → s.orders.tapQueue = t :: rest →
      serveWaiting s = serveWaiting (applyTap t { s with orders := { s.orders with tapQueue := rest } })) ∧
    (let r := judgeOrder t.order (.tap t.tap)
        { s with orders := { s.orders with tapOrders := s.orders.tapOrders + 1 } }
     applyTap t s = { r.st with
      orders := { r.st.orders with
        refusals := if r.code = .done ∨ r.code = .accepted then r.st.orders.refusals
          else r.st.orders.refusals + 1
        lastTap := some ⟨t.tap, t.kind, r.code, r.value⟩ }
      rep := { r.st.rep with dirty := true } })

/-- PROCESSOR_READ of a legal burst while RESET_N is negated and no access is in hand (R4, R11): it is held on exactly the own
writes in the queue, the one issued included, that write a word it covers; with none it contends for the port. -/
def Obligations.ReadOrdering : Prop :=
  ∀ (addr : Addr) (enables : List (BitVec 4)) (s : State),
    let a : Access := ⟨false, wordAddr addr, enables.map fun e => ⟨e, 0⟩⟩
    let waits := s.bus.queue.filter fun o =>
      o.write && o.addressed.any fun p => p.2.en ≠ 0 && (a.addressed.map Prod.fst).contains p.1
    s.bus.inHand = none → s.station.mode ≠ .bypass → a.malformed = false →
    (waits = [] → exec (.processorRead addr enables) s = .next (finish s { s with bus := { s.bus with
      inHand := some ⟨a, .contender, [], none⟩ } })) ∧
    (waits ≠ [] → exec (.processorRead addr enables) s = .next (finish s { s with bus := { s.bus with
      inHand := some ⟨a, .held (waits.map fun o => .ownWrite o.id), [], none⟩ } }))

/-- PORT_GRANT (R10): one contender waiting has the port; when both wait the queue head has it at a pass-over count of 4 and
the processor contender below it, with the count advanced by one; the queue head sets the count to 0, and a processor
contender with an empty queue leaves it. That the command changes nothing on a busy port, or with no contender, is the model's
choice (log 4). -/
def Obligations.PortArbiter : Prop :=
  ∀ s : State,
    let forwarded := fun n : Nat => { s with bus := { s.bus with
      port := .forwarded, passOver := n, inHand := s.bus.inHand.map fun h => { h with phase := .issued } } }
    let own := { s with bus := { s.bus with port := .own, passOver := 0 } }
    (s.bus.port ≠ .free → exec .portGrant s = .next (finish s s)) ∧
    (s.bus.port = .free → contending s = false → s.bus.queue = [] → exec .portGrant s = .next (finish s s)) ∧
    (s.bus.port = .free → contending s = false → s.bus.queue ≠ [] →
      exec .portGrant s = .next (finish s own)) ∧
    (s.bus.port = .free → contending s = true → s.bus.queue = [] →
      exec .portGrant s = .next (finish s (forwarded s.bus.passOver))) ∧
    (s.bus.port = .free → contending s = true → s.bus.queue ≠ [] → s.bus.passOver < 4 →
      exec .portGrant s = .next (finish s (forwarded (s.bus.passOver + 1)))) ∧
    (s.bus.port = .free → contending s = true → s.bus.queue ≠ [] → 4 ≤ s.bus.passOver →
      exec .portGrant s = .next (finish s own))

/-- FORWARDED_BURST_END and FORWARDED_ACCESS_ERROR (R1, R5, R12). At the end of a burst the words of a write are in memory,
the answers are given, the port falls free, the access leaves the processor port; then the events are delivered in address
order and the tap order after them, which a free Order Unit serves before it takes an entry that the same burst handed over
(the model's reading, log 62). At an error at word `k` the words before it are in memory and answered, the rest answered
with an error; the port falls free; the events of the words before it are delivered, and no tap order. Bytes not written
read as before. -/
def Obligations.ForwardedAccessEnds : Prop :=
  ∀ (lv : Levels) (s : State) (a : Access) (events : List Observed) (tap : Option TapOrder),
    s.bus.port = .forwarded → s.bus.inHand = some ⟨a, .issued, events, tap⟩ →
    (let m := if a.write then memWriteWords s.mem a.addressed else s.mem
     let answer := a.addressed.map fun p =>
       WordAnswer.ready (if a.write then [] else readBytes s.mem p.1 p.2)
     let u := { sense lv s with
       mem := m, bus := { s.bus with port := .free, inHand := none, answer := answer } }
     exec (.forwardedBurstEnd lv) s = .next (finish s (deliverTapOf tap (deliverEvents events u))) ∧
       ∀ x, ¬ (a.write = true ∧ enabledByte a.addressed x) → memRead m x = memRead s.mem x) ∧
    ∀ k < a.words.length,
      let m := if a.write then memWriteWords s.mem (a.addressed.take k) else s.mem
      let answer := ((a.addressed.take k).map fun p =>
        WordAnswer.ready (if a.write then [] else readBytes s.mem p.1 p.2)) ++
          List.replicate (a.words.length - k) .error
      let u := { sense lv s with
        mem := m, bus := { s.bus with port := .free, inHand := none, answer := answer } }
      exec (.forwardedAccessError lv k) s =
          .next (finish s (deliverEvents (events.filter fun e => e.word < k) u)) ∧
        ∀ x, ¬ (a.write = true ∧ enabledByte (a.addressed.take k) x) → memRead m x = memRead s.mem x

/-- The window events as their owners take them (R22, R26, R27, R32, R41, R42, R47, R72, R94, R112, R141, R146, R156, R170,
R171; which mode a commit is judged in, what the maps hold at a restart and which map an event reaches are the model's
readings, log 14, 15 and 16): a handoff marks its entry HANDED, a release marks its entry RELEASED; a commit in UNCONFIGURED
or HELD begins a load, with the tap order queue emptied and counted as lost, and changes nothing else; an edit in LOADING sets
edited, in WATCH, RUN and SAFE it clears confirmed alone, in UNCONFIGURED it changes nothing. An edit in HELD removes the
loaded copy and moves the mode to UNCONFIGURED: the windows are decoded no more, both maps, the tap order queue (counted as
lost) and the post queue are emptied, the take index, the fill index and the gap count are 0, the track, the held nips and the
pulls are gone, the slot count starts over with sync clear and no index position, the lanes are OFF and the readers IDLE, and
CONFIG is latched beside the causes latched; the reports offered before it in the step are taken first (log 26), and place
fills alone. A commit in LOADING begins the load again: edited is cleared, what was read so far goes with the maps begun under
its header, the mode, its cause and the bounds stay; with a read of the loader still in the queue discard is set, and
otherwise the header read is queued at once. -/
def Obligations.WindowEvents : Prop :=
  ∀ s : State,
    let header : OwnAccess := ⟨s.uid, .header, false, readBursts64 s.configBase⟩
    let lost := s.orders.tapLosses + BitVec.ofNat 32 s.orders.tapQueue.length
    (∀ e, s.loader.bounds.isSome = true → ∃ l, deliverEvent (.handoff e s.loader.gen) s =
        { s with orders := { s.orders with handed := l } } ∧ ∀ x, x ∈ l ↔ x = e ∨ x ∈ s.orders.handed) ∧
    (∀ e, s.loader.bounds.isSome = true → ∃ l, deliverEvent (.release e s.loader.gen) s =
        { s with rep := { s.rep with released := l } } ∧ ∀ x, x ∈ l ↔ x = e ∨ x ∈ s.rep.released) ∧
    (s.station.mode = .unconfigured ∨ s.station.mode = .held → deliverEvent (.config true) s =
      { s with
        station := { s.station with mode := .loading, cause := .commit }
        loader := { s.loader with phase := .header, edited := false, discard := false, header := none, tables := [] }
        orders := { s.orders with tapQueue := [], tapLosses := lost }
        rep := { s.rep with dirty := true }
        bus := { s.bus with queue := s.bus.queue ++ [header] }
        uid := s.uid + 1 }) ∧
    (s.station.mode = .loading → deliverEvent (.config false) s =
      { s with loader := { s.loader with edited := true, confirmed := false } }) ∧
    (∀ p, s.station.mode.working = true → deliverEvent (.config p) s =
      { s with loader := { s.loader with confirmed := false } }) ∧
    (s.station.mode = .unconfigured → deliverEvent (.config false) s = s) ∧
    (s.station.mode = .held → ∃ u, deliverEvent (.config false) s = u ∧
      u = { s with
        station := { s.station with mode := .unconfigured, cause := .edit }
        loader := { s.loader with
          phase := .idle, header := none, tables := [], loaded := none, confirmed := false, error := .edited
          bounds := none }
        orders := { s.orders with tapQueue := [], tapLosses := lost, handed := [], takeIndex := 0 }
        track := { s.track with rows := [], splices := [], resumes := [], rejectEnd := PerLane.const none }
        imp := { s.imp with
          throw := u.imp.throw, horizon := none, release := none, nips := [], slotCounter := 0, slotSync := false
          lastIndex := none }
        foil := s.foil.map fun f => { f with records := [], pullEnd := none, acc := 0 }
        lanes := PerLane.const Tracker.reset
        readers := PerLane.const Reader.reset
        rep := { u.rep with
          released := [], fillIndex := 0, post := [], gap := 0, offers := [], dirty := true
          policy := s.rep.policy, policyVariant := s.rep.policyVariant, mask := s.rep.mask
          statusQueued := s.rep.statusQueued, updateCount := s.rep.updateCount }
        bus := { s.bus with queue := u.bus.queue }
        uid := u.uid
        choice := u.choice } ∧
      u.throwOn = false ∧ (s.throwOn = false → u.imp.throw = s.imp.throw) ∧
      (∃ l, u.bus.queue = s.bus.queue ++ l ∧ ∀ a ∈ l, ∃ e, a.purpose = .fill e) ∧
      (u.rep.latched = s.rep.latched ||| Cause.config.mask ∨
        u.rep.latched = s.rep.latched ||| Cause.loss.mask ||| Cause.config.mask) ∧
      (s.rep.offers = [] → u.rep.latched = s.rep.latched ||| Cause.config.mask ∧
        u.rep.followOpen = s.rep.followOpen)) ∧
    (s.station.mode = .loading →
      let begun := s.loader.header.isSome
      let t := { s with
        loader := { s.loader with phase := .header, edited := false, header := none, tables := [] }
        orders := { s.orders with handed := if begun then [] else s.orders.handed }
        rep := { s.rep with released := if begun then [] else s.rep.released } }
      (loaderReading s = true → deliverEvent (.config true) s = { t with loader := { t.loader with discard := true } }) ∧
      (loaderReading s = false → deliverEvent (.config true) s = { t with
        bus := { s.bus with queue := s.bus.queue ++ [header] }
        uid := s.uid + 1 }))

/-- RESET_N_ASSERTED and RESET_N_RELEASED (R8, R20, R34, R67). At the assertion the mode is BYPASS, its cause RESET (the
model's reading while RESET_N is asserted, log 34); the queue is empty, the pass-over count 0, the loaded copy and the bounds
are gone, every block has its reset values; a held access in hand is forwarded; an own write on the port has the words that
memory accepts in it, any number of them (the model's choice, log 12); a station fault raised and not yet applied is discarded
with the other messages (the model's reading, log 57). At the release the straps and the encoder levels are taken, the
configuration window is at the base the straps select, the mode is UNCONFIGURED with cause RESET, and every block has the
values of State.reset; the other input lines, job memory and the access in hand stay. -/
def Obligations.ResetLine : Prop :=
  (∀ (k : Nat) (s : State), s.station.mode ≠ .bypass → ∃ u, exec (.resetNAsserted k) s = .next (finish s u) ∧
     u.station = { Station.reset with mode := .bypass } ∧ u.loader = Loader.reset ∧ u.orders = OrderUnit.reset ∧
     u.bus.queue = [] ∧ u.bus.passOver = 0 ∧
     (∀ h, s.bus.inHand = some h → h.phase ≠ .issued → ∃ h', u.bus.inHand = some h' ∧ h'.acc = h.acc ∧
       h'.phase = .contender) ∧
     u.web = ⟨0, 0, false⟩ ∧ u.track = Track.reset ∧ u.imp = Impression.reset ∧ u.survey = Survey.reset ∧
     u.rep = ReportUnit.reset ∧ u.cnt = Counters.reset ∧ u.msgs = Messages.empty ∧
     (∀ n, u.reader n = Reader.reset ∧ u.lane n = Tracker.reset ∧ u.drive n = Foil.reset) ∧
     ((∀ o, issuedOwn s = some o → o.write = false) → u.mem = s.mem) ∧
     (∀ o, issuedOwn s = some o → o.write = true → u.mem = memWriteWords s.mem (o.addressed.take k))) ∧
  ∀ (straps : BitVec 2) (a b : Bool) (s : State), s.station.mode = .bypass → ∃ u,
    exec (.resetNReleased straps a b) s = .next (finish s u) ∧
    u = { State.reset with
      pending := s.pending, mem := s.mem, uid := s.uid, choice := s.choice
      pins := { s.pins with base := straps, webA := a, webB := b }
      bus := { Bus.reset with port := s.bus.port, inHand := s.bus.inHand, answer := s.bus.answer } } ∧
    u.station.mode = .unconfigured ∧ u.station.cause = .reset ∧
    u.configBase = (if straps = 0 then 0x001000 else if straps = 1 then 0x040000 else
      if straps = 2 then 0x7F0000 else 0xFF0000)

/-! ## The part's own accesses -/

/-- An own access ends (R2, R6, R9): the words of an own write that memory accepted are in memory and every other byte reads
as before; the access leaves the queue, the port falls free, and a hold set loses the conditions the access ends. -/
def Obligations.OwnAccessLeavesTheQueue : Prop :=
  ∀ (s : State) (o : OwnAccess) (rest : List OwnAccess) (k : Nat), s.bus.port = .own → s.bus.queue = o :: rest →
    issuedOwn s = some o ∧ completeOwn o s = endOwn o o.addressed.length s ∧
    ∃ m hand, endOwn o k s = { s with
        mem := m, bus := { s.bus with port := .free, queue := rest, inHand := hand } } ∧
      (o.write = false → m = s.mem) ∧ (o.write = true → m = memWriteWords s.mem (o.addressed.take k)) ∧
      (∀ x, ¬ (o.write = true ∧ enabledByte (o.addressed.take k) x) → memRead m x = memRead s.mem x) ∧
      (s.bus.inHand = none → hand = none) ∧
      (∀ h, s.bus.inHand = some h → (∀ l, h.phase ≠ .held l) → hand = some h) ∧
      ∀ h l, s.bus.inHand = some h → h.phase = .held l → ∃ l', hand = some { h with phase := .held l' } ∧
        ∀ c, c ∈ l' ↔ c ∈ l ∧ c ≠ .ownWrite o.id ∧ ∀ e, o.purpose = .fill e → c ≠ .fill e

/-- HEADER_READ_COMPLETE, TABLE_READ_COMPLETE, SEEDING_READ_COMPLETE and DISCARDED_READ_COMPLETE (R23 to R26). The header read
gives the loaded edition, the new bounds and two empty maps, and the first table read is queued. A table read is kept and the
next queued; after the fifth a header that passes checks 1 to 3 starts SEEDING with its first read, and one that does not
fails the load with EDITED, or else with the first check it fails. A seeding read adds the entries read HANDED, or read with
owner 0, to the new map, and marks recorded since the header read stand; the next read of up to eight entries is queued, the
report ring after the order ring; after the last, the load is judged and the tap orders that wait are served (that one
delivered in LOADING by the burst of the commit is kept for this is the model's choice, log 58). The read of an abandoned load
is thrown away and the header read queued. -/
def Obligations.LoadReads : Prop :=
  (∀ (s : State) (o : OwnAccess), issuedOwn s = some o →
     let ws := ownReadWords s.mem o
     let h := readHeader ws
     let v := completeOwn o s
     let queued := fun (p : Purpose) (base : Nat) =>
       { v.bus with queue := v.bus.queue ++ [⟨s.uid, p, false, readBursts64 base⟩] }
     (o.purpose = .header → s.loader.discard = false →
       exec .headerReadComplete s = .next (finish s { v with
         loader := { s.loader with
           phase := .tables, header := some ws, tables := [], edition := halfAt ws 2
           bounds := some ⟨h.orderBase, h.orderSize, h.reportBase, h.reportSize, h.statusBase⟩
           gen := s.loader.gen + 1 }
         orders := { s.orders with handed := [] }, rep := { s.rep with released := [] }
         bus := queued (.table 0) (s.configBase + 256), uid := s.uid + 1 })) ∧
     (∀ k < 4, o.purpose = .table k → s.loader.discard = false →
       exec .tableReadComplete s = .next (finish s { v with
         loader := { s.loader with tables := s.loader.tables ++ ws }
         bus := queued (.table (k + 1)) (s.configBase + 256 + 256 * (k + 1)), uid := s.uid + 1 })) ∧
     (∀ hw b, o.purpose = .table 4 → s.loader.discard = false → s.loader.header = some hw →
       s.loader.bounds = some b → seedable s.configBase (readHeader hw) = true →
       exec .tableReadComplete s = .next (finish s { v with
         loader := { s.loader with tables := s.loader.tables ++ ws, phase := .seeding }
         bus := { v.bus with queue := v.bus.queue ++
           [⟨s.uid, .seedOrder 0, false, seedBursts b.orderBase 16 0 b.orderSize⟩] }
         uid := s.uid + 1 })) ∧
     (∀ hw b, o.purpose = .table 4 → s.loader.discard = false → s.loader.header = some hw →
       s.loader.bounds = some b → seedable s.configBase (readHeader hw) = false →
       ∃ code, exec .tableReadComplete s = .next (finish s (failLoad code { v with
           loader := { s.loader with tables := s.loader.tables ++ ws, phase := .checking } })) ∧
         code = if s.loader.edited then .edited
           else if checkStatusAddress s.configBase (readHeader hw) = false then .statusAddress
           else if checkWindows s.configBase (readHeader hw) = false then .windows else .ringSize) ∧
     (o.purpose.ofLoader = true → s.loader.discard = true →
       exec .discardedReadComplete s = .next (finish s { v with
         loader := { s.loader with discard := false }
         bus := queued .header s.configBase, uid := s.uid + 1 }))) ∧
  ∀ (lv : Levels) (s : State) (o : OwnAccess) (b : Bounds) (first : Nat), issuedOwn s = some o →
    s.loader.discard = false → s.loader.bounds = some b → s.station.mode = .loading →
    s.loader.phase = .seeding →
    let ws := ownReadWords s.mem o
    let v := completeOwn o (sense lv s)
    let recorded := fun (value size : Nat) (x : Nat) =>
      ∃ i w, i < 8 ∧ first + i < size ∧ ws[i]? = some w ∧ (byteOf w 0).toNat = value ∧ x = first + i
    let read := fun (p : Purpose) (base stride n size : Nat) =>
      { v.bus with queue := v.bus.queue ++ [⟨s.uid, p, false, seedBursts base stride n size⟩] }
    (o.purpose = .seedOrder first → ∃ l, (∀ x, x ∈ l ↔ x ∈ s.orders.handed ∨ recorded 1 b.orderSize x) ∧
      exec (.seedingReadComplete lv) s = .next (finish s { v with
        orders := { s.orders with handed := l }
        bus := if first + 8 < b.orderSize then read (.seedOrder (first + 8)) b.orderBase 16 (first + 8) b.orderSize
          else read (.seedReport 0) b.reportBase 64 0 b.reportSize
        uid := s.uid + 1 })) ∧
    (o.purpose = .seedReport first → ∃ l, (∀ x, x ∈ l ↔ x ∈ s.rep.released ∨ recorded 0 b.reportSize x) ∧
      (first + 8 < b.reportSize → exec (.seedingReadComplete lv) s = .next (finish s { v with
        rep := { s.rep with released := l }
        bus := read (.seedReport (first + 8)) b.reportBase 64 (first + 8) b.reportSize
        uid := s.uid + 1 })) ∧
      (b.reportSize ≤ first + 8 →
        exec (.seedingReadComplete lv) s = .next (finish s (serveWaiting (runChecks { v with
          rep := { s.rep with released := l }, loader := { s.loader with phase := .checking } })))))

/-- What the loader and the Order Unit read (11.1, 11.2, R21, R63, R194): every field of the header, of the mark class, tap
and variant entries and of an order entry, as the bytes of its whole stored size, the least significant first, at the offsets
of the layouts; the bits outside every field (the high byte of a base, bits 12 to 15 of a code, a code mask and the attention
mask, the unused flag bits, and bits 2 to 15 of a BYTE argument) are not looked at. The mark classes loaded are those before
the first whose max width is 0. -/
def Obligations.WindowLayout : Prop :=
  (∀ ws tbl : List Word,
    let h := readHeader ws
    let byte := fun i : Nat =>
      (byteOf (if i < 256 then ws.getD (i / 4) 0 else tbl.getD ((i - 256) / 4) 0) (i % 4)).toNat
    let half := fun i : Nat => byte i + 256 * byte (i + 1)
    let addr := fun i : Nat => half i + 65536 * byte (i + 2)
    let word := fun i : Nat => half i + 65536 * half (i + 2)
    (readCopy ws tbl).hdr = h ∧
    (h.edition.toNat = half 2 ∧ h.laneMask.toNat = byte 4 ∧ h.leadLane = byte 5 ∧ h.codeLength = byte 6 ∧
      h.plates = byte 7) ∧
    (h.nominalPitch.toNat = word 8 ∧ h.windowEarly.toNat = word 12 ∧ h.windowLate.toNat = word 16 ∧
      h.minMarkWidth.toNat = word 20 ∧ (∀ n : Lane, (h.sensorToNip.get n).toNat = word (24 + 4 * n.val)) ∧
      h.nipToReject.toNat = word 40 ∧ h.rejectWidth.toNat = word 44 ∧ h.skewTolerance.toNat = word 48 ∧
      h.spliceDarkLength.toNat = word 52 ∧ h.spliceMarginBefore.toNat = word 56 ∧
      h.spliceMarginAfter.toNat = word 60) ∧
    (h.flywheelLimit = byte 64 ∧ h.flywheelStrike = decide (byte 65 % 2 = 1) ∧ h.setLength = byte 66 ∧
      h.trimGain = byte 67 ∧ h.indexOffset.toNat = word 68 ∧ h.throwLead.toNat = word 72 ∧
      h.releaseClearance.toNat = word 76 ∧ h.trimStepMax = half 80 ∧ h.trimLimit = half 82 ∧ h.ratioNum = half 84 ∧
      h.ratioDen = half 86 ∧ h.foilLead.toNat = word 88 ∧ h.foilTrail.toNat = word 92 ∧ h.foilLow.toNat = word 96 ∧
      h.reverseTolerance.toNat = word 100) ∧
    (h.orderBase = addr 104 ∧ h.orderSize = half 108 ∧ h.reportSize = half 110 ∧ h.reportBase = addr 112 ∧
      h.statusBase = addr 116 ∧ h.attentionMask.toNat = half 120 % 4096 ∧ h.policy = byte 122 ∧
      h.policyVariant = byte 123) ∧
    (∀ n : Lane, (∀ p < 16, h.setAt n p = some (byte (128 + 16 * n.val + p))) ∧
      ∀ p, 16 ≤ p → h.setAt n p = none) ∧
    (∀ i < 8,
      ((∀ j ≤ i, half (256 + 4 * j) ≠ 0) →
        (readCopy ws tbl).classes[i]? = some ⟨half (256 + 4 * i), half (256 + 4 * i + 2)⟩) ∧
      ((∃ j ≤ i, half (256 + 4 * j) = 0) → (readCopy ws tbl).classes[i]? = none)) ∧
    (readCopy ws tbl).classes.length ≤ 8 ∧
    (readCopy ws tbl).taps.length = 16 ∧
    (∀ k < 16, ∃ e, (readCopy ws tbl).taps[k]? = some e ∧
      let o := 288 + 16 * k
      e.wordAddr.toNat = addr o ∧ e.lane.val = byte (o + 3) % 4 ∧ e.addrMask.toNat = addr (o + 4) ∧
      e.pattern.toNat = word (o + 8) ∧ e.enabled = decide (byte (o + 12) % 2 = 1) ∧
      e.consume = decide (byte (o + 12) / 2 % 2 = 1) ∧ e.fromByte = decide (byte (o + 12) / 4 % 2 = 1) ∧
      e.byteMask.toNat = byte (o + 12) / 16 ∧ e.kind.toNat = byte (o + 13) ∧
      e.arg.toNat = if e.fromByte = true then half (o + 14) % 4 else half (o + 14)) ∧
    (readCopy ws tbl).variants.length = 32 ∧
    ∀ v < 32, ∃ e, (readCopy ws tbl).variants[v]? = some e ∧
      let o := 544 + 16 * v
      e.code.toNat = half o % 4096 ∧ e.codeMask.toNat = half (o + 2) % 4096 ∧
      e.valid = decide (byte (o + 4) % 2 = 1) ∧ e.strike = decide (byte (o + 4) / 2 % 2 = 1) ∧
      e.cls = byte (o + 5) ∧ e.plate = byte (o + 6) ∧ e.imageOffset.toNat = half (o + 8) ∧
      e.imageLength.toNat = half (o + 10)) ∧
  ∀ ws : List Word,
    let byte := fun i : Nat => (byteOf (ws.getD (i / 4) 0) (i % 4)).toNat
    let half := fun i : Nat => byte i + 256 * byte (i + 1)
    let o := readOrder ws
    o.kind.toNat = byte 1 ∧ o.lane = byte 2 ∧ o.a.toNat = half 4 ∧ o.b.toNat = half 6 ∧
      o.c.toNat = half 8 + 65536 * half 10

/-- The thirteen checks of a load (R29), in order with their codes, and what each compares. Extents are taken without
wrapping, and two overlap when they share a byte. In check 10 the skew tolerance is compared with half the pitch exactly (the
model's reading, log 20). Check 11 is stated for a window early below the pitch, which check 10 asks for: the quotient,
rounded up, is at most 30, so each distance to the reject point is at most 30 times the divisor. SEEDING needs checks 1 to 3
(R24). -/
def Obligations.LoadChecks : Prop :=
  ∀ (base : Nat) (c : Loaded),
    let h := c.hdr
    let shares := fun a la b lb : Nat => ∃ x, a ≤ x ∧ x < a + la ∧ b ≤ x ∧ x < b + lb
    let passes := fun code : ErrorCode => (code, true) ∈ loadChecks base c
    let below := fun w : Word => w.toNat < 2 ^ 28
    let orders := 16 * h.orderSize
    let reports := 64 * h.reportSize
    let valid := fun v : Nat => ∃ e, c.variants[v]? = some e ∧ e.valid = true
    let gap := h.nominalPitch.toNat - h.windowEarly.toNat
    (loadChecks base c).map Prod.fst = [.statusAddress, .windows, .ringSize, .lanes, .classTable, .codeLength, .plates,
      .variants, .setList, .geometry, .trackCapacity, .foilRatio, .trim] ∧
    (seedable base h = true ↔ passes .statusAddress ∧ passes .windows ∧ passes .ringSize) ∧
    (passes .statusAddress ↔ h.statusBase % 32 = 0 ∧ h.statusBase + 255 ≤ 0xFFFFFF ∧
      ¬ shares h.statusBase 256 base 1536) ∧
    (passes .windows ↔ h.orderBase % 16 = 0 ∧ h.reportBase % 32 = 0 ∧ h.orderBase + orders ≤ 0x1000000 ∧
      h.reportBase + reports ≤ 0x1000000 ∧ ¬ shares base 1536 h.orderBase orders ∧
      ¬ shares base 1536 h.reportBase reports ∧ ¬ shares base 1536 h.statusBase 256 ∧
      ¬ shares h.orderBase orders h.reportBase reports ∧ ¬ shares h.orderBase orders h.statusBase 256 ∧
      ¬ shares h.reportBase reports h.statusBase 256) ∧
    (passes .ringSize ↔ h.orderSize ∈ [4, 8, 16, 32, 64] ∧
      h.reportSize ∈ [8, 16, 32, 64, 128, 256, 512, 1024]) ∧
    (passes .lanes ↔ h.laneMask ≠ 0 ∧ h.laneMask.toNat < 16 ∧
      ∃ n : Lane, n.val = h.leadLane ∧ h.active n = true) ∧
    (passes .classTable ↔ c.classes ≠ [] ∧ c.classes.Pairwise (fun x y => x.maxWidth < y.maxWidth) ∧
      ∀ x ∈ c.classes, 1 ≤ x.unitWidth) ∧
    (passes .codeLength ↔ 4 ≤ h.codeLength ∧ h.codeLength ≤ 12) ∧
    (passes .plates ↔ 1 ≤ h.plates ∧ h.plates ≤ 4) ∧
    (passes .variants ↔
      (∀ v ∈ c.variants, v.valid = true → v.plate < h.plates ∧ v.cls < c.classes.length) ∧ h.policy ≤ 3 ∧
      (2 ≤ h.policy → valid h.policyVariant)) ∧
    (passes .setList ↔ 1 ≤ h.setLength ∧ h.setLength ≤ 16 ∧
      ∀ n, h.active n = true → ∀ p < h.setLength, ∃ v, h.setAt n p = some v ∧ valid v) ∧
    (passes .geometry ↔
      (1 ≤ h.nominalPitch.toNat ∧ below h.nominalPitch ∧ 1 ≤ h.minMarkWidth.toNat ∧
        (∀ n, h.active n = true → below (h.sensorToNip.get n)) ∧ below h.nipToReject ∧ 1 ≤ h.rejectWidth.toNat ∧
        below h.rejectWidth ∧ 1 ≤ h.spliceDarkLength.toNat ∧ below h.spliceDarkLength ∧
        below h.spliceMarginBefore ∧ below h.spliceMarginAfter ∧ below h.indexOffset ∧ below h.throwLead ∧
        below h.releaseClearance ∧ below h.foilLead ∧ below h.foilTrail ∧ below h.reverseTolerance) ∧
      h.windowEarly.toNat + h.windowLate.toNat < h.nominalPitch.toNat ∧
      (∃ e, c.classes[0]? = some e ∧ h.minMarkWidth.toNat ≤ e.maxWidth) ∧
      (∀ e ∈ c.classes,
        e.maxWidth + e.unitWidth * (h.codeLength + 1) + h.windowEarly.toNat < h.nominalPitch.toNat) ∧
      2 * h.skewTolerance.toNat < h.nominalPitch.toNat ∧ h.foilLead.toNat ≤ h.throwLead.toNat ∧
      1 ≤ h.flywheelLimit ∧ h.flywheelLimit ≤ 8) ∧
    (0 < gap → (passes .trackCapacity ↔
      h.nipToReject.toNat + h.windowLate.toNat ≤ 30 * gap ∧ ∀ n, h.active n = true →
        (h.sensorToNip.get n).toNat + h.nipToReject.toNat + h.windowLate.toNat ≤ 30 * gap)) ∧
    (passes .foilRatio ↔ 1 ≤ h.ratioNum ∧ 1 ≤ h.ratioDen) ∧
    (passes .trim ↔ h.trimGain ≤ 8 ∧ 1 ≤ h.trimStepMax ∧ h.trimStepMax ≤ 255 ∧ 1 ≤ h.trimLimit ∧
      h.trimLimit ≤ 32767)

/-- How a load ends (R27, R29, R30, R31, R146, R154, R156, R164, R170; when the one status write of a failed load is placed is
the model's reading, log 33, and that a tap order delivered in LOADING by the burst of the commit is kept at a success is its
choice, log 58). An edited load fails with EDITED; otherwise the first check that fails gives the code; otherwise the load
succeeds. A failure leaves UNCONFIGURED with LOAD_FAILED, no loaded copy, no bounds, empty maps, an empty track, lanes OFF, no
pulls and no nips, the fill index, the gap count and the slot count 0 and the trim, the policy and the follow state kept,
latches CONFIG, and asks for one status write when the header meets STATUS_ADDRESS. A success leaves HELD with LOADED, the new
copy confirmed, active lanes IDLE, an empty track, no pulls and no nips, indices and counters 0, the slot count and the trim
at their reset values, the policy and mask of the header, the follow state CLOSED, CONFIG cleared, and offers one MODE report;
foil remaining and OUT are kept, BREAK gains the lanes whose FOILBRK is asserted, and one such lane latches FOIL. -/
def Obligations.LoadOutcome : Prop :=
  ∀ (s : State) (ws : List Word), s.loader.header = some ws →
    let c := readCopy ws s.loader.tables
    let checks := loadChecks s.configBase c
    let released := { s.imp with
      throw := if s.throwOn then (if s.pins.throwOk then .releasing else .off) else s.imp.throw
      horizon := none, release := none, nips := [], slotCounter := 0, slotSync := false, lastIndex := none }
    let emptied := fun n => { s.drive n with records := [], pullEnd := none, acc := 0 }
    (s.loader.edited = true → runChecks s = failLoad .edited s) ∧
    (∀ code pre post, s.loader.edited = false → checks = pre ++ (code, false) :: post →
      (∀ p ∈ pre, p.2 = true) → runChecks s = failLoad code s) ∧
    (s.loader.edited = false → (∀ p ∈ checks, p.2 = true) → runChecks s = loadSucceeds c s) ∧
    (∀ code, ∃ u, failLoad code s = u ∧
      u.station = { s.station with mode := .unconfigured, cause := .loadFailed } ∧
      u.loader = { s.loader with
        phase := .idle, header := none, tables := [], loaded := none, confirmed := false, error := code
        bounds := none } ∧
      u.orders.handed = [] ∧ u.orders.takeIndex = 0 ∧ u.orders.tapQueue = [] ∧
      u.orders.inProgress = s.orders.inProgress ∧ u.rep.released = [] ∧ u.rep.post = [] ∧
      u.orders.tapLosses = s.orders.tapLosses + BitVec.ofNat 32 s.orders.tapQueue.length ∧
      u.rep.fillIndex = 0 ∧ u.rep.gap = 0 ∧ u.rep.fill = s.rep.fill ∧ u.rep.policy = s.rep.policy ∧
      u.rep.policyVariant = s.rep.policyVariant ∧ u.rep.followOpen = s.rep.followOpen ∧ u.rep.mask = s.rep.mask ∧
      u.imp = released ∧
      u.track.rows = [] ∧ u.track.splices = [] ∧ (∀ n, u.lane n = Tracker.reset ∧ u.reader n = Reader.reset) ∧
      u.rep.latched = s.rep.latched ||| Cause.config.mask ∧ u.rep.offers = s.rep.offers ∧
      u.rep.statusAt = (if checkStatusAddress s.configBase c.hdr then some c.hdr.statusBase else none) ∧
      u.mem = s.mem ∧ u.pins = s.pins ∧ u.bus = s.bus ∧ u.web = s.web ∧ u.survey = s.survey ∧ u.cnt = s.cnt ∧
      u.msgs = s.msgs ∧ ∀ n, u.drive n = emptied n) ∧
    (∃ u, loadSucceeds c s = u ∧
      u.station = { s.station with mode := .held, cause := .loaded } ∧
      u.loader = { s.loader with
        phase := .idle, edited := false, header := none, tables := [], loaded := some c, confirmed := true
        error := .none } ∧
      u.orders = { OrderUnit.reset with handed := s.orders.handed, tapQueue := s.orders.tapQueue } ∧
      u.rep.released = s.rep.released ∧ u.rep.fillIndex = 0 ∧ u.rep.post = [] ∧ u.rep.gap = 0 ∧
      u.rep.fill = none ∧ u.rep.followOpen = false ∧
      u.imp = { released with trim := 0, trimStopped := false, lastError := none } ∧
      u.rep.policy = (Policy.ofCode c.hdr.policy).getD .all ∧ u.rep.policyVariant = c.hdr.policyVariant ∧
      u.rep.mask = c.hdr.attentionMask ∧ u.rep.dirty = true ∧
      u.rep.offers = s.rep.offers ++ [(.station, .mode s.station.mode .held .loaded s.web.pos)] ∧
      u.rep.latched = (s.rep.latched &&& ~~~Cause.config.mask) |||
        (if ∃ n, c.hdr.active n = true ∧ s.pins.foilbrk.get n = true then Cause.foil.mask else 0) ∧
      u.rep.latched &&& Cause.config.mask = 0 ∧
      (∀ k : Cause, k ≠ .config → k ≠ .foil → u.rep.latched &&& k.mask = s.rep.latched &&& k.mask) ∧
      u.track = Track.reset ∧ u.survey = Survey.reset ∧ u.cnt = Counters.reset ∧ u.bus.guardDrops = 0 ∧
      (∀ n, u.lane n = if c.hdr.active n then { Tracker.reset with state := .idle } else Tracker.reset) ∧
      (∀ n, u.reader n = Reader.reset) ∧
      (∀ n, u.drive n =
        { emptied n with brk := (s.drive n).brk || (c.hdr.active n && s.pins.foilbrk.get n) }) ∧
      u.mem = s.mem ∧ u.pins = s.pins ∧ u.web = s.web ∧ u.msgs = s.msgs)

/-- OWN_ACCESS_ERROR at word `k` (R6, R13, R28, R46, R65, R173, R182): the words before it are in memory, the access leaves
the queue, MEMORY is raised and latched, and the producer acts: a load fails with MEMORY, the read of an abandoned load makes
way for the header read, an entry read places a REFUSED_MEMORY result, a failed result write ends its take and the tap orders
that wait are served, a failed fill counts its report as lost, and a failed status write is no longer queued and marks the
block again. An access in hand whose last condition left is then settled again; OwnWritesComplete says how, TapOrderQueue how
the orders are served. The take of a replaced ring clears no mark (the model's reading, log 15); the status write queued after
a failed one is queued before the fault MEMORY is applied (the model's reading, log 61); and the index wraps at the size of
the ring in force, or stays with none decoded (the model's choice, log 41 and 17). -/
def Obligations.OwnAccessErrors : Prop :=
  ∀ (lv : Levels) (s : State) (o : OwnAccess) (k : Nat), issuedOwn s = some o → k < o.addressed.length →
    let v := endOwn o k (sense lv s)
    let w := { v with
      msgs := { s.msgs with faults := s.msgs.faults ++ [⟨.memory, none⟩] }
      rep := { s.rep with latched := s.rep.latched ||| Cause.memory.mask } }
    let answers := fun u => exec (.ownAccessError lv k) s = .next (finish s (resettle u))
    (o.purpose.ofLoader = true → s.loader.discard = false → answers (failLoad .memory w)) ∧
    (o.purpose.ofLoader = true → s.loader.discard = true → answers { w with
      loader := { s.loader with discard := false }
      bus := { v.bus with queue := v.bus.queue ++ [⟨s.uid, .header, false, readBursts64 s.configBase⟩] }
      uid := s.uid + 1 }) ∧
    (∀ t, o.purpose = .entryRead → s.orders.inProgress = some t → answers { w with
      orders := { s.orders with
        refusals := s.orders.refusals + 1, inProgress := some { t with writing := true } }
      bus := { v.bus with queue := v.bus.queue ++
        [⟨s.uid, .resultWrite, true, resultBursts t.addr .refusedMemory 0⟩] }
      uid := s.uid + 1 }) ∧
    (∀ t, o.purpose = .resultWrite → s.orders.inProgress = some t → answers (serveWaiting { w with
      orders := { s.orders with
        handed := if t.gen = s.loader.gen then s.orders.handed.erase t.entry else s.orders.handed
        inProgress := none
        takeIndex := match s.loader.bounds with
          | some b => if s.orders.takeIndex + 1 < b.orderSize then s.orders.takeIndex + 1 else 0
          | none => s.orders.takeIndex } })) ∧
    (∀ e f, o.purpose = .fill e → s.rep.fill = some f → answers { w with
      rep := { w.rep with
        fill := none, gap := min 4294967295 (s.rep.gap + (match f.report with | .gap n => n | _ => 1)) } }) ∧
    (o.purpose = .statusWrite → answers { w with rep := { w.rep with statusQueued := false, dirty := true } })

/-! ## Orders. In what follows `shown` and `judgedAt` (Safety.lean) are the state that shows an order's result and the state
in which it is judged: R44 to R46 for a ring order, R64 to R66 for a tap order. -/

/-- ORDER_TAKE_BEGIN (R43): in HELD or a working mode, with no load, no order in progress, no tap order waiting and the entry
at the take index HANDED, that entry is the order in progress and one read of its four words is queued. The judgement of an
order (R44): a kind that is none of the thirteen is refused with REFUSED_KIND, and a kind the mode does not accept with
REFUSED_MODE, each with result value 0 and no effect, and counted; the modes that accept each kind; and
ORDER_ENTRY_READ_COMPLETE judges whatever order the entry holds. -/
def Obligations.OrderTakeAndJudgement : Prop :=
  (∀ (s : State) (b : Bounds), s.station.mode ∈ [.held, .watch, .run, .safe] → s.loader.phase = .idle →
    s.orders.inProgress = none → s.orders.tapQueue = [] → s.orders.takeIndex ∈ s.orders.handed →
    s.loader.bounds = some b →
    let addr := b.orderBase + 16 * s.orders.takeIndex
    exec .orderTakeBegin s = .next (finish s { s with
      orders := { s.orders with inProgress := some ⟨s.orders.takeIndex, addr, s.loader.gen, false⟩ }
      bus := { s.bus with queue := s.bus.queue ++
        [⟨s.uid, .entryRead, false, [⟨BitVec.ofNat 24 addr, List.replicate 4 readReq⟩]⟩] }
      uid := s.uid + 1 })) ∧
  (∀ (lv : Levels) (src : OrderSource) (s : State) (o : Order) (g : Origin) (kind : Byte),
    Presents kind src (sense lv s) o g →
    let j := judgedAt src (sense lv s)
    (kind.toNat = 0 ∨ 13 < kind.toNat →
      exec (.unknownOrderKind lv src kind) s = .next (finish s (shown kind src ⟨.refusedKind, 0, j⟩))) ∧
    (∀ k : OrderKind, kind = k.code → k.acceptedIn s.station.mode = false →
      exec (k.command lv src) s = .next (finish s (shown kind src ⟨.refusedMode, 0, j⟩))) ∧
    (src = .entry →
      exec (.orderEntryReadComplete lv) s = .next (finish s (shown kind src (judgeOrder o g j))))) ∧
  (∀ k : OrderKind, (OrderKind.ofCode k.code = some k) ∧ ∀ m : Mode, k.acceptedIn m = decide (m ∈
    match k with
    | .watch => [Mode.held, .safe]
    | .run => [.watch]
    | .stampOff => [.run]
    | .hold => [.held, .watch, .run, .safe]
    | .skip => [.watch, .run]
    | .laneRestart => [.watch, .run, .safe]
    | .setPosition => [.watch, .run, .safe]
    | .trimReset => [.watch, .run, .safe]
    | .foilLoad => [.held, .watch, .run, .safe]
    | .countTarget => [.watch, .run]
    | .survey => [.watch]
    | .reportPolicy => [.held, .watch, .run, .safe]
    | .ack => [.held, .watch, .run, .safe]))

/-- WATCH and RUN (R35, R36, R49, R50; that WATCH from HELD empties the splice list is the model's reading, log 27). WATCH
answers the mode left and enters WATCH with every active lane in HUNT, quality 0 and skip counter 0, and offers the MODE
report; from HELD the readers of active lanes enter SEEK, the serial counter, the trim and the slot sync start over and the
high-water position takes the web position; from SAFE the track, the trim, the slot sync and the high-water position are kept,
wind-down, STAMP_OFF and the count target end, and one that was pending latches ORDER. RUN is refused with 1, 2 or 3 for
HEAT_RDY, for no LOCKED lane, for a survey; otherwise it enters RUN and changes nothing else. -/
def Obligations.WatchAndRunOrders : Prop :=
  ∀ (lv : Levels) (src : OrderSource) (s : State) (o : Order) (g : Origin) (c : Loaded),
    s.loader.loaded = some c →
    let j := judgedAt src (sense lv s)
    let entered := fun (m : Mode) (cause : ModeCause) => { j.rep with
      dirty := true, offers := j.rep.offers ++ [(.station, .mode s.station.mode m cause s.web.pos)] }
    let hunting := j.lanes.mapLane fun n t =>
      if c.hdr.active n then { t with state := .hunt, quality := 0, misses := 0, skip := 0 } else t
    (Presents 1 src (sense lv s) o g → s.station.mode = .held →
      exec (.watch lv src) s = .next (finish s (shown 1 src ⟨.done, 3, { j with
        station := { s.station with mode := .watch, cause := .watchOrder }, rep := entered .watch .watchOrder
        lanes := hunting
        readers := j.readers.mapLane fun n r =>
          if c.hdr.active n then { Reader.reset with state := .seek } else r
        track := { s.track with rows := [], splices := [], resumes := [], serial := 0 }
        imp := { s.imp with trim := 0, trimStopped := false, slotSync := false, slotCounter := 0 }
        web := { pos := s.web.pos, high := s.web.pos, behind := false } }⟩))) ∧
    (Presents 1 src (sense lv s) o g → s.station.mode = .safe → ∃ u,
      exec (.watch lv src) s = .next (finish s (shown 1 src ⟨.done, 6, u⟩)) ∧
      u.station = { s.station with
        mode := .watch, cause := .watchOrder, windDown := false, countTarget := none } ∧
      u.orders.slots = { s.orders.slots with stampOff := none, countTarget := none } ∧
      u = { j with
        station := u.station, lanes := hunting, orders := { j.orders with slots := u.orders.slots }
        rep := { entered .watch .watchOrder with offers := u.rep.offers, latched := u.rep.latched } } ∧
      u.rep.latched = j.rep.latched ||| (if s.orders.slots.stampOff.isSome || s.orders.slots.countTarget.isSome
        then Cause.order.mask else 0) ∧
      u.rep.offers = (entered .watch .watchOrder).offers ++
        (match s.orders.slots.stampOff with
          | some x => [(.orderUnit, .orderDone .stampOff x .cancelled)]
          | none => []) ++
        (match s.orders.slots.countTarget with
          | some x => [(.orderUnit, .orderDone .countTarget x .cancelled)]
          | none => [])) ∧
    (Presents 2 src (sense lv s) o g → s.station.mode = .watch →
      let heat := s.pins.heatRdy || lv.heat
      let locked := ∃ n, c.hdr.active n = true ∧ (s.lane n).state = .locked
      let surveying := s.survey.running = true ∨ s.orders.slots.survey.isSome = true
      let refusedWith := fun v => exec (.run lv src) s = .next (finish s (shown 2 src ⟨.refusedState, v, j⟩))
      (heat = false → refusedWith 1) ∧ (heat = true → ¬ locked → refusedWith 2) ∧
      (heat = true → locked → surveying → refusedWith 3) ∧
      (heat = true → locked → ¬ surveying →
        exec (.run lv src) s = .next (finish s (shown 2 src ⟨.done, 0, { j with
          station := { s.station with mode := .run, cause := .runOrder }, rep := entered .run .runOrder }⟩))))

/-- STAMP_OFF, COUNT_TARGET and SURVEY (R48, R51, R58, R59), and the test of a wind-down (R37): a standing order that
completes there latches ORDER. -/
def Obligations.StandingOrders : Prop :=
  (∀ (lv : Levels) (src : OrderSource) (s : State) (o : Order) (g : Origin) (c : Loaded),
    s.loader.loaded = some c →
    let j := judgedAt src (sense lv s)
    let left := match s.station.countTarget with | some k => BitVec.ofNat 32 k | none => 0
    let cancelled := match s.orders.slots.countTarget with
      | some x => { j.rep with
          latched := j.rep.latched ||| Cause.order.mask
          offers := j.rep.offers ++ [(.orderUnit, .orderDone .countTarget x .cancelled)] }
      | none => j.rep
    (Presents 3 src (sense lv s) o g → s.station.mode = .run →
      (s.station.windDown = true →
        exec (.stampOff lv src) s = .next (finish s (shown 3 src ⟨.refusedBusy, 0, j⟩))) ∧
      (s.station.windDown = false →
        exec (.stampOff lv src) s = .next (finish s (shown 3 src
          ⟨.accepted, BitVec.ofNat 32 s.track.rows.length, testWindDown { j with
            station := { s.station with windDown := true }
            orders := { j.orders with slots := { j.orders.slots with stampOff := some g } } }⟩)))) ∧
    (Presents 10 src (sense lv s) o g → s.station.mode = .watch ∨ s.station.mode = .run →
      (o.a = 0 → exec (.countTarget lv src) s = .next (finish s (shown 10 src ⟨.done, left, { j with
        station := { s.station with countTarget := none }, rep := cancelled
        orders := { j.orders with slots := { j.orders.slots with countTarget := none } } }⟩))) ∧
      (o.a ≠ 0 → s.station.windDown = true →
        exec (.countTarget lv src) s = .next (finish s (shown 10 src ⟨.refusedBusy, 0, j⟩))) ∧
      (o.a ≠ 0 → s.station.windDown = false →
        exec (.countTarget lv src) s = .next (finish s (shown 10 src ⟨.accepted, left, { j with
          station := { s.station with countTarget := some o.a.toNat }, rep := cancelled
          orders := { j.orders with slots := { j.orders.slots with countTarget := some g } } }⟩)))) ∧
    (Presents 11 src (sense lv s) o g → s.station.mode = .watch →
      (6 < o.a.toNat →
        exec (.survey lv src) s = .next (finish s (shown 11 src ⟨.refusedArgument, 0, j⟩))) ∧
      (o.a.toNat ≤ 6 → s.survey.running = true →
        exec (.survey lv src) s = .next (finish s (shown 11 src ⟨.refusedBusy, 0, j⟩))) ∧
      (o.a.toNat ≤ 6 → s.survey.running = false →
        exec (.survey lv src) s = .next (finish s (shown 11 src ⟨.accepted, 0, { j with
          survey := { Survey.reset with
            running := true, k := o.a.toNat, q := o.b.toNat, outcome := .running }
          orders := { j.orders with slots := { j.orders.slots with survey := some g } } }⟩))))) ∧
  (∀ s : State,
    let complete := s.station.mode = .run ∧ s.station.windDown = true ∧ s.imp.throw = .off ∧
      ∀ n, ∀ r ∈ (s.drive n).records, r.served = false
    (¬ complete → testWindDown s = s) ∧
    (complete → ∃ u, testWindDown s = u ∧
      u.station = { s.station with
        mode := .watch, cause := .windDown, windDown := false, countTarget := none } ∧
      u.orders = { s.orders with slots := { s.orders.slots with
        stampOff := none
        countTarget := if s.station.countTarget.isSome then none else s.orders.slots.countTarget } } ∧
      u = { s with station := u.station, orders := u.orders, rep := { s.rep with
        dirty := true, latched := u.rep.latched, offers := u.rep.offers } } ∧
      u.rep.latched = s.rep.latched ||| (if s.orders.slots.stampOff.isSome ||
        (s.station.countTarget.isSome && s.orders.slots.countTarget.isSome) then Cause.order.mask else 0) ∧
      u.rep.offers = s.rep.offers ++ [(.station, .mode .run .watch .windDown s.web.pos)] ++
        (match s.orders.slots.stampOff with
          | some x => [(.orderUnit, .orderDone .stampOff x .done)]
          | none => []) ++
        (match s.station.countTarget, s.orders.slots.countTarget with
          | some _, some x => [(.orderUnit, .orderDone .countTarget x .cancelled)]
          | _, _ => [])))

/-- HOLD (R38, R48, R52, R132, R141, R146, R156, R162, R191; the reports of a HOLD that goes on to UNCONFIGURED are taken
first by the model's reading, log 26). In HELD it is DONE with value 0 and changes nothing. In WATCH, RUN and SAFE it answers
the number of rows and leaves HELD, with a MODE report: wind-down and count target go, each pending standing order is
CANCELLED with an ORDER_DONE report and cause ORDER, a running survey is cancelled with a SURVEY report and cause SURVEY, the
throw released is RELEASING or OFF by THROW_OK with no horizon and no release point, the nips go, each SERVED record is
reported STOPPED with its credit and the pulls go, the track is emptied with an ABANDON report, lanes are IDLE, readers idle,
the high-water position takes the web position; the rest is kept, the row serial, the slot counter and slot sync, the
counters, the fault record and the other latched causes among it. With confirmed clear the reports offered up to HELD are
taken, the mode goes on to UNCONFIGURED, and no status write is queued for the HELD left at once (the model's reading, log
55): the accesses placed there are fills, which stand before the result write of a HOLD from the ring (the model's choice, log
8). -/
def Obligations.HoldOrder : Prop :=
  ∀ (lv : Levels) (src : OrderSource) (s : State) (o : Order) (g : Origin) (c : Loaded),
    s.loader.loaded = some c → Presents 4 src (sense lv s) o g →
    let j := judgedAt src (sense lv s)
    (s.station.mode = .held → exec (.hold lv src) s = .next (finish s (shown 4 src ⟨.done, 0, j⟩))) ∧
    (s.station.mode.working = true →
      let slots := s.orders.slots
      let cancelled := fun (k : OrderKind) (x : Option Origin) => match x with
        | some y => [(Source.orderUnit, Report.orderDone k y .cancelled)]
        | none => []
      let surveyed := (Source.survey, Report.survey .cancelled s.survey.k s.survey.q s.survey.counted s.survey.retired
        (s.survey.lanes.map fun l => ⟨none, none, l.violations⟩))
      let held : State := { j with
        station := { s.station with mode := .held, cause := .holdOrder, windDown := false, countTarget := none }
        orders := { j.orders with slots := ⟨none, none, if s.survey.running then none else slots.survey⟩ }
        web := { pos := s.web.pos, high := s.web.pos, behind := false }
        readers := PerLane.const Reader.reset
        lanes := s.lanes.mapLane fun n _ =>
          if c.hdr.active n then { Tracker.reset with state := .idle } else Tracker.reset
        track := { s.track with rows := [], splices := [], resumes := [], rejectEnd := PerLane.const none }
        imp := if s.throwOn then { s.imp with
            throw := if s.pins.throwOk then .releasing else .off, horizon := none, release := none, nips := [] }
          else { s.imp with nips := [] }
        foil := s.foil.map fun f => { f with records := [], pullEnd := none, acc := 0 }
        survey := if s.survey.running then { s.survey with
            running := false, outcome := .cancelled
            lanes := s.survey.lanes.map fun l => { l with
              meanPitch := none, meanSkew := none, recent := [], watch := none } }
          else s.survey
        msgs := { s.msgs with pulls := s.msgs.pulls.mapLane fun n l => l ++
          ((s.drive n).records.filter fun r => r.served).map fun r => ⟨r.row, .stopped, r.credit⟩ }
        rep := { j.rep with
          dirty := true
          latched := j.rep.latched |||
            (if slots.stampOff.isSome || slots.countTarget.isSome || (s.survey.running && slots.survey.isSome)
              then Cause.order.mask else 0) ||| (if s.survey.running then Cause.survey.mask else 0)
          offers := j.rep.offers ++ [(.station, .mode s.station.mode .held .holdOrder s.web.pos)] ++
            cancelled .stampOff slots.stampOff ++ cancelled .countTarget slots.countTarget ++
            [(.rowTrack, .abandon .hold s.track.rows.length (endSerials s.track.rows))] ++
            (if s.survey.running then surveyed :: cancelled .survey slots.survey else []) } }
      let answers := fun u => exec (.hold lv src) s =
        .next (finish s (shown 4 src ⟨.done, BitVec.ofNat 32 s.track.rows.length, u⟩))
      held.throwOn = false ∧ (ThrowTable s → held.imp.horizon = none ∧ held.imp.release = none) ∧
      (s.loader.confirmed = true → answers held) ∧
      (s.loader.confirmed = false → ∃ u, answers u ∧ u = loseConfiguration .edited .edit (flushOffers held) ∧
        u.station = { s.station with
          mode := .unconfigured, cause := .edit, windDown := false, countTarget := none } ∧
        u.loader.loaded = none ∧ u.loader.error = .edited ∧ u.loader.bounds = none ∧
        u.track = held.track ∧ (∀ n, u.rej n = false) ∧ u.foil = held.foil ∧ u.imp.throw = held.imp.throw ∧
        u.imp.nips = [] ∧ u.throwOn = false ∧ u.imp.trim = s.imp.trim ∧ u.readers = held.readers ∧
        u.web = held.web ∧ u.survey = held.survey ∧ u.orders.slots = held.orders.slots ∧
        u.cnt = s.cnt ∧ u.pins = j.pins ∧ u.mem = j.mem ∧ u.msgs = held.msgs ∧
        (u.rep.latched = held.rep.latched ||| Cause.config.mask ∨
          u.rep.latched = held.rep.latched ||| Cause.loss.mask ||| Cause.config.mask) ∧
        u.rep.offers = [] ∧ u.rep.statusQueued = j.rep.statusQueued ∧ u.rep.statusAt = j.rep.statusAt ∧
        (∃ l, u.bus.queue = j.bus.queue ++ l ∧ ∀ a ∈ l, ∃ e, a.purpose = .fill e) ∧
        ∀ n, u.lane n = Tracker.reset))

/-- SKIP, LANE_RESTART and SET_POSITION (R53, R54, R55, R106). SKIP adds B to the skip counter of each lane of the mask A,
held at 255. LANE_RESTART puts the lane in HUNT with quality and misses 0 and answers the quality it had. SET_POSITION sets
the set position and answers the one before; a lane in HUNT or BLOCKED goes to LOCKED. Arguments outside the ranges are
refused. -/
def Obligations.LaneOrders : Prop :=
  ∀ (lv : Levels) (src : OrderSource) (s : State) (o : Order) (g : Origin) (c : Loaded),
    s.loader.loaded = some c →
    let j := judgedAt src (sense lv s)
    (Presents 5 src (sense lv s) o g → s.station.mode = .watch ∨ s.station.mode = .run →
      let legal := o.a ≠ 0 ∧ (∀ i < 16, o.a.getLsbD i = true → ∃ n : Lane, n.val = i ∧ c.hdr.active n = true) ∧
        1 ≤ o.b.toNat ∧ o.b.toNat ≤ 255
      (legal → exec (.skip lv src) s = .next (finish s (shown 5 src ⟨.done, 0, { j with
        lanes := s.lanes.mapLane fun n t =>
          if o.a.getLsbD n.val then { t with skip := min 255 (t.skip + o.b.toNat) } else t }⟩))) ∧
      (¬ legal → exec (.skip lv src) s = .next (finish s (shown 5 src ⟨.refusedArgument, 0, j⟩)))) ∧
    (Presents 6 src (sense lv s) o g → s.station.mode.working = true →
      (∀ n : Lane, o.lane = n.val → c.hdr.active n = true →
        exec (.laneRestart lv src) s = .next (finish s (shown 6 src
          ⟨.done, BitVec.ofNat 32 (s.lane n).quality, { j with
            lanes := s.lanes.set n { s.lane n with state := .hunt, quality := 0, misses := 0 } }⟩))) ∧
      ((∀ n : Lane, o.lane = n.val → c.hdr.active n = false) →
        exec (.laneRestart lv src) s = .next (finish s (shown 6 src ⟨.refusedArgument, 0, j⟩)))) ∧
    (Presents 7 src (sense lv s) o g → s.station.mode.working = true →
      (∀ n : Lane, o.lane = n.val → c.hdr.active n = true → o.a.toNat < c.hdr.setLength →
        exec (.setPosition lv src) s = .next (finish s (shown 7 src
          ⟨.done, BitVec.ofNat 32 (s.lane n).setPos, { j with
            lanes := s.lanes.set n (match (s.lane n).state with
              | .hunt => { s.lane n with setPos := o.a.toNat, state := .locked }
              | .blocked => { s.lane n with setPos := o.a.toNat, state := .locked, quality := 0 }
              | _ => { s.lane n with setPos := o.a.toNat }) }⟩))) ∧
      ((∀ n : Lane, o.lane = n.val → c.hdr.active n = false) ∨ c.hdr.setLength ≤ o.a.toNat →
        exec (.setPosition lv src) s = .next (finish s (shown 7 src ⟨.refusedArgument, 0, j⟩))))

/-- TRIM_RESET and FOIL_LOAD (R56, R57, R166, R167). TRIM_RESET is refused in RUN with the throw not OFF; otherwise the trim
and its stop are cleared and the trim before is answered. FOIL_LOAD sets foil remaining to C, arms the low threshold, clears
OUT, and BREAK when FOILBRK is negated, tests the threshold, and answers the count before; a count of 0 on an active pull runs
the lane out, as FoilStepping says (R37, R162), and in RUN raises ALL_LANES_DOWN when every active lane is then BLOCKED or has
a foil fault (R163, R165). -/
def Obligations.TrimResetAndFoilLoad : Prop :=
  ∀ (lv : Levels) (src : OrderSource) (s : State) (o : Order) (g : Origin) (c : Loaded),
    s.loader.loaded = some c →
    let j := judgedAt src (sense lv s)
    (Presents 8 src (sense lv s) o g → s.station.mode.working = true →
      (s.station.mode = .run → s.imp.throw ≠ .off →
        exec (.trimReset lv src) s = .next (finish s (shown 8 src ⟨.refusedState, 0, j⟩))) ∧
      (s.station.mode ≠ .run ∨ s.imp.throw = .off →
        exec (.trimReset lv src) s = .next (finish s (shown 8 src
          ⟨.done, BitVec.ofInt 32 s.imp.trim, { j with
            imp := { s.imp with trim := 0, trimStopped := false } }⟩)))) ∧
    (Presents 9 src (sense lv s) o g → s.station.mode.configured = true →
      ((∀ n : Lane, o.lane = n.val → c.hdr.active n = false) →
        exec (.foilLoad lv src) s = .next (finish s (shown 9 src ⟨.refusedArgument, 0, j⟩))) ∧
      ∀ n : Lane, o.lane = n.val → c.hdr.active n = true →
        let low := decide (o.c.toNat < c.hdr.foilLow.toNat)
        let v := { j with
          foil := s.foil.set n { s.drive n with
            remaining := o.c, lowArmed := !low, out := false
            brk := (s.drive n).brk && (s.pins.foilbrk.get n && lv.brk.get n) }
          rep := { s.rep with
            dirty := true
            latched := if low then s.rep.latched ||| Cause.foilLow.mask else s.rep.latched } }
        ((s.drive n).activePull = false ∨ o.c ≠ 0 →
          exec (.foilLoad lv src) s = .next (finish s (shown 9 src ⟨.done, (s.drive n).remaining, v⟩))) ∧
        ((s.drive n).activePull = true → o.c = 0 →
          let u := runOut n v
          let down := s.station.mode = .run ∧ ∀ m, c.hdr.active m = true →
            m = n ∨ (s.lane m).state = .blocked ∨ (s.drive m).faulty = true
          exec (.foilLoad lv src) s = .next (finish s (shown 9 src ⟨.done, (s.drive n).remaining, { u with
            msgs := { u.msgs with faults := s.msgs.faults ++ if down then [⟨.allLanesDown, none⟩] else [] } }⟩))))

/-- REPORT_POLICY and ACK (R60, R61, R185): the policy in force before, or the causes latched before, are answered; a policy
outside the four, or a policy variant that is not valid under FOLLOW or VARIANT, is refused; ACK clears the causes named, and
with FAULT the fault record and the secondary-fault count. The policy variant kept under ALL and EXCEPTIONS is the model's
reading (log 32). -/
def Obligations.ReportPolicyAndAck : Prop :=
  ∀ (lv : Levels) (src : OrderSource) (s : State) (o : Order) (g : Origin) (c : Loaded),
    s.loader.loaded = some c → s.station.mode.configured = true →
    let j := judgedAt src (sense lv s)
    (Presents 12 src (sense lv s) o g →
      let valid := ∃ e, c.variants[o.b.toNat]? = some e ∧ e.valid = true
      (3 < o.a.toNat ∨ (2 ≤ o.a.toNat ∧ ¬ valid) →
        exec (.reportPolicy lv src) s = .next (finish s (shown 12 src ⟨.refusedArgument, 0, j⟩))) ∧
      (∀ p : Policy, o.a.toNat = p.code → (p = .all ∨ p = .exceptions ∨ valid) →
        exec (.reportPolicy lv src) s = .next (finish s (shown 12 src
          ⟨.done, BitVec.ofNat 32 s.rep.policy.code, { j with rep := { s.rep with
            policy := p, followOpen := false
            policyVariant := if p = .follow ∨ p = .variant then o.b.toNat else s.rep.policyVariant } }⟩)))) ∧
    (Presents 13 src (sense lv s) o g →
      exec (.ack lv src) s = .next (finish s (shown 13 src
        ⟨.done, BitVec.setWidth 32 s.rep.latched, { j with
          rep := { s.rep with latched := s.rep.latched &&& ~~~(BitVec.setWidth 12 o.a) }
          station := if o.a.getLsbD 0 then { s.station with record := none, secondary := 0 } else s.station }⟩)))

/-- RESULT_WRITE_COMPLETE, FILL_COMPLETE and STATUS_WRITE_COMPLETE (R4, R6, R19, R45, R65, R172, R180). The take ends, its
mark is cleared and the take index moves on; the fill ends, its mark is FILLED and the fill index moves on; no status write is
queued any longer. A mark is cleared only in the map of the bounds it belongs to (the model's reading, log 15). After the
bounds were replaced an index wraps at the size of the ring in force, and with no ring decoded it stays (the model's choice,
log 41 for the take index and log 54 for the fill index; log 17). An access in hand whose last condition left is then settled
again, before the next fill is tested (the model's reading, log 23), and after a result write the tap orders that wait are
served (TapOrderQueue says how). A held read is forwarded; a held write meets R4 anew: it is held again while a word is held,
dropped and counted when the guard drops a word, dropped as consumed with its tap order delivered, or forwarded with its
events and its tap order. -/
def Obligations.OwnWritesComplete : Prop :=
  (∀ (lv : Levels) (s : State) (o : OwnAccess), issuedOwn s = some o →
    let v := completeOwn o (sense lv s)
    let w := completeOwn o s
    let after := fun (index : Nat) (size : Bounds → Nat) => match s.loader.bounds with
      | some b => if index + 1 < size b then index + 1 else 0
      | none => index
    (∀ t, o.purpose = .resultWrite → s.orders.inProgress = some t →
      exec (.resultWriteComplete lv) s =
        .next (finish s (serveWaiting (resettle { v with orders := { s.orders with
          handed := if t.gen = s.loader.gen then s.orders.handed.erase t.entry else s.orders.handed
          takeIndex := after s.orders.takeIndex Bounds.orderSize
          inProgress := none } })))) ∧
    (∀ e f, o.purpose = .fill e → s.rep.fill = some f →
      exec (.fillComplete lv) s = .next (finish s (resettle { v with rep := { s.rep with
        released := if f.gen = s.loader.gen then s.rep.released.erase f.entry else s.rep.released
        fillIndex := after s.rep.fillIndex Bounds.reportSize
        fill := none } }))) ∧
    (o.purpose = .statusWrite →
      exec .statusWriteComplete s =
        .next (finish s (resettle { w with rep := { s.rep with statusQueued := false } })))) ∧
  ∀ s : State,
    ((∀ h, s.bus.inHand = some h → h.phase ≠ .held []) → resettle s = s) ∧
    (∀ a ev tap, s.bus.inHand = some ⟨a, .held [], ev, tap⟩ → a.write = false →
      resettle s = { s with bus := { s.bus with inHand := some ⟨a, .contender, [], none⟩ } }) ∧
    ∀ a ev tap, s.bus.inHand = some ⟨a, .held [], ev, tap⟩ → a.write = true →
      let answered := { s.bus with inHand := none, answer := a.words.map fun _ => WordAnswer.ready [] }
      let forwarded := fun o => { s with bus := { s.bus with
        inHand := some ⟨a, .contender, observedEvents (a.fates s), o⟩ } }
      (fillConds (a.fates s) ≠ [] → resettle s = { s with bus := { s.bus with
        inHand := some ⟨a, .held (fillConds (a.fates s)), [], none⟩ } }) ∧
      (∀ why, fillConds (a.fates s) = [] → firstDrop (a.fates s) = some why → resettle s = { s with
        bus := { answered with guardDrops := s.bus.guardDrops + 1 }
        rep := { s.rep with
          latched := if why = .status then s.rep.latched else s.rep.latched ||| Cause.guard.mask } }) ∧
      (∀ t o, fillConds (a.fates s) = [] → firstDrop (a.fates s) = none → firedTap a s = some (t, o) →
        resettle s = if t.consume then deliverTap o { s with bus := answered } else forwarded (some o)) ∧
      (fillConds (a.fates s) = [] → firstDrop (a.fates s) = none → firedTap a s = none →
        resettle s = forwarded none)

/-! ## Station faults -/

/-- STATION_FAULT_APPLIED (R39, R40, R71): one of the faults raised is applied and leaves the list of faults. In every mode
but BYPASS it is entered in an empty record or counted and FAULT is latched, and in HELD and the working modes a FAULT report
is offered. In WATCH, TRIM_LIMIT also stops trimming. RUN becomes SAFE with a MODE report, the throw is released and every
pull stops, each gear accumulator at 0. WEB_REVERSE in a working mode also empties the track with an ABANDON report, gives up
ARMED pulls, nips and slot sync, sends the active lanes to HUNT and ends a running survey. Each SERVED record of a pull that
stops is reported STOPPED with its credit (R162), and the throw released is RELEASING or OFF by THROW_OK, with no horizon and
no release point (R136, R141). That the FAULT report goes before the MODE report is the model's reading (log 24). -/
def Obligations.StationFaults : Prop :=
  ∀ (which : Nat) (s : State) (f : RaisedFault), s.msgs.faults[which]? = some f →
    let rest := { s.msgs with faults := s.msgs.faults.eraseIdx which }
    let noted := { s with
      msgs := rest
      station := match s.station.record with
        | none => { s.station with record := some ⟨f.kind, s.web.pos, f.lane⟩ }
        | some _ => { s.station with secondary := s.station.secondary + 1 }
      rep := { s.rep with
        latched := s.rep.latched ||| Cause.fault.mask
        offers := if s.station.mode.configured
          then s.rep.offers ++ [(.station, .fault f.kind s.web.pos f.lane)] else s.rep.offers } }
    let safe := { noted.station with mode := .safe, cause := .fault f.kind }
    let entry := (Source.station, Report.mode .run .safe (.fault f.kind) s.web.pos)
    let stopped := fun n => s.msgs.pulls.get n ++
      ((s.drive n).records.filter fun r => r.served).map fun r => (⟨r.row, .stopped, r.credit⟩ : PullMsg)
    let answers := fun u => exec (.stationFaultApplied which) s = .next (finish s u)
    (s.station.mode = .unconfigured ∨ s.station.mode = .loading ∨ s.station.mode = .held → answers noted) ∧
    (s.station.mode = .watch → f.kind = .trimLimit →
      answers { noted with imp := { s.imp with trimStopped := true } }) ∧
    (s.station.mode = .watch → f.kind ≠ .trimLimit → f.kind ≠ .webReverse → answers noted) ∧
    (s.station.mode = .safe → f.kind ≠ .webReverse → answers noted) ∧
    (s.station.mode = .run → ∃ u, answers u ∧
      u.station = safe ∧ u.msgs.faults = rest.faults ∧ u.rep.latched &&& Cause.fault.mask = Cause.fault.mask ∧
      (∃ l, u.rep.offers = s.rep.offers ++ (.station, .fault f.kind s.web.pos f.lane) :: entry :: l) ∧
      u.throwOn = false ∧
      u.imp.throw = (if s.throwOn then (if s.pins.throwOk then .releasing else .off) else s.imp.throw) ∧
      u.imp.horizon = (if s.throwOn then none else s.imp.horizon) ∧
      u.imp.release = (if s.throwOn then none else s.imp.release) ∧
      (∀ n, u.msgs.pulls.get n = stopped n) ∧
      (∀ n, (u.drive n).activePull = false ∧ (u.drive n).pullEnd = none ∧ (u.drive n).acc = 0 ∧
        (u.drive n).remaining = (s.drive n).remaining) ∧
      u.mem = s.mem ∧ u.pins = s.pins ∧ u.bus = s.bus ∧ u.loader = s.loader ∧ u.web = s.web ∧
      u.readers = s.readers ∧ u.cnt = s.cnt ∧
      (f.kind ≠ .webReverse → u.orders = s.orders ∧ u.lanes = s.lanes ∧ u.track = s.track ∧
        u.survey = s.survey ∧ u.imp.nips = s.imp.nips ∧
        u.rep = { noted.rep with offers := noted.rep.offers ++ [entry], dirty := true } ∧
        ∀ n, (u.drive n).records = (s.drive n).records.filter fun r => !r.served)) ∧
    (∀ c : Loaded, s.loader.loaded = some c → s.station.mode.working = true → f.kind = .webReverse → ∃ u, answers u ∧
      u.station = (if s.station.mode = .run then safe else noted.station) ∧ u.msgs.faults = rest.faults ∧
      (∃ l, u.rep.offers = s.rep.offers ++ [(.station, .fault f.kind s.web.pos f.lane)] ++
          (if s.station.mode = .run then [entry] else []) ++
          (.rowTrack, .abandon .webReverse s.track.rows.length (endSerials s.track.rows)) :: l ∧
        (s.survey.running = false → l = [])) ∧
      u.rep.latched = noted.rep.latched ||| (if s.survey.running then Cause.survey.mask |||
        (if s.orders.slots.survey.isSome then Cause.order.mask else 0) else 0) ∧
      u.track.rows = [] ∧ u.track.splices = [] ∧ u.track.resumes = [] ∧ u.track.serial = s.track.serial ∧
      (∀ n, (u.drive n).records = [] ∧ (u.drive n).remaining = (s.drive n).remaining ∧
        u.msgs.pulls.get n = stopped n) ∧
      u.imp.nips = [] ∧ u.imp.slotSync = false ∧ u.imp.slotCounter = 0 ∧
      (s.station.mode ≠ .run → u.imp.throw = s.imp.throw ∧ u.imp.horizon = s.imp.horizon ∧
        u.imp.release = s.imp.release) ∧
      u.survey.running = false ∧
      (s.survey.running = true → u.survey.outcome = .failIncomplete ∧ u.orders.slots.survey = none) ∧
      (s.survey.running = false → u.survey = s.survey ∧ u.orders = s.orders) ∧
      u.mem = s.mem ∧ u.pins = s.pins ∧ u.bus = s.bus ∧ u.loader = s.loader ∧ u.web = s.web ∧
      u.readers = s.readers ∧ u.cnt = s.cnt ∧
      ∀ n, u.lane n = if c.hdr.active n then { s.lane n with state := .hunt, quality := 0, misses := 0 }
        else s.lane n)

/-- WEB_FORWARD_COUNT (R67, R68, R69, R158, R159, R165). The pair steps forward and the web position advances by one,
wrapping. Outside the working modes the high-water position follows. In a working mode a position after the high-water
position is an advance: it becomes the high-water position, the Foil Drives step, each lane that runs out in RUN with the
lanes down raises ALL_LANES_DOWN, and every position held equal to it is reached, to be taken by the commands that follow (the
model's reading, log 10); with no active pull on any lane the drives do nothing. A position equal to the high-water position
clears BEHIND; one before it changes nothing else. Under RESET_N nothing is followed. -/
def Obligations.WebForwardCount : Prop :=
  (∀ s : State,
    let p := s.web.pos + 1
    let ahead := (p - s.web.high).toInt
    let turned := { s.pins with webA := !s.pins.webB, webB := s.pins.webA }
    let answers := fun u => exec .webForwardCount s = .next (finish s u)
    (s.station.mode = .bypass → answers s) ∧
    (s.station.mode ≠ .bypass → s.station.mode.working = false →
      answers { s with pins := turned, web := { pos := p, high := p, behind := false } }) ∧
    (s.station.mode.working = true → 0 < ahead → (∀ n, (s.drive n).activePull = false) → answers { s with
      pins := turned, web := { pos := p, high := p, behind := false }
      readers := s.readers.map (Reader.advance p), track := s.track.advance p, imp := s.imp.advance p
      foil := s.foil.map (Foil.advance p) }) ∧
    (∀ c : Loaded, s.loader.loaded = some c → s.station.mode.working = true → 0 < ahead →
      let v := foilAdvance c 3 (foilAdvance c 2 (foilAdvance c 1 (foilAdvance c 0
        { s with pins := turned, web := { pos := p, high := p, behind := false } })))
      let raised := fun n : Lane =>
        if s.station.mode = .run ∧ (s.drive n).out = false ∧ (v.drive n).out = true ∧
            ∀ m : Lane, c.hdr.active m = true → (s.lane m).state = .blocked ∨ (v.drive m).faulty = true
          then [(⟨.allLanesDown, none⟩ : RaisedFault)] else []
      answers { v with
        readers := v.readers.map (Reader.advance p), track := v.track.advance p, imp := v.imp.advance p
        foil := v.foil.map (Foil.advance p)
        msgs := { v.msgs with
          faults := v.msgs.faults ++ raised 0 ++ raised 1 ++ raised 2 ++ raised 3 } }) ∧
    (s.station.mode.working = true → ahead = 0 → answers { s with
      pins := turned, web := { s.web with pos := p, behind := false } }) ∧
    (s.station.mode.working = true → ahead < 0 → answers { s with
      pins := turned, web := { s.web with pos := p } })) ∧
  ∀ (p : Pos) (h : Held), (h.advance p).pos = h.pos ∧ (h.advance p).reached = (h.reached || decide (h.pos = p))

/-- WEB_BACKWARD_COUNT and ENCODER_DOUBLE_CHANGE (R67, R68, R70, R78, R83). A backward count lowers the web position; outside
the working modes the high-water position follows. Within the tolerance the reverse state is BEHIND, and on each lane a read
whose trailing edge the web has gone back before is handed UNREAD with ABORT. Beyond the tolerance the high-water position
takes the web position, WEB_REVERSE is raised, and every reader that is not IDLE enters SEEK with nothing in hand; a candidate
pulse whose window end has passed is given up there with no missed mark (the model's reading, log 42). A change of both lines
is no count. -/
def Obligations.WebBackwardCount : Prop :=
  ∀ s : State,
    let p := s.web.pos - 1
    let turned := { s.pins with webA := s.pins.webB, webB := !s.pins.webA }
    let answers := fun u => exec .webBackwardCount s = .next (finish s u)
    (s.station.mode = .bypass → answers s ∧ exec .encoderDoubleChange s = .next (finish s s)) ∧
    (s.station.mode ≠ .bypass → exec .encoderDoubleChange s = .next (finish s { s with
      pins := { s.pins with webA := !s.pins.webA, webB := !s.pins.webB } })) ∧
    (s.station.mode ≠ .bypass → s.station.mode.working = false →
      answers { s with pins := turned, web := { pos := p, high := p, behind := false } }) ∧
    (∀ c : Loaded, s.loader.loaded = some c → s.station.mode.working = true →
      (s.web.high - p).toInt ≤ c.hdr.reverseTolerance.toNat →
      let left := fun n : Lane =>
        if (s.reader n).state = .code then (s.reader n).read.filter fun x => decide (0 < (x.trailing - p).toInt) else none
      answers { s with
        pins := turned, web := { s.web with pos := p, behind := true }
        readers := s.readers.mapLane fun n r =>
          if (left n).isSome then { r with state := .seek, read := none } else r
        msgs := { s.msgs with reads := s.msgs.reads.mapLane fun n l => match left n with
          | some x => l ++ [⟨.accepted, x.markPos, some x.width, x.cls, .unread .abort⟩]
          | none => l }
        cnt := { s.cnt with unread :=
          s.cnt.unread + BitVec.ofNat 32 (([0, 1, 2, 3] : List Lane).filter fun n => (left n).isSome).length } }) ∧
    (∀ c : Loaded, s.loader.loaded = some c → s.station.mode.working = true →
      (c.hdr.reverseTolerance.toNat : Int) < (s.web.high - p).toInt →
      answers { s with
        pins := turned, web := { pos := p, high := p, behind := false }
        readers := s.readers.map fun r => if r.state = .idle then r else { Reader.reset with state := .seek }
        msgs := { s.msgs with faults := s.msgs.faults ++ [⟨.webReverse, none⟩] } })

/-- Geared stepping on one advance (R158, R159, R162, R163, R167). The accumulator gains the numerator, and a step is issued
for each denominator in it: FSTEP pulses, foil remaining one less, and the credit of the SERVED record latest in the list one
more (latest by its place in the list, the model's reading, log 47). A lane that reaches 0 runs out: the steps still due are
not issued, OUT is added, FOIL is latched and the pull stops, each SERVED record reported with its credit, and a wind-down is
then tested (R37, R162), as StandingOrders says; so too where a FOIL_LOAD of 0 runs the lane out. Foil remaining plus the
pulses issued never changes; other lanes are untouched. A lane with no active pull does not step; nor does one whose pull end
is reached and not yet taken, and a record whose own end is reached and not yet taken is credited no more (the model's
reading, log 10). -/
def Obligations.FoilStepping : Prop :=
  ∀ (c : Loaded) (n : Lane) (s : State), 0 < c.hdr.ratioDen →
    ((s.drive n).activePull = false ∨ (∃ h, (s.drive n).pullEnd = some h ∧ h.reached = true) →
      foilAdvance c n s = s) ∧
    ((s.drive n).activePull = true → (∀ h, (s.drive n).pullEnd = some h → h.reached = false) →
      (s.drive n).remaining ≠ 0 → ∃ u, foilAdvance c n s = u ∧
      let acc := (s.drive n).acc + c.hdr.ratioNum
      let due := acc / c.hdr.ratioDen
      let left := (s.drive n).remaining.toNat
      let steps := min due left
      let credited : List PullRec → Prop := fun l =>
        (∀ pre r post, (s.drive n).records = pre ++ r :: post → r.served = true → r.ownEnd.reached = false →
          (∀ y ∈ post, ¬ (y.served = true ∧ y.ownEnd.reached = false)) →
          l = pre ++ { r with credit := r.credit + BitVec.ofNat 32 steps } :: post) ∧
        ((∀ y ∈ (s.drive n).records, ¬ (y.served = true ∧ y.ownEnd.reached = false)) → l = (s.drive n).records)
      (∀ m, m ≠ n → u.drive m = s.drive m) ∧ u.msgs.faults = s.msgs.faults ∧
      (u.drive n).remaining.toNat = left - steps ∧ (u.drive n).fstep = (s.drive n).fstep + steps ∧
      (due < left → (u.drive n).acc = acc % c.hdr.ratioDen ∧ credited (u.drive n).records ∧
        (u.drive n).out = (s.drive n).out ∧ (u.drive n).activePull = true ∧
        (u.drive n).pullEnd = (s.drive n).pullEnd ∧
        u = { s with foil := u.foil, rep := { s.rep with latched := u.rep.latched } }) ∧
      (left ≤ due → (u.drive n).remaining = 0 ∧ (u.drive n).out = true ∧ (u.drive n).activePull = false ∧
        (u.drive n).pullEnd = none ∧ (u.drive n).acc = 0 ∧
        ((s.drive n).out = false → u.rep.latched &&& Cause.foil.mask = Cause.foil.mask) ∧
        (∃ l, credited l ∧ (u.drive n).records = l.filter (fun r => !r.served) ∧
          u.msgs = { s.msgs with pulls := s.msgs.pulls.set n (s.msgs.pulls.get n ++
            (l.filter fun r => r.served).map fun r => ⟨r.row, .stopped, r.credit⟩) }) ∧
        let v := testWindDown { s with
          foil := u.foil, msgs := u.msgs
          rep := { s.rep with
            dirty := true
            latched := s.rep.latched |||
              (if (s.drive n).lowArmed && decide (0 < c.hdr.foilLow.toNat) then Cause.foilLow.mask else 0) } }
        u = { v with rep := { v.rep with
          latched := v.rep.latched ||| (if (s.drive n).out then 0 else Cause.foil.mask) } }) ∧
      ((s.drive n).lowArmed = true → 0 < due → (u.drive n).remaining.toNat < c.hdr.foilLow.toNat →
        (u.drive n).lowArmed = false ∧ u.rep.latched &&& Cause.foilLow.mask = Cause.foilLow.mask)) ∧
    ((s.drive n).activePull = true →
      let v := testWindDown { s with
        foil := s.foil.set n { s.drive n with
          out := true, records := (s.drive n).records.filter (fun r => !r.served), pullEnd := none, acc := 0 }
        msgs := { s.msgs with pulls := s.msgs.pulls.set n (s.msgs.pulls.get n ++
          ((s.drive n).records.filter fun r => r.served).map fun r => ⟨r.row, .stopped, r.credit⟩) }
        rep := { s.rep with dirty := true } }
      runOut n s = { v with rep := { v.rep with
        latched := v.rep.latched ||| (if (s.drive n).out then 0 else Cause.foil.mask) } })

/-! ## Mark reading -/

/-- MARK_LEADING_EDGE (R73, R75, R83, R84). The line becomes dark. While CLEAR, in SEEK, the edge starts a pulse whose
candidate flag is set when no window applies or the edge lies inside it, and a dark run; in CODE it starts a dark run alone.
While BEHIND, or in IDLE or PULSE, nothing else happens. That an edge in SEEK does so while a splice is open, too, is the
model's reading (log 37); that on a line already dark nothing at all happens is its choice (log 4). -/
def Obligations.MarkLeadingEdge : Prop :=
  ∀ (n : Lane) (s : State),
    let r := s.reader n
    let x := s.web.pos
    let dark := { s.pins with mark := s.pins.mark.set n true }
    let run := fun c : Loaded => { r with
      darkStart := some x
      spliceAt := some ⟨x + c.hdr.spliceDarkLength,
        !decide (0 < (x + c.hdr.spliceDarkLength - s.web.high).toInt)⟩ }
    let answers := fun u => exec (.markLeadingEdge n) s = .next (finish s u)
    (s.pins.mark.get n = true → answers s) ∧
    (s.pins.mark.get n = false →
      (s.web.behind = true ∨ r.state = .idle ∨ r.state = .pulse → answers { s with pins := dark }) ∧
      (∀ c : Loaded, s.loader.loaded = some c → s.web.behind = false → r.state = .code →
        answers { s with pins := dark, readers := s.readers.set n (run c) }) ∧
      (∀ c : Loaded, s.loader.loaded = some c → s.web.behind = false → r.state = .seek → ∃ cand,
        answers { s with
          pins := dark
          readers := s.readers.set n { run c with state := .pulse, pulse := some ⟨x, cand, false⟩ } } ∧
        (cand = true ↔ r.expected = none ∨ (s.lane n).state = .hunt ∨ ∃ e, r.expected = some e ∧
          (e - c.hdr.windowEarly - x).toInt ≤ 0 ∧ (x - (e + c.hdr.windowLate)).toInt ≤ 0)))

/-- MARK_TRAILING_EDGE (R74, R77, R79, R82, R84, R85). The line becomes light and the dark run ends. In PULSE while CLEAR: a
candidate pulse at least the minimum mark width long is an accepted mark, which sets the expected position and begins the read
of its code with the class, the unit width and the positions that R79 gives; a pulse long enough that is no candidate is a
stray; either is passed to a running survey of a quiet length above 0; a shorter one is nothing. While BEHIND the pulse is
discarded. A candidate pulse whose window end passed and that becomes no mark is a missed mark, whatever the lane state is
then (the model's reading, log 59). In SEEK or CODE only the run ends. In each of these states an open splice sees its light
return while CLEAR (the model's reading, log 37). That on a line already light nothing happens is the model's choice (log
4). -/
def Obligations.MarkTrailingEdge : Prop :=
  (∀ (n : Lane) (s : State),
    let r := s.reader n
    let x := s.web.pos
    let surveyed := fun p : Pulse => if s.survey.running && decide (0 < s.survey.q) then { s.survey with
        lanes := s.survey.lanes.set n ((s.survey.lanes.get n).pulse s.survey.q p.lead) }
      else s.survey
    let light := { s with pins := { s.pins with mark := s.pins.mark.set n false } }
    let ended := { r with darkStart := none, spliceAt := none, spliceOpen := r.spliceOpen && s.web.behind }
    let msgs := { s.msgs with
      splices := if r.spliceOpen && !s.web.behind then s.msgs.splices.set n (s.msgs.splices.get n ++ [.lightReturn x])
        else s.msgs.splices }
    let answers := fun u => exec (.markTrailingEdge n) s = .next (finish s u)
    let holding := fun p : Pos => (⟨p, !decide (0 < (p - s.web.high).toInt)⟩ : Held)
    (s.pins.mark.get n = false → answers s) ∧
    (s.pins.mark.get n = true → r.state = .idle → answers light) ∧
    (s.loader.loaded.isSome = true → s.pins.mark.get n = true → r.state = .seek ∨ r.state = .code →
      answers { light with readers := s.readers.set n ended, msgs := msgs }) ∧
    (∀ (c : Loaded) (p : Pulse), s.loader.loaded = some c → s.pins.mark.get n = true → r.state = .pulse → r.pulse = some p →
      let w := (x - p.lead).toNat
      let done := { ended with state := .seek, pulse := none }
      (s.web.behind = true ∨ w < c.hdr.minMarkWidth.toNat → p.candidate = false ∨ p.endPassed = false →
        answers { light with readers := s.readers.set n done, msgs := msgs }) ∧
      (∀ e, s.web.behind = true ∨ w < c.hdr.minMarkWidth.toNat → p.candidate = true → p.endPassed = true →
        r.expected = some e →
        answers { light with
          readers := s.readers.set n { done with
            expected := some (e + c.hdr.nominalPitch)
            windowEnd := some (holding (e + c.hdr.nominalPitch + c.hdr.windowLate + 1)) }
          msgs := { msgs with
            reads := s.msgs.reads.set n (s.msgs.reads.get n ++ [⟨.flywheel, e, none, none, .absent⟩]) }
          cnt := { s.cnt with misses := s.cnt.misses + 1 } }) ∧
      (s.web.behind = false → c.hdr.minMarkWidth.toNat ≤ w → p.candidate = false →
        answers { light with
          readers := s.readers.set n done, survey := surveyed p
          msgs := { msgs with strays := s.msgs.strays.set n (s.msgs.strays.get n + 1) }
          cnt := { s.cnt with strays := s.cnt.strays + 1 } }) ∧
      (s.web.behind = false → c.hdr.minMarkWidth.toNat ≤ w → p.candidate = true →
        let cls := classWalk c w
        let u := unitWidthOf c cls
        answers { light with msgs := msgs, survey := surveyed p, readers := s.readers.set n { ended with
          state := .code, pulse := none, expected := some (p.lead + c.hdr.nominalPitch)
          windowEnd := some (holding (p.lead + c.hdr.nominalPitch + c.hdr.windowLate + 1))
          read := some { markPos := p.lead, width := w, cls := cls, unit := u, trailing := x, bits := 0, nbits := 0
                         nextSample := if cls.isSome then some (holding (x + BitVec.ofNat 32 (u / 2))) else none
                         stop := holding (x + BitVec.ofNat 32 (u * c.hdr.codeLength + u / 2)) } } }))) ∧
  ∀ (c : Loaded) (w : Nat),
    (∀ i, classWalk c w = some i ↔ (∃ e, c.classes[i]? = some e ∧ w ≤ e.maxWidth) ∧
      ∀ j < i, ∀ e, c.classes[j]? = some e → e.maxWidth < w) ∧
    (∀ i e, c.classes[i]? = some e → unitWidthOf c (some i) = e.unitWidth) ∧
    (∀ e, c.classes.getLast? = some e → unitWidthOf c none = e.unitWidth)

/-- WINDOW_END_REACHED, SAMPLE_POSITION_REACHED, STOP_SAMPLE_REACHED and SPLICE_DETECTION (R76, R80, R81, R82, R84, R85), each
at a position held and reached. A window end misses the mark, unless the lane is in HUNT or a candidate pulse puts it off. A
sample shifts one bit into the code. The stop sample ends the read, COMPLETE at light and FRAMING at dark, and with no class
CLASS_OVERFLOW; unread reads are counted, and a COMPLETE one is passed to a running survey of a quiet length above 0. A splice
aborts the candidate pulse or the read, is reported with its dark start and leaves the reader in SEEK with splice open; a
candidate pulse whose window end has passed adds no missed mark then (the model's reading, log 19). -/
def Obligations.ReaderPositions : Prop :=
  ∀ (n : Lane) (s : State) (c : Loaded), s.loader.loaded = some c →
    let r := s.reader n
    let holding := fun p : Pos => (⟨p, !decide (0 < (p - s.web.high).toInt)⟩ : Held)
    let handed := fun m : ReadMsg =>
      { s.msgs with reads := s.msgs.reads.set n (s.msgs.reads.get n ++ [m]) }
    let unreadOne := { s.cnt with unread := s.cnt.unread + 1 }
    (∀ h, r.windowEnd = some h → h.reached = true →
      let answers := fun u => exec (.windowEndReached n) s = .next (finish s u)
      ((s.lane n).state = .hunt →
        answers { s with readers := s.readers.set n { r with expected := none, windowEnd := none } }) ∧
      (∀ p, (s.lane n).state ≠ .hunt → r.state = .pulse → r.pulse = some p → p.candidate = true →
        answers { s with readers := s.readers.set n { r with
          windowEnd := none, pulse := some { p with endPassed := true } } }) ∧
      (∀ e, (s.lane n).state ≠ .hunt → r.expected = some e →
        (∀ p, r.state = .pulse → r.pulse = some p → p.candidate = false) →
        answers { s with
          readers := s.readers.set n { r with
            expected := some (e + c.hdr.nominalPitch)
            windowEnd := some (holding (e + c.hdr.nominalPitch + c.hdr.windowLate + 1)) }
          msgs := handed ⟨.flywheel, e, none, none, .absent⟩
          cnt := { s.cnt with misses := s.cnt.misses + 1 } })) ∧
    (∀ x h, r.read = some x → x.nextSample = some h → h.reached = true →
      exec (.samplePositionReached n) s = .next (finish s { s with
        readers := s.readers.set n { r with read := some { x with
          bits := (x.bits <<< 1) ||| (if s.pins.mark.get n then 1 else 0)
          nbits := x.nbits + 1
          nextSample := if x.nbits + 1 < c.hdr.codeLength then some (holding (h.pos + BitVec.ofNat 32 x.unit))
            else none } } })) ∧
    (∀ x, r.read = some x → x.stop.reached = true → x.nextSample = none →
      let result := if x.cls = none then ReadResult.unread .classOverflow
        else if s.pins.mark.get n then .unread .framing else .complete x.bits
      exec (.stopSampleReached n) s = .next (finish s { s with
        readers := s.readers.set n { r with state := .seek, read := none }
        msgs := handed ⟨.accepted, x.markPos, some x.width, x.cls, result⟩
        cnt := if x.cls = none ∨ s.pins.mark.get n = true then unreadOne else s.cnt
        survey := if x.cls.isSome && !s.pins.mark.get n && (s.survey.running && decide (0 < s.survey.q)) then
            { s.survey with lanes :=
                s.survey.lanes.set n ((s.survey.lanes.get n).complete s.survey.q x.markPos x.stop.pos) }
          else s.survey })) ∧
    (∀ d h, r.darkStart = some d → r.spliceAt = some h → h.reached = true →
      let open_ := { r with
        state := .seek, expected := none, windowEnd := none, pulse := none, read := none
        spliceAt := none, spliceOpen := true }
      let seen := s.msgs.splices.set n (s.msgs.splices.get n ++ [.detection d])
      let answers := fun u => exec (.spliceDetection n) s = .next (finish s u)
      (r.state = .seek ∨ (∃ p, r.state = .pulse ∧ r.pulse = some p ∧ p.candidate = false) →
        answers { s with readers := s.readers.set n open_, msgs := { s.msgs with splices := seen } }) ∧
      (∀ p, r.state = .pulse → r.pulse = some p → p.candidate = true →
        answers { s with
          readers := s.readers.set n open_, cnt := unreadOne
          msgs := { handed ⟨.accepted, p.lead, none, none, .unread .abort⟩ with splices := seen } }) ∧
      (∀ x, r.state = .code → r.read = some x →
        answers { s with
          readers := s.readers.set n open_, cnt := unreadOne
          msgs := { handed ⟨.accepted, x.markPos, some x.width, x.cls, .unread .abort⟩ with splices := seen } }))

/-! ## Lane identification -/

/-- The masked match and the identification of a code (R92, R93): the expected variant first, then the valid variants in index
order; then the class of the variant taken must be the measured class. -/
def Obligations.Identification : Prop :=
  (∀ (v : VariantEntry) (code : BitVec 12), v.matchesCode code = true ↔ v.valid = true ∧
    ∀ i < 12, v.codeMask.getLsbD i = true → code.getLsbD i = v.code.getLsbD i) ∧
  ∀ (c : Loaded) (code : BitVec 12) (measured expected : Option Nat),
    let hits := fun v : Nat => ∃ e, c.variants[v]? = some e ∧ e.matchesCode code = true
    let classed := fun v : Nat => ∃ e, c.variants[v]? = some e ∧ measured = some e.cls
    (∀ v, expected = some v → hits v →
      (classed v → identify c expected code measured = .expected) ∧
      (¬ classed v → identify c expected code measured = .cls)) ∧
    ((∀ v, expected = some v → ¬ hits v) →
      (∀ v, hits v → (∀ w < v, ¬ hits w) →
        (classed v → identify c expected code measured = .other v) ∧
        (¬ classed v → identify c expected code measured = .cls)) ∧
      ((∀ v, ¬ hits v) → identify c expected code measured = .unknown))

/-- READ_TAKEN (R95 to R101, R104; the set position of the read and the consecutive-miss count are kept at an entry to
BLOCKED, the count is 0 after an accepted read in LOCKED and is raised past 9 when it was kept there, by the model's reading,
log 18, 43 and 44): the oldest read handed to the lane. In BLOCKED, IDLE and OFF it is absorbed. In HUNT the anchor with its
class locks the lane, and any other read makes a HUNTING cell. In LOCKED and FLYWHEEL the set position advances, and the read
gives the cell, the set position, the counters and the lane state of the tables. A raise to 32 enters BLOCKED in place of that
state, with the same cell, set position and counters: it latches LANE, offers a LANE report, and in RUN raises ALL_LANES_DOWN
when the lanes are down. -/
def Obligations.ReadTaken : Prop :=
  (∀ (n : Lane) (s : State) (r : ReadMsg) (later : List ReadMsg), s.msgs.reads.get n = r :: later →
    (s.lane n).state = .blocked ∨ (s.lane n).state = .idle ∨ (s.lane n).state = .off →
    exec (.readTaken n) s = .next (finish s { s with
      msgs := { s.msgs with reads := s.msgs.reads.set n later } })) ∧
  ∀ (n : Lane) (s : State) (c : Loaded) (r : ReadMsg) (later : List ReadMsg), s.loader.loaded = some c →
    s.msgs.reads.get n = r :: later →
    let t := s.lane n
    let p := (t.setPos + 1) % c.hdr.setLength
    let at_ := c.hdr.setAt n p
    let gives := fun (t' : Tracker) (cell : Cell) (cnt : Counters) =>
      exec (.readTaken n) s = .next (finish s { s with
        lanes := s.lanes.set n t', cnt := cnt
        msgs := { s.msgs with
          reads := s.msgs.reads.set n later, cells := s.msgs.cells.set n (s.msgs.cells.get n ++ [cell]) } })
    let down := s.station.mode = .run ∧ ∀ m, c.hdr.active m = true →
      m = n ∨ (s.lane m).state = .blocked ∨ (s.drive m).faulty = true
    let raises := fun (t' : Tracker) (kept : Nat) (cell : Cell) (cnt : Counters) =>
      (t.quality < 31 → gives { t' with quality := t.quality + 1 } cell cnt) ∧
      (31 ≤ t.quality → exec (.readTaken n) s = .next (finish s { s with
        lanes := s.lanes.set n { t' with state := .blocked, quality := 32, misses := kept }, cnt := cnt
        msgs := { s.msgs with
          reads := s.msgs.reads.set n later, cells := s.msgs.cells.set n (s.msgs.cells.get n ++ [cell])
          faults := s.msgs.faults ++ if down then [⟨.allLanesDown, none⟩] else [] }
        rep := { s.rep with
          latched := s.rep.latched ||| Cause.lane.mask
          offers := s.rep.offers ++ [(.tracker n, .lane n s.web.pos t'.setPos (.cell cell.status))] } }))
    let cellOf := makeCell c n r
    let locked := { t with state := .locked, setPos := p, misses := 0 }
    (t.state = .hunt →
      (∀ code, r.result = .complete code → identify c (c.hdr.setAt n 0) code r.cls = .expected →
        gives { t with state := .locked, setPos := 0, misses := 0 }
          (cellOf .identified (c.hdr.setAt n 0) (some 0) false) s.cnt) ∧
      ((∀ code, r.result = .complete code → identify c (c.hdr.setAt n 0) code r.cls ≠ .expected) →
        gives t (cellOf .hunting none none false) s.cnt)) ∧
    (t.state = .locked ∨ t.state = .flywheel →
      (∀ code, r.markKind = .accepted → r.result = .complete code → identify c at_ code r.cls = .expected →
        gives { locked with quality := t.quality - 1 } (cellOf .identified at_ (some p) false) s.cnt) ∧
      (∀ u, r.markKind = .accepted → r.result = .unread u → u ≠ .cls → u ≠ .unknown →
        raises locked t.misses (cellOf (.unread u) none (some p) false) s.cnt) ∧
      (∀ code u, r.markKind = .accepted → r.result = .complete code →
        (identify c at_ code r.cls = .cls ∧ u = .cls) ∨ (identify c at_ code r.cls = .unknown ∧ u = .unknown) →
        raises locked t.misses (cellOf (.unread u) none (some p) false)
          { s.cnt with unread := s.cnt.unread + 1 }) ∧
      (∀ code v, r.markKind = .accepted → r.result = .complete code → identify c at_ code r.cls = .other v →
        (∀ k, k < c.hdr.setLength → c.hdr.setAt n k = some v →
          (∀ m < c.hdr.setLength, c.hdr.setAt n m = some v → m = k) →
          raises { locked with setPos := k } t.misses (cellOf .sequence (some v) (some k) false)
            { s.cnt with resyncs := s.cnt.resyncs + 1 }) ∧
        ((¬ ∃ k < c.hdr.setLength, c.hdr.setAt n k = some v ∧
            ∀ m < c.hdr.setLength, c.hdr.setAt n m = some v → m = k) →
          raises { locked with state := .hunt } t.misses (cellOf .sequence (some v) (some p) false) s.cnt)) ∧
      (r.markKind = .flywheel → t.misses + 1 ≤ c.hdr.flywheelLimit →
        raises { t with state := .flywheel, setPos := p, misses := t.misses + 1 } (t.misses + 1)
          (cellOf .identified at_ (some p) true) s.cnt) ∧
      (r.markKind = .flywheel → c.hdr.flywheelLimit < t.misses + 1 →
        raises { locked with state := .hunt } (t.misses + 1) (cellOf .hunting none (some p) false) s.cnt))

/-- STRAY_NOTICE, SKEW_DISCARD_NOTICE and RESUME_POSITION_REACHED (R89, R101, R102, R104, R105). A notice raises the quality
counter of a lane in HUNT, LOCKED or FLYWHEEL and changes nothing else of it; at 32 the lane enters BLOCKED, LANE is latched,
a LANE report is offered, and in RUN ALL_LANES_DOWN is raised when the lanes are down. In BLOCKED, IDLE and OFF it changes
nothing. A resume position reached puts a lane that is not IDLE or OFF in HUNT with quality and misses 0. -/
def Obligations.NoticesAndResume : Prop :=
  ∀ (n : Lane) (s : State),
    let t := s.lane n
    (∀ (skew : Bool) (k : Nat),
      (if skew then s.msgs.skews.get n else s.msgs.strays.get n) = k + 1 →
      let rest := if skew then { s.msgs with skews := s.msgs.skews.set n k }
        else { s.msgs with strays := s.msgs.strays.set n k }
      let command : Instr := if skew then .skewDiscardNotice n else .strayNotice n
      let answers := fun u => exec command s = .next (finish s u)
      let counts := t.state = .hunt ∨ t.state = .locked ∨ t.state = .flywheel
      (¬ counts → answers { s with msgs := rest }) ∧
      (counts → t.quality < 31 → answers { s with
        msgs := rest, lanes := s.lanes.set n { t with quality := t.quality + 1 } }) ∧
      (∀ c : Loaded, s.loader.loaded = some c → counts → 31 ≤ t.quality →
        let blocked := s.lanes.set n { t with state := .blocked, quality := 32 }
        let down := s.station.mode = .run ∧ ∀ m, c.hdr.active m = true →
          (blocked.get m).state = .blocked ∨ (s.drive m).faulty = true
        answers { s with
          lanes := blocked
          msgs := { rest with faults := s.msgs.faults ++ (if down then [⟨.allLanesDown, none⟩] else []) }
          rep := { s.rep with
            latched := s.rep.latched ||| Cause.lane.mask
            offers := s.rep.offers ++
              [(.tracker n, .lane n s.web.pos t.setPos (if skew then .skew else .stray))] } })) ∧
    (∀ pre x post, s.track.resumes = pre ++ x :: post → x.lane = n → x.at_.reached = true →
      (∀ y ∈ pre, ¬ (y.lane = n ∧ y.at_.reached = true)) →
      let rest := { s.track with resumes := pre ++ post }
      (t.state = .idle ∨ t.state = .off →
        exec (.resumePositionReached n) s = .next (finish s { s with track := rest })) ∧
      (t.state ≠ .idle → t.state ≠ .off →
        exec (.resumePositionReached n) s = .next (finish s { s with
          track := rest, lanes := s.lanes.set n { t with state := .hunt, quality := 0, misses := 0 } })))

/-! ## The row track -/

/-- CELL_PLACED (R113 to R117): the oldest cell handed by the lane. Outside the working modes it is discarded. It joins the
newest OPEN row within the skew tolerance that has no cell of its lane; a lead cell moves that row to its own nip position
when the order of the track allows. Where that row has one already, or no OPEN row is near and the cell is not beyond the
newest row by more than the tolerance, it is a skew discard: counted, and its tracker notified. Otherwise it makes a new row;
with 32 rows it is dropped and TRACK_OVERFLOW raised. A new or moved row whose decision point is reached, not being after the
high-water position (the model's reading, log 46), is decided at once when no older row waits (the model's reading, log 30). A
cell of a lane that the loaded copy does not name is dropped (the model's reading, log 45); one handed before a load and taken
in a working mode is placed like any other (the model's reading, log 50). A move holds the new decision point alone (the
model's reading of a point reached and not yet taken, log 49). -/
def Obligations.CellPlaced : Prop :=
  (∀ (lv : Levels) (n : Lane) (s : State) (cell : Cell) (later : List Cell),
    s.msgs.cells.get n = cell :: later →
    s.station.mode.working = false ∨ (∃ c, s.loader.loaded = some c ∧ c.hdr.active n = false) →
    exec (.cellPlaced lv n) s = .next (finish s { sense lv s with
      msgs := { s.msgs with cells := s.msgs.cells.set n later } })) ∧
  ∀ (lv : Levels) (n : Lane) (s : State) (c : Loaded) (cell : Cell) (later : List Cell) (nip : Pos),
    s.loader.loaded = some c → s.msgs.cells.get n = cell :: later → c.hdr.active n = true →
    cell.nipPos = some nip → TrackNames s →
    let m := { s.msgs with cells := s.msgs.cells.set n later }
    let v := { sense lv s with msgs := m }
    let high := s.web.high
    let rows := s.track.rows
    let near := fun r : Row => r.stage = .opened ∧ (nip - r.nip).toInt.natAbs ≤ c.hdr.skewTolerance.toNat
    let answers := fun u => exec (.cellPlaced lv n) s = .next (finish s u)
    let discarded := { v with
      msgs := { m with skews := s.msgs.skews.set n (s.msgs.skews.get n + 1) }
      cnt := { s.cnt with skewDiscards := s.cnt.skewDiscards + 1 } }
    let point := nip - c.hdr.throwLead
    (s.station.mode.working = true →
      (∀ pre r post, rows = pre ++ r :: post → near r → (∀ y ∈ post, ¬ near y) →
        ((r.cells.get n).isSome = true → answers discarded) ∧
        (r.cells.get n = none →
          let joined := { r with
            cells := r.cells.set n (some cell), splice := r.splice || inSplice s.track.splices r.nip }
          let inOrder := (∀ y, pre.getLast? = some y → 0 < (nip - y.nip).toInt) ∧
            ∀ y, post.head? = some y → 0 < (y.nip - nip).toInt
          ((n.val ≠ c.hdr.leadLane ∨ ¬ inOrder) →
            answers { v with track := { s.track with rows := pre ++ joined :: post } }) ∧
          (n.val = c.hdr.leadLane → inOrder →
            let moved := { joined with
              nip := nip, decisionPoint := ⟨point, !decide (0 < (point - high).toInt)⟩
              splice := r.splice || inSplice s.track.splices nip }
            let w := { v with track := { s.track with rows := pre ++ moved :: post } }
            (0 < (point - high).toInt ∨ (∃ y ∈ pre, y.stage = .opened) → answers w) ∧
            ((point - high).toInt ≤ 0 → (∀ y ∈ pre, y.stage ≠ .opened) → answers (decideRow r.uid w))))) ∧
      ((∀ y ∈ rows, ¬ near y) →
        let beyond := ∀ y, rows.getLast? = some y → (c.hdr.skewTolerance.toNat : Int) < (nip - y.nip).toInt
        let row : Row := {
          uid := s.uid, serial := s.track.serial, nip := nip
          decisionPoint := ⟨point, !decide (0 < (point - high).toInt)⟩, stage := .opened, slot := none
          regError := none, splice := inSplice s.track.splices nip, throwAtNip := none, rejectPoint := none
          cells := (PerLane.const none).set n (some cell) }
        let added := { v with
          track := { s.track with rows := rows ++ [row], serial := s.track.serial + 1 }, uid := s.uid + 1 }
        (¬ beyond → answers discarded) ∧
        (beyond → rows.length < 32 → 0 < (point - high).toInt ∨ (∃ y ∈ rows, y.stage = .opened) →
          answers added) ∧
        (beyond → rows.length < 32 → (point - high).toInt ≤ 0 → (∀ y ∈ rows, y.stage ≠ .opened) →
          answers (decideRow s.uid added)) ∧
        (beyond → 32 ≤ rows.length →
          answers { v with msgs := { m with faults := s.msgs.faults ++ [⟨.trackOverflow, some n⟩] } })))

/-- SPLICE_DETECTION_TAKEN and LIGHT_RETURN_TAKEN (R86 to R91, R125). A detection extends the newest span that covers its nip
dark start, and is no new splice; otherwise it adds a span, in place of the oldest displaceable one when two are there, or
merges into the newest; a new splice offers a SPLICE report, latches SPLICE and ends a running survey. Every row that a span
then covers is flagged. A light return takes its lane out of the open lanes of the oldest span that has it (when both have it,
the model's reading, log 48); the close sets a resume position for each active lane. A detection or light return of a lane
outside the loaded lane mask is taken like any other (the model's reading, log 63). -/
def Obligations.SpliceList : Prop :=
  (∀ (p : Span) (x : Pos), p.covers x = true ↔ ¬ 0 < (p.start - x).toInt ∧
    ((∃ n, p.openLanes.get n = true) ∨ ∃ e, p.endSoFar = some e ∧ ¬ 0 < (x - e).toInt)) ∧
  ∀ (n : Lane) (s : State) (c : Loaded), s.loader.loaded = some c → TrackNames s →
    (∀ (dark : Pos) (later : List SpliceMsg), s.msgs.splices.get n = .detection dark :: later →
      let msgs := { s.msgs with splices := s.msgs.splices.set n later }
      let nd := dark + c.hdr.sensorToNip.get n
      let start := nd - c.hdr.spliceMarginBefore
      let answers := fun u => exec (.spliceDetectionTaken n) s = .next (finish s u)
      let flagged := fun l : List Span =>
        s.track.rows.map fun r => { r with splice := r.splice || l.any fun p => p.covers r.nip }
      let newSpan : Span := ⟨s.uid, start, (PerLane.const false).set n true, none⟩
      let reported := fun st : Pos => { s.rep with
        latched := s.rep.latched ||| Cause.splice.mask
        offers := s.rep.offers ++ [(.rowTrack, .splice n dark st)] }
      let kept := fun u : Nat => s.track.resumes.filter fun x => x.span != u || x.at_.reached
      let free := fun p : Span => (∀ m, p.openLanes.get m = false) ∧
        ∃ e, p.endSoFar = some e ∧ ¬ 0 < (e + c.hdr.nipToReject - s.web.high).toInt
      (∀ pre p post, s.track.splices = pre ++ p :: post → p.covers nd = true →
        (∀ y ∈ post, y.covers nd = false) →
        let l := pre ++ { p with
          start := if 0 < (start - p.start).toInt then p.start else start
          openLanes := p.openLanes.set n true } :: post
        answers { s with
          msgs := msgs
          track := { s.track with splices := l, rows := flagged l, resumes := kept p.uid } }) ∧
      ((∀ p ∈ s.track.splices, p.covers nd = false) →
        (s.track.splices.length < 2 →
          let l := s.track.splices ++ [newSpan]
          answers (endRunningSurvey .failSplice { s with
            msgs := msgs, uid := s.uid + 1, rep := reported start
            track := { s.track with splices := l, rows := flagged l } })) ∧
        (∀ pre old post, 2 ≤ s.track.splices.length → s.track.splices = pre ++ old :: post → free old →
          (∀ y ∈ pre, ¬ free y) →
          let l := pre ++ post ++ [newSpan]
          answers (endRunningSurvey .failSplice { s with
            msgs := msgs, uid := s.uid + 1, rep := reported start
            track := { s.track with splices := l, rows := flagged l } })) ∧
        (∀ pre p, 2 ≤ s.track.splices.length → s.track.splices = pre ++ [p] →
          (∀ y ∈ s.track.splices, ¬ free y) →
          let l := pre ++ [{ p with openLanes := p.openLanes.set n true }]
          answers (endRunningSurvey .failSplice { s with
            msgs := msgs, rep := reported p.start
            track := { s.track with splices := l, rows := flagged l, resumes := kept p.uid } })))) ∧
    (∀ (x : Pos) (later : List SpliceMsg), s.msgs.splices.get n = .lightReturn x :: later →
      let msgs := { s.msgs with splices := s.msgs.splices.set n later }
      let answers := fun u => exec (.lightReturnTaken n) s = .next (finish s u)
      let laneEnd := x + c.hdr.sensorToNip.get n + c.hdr.spliceMarginAfter
      ((∀ p ∈ s.track.splices, p.openLanes.get n = false) → answers { s with msgs := msgs }) ∧
      (∀ pre p post, s.track.splices = pre ++ p :: post → p.openLanes.get n = true →
        (∀ y ∈ pre, y.openLanes.get n = false) →
        let e := match p.endSoFar with
          | some y => if 0 < (y - laneEnd).toInt then y else laneEnd
          | none => laneEnd
        let left := p.openLanes.set n false
        let resume := fun m : Lane =>
          let at_ := e - c.hdr.sensorToNip.get m
          (⟨p.uid, m, ⟨at_, !decide (0 < (at_ - s.web.high).toInt)⟩⟩ : Resume)
        let closed := ∀ m, left.get m = false
        answers { s with
          msgs := msgs
          track := { s.track with
            splices := pre ++ { p with openLanes := left, endSoFar := some e } :: post
            resumes := if closed then
                s.track.resumes ++ ([0, 1, 2, 3].filter fun m => c.hdr.active m).map resume
              else s.track.resumes } }))

/-- The reason table (R120, R121, R122): the reason of a cell is the first of the fifteen that it meets, and the decision and
the reject flag are those that go with it; the flag is set in RUN and SAFE alone (R129, in DecisionTaken). -/
def Obligations.DecisionReasons : Prop :=
  (∀ (c : Loaded) (d : RowView) (f : Foil) (skip : Nat) (cell : Cell),
    let image := fun e : VariantEntry => e.imageLength.toNat + c.hdr.foilLead.toNat + c.hdr.foilTrail.toNat
    let meets : Reason → Prop := fun k =>
      match k with
      | .absent => cell.status = .absent
      | .watching => d.mode = .watch
      | .safe => d.mode = .safe
      | .stopped => d.windDown = true
      | .splice => d.splice = true
      | .hunting => cell.status = .hunting
      | .unread => ∃ u, cell.status = .unread u
      | .predicted => cell.predicted = true ∧ c.hdr.flywheelStrike = false
      | .sequence => cell.status = .sequence
      | .noStrike => ∃ e, cellVariant c cell = some e ∧ e.strike = false
      | .plate => ¬ ∃ k e, d.slot = some k ∧ cellVariant c cell = some e ∧ e.plate = k
      | .heat => d.heat = false
      | .foil => f.faulty = true ∨ ∃ e, cellVariant c cell = some e ∧ 0 < e.imageLength.toNat ∧
          f.remaining.toNat < (image e * c.hdr.ratioNum + c.hdr.ratioDen - 1) / c.hdr.ratioDen
      | .ordered => 0 < skip
      | .strike => True
    let reason := reasonOf c d f skip cell
    meets reason ∧ ∀ k : Reason, k.code < reason.code → ¬ meets k) ∧
  (∀ k : Reason, k.decision =
    match k with
    | .strike => .strike
    | .noStrike => .pass
    | _ => .skip) ∧
  (∀ k : Reason, k.sets = decide (k ∈ [Reason.absent, .safe, .splice, .hunting, .unread, .predicted, .sequence, .plate,
    .heat, .foil, .ordered])) ∧
  ∀ (c : Loaded) (s : State), predictedSlot c s =
    if s.imp.slotSync then some ((s.imp.slotCounter + s.imp.nips.length) % c.hdr.plates) else none

/-- DECISION_POINT_REACHED (R111, R119 to R124, R129, R137, R142, R155). The oldest OPEN row, its decision point reached, is
decided with one reading of mode, wind-down, splice flag, predicted slot and HEAT_RDY: every active lane has a cell with its
reason, decision, pull and reject flag, last reasons are set and skips lowered. The Impression Controller holds its nip; a nip
already reached is taken at once when no other is held (the model's reading, log 30), which NipTaken describes. A row with no
STRIKE cell changes nothing else. A strike row in RUN is counted, lowers the count target, has its pulls handed to the drives,
and engages the throw; one that lowers the target to 0 removes it and sets wind-down, and with the throw OFF and no active
pull the wind-down is complete before the row is handed over, which then does not engage (the model's reading, log 11). The
row is handed and taken in one step (the model's reading, log 51), and a release point already reached waits for its own
command (the model's reading, log 52). A pull handed goes into the list by its start; one whose start is already reached meets
the cases of R157 in the same event, and one handed to a list of 32 records is not begun. -/
def Obligations.DecisionTaken : Prop :=
  (∀ (lv : Levels) (s : State) (c : Loaded) (pre post : List Row) (r : Row), s.loader.loaded = some c →
    s.track.rows = pre ++ r :: post → (∀ y ∈ pre, y.stage ≠ .opened) → r.stage = .opened →
    r.decisionPoint.reached = true → TrackNames s →
    let d : RowView := ⟨s.station.mode, s.station.windDown, r.splice, predictedSlot c s, s.pins.heatRdy || lv.heat⟩
    let decided : Lane → Option Cell := fun n =>
      if c.hdr.active n then
        let cell := (r.cells.get n).getD absentCell
        let k := reasonOf c d (s.drive n) (s.lane n).skip cell
        some { cell with
          decision := some k.decision, reason := some k, foilUsed := 0
          reject := cell.reject || (k.sets && (d.mode == .run || d.mode == .safe))
          pull := match k, cellVariant c cell, cell.nipPos with
            | .strike, some e, some nip =>
              let start := nip + e.imageOffset.setWidth 32 - c.hdr.foilLead
              if 0 < e.imageLength.toNat then
                some ⟨start, start + e.imageLength.setWidth 32 + c.hdr.foilLead + c.hdr.foilTrail, .armed⟩
              else none
            | _, _, _ => none }
      else none
    let reasonAt := fun n => (decided n).bind fun x => x.reason
    let striking := ∃ n x, decided n = some x ∧ x.decision = some .strike
    let row := { r with stage := .decided, cells := ⟨decided 0, decided 1, decided 2, decided 3⟩ }
    let track := { s.track with
      rows := pre ++ row :: post
      lastReason := s.track.lastReason.mapLane fun n o => if c.hdr.active n then reasonAt n else o }
    let lanes := s.lanes.mapLane fun n t => if reasonAt n = some .ordered then { t with skip := t.skip - 1 } else t
    let nip : Held := ⟨r.nip, !decide (0 < (r.nip - s.web.high).toInt)⟩
    let nips := s.imp.nips ++ [⟨r.uid, nip⟩]
    let due := s.imp.nips = [] ∧ nip.reached = true
    let hands := fun (n : Lane) (x : State) => match (decided n).bind fun y => y.pull with
      | some p => armPull n r.uid p x
      | none => x
    let handed := fun x : State => hands 3 (hands 2 (hands 1 (hands 0 x)))
    let engaged := { s.imp with
      nips := nips, horizon := some r.nip
      release := some ⟨r.nip + c.hdr.releaseClearance,
        !decide (0 < (r.nip + c.hdr.releaseClearance - s.web.high).toInt)⟩
      throw := match s.imp.throw with
        | .engaging => .engaging
        | .on => .on
        | _ => if s.pins.throwOk then .on else .engaging }
    let counted := { sense lv s with
      track := track, lanes := lanes, cnt := { s.cnt with strikeRows := s.cnt.strikeRows + 1 } }
    let answers := fun w : State => exec (.decisionPointReached lv) s = .next (finish s w) ∧
      decideRow r.uid (sense lv s) = w
    let done := fun w : State => (due → answers (takeNip w)) ∧ (¬ due → answers w)
    (¬ striking → done { sense lv s with track := track, lanes := lanes, imp := { s.imp with nips := nips } }) ∧
    (striking → s.station.mode = .run →
      (s.station.countTarget = none ∨ ∃ k, s.station.countTarget = some k ∧ 2 ≤ k) → ∃ u, done u ∧
      u = { sense lv s with
        track := track, lanes := lanes, foil := u.foil, rep := u.rep
        msgs := { s.msgs with pulls := u.msgs.pulls, faults := u.msgs.faults }
        cnt := { s.cnt with strikeRows := s.cnt.strikeRows + 1 }
        station := { s.station with countTarget := s.station.countTarget.map fun k => k - 1 }
        imp := engaged } ∧
      u = { handed { counted with
        station := { s.station with countTarget := s.station.countTarget.map fun k => k - 1 } } with imp := engaged } ∧
      (∀ n, ((decided n).bind fun x => x.pull) = none → u.drive n = s.drive n) ∧
      (∀ n p, ((decided n).bind fun x => x.pull) = some p → (s.drive n).records.length < 32 →
        0 < (p.start - s.web.high).toInt → u.drive n = { s.drive n with
          records := insertRecord ⟨r.uid, ⟨p.start, false⟩, ⟨p.stop, false⟩, false, 0⟩ (s.drive n).records }) ∧
      ((∀ n p, ((decided n).bind fun x => x.pull) = some p →
          (s.drive n).records.length < 32 ∧ 0 < (p.start - s.web.high).toInt) → u.msgs = s.msgs ∧ u.rep = s.rep)) ∧
    (striking → s.station.mode = .run → s.station.countTarget = some 1 → ∃ u, done u ∧
      let complete := s.imp.throw = .off ∧ ∀ n, (s.drive n).activePull = false
      let target := { counted with
        station := { s.station with countTarget := none, windDown := true }
        orders := { s.orders with slots := { s.orders.slots with countTarget := none } }
        rep := match s.orders.slots.countTarget with
          | some x => { s.rep with
              latched := s.rep.latched ||| Cause.order.mask
              offers := s.rep.offers ++ [(.orderUnit, .orderDone .countTarget x .done)] }
          | none => s.rep }
      u = { handed (testWindDown target) with imp := if complete then { s.imp with nips := nips } else engaged } ∧
      (s.orders.slots.countTarget.isSome = true → u.rep.latched &&& Cause.order.mask = Cause.order.mask) ∧
      u.orders.slots.countTarget = none ∧ u.cnt.strikeRows = s.cnt.strikeRows + 1 ∧ u.track = track ∧
      u.lanes = lanes ∧ u.imp.nips = nips ∧
      (∀ x, s.orders.slots.countTarget = some x →
        (.orderUnit, Report.orderDone .countTarget x .done) ∈ u.rep.offers) ∧
      (¬ complete → u.station = { s.station with countTarget := none, windDown := true } ∧
        u.imp.horizon = some r.nip ∧ (u.imp.throw = .engaging ∨ u.imp.throw = .on)) ∧
      (complete → u.station = { s.station with
          mode := .watch, cause := .windDown, countTarget := none, windDown := false } ∧
        u.orders.slots.stampOff = none ∧
        (∀ x, s.orders.slots.stampOff = some x → (.orderUnit, Report.orderDone .stampOff x .done) ∈ u.rep.offers ∧
          u.rep.latched &&& Cause.order.mask = Cause.order.mask) ∧ u.imp.throw = .off ∧ u.imp.horizon = s.imp.horizon ∧
        (∀ n, (u.drive n).activePull = false)))) ∧
    (∀ (n : Lane) (row : Nat) (p : Pull) (s : State),
      let f := s.drive n
      let late := !decide (0 < (p.start - s.web.high).toInt)
      let added := { s with foil := s.foil.set n { f with
        records := insertRecord ⟨row, ⟨p.start, late⟩, ⟨p.stop, false⟩, false, 0⟩ f.records } }
      (32 ≤ f.records.length → armPull n row p s = { s with msgs := { s.msgs with
        pulls := s.msgs.pulls.set n (s.msgs.pulls.get n ++ [⟨row, .notBegun, 0⟩]) } }) ∧
      (f.records.length < 32 → armPull n row p s = if late then beginPull n row added else added)) ∧
    ∀ (x : PullRec) (l : List PullRec), ∃ a b, l = a ++ b ∧ insertRecord x l = a ++ x :: b ∧
      (∀ y ∈ a, ¬ 0 < (y.start.pos - x.start.pos).toInt) ∧
      ∀ y, b.head? = some y → 0 < (y.start.pos - x.start.pos).toInt

/-! ## Impression -/

/-- NIP_REACHED (R127, R129, R142 to R144, R148, R150 to R153): the oldest nip held, once reached. The row meets the slot
counter, which advances modulo P, or no slot; the throw state is noted, and THROW_LATE raised for a strike row in ENGAGING;
every cell gets the outcome of the table, BLIND and MISSED setting its reject flag in RUN and SAFE; the row is STRUCK and its
reject point held. A registration error is measured when the row meets a slot, an index has been seen and the lead cell is
ACCEPTED, IDENTIFIED and not predicted, in a working mode; in WATCH and RUN with trim not stopped it is corrected, or
TRIM_LIMIT raised. -/
def Obligations.NipTaken : Prop :=
  (∀ (s : State) (c : Loaded) (h : HeldNip) (rest : List HeldNip) (pre post : List Row) (r : Row),
    s.loader.loaded = some c → s.imp.nips = h :: rest → h.nip.reached = true →
    s.track.rows = pre ++ r :: post → h.row = r.uid → TrackNames s →
    let slot := if s.imp.slotSync then some s.imp.slotCounter else none
    let late := (∃ n x, r.cells.get n = some x ∧ x.decision = some .strike) ∧ s.imp.throw = .engaging
    let faults := s.msgs.faults ++ (if late then [⟨.throwLate, none⟩] else [])
    let point := r.nip + c.hdr.nipToReject
    let struck := fun err : Option Int => { r with
      stage := .struck, slot := slot, regError := err, throwAtNip := some s.imp.throw
      rejectPoint := some ⟨point, !decide (0 < (point - s.web.high).toInt)⟩
      cells := r.cells.map fun o => o.map fun cell => { cell with
        outcome := some (outcomeOf s.inImpression cell)
        reject := cell.reject || ((s.station.mode == .run || s.station.mode == .safe) &&
          (outcomeOf s.inImpression cell == .blind || outcomeOf s.inImpression cell == .missed)) } }
    let imp := { s.imp with
      nips := rest
      slotCounter := if s.imp.slotSync then (s.imp.slotCounter + 1) % c.hdr.plates else s.imp.slotCounter }
    let track := fun err => { s.track with rows := pre ++ struck err :: post }
    let measured := fun (k : Nat) (i p : Pos) => s.station.mode.working = true ∧ slot = some k ∧
      s.imp.lastIndex = some i ∧ ∃ n x, n.val = c.hdr.leadLane ∧ r.cells.get n = some x ∧
        x.markKind = some .accepted ∧ x.status = .identified ∧ x.predicted = false ∧ x.nipPos = some p
    let answers := fun u => exec .nipReached s = .next (finish s u) ∧ takeNip s = u
    ((∀ k i p, ¬ measured k i p) →
      answers { s with imp := imp, track := track none, msgs := { s.msgs with faults := faults } }) ∧
    ∀ k i p, measured k i p →
      let e := (p - (i + c.hdr.indexOffset + BitVec.ofNat 32 k * c.hdr.nominalPitch)).toInt
      let x := correction c.hdr e
      let corrects := (s.station.mode = .watch ∨ s.station.mode = .run) ∧ s.imp.trimStopped = false
      let t := { s with
        imp := { imp with lastError := some e }, track := track (some e), msgs := { s.msgs with faults := faults } }
      (¬ corrects → answers t) ∧
      (corrects → (s.imp.trim + x).natAbs ≤ c.hdr.trimLimit → answers { t with imp := { t.imp with
        trim := s.imp.trim + x, trimUp := s.imp.trimUp + x.toNat, trimDn := s.imp.trimDn + (-x).toNat } }) ∧
      (corrects → c.hdr.trimLimit < (s.imp.trim + x).natAbs →
        answers { t with msgs := { s.msgs with faults := faults ++ [⟨.trimLimit, none⟩] } })) ∧
  (∀ (cell : Cell), ∀ hit : Bool, outcomeOf hit cell =
    if hit then
      match cell.decision, cell.pull.map fun p => p.state with
      | some .strike, some .stopped => .blind
      | some .strike, some .notStarted => .blind
      | some .strike, some _ => .foiled
      | some .strike, none => .embossed
      | some .pass, _ => .passed
      | _, _ => .blind
    else if cell.decision = some .strike then .missed else .clear) ∧
  (∀ s : State, s.inImpression = true ↔ s.imp.throw = .on ∨ (s.imp.throw = .releasing ∧ s.pins.throwOk = true)) ∧
  ∀ (h : Header) (e : Int), 
    correction h e = max (-(h.trimStepMax : Int)) (min (h.trimStepMax : Int) ((e * h.trimGain).tdiv 8))

/-- RELEASE_POINT_REACHED, THROW_OK_RISE, THROW_OK_FALL, CYL_INDEX and HEAT_RDY_FALL (R138, R139, R140, R145, R147). At the
release point THROW_ON is negated, from ON into RELEASING and from ENGAGING into OFF, horizon and release point absent; in OFF
and RELEASING no release point is held. A rise confirms ENGAGING into ON and in OFF raises THROW_UNCOMMANDED. A fall ends
RELEASING in OFF, and in ON raises THROW_LOST and leaves ENGAGING. An index taken in a working mode while CLEAR sets slot
sync, the counter to 0 and the index position, and raises CYLINDER_SLIP when sync was set and the counter not 0. A fall of
HEAT_RDY latches HEAT in RUN alone. That RELEASE_POINT_REACHED changes nothing in OFF and RELEASING, a rise nothing with
THROW_OK asserted and a fall nothing with it negated is the model's choice (log 4); that a reached nip goes before the release
point, whose command then changes nothing, is its reading (log 10); so is that HEAT_RDY_FALL with HEAT_RDY held negated is a
fall (log 53). -/
def Obligations.ThrowReleaseIndexAndHeat : Prop :=
  (∀ s : State, ThrowTable s →
     let gone := fun t : ThrowState => { s with imp := { s.imp with throw := t, horizon := none, release := none } }
     let answers := fun u => exec .releasePointReached s = .next (finish s u)
     ((gone .releasing).throwOn = false ∧ (gone .off).throwOn = false) ∧
     (s.imp.throw = .off ∨ s.imp.throw = .releasing → s.imp.release = none ∧ answers s) ∧
     ((∃ h ∈ s.imp.nips, h.nip.reached = true) → answers s) ∧
     (∀ h, s.imp.release = some h → h.reached = true → (∀ x ∈ s.imp.nips, x.nip.reached = false) →
       (s.imp.throw = .on → answers (gone .releasing)) ∧
       (s.imp.throw = .engaging → answers (testWindDown (gone .off))))) ∧
  ∀ s : State,
    let ok := fun b => { s.pins with throwOk := b }
    let raised := fun k : FaultKind => { s.msgs with faults := s.msgs.faults ++ [⟨k, none⟩] }
    let rise := fun u => exec .throwOkRise s = .next (finish s u)
    let fall := fun u => exec .throwOkFall s = .next (finish s u)
    let index := fun u => exec .cylIndex s = .next (finish s u)
    (s.pins.throwOk = true → rise s) ∧
    (s.pins.throwOk = false →
      (s.station.mode = .bypass ∨ s.imp.throw = .on ∨ s.imp.throw = .releasing → rise { s with pins := ok true }) ∧
      (s.station.mode ≠ .bypass → s.imp.throw = .engaging →
        rise { s with pins := ok true, imp := { s.imp with throw := .on } }) ∧
      (s.station.mode ≠ .bypass → s.imp.throw = .off →
        rise { s with pins := ok true, msgs := raised .throwUncommanded })) ∧
    (s.pins.throwOk = false → fall s) ∧
    (s.pins.throwOk = true →
      (s.station.mode = .bypass ∨ s.imp.throw = .off ∨ s.imp.throw = .engaging → fall { s with pins := ok false }) ∧
      (s.station.mode ≠ .bypass → s.imp.throw = .releasing →
        fall (testWindDown { s with pins := ok false, imp := { s.imp with throw := .off } })) ∧
      (s.station.mode ≠ .bypass → s.imp.throw = .on →
        fall { s with pins := ok false, imp := { s.imp with throw := .engaging }, msgs := raised .throwLost })) ∧
    (s.station.mode.working = false ∨ s.web.behind = true → index s) ∧
    (s.station.mode.working = true → s.web.behind = false →
      index { s with
        imp := { s.imp with slotSync := true, slotCounter := 0, lastIndex := some s.web.pos }
        msgs := if s.imp.slotSync = true ∧ s.imp.slotCounter ≠ 0 then raised .cylinderSlip else s.msgs }) ∧
    exec .heatRdyFall s = .next (finish s { s with
      pins := { s.pins with heatRdy := false }
      rep := if s.station.mode = .run then { s.rep with latched := s.rep.latched ||| Cause.heat.mask } else s.rep })

/-! ## Foil -/

/-- FOILBRK_ASSERTED, PULL_START_REACHED, OWN_PULL_END_REACHED and PULL_END_REACHED (R157, R159 to R161, R163 to R165). A
break is added, stops the pull, after which a wind-down is tested (R37, R162; StandingOrders says how), and latches FOIL where
the line is watched, each assertion anew (with FOILBRK held asserted, by the model's choice, log 60). A start reached meets
the first of its five cases, in PULL_START_REACHED or in the decision that hands the pull: not RUN, foil fault, own end
passed, no foil, an active pull to merge into; otherwise the pull begins. A break that was not present, and the OUT of a start
with no foil, raise ALL_LANES_DOWN in RUN when every active lane is then BLOCKED or has a foil fault. An own end before the
pull end completes its record; the pull end completes every SERVED record, oldest first. -/
def Obligations.Pulls : Prop :=
  ∀ (n : Lane) (s : State),
    let f := s.drive n
    let reports := fun l : List PullMsg =>
      { s.msgs with pulls := s.msgs.pulls.set n (s.msgs.pulls.get n ++ l) }
    let lit := { s with pins := { s.pins with foilbrk := s.pins.foilbrk.set n true } }
    let covered := s.station.mode = .loading ∨ s.station.mode.configured = true
    let fault := fun c : Loaded =>
      if s.station.mode = .run ∧ ∀ m, c.hdr.active m = true →
          m = n ∨ (s.lane m).state = .blocked ∨ (s.drive m).faulty = true
        then [(⟨.allLanesDown, none⟩ : RaisedFault)] else []
    (¬ (covered ∧ ∃ c, s.loader.loaded = some c ∧ c.hdr.active n = true) →
      exec (.foilbrkAsserted n) s = .next (finish s lit)) ∧
    (∀ c : Loaded, covered → s.loader.loaded = some c → c.hdr.active n = true → ∃ u,
      exec (.foilbrkAsserted n) s = .next (finish s u) ∧ u.pins = lit.pins ∧ (u.drive n).brk = true ∧
      (u.drive n).out = f.out ∧ (u.drive n).remaining = f.remaining ∧ (u.drive n).activePull = false ∧
      (u.drive n).records = f.records.filter (fun x => !x.served) ∧ (∀ m, m ≠ n → u.drive m = s.drive m) ∧
      u.rep.latched &&& Cause.foil.mask = Cause.foil.mask ∧
      u.msgs.faults = s.msgs.faults ++ (if f.brk = false then fault c else []) ∧
      u.msgs.pulls = (reports ((f.records.filter fun x => x.served).map fun x => ⟨x.row, .stopped, x.credit⟩)).pulls ∧
      let v := testWindDown { lit with
        foil := s.foil.set n { f with
          brk := true, records := f.records.filter (fun x => !x.served), pullEnd := none, acc := 0 }
        msgs := u.msgs, rep := { s.rep with dirty := true } }
      let latching := fun x : State =>
        { x with rep := { x.rep with latched := x.rep.latched ||| Cause.foil.mask } }
      (f.activePull = true → u = latching v) ∧
      (f.activePull = false → u = latching { lit with
        foil := s.foil.set n { f with brk := true }, msgs := u.msgs })) ∧
    (∀ (c : Loaded) (pre : List PullRec) (r : PullRec) (post : List PullRec), s.loader.loaded = some c →
      f.records = pre ++ r :: post → r.served = false → (∀ y ∈ pre ++ post, y.row ≠ r.row) →
      let taken := r.start.reached = true ∧ (∀ y ∈ pre, y.served = true ∨ y.start.reached = false) ∧
        (∀ y ∈ f.records, y.served = true → y.ownEnd.reached = false) ∧ ∀ h, f.pullEnd = some h → h.reached = false
      let answers := fun u => beginPull n r.row s = u ∧
        (taken → exec (.pullStartReached n) s = .next (finish s u))
      let high := s.web.high
      let own := r.ownEnd.pos
      let refused := { s with
        foil := s.foil.set n { f with records := pre ++ post }, msgs := reports [⟨r.row, .notBegun, 0⟩] }
      let served := pre ++ { r with served := true, ownEnd := ⟨own, false⟩ } :: post
      let possible := s.station.mode = .run ∧ f.faulty = false ∧ 0 < (own - high).toInt
      (¬ possible → answers refused) ∧
      (possible → f.remaining = 0 → ∃ u, answers u ∧ u.msgs.pulls = refused.msgs.pulls ∧
        (u.drive n) = { f with records := pre ++ post, out := true } ∧
        (∀ m, m ≠ n → u.drive m = s.drive m) ∧ u.msgs.faults = s.msgs.faults ++ fault c ∧
        u.rep.latched = s.rep.latched ||| Cause.foil.mask) ∧
      (possible → f.remaining ≠ 0 → f.activePull = true → ∀ h, f.pullEnd = some h →
        answers { s with
          msgs := reports [⟨r.row, .begun, 0⟩]
          foil := s.foil.set n { f with
            records := served, pullEnd := some (if 0 < (own - h.pos).toInt then ⟨own, false⟩ else h) } }) ∧
      (possible → f.remaining ≠ 0 → f.activePull = false →
        answers { s with
          msgs := reports [⟨r.row, .begun, 0⟩]
          foil := s.foil.set n { f with
            records := served, pullEnd := some ⟨own, false⟩, acc := c.hdr.ratioDen - 1 } })) ∧
    (∀ pre r post, f.records = pre ++ r :: post → r.served = true → r.ownEnd.reached = true →
      (∀ h, f.pullEnd = some h → h.pos ≠ r.ownEnd.pos) →
      (∀ y ∈ pre, ¬ (y.served = true ∧ y.ownEnd.reached = true)) → (∀ y ∈ pre ++ post, y.row ≠ r.row) →
      exec (.ownPullEndReached n) s = .next (finish s { s with
        foil := s.foil.set n { f with records := pre ++ post }
        msgs := reports [⟨r.row, .ended, r.credit⟩] })) ∧
    (∀ h, f.pullEnd = some h → h.reached = true →
      (∀ y ∈ f.records, y.served = true → y.ownEnd.reached = true → y.ownEnd.pos = h.pos) →
      exec (.pullEndReached n) s = .next (finish s (testWindDown { s with
        foil := s.foil.set n { f with records := f.records.filter (fun x => !x.served), pullEnd := none }
        msgs := reports ((f.records.filter fun x => x.served).map fun x => ⟨x.row, .ended, x.credit⟩)
        rep := { s.rep with dirty := true } })))

/-- PULL_REPORT, REJECT_POINT_REACHED and REJECT_END_REACHED (R128 to R131, R168). A pull report is recorded in its cell, and
turns FOILED into BLIND when the pull did not complete and the row is STRUCK; one whose row has left is dropped. At the reject
point of the oldest row a splice flag sets every reject flag in RUN and SAFE, a pulse begins for each cell flagged, and the
row retires with a ROW report and is handed to the survey. At its end the reject line is negated. A decision due goes before a
reject point, and both before a reject end: the command of the later kind, when it comes first, changes nothing (the model's
reading, log 10). -/
def Obligations.PullReportsAndRejects : Prop :=
  (∀ (n : Lane) (s : State) (m : PullMsg) (later : List PullMsg), s.msgs.pulls.get n = m :: later →
    let msgs := { s.msgs with pulls := s.msgs.pulls.set n later }
    let answers := fun u => exec (.pullReport n) s = .next (finish s u)
    ((∀ r ∈ s.track.rows, r.uid ≠ m.row) → answers { s with msgs := msgs }) ∧
    ∀ pre r post cell p, s.track.rows = pre ++ r :: post → r.uid = m.row → TrackNames s →
      r.cells.get n = some cell → cell.pull = some p →
      let blind := r.stage = .struck ∧ cell.outcome = some .foiled ∧ (m.event = .stopped ∨ m.event = .notBegun)
      answers { s with
        msgs := msgs
        track := { s.track with rows := pre ++ { r with cells := r.cells.set n (some { cell with
          pull := some { p with state := match m.event with
            | .begun => .active
            | .ended => .completed
            | .stopped => .stopped
            | .notBegun => .notStarted }
          foilUsed := match m.event with
            | .begun => cell.foilUsed
            | .notBegun => 0
            | _ => m.credit
          outcome := if blind then some .blind else cell.outcome
          reject := cell.reject || (decide blind && (s.station.mode == .run || s.station.mode == .safe)) }) } ::
            post } }) ∧
  (∀ (s : State) (c : Loaded) (r : Row) (rest : List Row) (h : Held), s.loader.loaded = some c →
    s.track.rows = r :: rest → r.stage = .struck → r.rejectPoint = some h →
    h.reached = true → TrackNames s →
    (∀ y ∈ rest, ¬ (y.stage = .opened ∧ y.decisionPoint.reached = true)) →
    let all := r.splice && (s.station.mode == .run || s.station.mode == .safe)
    let flag := fun n : Lane => match r.cells.get n with
      | some x => x.reject || all
      | none => false
    let stop := h.pos + c.hdr.rejectWidth
    let pulse := (⟨stop, !decide (0 < (stop - s.web.high).toInt)⟩ : Held)
    let row := { r with cells := r.cells.mapLane fun n o => o.map fun x => { x with
      reject := x.reject || all
      foilUsed := match (s.drive n).records.find? fun q => q.served && q.row == r.uid with
        | some q => q.credit
        | none => x.foilUsed } }
    exec .rejectPointReached s = .next (finish s (surveyRow row { s with
      track := { s.track with
        rows := rest
        rejectEnd := s.track.rejectEnd.mapLane fun n o =>
          if flag n then match o with
            | some y => some (if 0 < (stop - y.pos).toInt then pulse else y)
            | none => some pulse
          else o }
      cnt := { s.cnt with
        rowsRetired := s.cnt.rowsRetired + 1
        rejects := s.cnt.rejects.mapLane fun n k => if flag n then k + 1 else k }
      rep := { s.rep with offers := s.rep.offers ++ [(.rowTrack, .row row)] } }))) ∧
  (∀ s : State, (∃ y ∈ s.track.rows, y.stage = .opened ∧ y.decisionPoint.reached = true) →
    exec .rejectPointReached s = .next (finish s s) ∧ ∀ n, exec (.rejectEndReached n) s = .next (finish s s)) ∧
  (∀ (s : State) (r : Row) (x : Held), s.track.rows.head? = some r → r.stage = .struck → r.rejectPoint = some x →
    x.reached = true → ∀ n, exec (.rejectEndReached n) s = .next (finish s s)) ∧
  ∀ (n : Lane) (s : State) (h : Held), s.track.rejectEnd.get n = some h → h.reached = true →
    (∀ y ∈ s.track.rows, ¬ (y.stage = .opened ∧ y.decisionPoint.reached = true)) →
    (∀ r x, s.track.rows.head? = some r → r.rejectPoint = some x → ¬ (r.stage = .struck ∧ x.reached = true)) →
    exec (.rejectEndReached n) s = .next (finish s { s with
      track := { s.track with rejectEnd := s.track.rejectEnd.set n none } })

/-! ## The survey and ATTN -/

/-- A retired row, a pulse and a read at the Survey Unit (R186, R188 to R191). A row is counted when every active lane's cell
is ACCEPTED and IDENTIFIED and has a previous mark; the sums gain the pitches and skews; the survey ends at its length, PASS
or FAIL_QUIET, or at its retire limit. A pulse in the trailing zone of the watched mark is a violation, any other is kept
among the newest 4; a read counts the kept edges in its leading zone, oldest first, and is watched in their place; the offsets
of the first 4 violations are kept. The end sets the outcome, the means of a PASS by floor (the mean pitch of every active
lane, the mean skew of every active lane but the lead lane), offers the SURVEY report, latches SURVEY and completes the
order. -/
def Obligations.SurveyUnit : Prop :=
  (∀ (c : Loaded) (r : Row) (v : Survey),
    let counted := ∀ n, c.hdr.active n = true →
      (∃ x, r.cells.get n = some x ∧ x.markKind = some .accepted ∧ x.status = .identified) ∧
        (v.lanes.get n).prevMark.isSome = true
    let w := v.takeRow c r
    w.retired = v.retired + 1 ∧ (counted → w.counted = v.counted + 1) ∧ (¬ counted → w.counted = v.counted) ∧
    ∀ n x, c.hdr.active n = true → r.cells.get n = some x →
      (w.lanes.get n).prevMark = (if x.markKind = some .accepted then x.markPos else none) ∧
      (¬ counted → (w.lanes.get n).pitchSum = (v.lanes.get n).pitchSum ∧
        (w.lanes.get n).skewSum = (v.lanes.get n).skewSum) ∧
      ∀ m p q, counted → x.markPos = some m → x.nipPos = some p → (v.lanes.get n).prevMark = some q →
        (w.lanes.get n).pitchSum = (v.lanes.get n).pitchSum + (m - q).toInt ∧
        (w.lanes.get n).skewSum = (v.lanes.get n).skewSum +
          (if n.val = c.hdr.leadLane then 0 else (p - r.nip).toInt)) ∧
  (∀ (c : Loaded) (s : State),
    let clean := ∀ n, c.hdr.active n = true → (s.survey.lanes.get n).violations = 0
    (s.survey.counted = 2 ^ s.survey.k → clean → testSurvey c s = endSurvey .pass s) ∧
    (s.survey.counted = 2 ^ s.survey.k → ¬ clean → testSurvey c s = endSurvey .failQuiet s) ∧
    (s.survey.counted ≠ 2 ^ s.survey.k → s.survey.retired = 4 * 2 ^ s.survey.k →
      testSurvey c s = endSurvey .failIncomplete s) ∧
    (s.survey.counted ≠ 2 ^ s.survey.k → s.survey.retired ≠ 4 * 2 ^ s.survey.k → testSurvey c s = s)) ∧
  (∀ (q : Nat) (e : Pos) (l : SurveyLane),
    let trailing := ∃ m stop, l.watch = some (m, stop) ∧ 0 < (e - stop).toInt ∧ (e - stop).toInt ≤ q
    (trailing → (l.pulse q e).violations = (if l.violations < 65535 then l.violations + 1 else l.violations) ∧
      (l.pulse q e).recent = l.recent ∧ (l.pulse q e).watch = l.watch) ∧
    (∀ m stop, l.watch = some (m, stop) → 0 < (e - stop).toInt → (e - stop).toInt ≤ q → (l.pulse q e).offsets =
      if l.offsets.length < 4 then l.offsets ++ [(e - m).toInt] else l.offsets) ∧
    (¬ trailing → l.pulse q e = { l with
      recent := (if l.recent.length < 4 then l.recent else l.recent.drop 1) ++ [e] })) ∧
  (∀ (q : Nat) (mark stop : Pos) (l : SurveyLane),
    let m := l.complete q mark stop
    let inZone := l.recent.filter fun e => decide (0 < (mark - e).toInt ∧ (mark - e).toInt ≤ q)
    m.recent = [] ∧ m.watch = some (mark, stop) ∧
      (l.violations ≤ 65535 → m.violations = min 65535 (l.violations + inZone.length)) ∧
      (l.offsets.length ≤ 4 → m.offsets = (l.offsets ++ inZone.map fun e => (e - mark).toInt).take 4)) ∧
  (∀ (r : Row) (o : SurveyOutcome) (s : State) (c : Loaded), s.loader.loaded = some c →
    (s.survey.running = false → surveyRow r s = s ∧ endRunningSurvey o s = s) ∧
    (s.survey.running = true → endRunningSurvey o s = endSurvey o s ∧
      surveyRow r s = testSurvey c { s with survey := s.survey.takeRow c r })) ∧
  ∀ (o : SurveyOutcome) (s : State) (c : Loaded), s.loader.loaded = some c → ∃ u, endSurvey o s = u ∧
    u = { s with survey := u.survey, rep := { s.rep with latched := u.rep.latched, offers := u.rep.offers }
                 orders := { s.orders with slots := { s.orders.slots with survey := none } } } ∧
    u.survey = { s.survey with running := false, outcome := o, lanes := u.survey.lanes } ∧
    u.rep.latched = s.rep.latched ||| Cause.survey.mask |||
      (if s.orders.slots.survey.isSome then Cause.order.mask else 0) ∧
    u.rep.offers = s.rep.offers ++ [(.survey, .survey o s.survey.k s.survey.q s.survey.counted s.survey.retired
        (u.survey.lanes.map fun l => ⟨l.meanPitch, l.meanSkew, l.violations⟩))] ++
      (match s.orders.slots.survey with
        | some x => [(.orderUnit, .orderDone .survey x (if o = .cancelled then .cancelled else .done))]
        | none => []) ∧
    ∀ n, let l := s.survey.lanes.get n
      u.survey.lanes.get n = { l with
        recent := [], watch := none
        meanPitch := if o = .pass ∧ c.hdr.active n = true then some (l.pitchSum / 2 ^ s.survey.k) else none
        meanSkew := if o = .pass ∧ c.hdr.active n = true ∧ n.val ≠ c.hdr.leadLane
          then some (l.skewSum / 2 ^ s.survey.k) else none }

/-- ATTN (R184): asserted while the latched causes and the mask that applies have a cause in common: the stored mask in HELD
and the working modes, all twelve causes in UNCONFIGURED and LOADING, none in BYPASS. -/
def Obligations.AttentionLine : Prop :=
  ∀ s : State,
    (s.station.mode = .held ∨ s.station.mode.working = true →
      (s.attn = true ↔ ∃ k : Cause, s.rep.latched.getLsbD k.bit = true ∧ s.rep.mask.getLsbD k.bit = true)) ∧
    (s.station.mode = .unconfigured ∨ s.station.mode = .loading →
      (s.attn = true ↔ ∃ k : Cause, s.rep.latched.getLsbD k.bit = true)) ∧
    (s.station.mode = .bypass → s.attn = false)
end

