-- ==== Sys2Proof/Laws/Down.lean ====
section
/-! SUPPORT. The lanes-down test (R104, R165): when it holds and what it does. -/

namespace Sys2Proof.Machine

theorem mem_allLanes (n : Lane) : n ∈ allLanes := by revert n; decide

/-- The lanes are down when every active lane is BLOCKED or has a foil fault. -/
theorem lanesDown_iff {c : Loaded} {s : State} (h : s.loader.loaded = some c) :
    lanesDown s = true ↔ ∀ m, c.hdr.active m = true →
      (s.lanes.get m).state = .blocked ∨ (s.foil.get m).faulty = true := by
  have act : ∀ m, s.laneActive m = c.hdr.active m := fun m => by simp only [State.laneActive, h]
  simp only [lanesDown, List.all_eq_true, act, Bool.or_eq_true, Bool.not_eq_true', beq_iff_eq]
  constructor
  · intro hd m hm
    rcases hd m (mem_allLanes m) with (hk | hk) | hk
    · rw [hm] at hk; cases hk
    · exact .inl hk
    · exact .inr hk
  · intro hd m _
    rcases Bool.eq_false_or_eq_true (c.hdr.active m) with hm | hm
    · rcases hd m hm with hk | hk
      · exact .inl (.inr hk)
      · exact .inr hk
    · exact .inl (.inl hm)

/-- The test raises ALL_LANES_DOWN in RUN with the lanes down, and changes nothing otherwise. -/
theorem testLanesDown_eq {c : Loaded} {s : State} (h : s.loader.loaded = some c) :
    let down := s.station.mode = .run ∧ ∀ m, c.hdr.active m = true →
      (s.lanes.get m).state = .blocked ∨ (s.foil.get m).faulty = true
    testLanesDown s = { s with msgs := { s.msgs with
      faults := s.msgs.faults ++ if down then [⟨.allLanesDown, none⟩] else [] } } := by
  intro down
  have e : (s.station.mode = .run && lanesDown s) = true ↔ down := by
    simp only [down, ← lanesDown_iff h, Bool.and_eq_true, decide_eq_true_eq]
  unfold testLanesDown
  by_cases hd : down
  · rw [if_pos (e.2 hd), if_pos hd]; rfl
  · rw [if_neg (fun k => hd (e.1 k)), if_neg hd, List.append_nil]

end Sys2Proof.Machine
end

