-- ==== Sys2Proof/Laws/Finish.lean ====
section
/-! SUPPORT. What the end of a step (`finish`) can do: only the Report Unit's queue, fill and status write move, own
accesses join the memory access queue, and at most the cause LOSS is latched. Taking the offers (`flushOffers`) neither marks
nor writes the status block, and places fills alone. -/

namespace Sys2Proof.Machine

/-- `t` comes from `s` by the Report Unit's own work. -/
structure Reported (s t : State) : Prop where
  loader : t.loader = s.loader
  station : t.station = s.station
  orders : t.orders = s.orders
  bus : ∃ l, t.bus = { s.bus with queue := s.bus.queue ++ l }
  released : t.rep.released = s.rep.released
  fillIndex : t.rep.fillIndex = s.rep.fillIndex
  policy : t.rep.policy = s.rep.policy
  policyVariant : t.rep.policyVariant = s.rep.policyVariant
  mask : t.rep.mask = s.rep.mask
  latched : t.rep.latched = s.rep.latched ∨ t.rep.latched = s.rep.latched ||| Cause.loss.mask

theorem Reported.refl (s : State) : Reported s s :=
  ⟨rfl, rfl, rfl, ⟨[], by simp⟩, rfl, rfl, rfl, rfl, rfl, .inl rfl⟩

theorem Reported.trans {s t u : State} (h : Reported s t) (k : Reported t u) : Reported s u := by
  obtain ⟨l, hl⟩ := h.bus
  obtain ⟨m, hm⟩ := k.bus
  refine ⟨k.loader.trans h.loader, k.station.trans h.station, k.orders.trans h.orders, ⟨l ++ m, ?_⟩,
    k.released.trans h.released, k.fillIndex.trans h.fillIndex, k.policy.trans h.policy,
    k.policyVariant.trans h.policyVariant, k.mask.trans h.mask, ?_⟩
  · rw [hm, hl, List.append_assoc]
  · rcases h.latched with hp | hp <;> rcases k.latched with kp | kp
    · exact .inl (kp.trans hp)
    · exact .inr (by rw [kp, hp])
    · exact .inr (by rw [kp, hp])
    · exact .inr (by rw [kp, hp, BitVec.or_assoc, BitVec.or_self])

/-- An update of the fields of `rep` that the Report Unit moves by itself. -/
theorem reported_rep (s : State) (fill : Option FillInProgress) (post : List Report) (gap : Nat)
    (followOpen dirty queued : Bool) (count : Word) (offers : List (Source × Report)) (at_ : Option Nat)
    (choice : Nat) :
    Reported s { s with
      choice := choice
      rep := { s.rep with
        fill := fill, post := post, gap := gap, followOpen := followOpen, dirty := dirty
        statusQueued := queued, updateCount := count, offers := offers, statusAt := at_ } } :=
  ⟨rfl, rfl, rfl, ⟨[], by simp⟩, rfl, rfl, rfl, rfl, rfl, .inl rfl⟩

theorem reported_place (p : Purpose) (w : Bool) (b : List Burst) (s : State) : Reported s (place p w b s) :=
  ⟨rfl, rfl, rfl, ⟨_, rfl⟩, rfl, rfl, rfl, rfl, rfl, .inl rfl⟩

theorem reported_markStatus (s : State) : Reported s (markStatus s) := reported_rep s _ _ _ _ _ _ _ _ _ _

theorem reported_placeFill (r : Report) (s : State) : Reported s (placeFill r s) := by
  unfold placeFill
  split
  · exact (reported_place _ _ _ s).trans (reported_rep _ _ _ _ _ _ _ _ _ _ _)
  · exact .refl s

theorem reported_testFill (s : State) : Reported s (testFill s) := by
  unfold testFill
  split
  · exact .refl s
  · split
    · split
      · exact (reported_rep s _ _ _ _ _ _ _ _ _ _).trans (reported_placeFill _ _)
      · exact (reported_rep s _ _ _ _ _ _ _ _ _ _).trans (reported_placeFill _ _)
    · exact .refl s

theorem reported_loss (s : State) : Reported s (latch .loss s) :=
  ⟨rfl, rfl, rfl, ⟨[], by simp [latch]⟩, rfl, rfl, rfl, rfl, rfl, .inr rfl⟩

theorem reported_enqueue (r : Report) (s : State) : Reported s (enqueueReport r s) := by
  unfold enqueueReport
  split
  · exact reported_rep s _ _ _ _ _ _ _ _ _ _
  · exact (reported_rep s _ _ _ _ _ _ _ _ _ _).trans (reported_loss _)

theorem reported_takeReport (r : Report) (s : State) : Reported s (takeReport r s) := by
  unfold takeReport
  split
  · exact reported_placeFill r s
  · exact (reported_enqueue r s).trans (reported_testFill _)

theorem reported_takeFollow (r : Row) (s : State) : Reported s (takeFollow r s) := by
  unfold takeFollow
  split
  · split
    · exact reported_rep s _ _ _ _ _ _ _ _ _ _
    · exact .refl s
  · exact .refl s

theorem reported_takeOffer (r : Report) (s : State) : Reported s (takeOffer r s) := by
  unfold takeOffer
  split
  · dsimp only
    split
    · exact (reported_takeFollow _ s).trans (reported_takeReport _ _)
    · exact reported_takeFollow _ s
  · exact reported_takeReport _ s

theorem reported_takeOffers (l : List Report) (s : State) : Reported s (takeOffers l s) := by
  induction l generalizing s with
  | nil => exact .refl s
  | cons r t ih => exact (reported_takeOffer r s).trans (ih _)

theorem reported_flushOffers (s : State) : Reported s (flushOffers s) :=
  (reported_rep s _ _ _ _ _ _ _ _ _ _).trans
    ((reported_testFill _).trans (reported_takeOffers _ _))

theorem reported_queueStatus (base : Nat) (s : State) : Reported s (queueStatus base s) :=
  (reported_place _ _ _ s).trans (reported_rep _ _ _ _ _ _ _ _ _ _ _)

theorem reported_testStatus (s : State) : Reported s (testStatus s) := by
  unfold testStatus
  split
  · dsimp only
    split
    · exact reported_rep s _ _ _ _ _ _ _ _ _ _
    · exact (reported_rep s _ _ _ _ _ _ _ _ _ _).trans (reported_queueStatus _ _)
  · split
    · split
      · exact reported_queueStatus _ s
      · exact .refl s
    · exact .refl s

theorem reported_markChanges (old s : State) : Reported s (markChanges old s) := by
  unfold markChanges
  split
  · exact .refl s
  · exact reported_markStatus s

theorem reported_work (old s : State) : Reported s (reportWork old s) :=
  (reported_flushOffers s).trans ((reported_markChanges old _).trans (reported_testStatus _))

theorem reported_finish (old s : State) : Reported s (finish old s) :=
  ⟨rfl, rfl, rfl, (reported_work old s).bus, (reported_work old s).released,
    (reported_work old s).fillIndex, (reported_work old s).policy, (reported_work old s).policyVariant,
    (reported_work old s).mask, (reported_work old s).latched⟩

/-! ## What taking the offers keeps, for the status block -/

/-- `t` comes from `s` by taking reports and placing fills: the status block is neither marked nor written. -/
structure Offered (s t : State) : Prop where
  dirty : t.rep.dirty = s.rep.dirty
  queued : t.rep.statusQueued = s.rep.statusQueued
  failed : t.rep.statusAt = s.rep.statusAt

theorem Offered.refl (s : State) : Offered s s := ⟨rfl, rfl, rfl⟩

theorem Offered.trans {s t u : State} (h : Offered s t) (k : Offered t u) : Offered s u :=
  ⟨k.dirty.trans h.dirty, k.queued.trans h.queued, k.failed.trans h.failed⟩

theorem Offered.placeFill {s t : State} (h : Offered s t) (r : Report) : Offered s (placeFill r t) := by
  unfold Machine.placeFill
  split
  · exact h.trans ⟨rfl, rfl, rfl⟩
  · exact h

theorem offered_testFill (s : State) : Offered s (testFill s) := by
  unfold testFill
  split
  · exact .refl s
  · split
    · split
      · refine Offered.placeFill ?_ _; exact ⟨rfl, rfl, rfl⟩
      · refine Offered.placeFill ?_ _; exact ⟨rfl, rfl, rfl⟩
    · exact .refl s

theorem offered_takeReport (r : Report) (s : State) : Offered s (takeReport r s) := by
  unfold takeReport
  split
  · exact (Offered.refl s).placeFill r
  · refine .trans (t := enqueueReport r s) ?_ (offered_testFill _)
    unfold enqueueReport
    split <;> exact ⟨rfl, rfl, rfl⟩

theorem offered_takeFollow (r : Row) (s : State) : Offered s (takeFollow r s) := by
  unfold takeFollow
  split
  · split
    · exact ⟨rfl, rfl, rfl⟩
    · exact .refl s
  · exact .refl s

theorem offered_takeOffer (r : Report) (s : State) : Offered s (takeOffer r s) := by
  unfold takeOffer
  split
  · dsimp only
    split
    · exact (offered_takeFollow _ s).trans (offered_takeReport _ _)
    · exact offered_takeFollow _ s
  · exact offered_takeReport _ s

theorem offered_takeOffers (l : List Report) (s : State) : Offered s (takeOffers l s) := by
  induction l generalizing s with
  | nil => exact .refl s
  | cons r t ih => exact (offered_takeOffer r s).trans (ih _)

theorem offered_flushOffers (s : State) : Offered s (flushOffers s) :=
  .trans (t := { s with
    rep := { s.rep with offers := [] }
    choice := s.choice + (mergeOffers s.rep.offers.length s.choice s.rep.offers).2 })
    ⟨rfl, rfl, rfl⟩ ((offered_testFill _).trans (offered_takeOffers _ _))

/-! ## The accesses that taking the offers places -/

/-- `t` comes from `s` by placing fills alone, and offers no report. -/
structure Filled (s t : State) : Prop where
  queue : ∃ l : List OwnAccess, t.bus.queue = s.bus.queue ++ l ∧ ∀ a ∈ l, ∃ e, a.purpose = .fill e
  offers : t.rep.offers = s.rep.offers

/-- A step that places nothing. -/
theorem Filled.of_queue {s t : State} (h : t.bus.queue = s.bus.queue) (k : t.rep.offers = s.rep.offers) :
    Filled s t := ⟨⟨[], by rw [h, List.append_nil], fun _ m => absurd m List.not_mem_nil⟩, k⟩

theorem Filled.refl (s : State) : Filled s s := .of_queue rfl rfl

theorem Filled.trans {s t u : State} (h : Filled s t) (k : Filled t u) : Filled s u := by
  obtain ⟨l, hl, hf⟩ := h.queue
  obtain ⟨m, hm, kf⟩ := k.queue
  refine ⟨⟨l ++ m, by rw [hm, hl, List.append_assoc], fun a ha => ?_⟩, k.offers.trans h.offers⟩
  rcases List.mem_append.1 ha with q | q
  · exact hf a q
  · exact kf a q

theorem filled_placeFill (r : Report) (s : State) : Filled s (placeFill r s) := by
  unfold placeFill
  split
  · refine ⟨⟨_, rfl, fun a h => ?_⟩, rfl⟩
    rw [List.mem_singleton] at h
    subst h
    exact ⟨_, rfl⟩
  · exact .refl s

theorem filled_testFill (s : State) : Filled s (testFill s) := by
  unfold testFill
  split
  · exact .refl s
  · split
    · split
      · refine Filled.trans ?_ (filled_placeFill _ _); exact .of_queue rfl rfl
      · refine Filled.trans ?_ (filled_placeFill _ _); exact .of_queue rfl rfl
    · exact .refl s

theorem filled_takeReport (r : Report) (s : State) : Filled s (takeReport r s) := by
  unfold takeReport
  split
  · exact filled_placeFill r s
  · refine .trans (t := enqueueReport r s) ?_ (filled_testFill _)
    unfold enqueueReport
    split <;> exact .of_queue rfl rfl

theorem filled_takeOffer (r : Report) (s : State) : Filled s (takeOffer r s) := by
  have follow : ∀ x, Filled s (takeFollow x s) := by
    intro x
    unfold takeFollow
    split
    · split <;> exact .of_queue rfl rfl
    · exact .refl s
  unfold takeOffer
  split
  · dsimp only
    split
    · exact (follow _).trans (filled_takeReport _ _)
    · exact follow _
  · exact filled_takeReport _ s

theorem filled_takeOffers (l : List Report) (s : State) : Filled s (takeOffers l s) := by
  induction l generalizing s with
  | nil => exact .refl s
  | cons r t ih => exact (filled_takeOffer r s).trans (ih _)

/-- Taking the offers places fills alone and leaves no offer waiting. -/
theorem flushOffers_fills (s : State) :
    (∃ l : List OwnAccess, (flushOffers s).bus.queue = s.bus.queue ++ l ∧ ∀ a ∈ l, ∃ e, a.purpose = .fill e) ∧
    (flushOffers s).rep.offers = [] :=
  have h : Filled { s with
      rep := { s.rep with offers := [] }
      choice := s.choice + (mergeOffers s.rep.offers.length s.choice s.rep.offers).2 } (flushOffers s) :=
    (filled_testFill _).trans (filled_takeOffers _ _)
  ⟨h.queue, h.offers⟩

end Sys2Proof.Machine
end

