-- ==== Sys2Proof/Laws/Lanes.lean ====
section
/-! SUPPORT. Reading a lane of a four-fold record after an update. -/

namespace Sys2Proof

@[simp] theorem PerLane.get_const {α : Type} (a : α) (n : Lane) : (PerLane.const a).get n = a := by
  match n with
  | 0 | 1 | 2 | 3 => rfl

@[simp] theorem PerLane.get_set_same {α : Type} (p : PerLane α) (n : Lane) (a : α) :
    (p.set n a).get n = a := by
  match n with
  | 0 | 1 | 2 | 3 => rfl

theorem PerLane.get_set {α : Type} (p : PerLane α) (n m : Lane) (a : α) :
    (p.set n a).get m = if m = n then a else p.get m := by
  match n, m with
  | 0, 0 | 0, 1 | 0, 2 | 0, 3 | 1, 0 | 1, 1 | 1, 2 | 1, 3 | 2, 0 | 2, 1 | 2, 2 | 2, 3 | 3, 0 | 3, 1 | 3, 2
  | 3, 3 => rfl

theorem PerLane.get_set_ne {α : Type} (p : PerLane α) (n m : Lane) (a : α) (h : m ≠ n) :
    (p.set n a).get m = p.get m := by rw [PerLane.get_set, if_neg h]

@[simp] theorem PerLane.set_get {α : Type} (p : PerLane α) (n : Lane) : p.set n (p.get n) = p := by
  match n with
  | 0 | 1 | 2 | 3 => rfl

@[simp] theorem PerLane.set_set {α : Type} (p : PerLane α) (n : Lane) (a b : α) : (p.set n a).set n b = p.set n b := by
  match n with
  | 0 | 1 | 2 | 3 => rfl

@[simp] theorem PerLane.get_map {α β : Type} (f : α → β) (p : PerLane α) (n : Lane) :
    (p.map f).get n = f (p.get n) := by
  match n with
  | 0 | 1 | 2 | 3 => rfl

@[simp] theorem PerLane.get_mapLane {α β : Type} (f : Lane → α → β) (p : PerLane α) (n : Lane) :
    (p.mapLane f).get n = f n (p.get n) := by
  match n with
  | 0 | 1 | 2 | 3 => rfl

theorem PerLane.ext_get {α : Type} {p q : PerLane α} (h : ∀ n, p.get n = q.get n) : p = q := by
  cases p; cases q
  have h0 := h 0; have h1 := h 1; have h2 := h 2; have h3 := h 3
  simp only [PerLane.get] at h0 h1 h2 h3
  subst h0 h1 h2 h3
  rfl

end Sys2Proof
end

