-- ==== Sys2Proof/Laws/Pulls.lean ====
section
/-! SUPPORT. What stopping a pull does, and what stopping the pulls and releasing the throw change outside RUN (R141, R156, R162
to R164), what a wind-down changes (R37), what a station fault in RUN changes (R39), what the end of a survey changes (R191, R192),
what arming a pull changes (R155, R157), and what the Foil Drives do when a load succeeds (R156, R164). -/

namespace Sys2Proof.Machine

/-! ## Stopping a pull -/

/-- A drive whose SERVED records have left. -/
def Foil.stopped (f : Foil) : Foil :=
  { f with records := f.records.filter (!·.served), pullEnd := none, acc := 0 }

/-- What the SERVED records of a pull report when it stops. -/
def Foil.stopReports (f : Foil) : List PullMsg :=
  (f.records.filter (·.served)).map fun r => ⟨r.row, .stopped, r.credit⟩

/-- With no active pull no record is SERVED. -/
theorem Foil.all_armed {f : Foil} (h : f.activePull = false) :
    f.records.filter (!·.served) = f.records ∧ f.stopReports = [] := by
  unfold Foil.activePull at h
  rw [List.any_eq_false] at h
  refine ⟨List.filter_eq_self.2 fun x hx => by simpa using h x hx, ?_⟩
  unfold Foil.stopReports
  rw [List.filter_eq_nil_iff.2 fun x hx => by simpa using h x hx]
  rfl

/-- A stopped drive has no active pull and nothing more to report. -/
@[simp] theorem Foil.stopped_activePull (f : Foil) : f.stopped.activePull = false := by
  simp [Foil.activePull, Foil.stopped]

@[simp] theorem Foil.stopped_stopReports (f : Foil) : f.stopped.stopReports = [] :=
  (Foil.all_armed (Foil.stopped_activePull f)).2

/-- The reports go to the Row Track in the order of the list. -/
theorem reportRecords_eq (n : Lane) (e : PullEvent) (l : List PullRec) (s : State) :
    reportRecords n e l s = { s with msgs := { s.msgs with
      pulls := s.msgs.pulls.set n (s.msgs.pulls.get n ++ l.map fun r => ⟨r.row, e, r.credit⟩) } } := by
  induction l generalizing s with
  | nil => simp [reportRecords, PerLane.set_get]
  | cons r t ih => simp [reportRecords, ih, handPull, PerLane.set_set]

/-- A state whose pull on `n` has left, each SERVED record reported, before the wind-down is tested. -/
def pullLeft (n : Lane) (s : State) : State :=
  { s with
    foil := s.foil.set n (s.foil.get n).stopped
    msgs := { s.msgs with pulls := s.msgs.pulls.set n (s.msgs.pulls.get n ++ (s.foil.get n).stopReports) }
    rep := { s.rep with dirty := true } }

/-- R162: an active pull leaves and the wind-down is tested; no other is touched. -/
theorem stopPull_eq (n : Lane) (s : State) :
    stopPull n s = if (s.foil.get n).activePull then testWindDown (pullLeft n s) else s := by
  unfold stopPull
  split
  · rename_i h
    rw [if_pos h, reportRecords_eq]
    rfl
  · rename_i h
    rw [if_neg h]

/-- R163: an active pull whose lane runs out stops with OUT, and FOIL is latched where OUT was not present. -/
theorem runOut_eq (n : Lane) {s : State} (h : (s.foil.get n).activePull = true) :
    let t := testWindDown (pullLeft n (setFoil n { s.foil.get n with out := true } s))
    runOut n s = { t with rep := { t.rep with
      latched := t.rep.latched ||| if (s.foil.get n).out then 0 else Cause.foil.mask } } := by
  intro t
  have ha : ((setFoil n { s.foil.get n with out := true } s).foil.get n).activePull = true := by
    simp only [setFoil, PerLane.get_set_same]
    exact h
  unfold runOut
  dsimp only
  rw [stopPull_eq, if_pos ha]
  split
  · exact congrArg (fun x => { t with rep := { t.rep with latched := x } }) BitVec.or_zero.symm
  · rfl

/-- `t` comes from `s` by a step of a wind-down: the mode, the slots, the reports offered and the cause ORDER alone move. -/
structure WoundDown (s t : State) : Prop where
  eq : t = { s with
    station := t.station
    orders := { s.orders with slots := t.orders.slots }
    rep := { s.rep with offers := t.rep.offers, latched := t.rep.latched, dirty := t.rep.dirty } }
  latched : t.rep.latched = s.rep.latched ∨ t.rep.latched = s.rep.latched ||| Cause.order.mask

theorem WoundDown.refl (s : State) : WoundDown s s := ⟨rfl, .inl rfl⟩

theorem WoundDown.trans {s t u : State} (h : WoundDown s t) (k : WoundDown t u) : WoundDown s u := by
  constructor
  · have e := k.eq
    rw [h.eq] at e
    exact e
  · rcases h.latched with hp | hp <;> rcases k.latched with kp | kp
    · exact .inl (kp.trans hp)
    · exact .inr (by rw [kp, hp])
    · exact .inr (by rw [kp, hp])
    · exact .inr (by rw [kp, hp, BitVec.or_assoc, BitVec.or_self])

theorem woundDown_completeStanding (k : OrderKind) (c : Completion) (s : State) :
    WoundDown s (completeStanding k c s) := by
  unfold completeStanding
  split
  · exact ⟨rfl, .inr rfl⟩
  · exact .refl s

/-- The wind-down test (R37). -/
theorem woundDown_testWindDown (s : State) : WoundDown s (testWindDown s) := by
  unfold testWindDown
  split
  · dsimp only
    have h : WoundDown s { setMode .watch .windDown s with
      station := { (setMode .watch .windDown s).station with windDown := false } } := ⟨rfl, .inl rfl⟩
    have k := h.trans (woundDown_completeStanding .stampOff .done _)
    generalize completeStanding .stampOff .done _ = t at k ⊢
    split
    · refine k.trans (WoundDown.trans ?_ (woundDown_completeStanding _ _ _))
      exact ⟨rfl, .inl rfl⟩
    · exact k
  · exact .refl s

/-- R164, R165: BREAK is added on a lane, the lanes are tested where it was not present, and the pull stops. -/
theorem addBreak_eq (n : Lane) {s : State} {c : Loaded} (hl : s.loader.loaded = some c) :
    let f := s.foil.get n
    let down := s.station.mode = .run ∧ ∀ m, c.hdr.active m = true →
      m = n ∨ (s.lanes.get m).state = .blocked ∨ (s.foil.get m).faulty = true
    addBreak n s = latch .foil (stopPull n { s with
      foil := s.foil.set n { f with brk := true }
      msgs := { s.msgs with
        faults := s.msgs.faults ++ if f.brk = false ∧ down then [⟨.allLanesDown, none⟩] else [] } }) := by
  intro f down
  have lanes : (∀ m, c.hdr.active m = true → (s.lanes.get m).state = .blocked ∨
      ((s.foil.set n { f with brk := true }).get m).faulty = true) ↔
      ∀ m, c.hdr.active m = true → m = n ∨ (s.lanes.get m).state = .blocked ∨ (s.foil.get m).faulty = true := by
    refine forall₂_congr fun m _ => ?_
    by_cases e : m = n
    · subst e
      simp [Foil.faulty]
    · simp [PerLane.get_set_ne _ _ _ _ e, e]
  unfold addBreak
  dsimp only
  congr 2
  split
  · rename_i hb
    rw [if_neg (by simp [f, hb]), List.append_nil]
    rfl
  · rename_i hb
    rw [testLanesDown_eq (c := c) (by exact hl)]
    simp only [setFoil, f] at lanes ⊢
    simp only [hb, lanes, down, f, true_and]

/-! ## Stopping outside RUN -/

/-- `t` comes from `s`, outside RUN, by releasing the throw and stopping pulls: no report is offered, no fault is raised and
nothing is latched. -/
structure Stopped (s t : State) : Prop where
  eq : t = { s with
    foil := t.foil
    imp := { s.imp with throw := t.imp.throw, horizon := t.imp.horizon, release := t.imp.release }
    msgs := { s.msgs with pulls := t.msgs.pulls }
    rep := { s.rep with dirty := t.rep.dirty } }
  dirty : s.rep.dirty = true → t.rep.dirty = true

theorem Stopped.refl (s : State) : Stopped s s := ⟨rfl, id⟩

theorem Stopped.trans {s t u : State} (h : Stopped s t) (k : Stopped t u) : Stopped s u := by
  refine ⟨?_, k.dirty ∘ h.dirty⟩
  have e := k.eq
  rw [h.eq] at e
  exact e

theorem Stopped.station {s t : State} (h : Stopped s t) : t.station = s.station := by rw [h.eq]

/-- A drive with no record. -/
def Foil.cleared (f : Foil) : Foil := { f with records := [], pullEnd := none, acc := 0 }

/-- Outside RUN no wind-down completes. -/
theorem testWindDown_of_not_run {s : State} (h : s.station.mode ≠ .run) : testWindDown s = s := by
  unfold testWindDown windDownDone
  simp [h]

/-- The throw released outside RUN (R136, R141). -/
theorem releaseThrow_of_not_run {s : State} (h : s.station.mode ≠ .run) :
    releaseThrow s = if s.throwOn then { s with imp := { s.imp with
      throw := if s.pins.throwOk then .releasing else .off, horizon := none, release := none } } else s := by
  unfold releaseThrow negateThrow
  split
  · dsimp only
    split
    · rfl
    · exact testWindDown_of_not_run h
  · rfl

/-- `t` comes from `s`, outside RUN, by stopping the pull of each lane of `on`, whose drive becomes as `g` says. -/
structure StopsPulls (on : Lane → Prop) (g : Foil → Foil) (s t : State) : Prop where
  frame : Stopped s t
  imp : t.imp = s.imp
  drive : ∀ m, on m → t.foil.get m = g (s.foil.get m)
  reports : ∀ m, on m → t.msgs.pulls.get m = s.msgs.pulls.get m ++ (s.foil.get m).stopReports
  other : ∀ m, ¬ on m → t.foil.get m = s.foil.get m ∧ t.msgs.pulls.get m = s.msgs.pulls.get m

/-- Two groups of lanes one after the other; no lane is in both. -/
theorem StopsPulls.trans {on on' : Lane → Prop} {g : Foil → Foil} {s t u : State} (h : StopsPulls on g s t)
    (k : StopsPulls on' g t u) (hd : ∀ m, on m → ¬ on' m) : StopsPulls (fun m => on m ∨ on' m) g s u := by
  refine ⟨h.frame.trans k.frame, k.imp.trans h.imp, fun m hm => ?_, fun m hm => ?_, fun m hm => ?_⟩
  · by_cases ho : on m
    · rw [(k.other m (hd m ho)).1, h.drive m ho]
    · rw [k.drive m (hm.resolve_left ho), (h.other m ho).1]
  · by_cases ho : on m
    · rw [(k.other m (hd m ho)).2, h.reports m ho]
    · rw [k.reports m (hm.resolve_left ho), (h.other m ho).2, (h.other m ho).1]
  · rw [not_or] at hm
    have h1 := h.other m hm.1
    have h2 := k.other m hm.2
    exact ⟨h2.1.trans h1.1, h2.2.trans h1.2⟩

/-- A pull stopped outside RUN, and the drive then set to what `g` makes of it. -/
theorem stopsPulls_stopPull (n : Lane) {s : State} {g : Foil → Foil} (h : s.station.mode ≠ .run)
    (hg : ∀ f : Foil, g f.stopped = g f) :
    let t := stopPull n s
    StopsPulls (· = n) g s (setFoil n (g (t.foil.get n)) t) := by
  intro t
  have ht : t = stopPull n s := rfl
  rw [stopPull_eq, testWindDown_of_not_run (by exact h)] at ht
  by_cases ha : (s.foil.get n).activePull = true
  · rw [if_pos ha] at ht
    rw [ht]
    refine ⟨⟨rfl, fun _ => rfl⟩, rfl, ?_, ?_, fun m hm => ⟨?_, ?_⟩⟩
    · rintro m rfl
      simp [setFoil, pullLeft, hg]
    · rintro m rfl
      simp [setFoil, pullLeft]
    · simp [setFoil, pullLeft, PerLane.get_set_ne _ _ _ _ hm]
    · simp [setFoil, pullLeft, PerLane.get_set_ne _ _ _ _ hm]
  · rw [if_neg ha] at ht
    rw [Bool.not_eq_true] at ha
    rw [ht]
    refine ⟨⟨rfl, id⟩, rfl, ?_, ?_, fun m hm => ⟨?_, rfl⟩⟩
    · rintro m rfl
      simp [setFoil]
    · rintro m rfl
      simp [setFoil, (Foil.all_armed ha).2]
    · simp [setFoil, PerLane.get_set_ne _ _ _ _ hm]

/-- A fault applied in RUN, on one lane, once the mode is SAFE. -/
theorem haltPull_of_not_run (n : Lane) {s : State} (h : s.station.mode ≠ .run) :
    StopsPulls (· = n) Foil.stopped s (haltPull n s) := by
  have k := stopsPulls_stopPull n (g := Foil.stopped) h fun f => by simp [Foil.stopped]
  have e : setFoil n ((stopPull n s).foil.get n).stopped (stopPull n s) = haltPull n s := by
    unfold haltPull Foil.stopped
    dsimp only
    congr 2
    refine (Foil.all_armed ?_).1
    rw [stopPull_eq, testWindDown_of_not_run (by exact h)]
    split
    · simp [pullLeft]
    · rename_i hn
      simpa using hn
  rw [← e]
  exact k

/-- HOLD and WEB_REVERSE on one lane, outside RUN. -/
theorem clearPulls_of_not_run (n : Lane) {s : State} (h : s.station.mode ≠ .run) :
    StopsPulls (· = n) Foil.cleared s (clearPulls n s) :=
  stopsPulls_stopPull n h fun _ => rfl

/-- An operation that stops the pull of one lane, on every lane in turn. -/
theorem forLanes_of_not_run {f : Lane → State → State} {g : Foil → Foil}
    (hf : ∀ n {s : State}, s.station.mode ≠ .run → StopsPulls (· = n) g s (f n s)) {s : State}
    (h : s.station.mode ≠ .run) : StopsPulls (fun _ => True) g s (forLanes f s) := by
  unfold forLanes
  have a := hf 0 h
  have h1 : (f 0 s).station.mode ≠ .run := by rw [a.frame.station]; exact h
  have b := hf 1 h1
  have h2 : (f 1 (f 0 s)).station.mode ≠ .run := by rw [b.frame.station]; exact h1
  have c := hf 2 h2
  have h3 : (f 2 (f 1 (f 0 s))).station.mode ≠ .run := by rw [c.frame.station]; exact h2
  have all := ((a.trans b (by decide)).trans c (by decide)).trans (hf 3 h3) (by decide)
  have mem : ∀ m : Lane, ((m = 0 ∨ m = 1) ∨ m = 2) ∨ m = 3 := by decide
  exact ⟨all.frame, all.imp, fun m _ => all.drive m (mem m), fun m _ => all.reports m (mem m),
    fun m hm => (hm trivial).elim⟩

theorem haltPulls_of_not_run {s : State} (h : s.station.mode ≠ .run) :
    StopsPulls (fun _ => True) Foil.stopped s (forLanes haltPull s) :=
  forLanes_of_not_run haltPull_of_not_run h

theorem clearAllPulls_of_not_run {s : State} (h : s.station.mode ≠ .run) :
    StopsPulls (fun _ => True) Foil.cleared s (forLanes clearPulls s) :=
  forLanes_of_not_run clearPulls_of_not_run h

/-! ## A station fault in RUN, and the end of a survey -/

/-- A fault applied in RUN: SAFE with one MODE report, the throw released, every pull stopped and reported. -/
theorem enterSafe_of_run (k : FaultKind) {s : State} (h : s.station.mode = .run) :
    let t := enterSafe k s
    t = { s with
      station := { s.station with mode := .safe, cause := .fault k }
      foil := t.foil
      imp := if s.throwOn then { s.imp with
        throw := if s.pins.throwOk then .releasing else .off, horizon := none, release := none } else s.imp
      msgs := { s.msgs with pulls := t.msgs.pulls }
      rep := { s.rep with
        dirty := true, offers := s.rep.offers ++ [(.station, .mode .run .safe (.fault k) s.web.pos)] } } ∧
    t.throwOn = false ∧
    ∀ n, t.foil.get n = (s.foil.get n).stopped ∧
      t.msgs.pulls.get n = s.msgs.pulls.get n ++ (s.foil.get n).stopReports := by
  intro t
  obtain ⟨b, e, hb⟩ : ∃ b, releaseThrow (setMode .safe (.fault k) s) = b ∧ b = { s with
      station := { s.station with mode := .safe, cause := .fault k }
      imp := if s.throwOn then { s.imp with
        throw := if s.pins.throwOk then .releasing else .off, horizon := none, release := none } else s.imp
      rep := { s.rep with
        dirty := true, offers := s.rep.offers ++ [(.station, .mode .run .safe (.fault k) s.web.pos)] } } := by
    refine ⟨_, rfl, ?_⟩
    have entered : setMode .safe (.fault k) s = offer .station (.mode s.station.mode .safe (.fault k) s.web.pos)
        (markStatus { s with station := { s.station with mode := .safe, cause := .fault k } }) := rfl
    rw [entered, h, releaseThrow_of_not_run (by exact (by decide : Mode.safe ≠ .run))]
    change (if s.throwOn = true then _ else _) = _
    split <;> rfl
  have ht : t = forLanes haltPull b := by rw [← e]; rfl
  have m : b.station.mode ≠ .run := by rw [hb]; exact (by decide : Mode.safe ≠ .run)
  have hx := haltPulls_of_not_run m
  rw [← ht] at hx
  clear_value t
  refine ⟨?_, ?_, fun n => ⟨?_, ?_⟩⟩
  · have eq := hx.frame.eq
    rw [hx.frame.dirty (by rw [hb]), hx.imp] at eq
    rw [eq, hb]
  · have off : t.imp = if s.throwOn then { s.imp with
        throw := if s.pins.throwOk then .releasing else .off, horizon := none, release := none } else s.imp := by
      rw [hx.imp, hb]
    by_cases ho : s.throwOn = true
    · rw [if_pos ho] at off
      unfold State.throwOn
      rw [off]
      by_cases hp : s.pins.throwOk = true <;> simp [hp]
    · rw [if_neg ho] at off
      rw [Bool.not_eq_true] at ho
      unfold State.throwOn at *
      rw [off]
      exact ho
  · rw [hx.drive n trivial, hb]
  · rw [hx.reports n trivial, hb]

/-- An event that ends a running survey: the survey, its order's slot, reports and the causes SURVEY and ORDER move. -/
theorem endRunningSurvey_eq (o : SurveyOutcome) {s : State} {c : Loaded} (hl : s.loader.loaded = some c) :
    ∃ v slots l, endRunningSurvey o s = { s with
        survey := v
        orders := { s.orders with slots := slots }
        rep := { s.rep with
          offers := s.rep.offers ++ l
          latched := s.rep.latched ||| (if s.survey.running then Cause.survey.mask |||
            (if s.orders.slots.survey.isSome then Cause.order.mask else 0) else 0) } } ∧
      (s.survey.running = false → l = [] ∧ v = s.survey ∧ slots = s.orders.slots) ∧ v.running = false ∧
      (s.survey.running = true → v.outcome = o ∧ slots.survey = none) := by
  unfold endRunningSurvey
  by_cases h : s.survey.running
  · simp only [h, if_true]
    unfold endSurvey
    simp only [withLoaded, hl]
    unfold completeStanding
    let v : Survey := { s.survey with
      running := false, outcome := o, lanes := s.survey.lanes.mapLane (endLane c (o == .pass) (2 ^ s.survey.k)) }
    let r := (Source.survey, Report.survey o s.survey.k s.survey.q s.survey.counted s.survey.retired
      (v.lanes.map SurveyLane.figures))
    cases hs : s.orders.slots.survey with
    | none =>
      simp only [latch, offer, Slots.get, hs]
      refine ⟨v, s.orders.slots, [r], ?_, ?_⟩
      · simp
        exact ⟨rfl, rfl⟩
      · simp [v, hs]
    | some x =>
      simp only [latch, offer, Slots.get, hs]
      refine ⟨v, { s.orders.slots with survey := none },
        [r, (.orderUnit, .orderDone .survey x o.completion)], ?_, ?_⟩
      · simp [BitVec.or_assoc]
        exact ⟨rfl, rfl, rfl⟩
      · simp [v]
  · refine ⟨s.survey, s.orders.slots, [], ?_, ?_⟩
    · simp [h]
    · simp [h]

/-! ## Arming -/

/-- `t` comes from `s` by arming, beginning or refusing pulls: the drives, pull reports, faults raised and the cause FOIL
alone move. -/
structure Armed (s t : State) : Prop where
  eq : t = { s with
    foil := t.foil
    rep := { s.rep with latched := t.rep.latched }
    msgs := { s.msgs with pulls := t.msgs.pulls, faults := t.msgs.faults } }
  latched : t.rep.latched = s.rep.latched ∨ t.rep.latched = s.rep.latched ||| Cause.foil.mask

theorem Armed.refl (s : State) : Armed s s := ⟨rfl, .inl rfl⟩

theorem Armed.trans {s t u : State} (h : Armed s t) (k : Armed t u) : Armed s u := by
  constructor
  · have e := k.eq
    rw [h.eq] at e
    exact e
  · rcases h.latched with hp | hp <;> rcases k.latched with kp | kp
    · exact .inl (kp.trans hp)
    · exact .inr (by rw [kp, hp])
    · exact .inr (by rw [kp, hp])
    · exact .inr (by rw [kp, hp, BitVec.or_assoc, BitVec.or_self])

theorem armed_refusePull (n : Lane) (row : Nat) (s : State) : Armed s (refusePull n row s) := ⟨rfl, .inl rfl⟩

theorem armed_addOut (n : Lane) (s : State) : Armed s (addOut n s) := by
  unfold addOut
  dsimp only
  split
  · exact .refl s
  · unfold testLanesDown
    split <;> exact ⟨rfl, .inr rfl⟩

theorem armed_beginPull (n : Lane) (row : Nat) (s : State) : Armed s (beginPull n row s) := by
  unfold beginPull withLoaded
  dsimp only
  split
  · split
    · exact .refl s
    · repeat' split
      · exact armed_refusePull _ _ _
      · exact armed_refusePull _ _ _
      · exact armed_refusePull _ _ _
      · exact (armed_addOut _ _).trans (armed_refusePull _ _ _)
      · exact ⟨rfl, .inl rfl⟩
      · exact ⟨rfl, .inl rfl⟩
  · exact .refl s

theorem armed_armPull (n : Lane) (row : Nat) (p : Pull) (s : State) : Armed s (armPull n row p s) := by
  unfold armPull
  dsimp only
  split
  · split
    · refine Armed.trans ?_ (armed_beginPull _ _ _)
      exact ⟨rfl, .inl rfl⟩
    · exact ⟨rfl, .inl rfl⟩
  · exact ⟨rfl, .inl rfl⟩

/-- The pulls of a decided row handed to the drives. -/
theorem armed_armLanes (uid : Nat) (cells : PerLane (Option Cell)) (s : State) :
    Armed s (forLanes (armLane uid cells) s) := by
  have one : ∀ n t, Armed t (armLane uid cells n t) := by
    intro n t
    unfold armLane
    split
    · exact armed_armPull _ _ _ _
    · exact .refl t
  exact ((one 0 _).trans (one 1 _)).trans ((one 2 _).trans (one 3 _))

/-! ## A successful load -/

/-- The drive of a lane when a load succeeds: BREAK is added, and FOIL latched, on an active lane with FOILBRK asserted. -/
theorem foilAtLoad_eq (n : Lane) (s : State) :
    let broken := s.laneActive n && s.pins.foilbrk.get n
    foilAtLoad n s = { s with
      foil := s.foil.set n { (s.foil.get n).cleared with brk := (s.foil.get n).brk || broken }
      rep := { s.rep with latched := s.rep.latched ||| if broken then Cause.foil.mask else 0 } } := by
  intro broken
  have act : ∀ f : Foil, (setFoil n f s).laneActive n = s.laneActive n := fun _ => rfl
  have pins : ∀ f : Foil, (setFoil n f s).pins = s.pins := fun _ => rfl
  have twice : ∀ f g : Foil, (s.foil.set n f).set n g = s.foil.set n g := by
    intro f g
    match n with
    | 0 | 1 | 2 | 3 => rfl
  unfold foilAtLoad
  dsimp only
  rw [act, pins]
  by_cases h : (s.laneActive n && s.pins.foilbrk.get n) = true
  · rw [if_pos h]
    simp only [broken, h, if_true, Bool.or_true, latch, setFoil, PerLane.get_set_same, twice, Foil.cleared]
  · rw [if_neg h]
    rw [Bool.not_eq_true] at h
    simp [broken, h, setFoil, Foil.cleared]

end Sys2Proof.Machine
end

