-- ==== Sys2Proof/Laws/Hold.lean ====
section
/-! SUPPORT. What taking the offers leaves alone (R169, R172), what an edit in HELD does (R32), and what HOLD does in WATCH,
RUN and SAFE (R38), each in one expression. -/

namespace Sys2Proof.Machine

/-! ## Taking the offers -/

/-- `t` comes from `s` by taking reports and placing fills: nothing but the Report Unit's queue, fill, gap count, follow
state, offers and causes moves, beside the memory access queue. -/
structure Flushed (s t : State) : Prop where
  eq : t = { s with
    uid := t.uid
    choice := t.choice
    bus := { s.bus with queue := t.bus.queue }
    rep := { s.rep with
      fill := t.rep.fill, post := t.rep.post, gap := t.rep.gap, followOpen := t.rep.followOpen
      latched := t.rep.latched, offers := t.rep.offers } }

theorem Flushed.refl (s : State) : Flushed s s := ⟨rfl⟩

theorem Flushed.trans {s t u : State} (h : Flushed s t) (k : Flushed t u) : Flushed s u := by
  have e := k.eq
  rw [h.eq] at e
  exact ⟨e⟩

theorem flushed_placeFill (r : Report) (s : State) : Flushed s (placeFill r s) := by
  unfold placeFill
  split <;> exact ⟨rfl⟩

theorem flushed_testFill (s : State) : Flushed s (testFill s) := by
  unfold testFill
  split
  · exact .refl s
  · split
    · split
      · refine Flushed.trans ?_ (flushed_placeFill _ _); exact ⟨rfl⟩
      · refine Flushed.trans ?_ (flushed_placeFill _ _); exact ⟨rfl⟩
    · exact .refl s

theorem flushed_takeReport (r : Report) (s : State) : Flushed s (takeReport r s) := by
  unfold takeReport
  split
  · exact flushed_placeFill r s
  · refine .trans (t := enqueueReport r s) ?_ (flushed_testFill _)
    unfold enqueueReport
    split <;> exact ⟨rfl⟩

theorem flushed_takeOffer (r : Report) (s : State) : Flushed s (takeOffer r s) := by
  have follow : ∀ x, Flushed s (takeFollow x s) := by
    intro x
    unfold takeFollow
    split
    · split <;> exact ⟨rfl⟩
    · exact .refl s
  unfold takeOffer
  split
  · dsimp only
    split
    · exact (follow _).trans (flushed_takeReport _ _)
    · exact follow _
  · exact flushed_takeReport _ s

theorem flushed_takeOffers (l : List Report) (s : State) : Flushed s (takeOffers l s) := by
  induction l generalizing s with
  | nil => exact .refl s
  | cons r t ih => exact (flushed_takeOffer r s).trans (ih _)

theorem flushed_flushOffers (s : State) : Flushed s (flushOffers s) :=
  .trans (t := { s with
    rep := { s.rep with offers := [] }
    choice := s.choice + (mergeOffers s.rep.offers.length s.choice s.rep.offers).2 })
    ⟨rfl⟩ ((flushed_testFill _).trans (flushed_takeOffers _ _))

/-- A test for a fill latches nothing and leaves the follow state. -/
theorem testFill_quiet (s : State) :
    (testFill s).rep.latched = s.rep.latched ∧ (testFill s).rep.followOpen = s.rep.followOpen := by
  unfold testFill placeFill
  repeat' split
  all_goals exact ⟨rfl, rfl⟩

/-- With no report offered, taking the offers latches nothing and leaves the follow state. -/
theorem flushOffers_quiet {s : State} (h : s.rep.offers = []) :
    (flushOffers s).rep.latched = s.rep.latched ∧ (flushOffers s).rep.followOpen = s.rep.followOpen := by
  unfold flushOffers
  rw [h]
  exact testFill_quiet _

/-! ## An edit in HELD -/

/-- The configuration lost to an edit (R32): UNCONFIGURED, which offers no report, and CONFIG latched. -/
theorem loseConfiguration_edited (s : State) :
    loseConfiguration .edited .edit s = { s with
      station := { s.station with mode := .unconfigured, cause := .edit }
      loader := { s.loader with
        phase := .idle, header := none, tables := [], loaded := none, confirmed := false, error := .edited
        bounds := none }
      orders := { s.orders with
        tapQueue := [], tapLosses := s.orders.tapLosses + BitVec.ofNat 32 s.orders.tapQueue.length
        handed := [], takeIndex := 0 }
      track := { s.track with rows := [], splices := [], resumes := [], rejectEnd := PerLane.const none }
      imp := { s.imp with
        throw := if s.throwOn then (if s.pins.throwOk then .releasing else .off) else s.imp.throw
        horizon := none, release := none, nips := [], slotCounter := 0, slotSync := false, lastIndex := none }
      foil := s.foil.map Foil.cleared
      lanes := PerLane.const Tracker.reset
      readers := PerLane.const Reader.reset
      rep := { s.rep with
        released := [], fillIndex := 0, post := [], gap := 0, dirty := true
        latched := s.rep.latched ||| Cause.config.mask } } := rfl

/-! ## HOLD -/

/-- A standing order that completes: its slot is emptied, its report offered, ORDER latched. -/
theorem completeStanding_eq (k : OrderKind) (e : Completion) (s : State) :
    completeStanding k e s = { s with
      orders := { s.orders with slots := s.orders.slots.put k none }
      rep := { s.rep with
        offers := s.rep.offers ++ (match s.orders.slots.get k with
          | some y => [(.orderUnit, .orderDone k y e)]
          | none => [])
        latched := s.rep.latched ||| if (s.orders.slots.get k).isSome then Cause.order.mask else 0 } } := by
  unfold completeStanding
  cases h : s.orders.slots.get k with
  | some y => rfl
  | none =>
    have e : s.orders.slots.put k none = s.orders.slots := by
      generalize s.orders.slots = l at h
      obtain ⟨a, b, d⟩ := l
      cases k <;> simp_all [Slots.get, Slots.put]
    simp [e]

/-- A running survey cancelled (R191): the means and the edges kept go, the counts stay. -/
theorem endRunningSurvey_cancelled {s : State} {c : Loaded} (hl : s.loader.loaded = some c) :
    endRunningSurvey .cancelled s = if s.survey.running then { s with
      survey := { s.survey with
        running := false, outcome := .cancelled
        lanes := s.survey.lanes.map fun l => { l with meanPitch := none, meanSkew := none, recent := [], watch := none } }
      orders := { s.orders with slots := { s.orders.slots with survey := none } }
      rep := { s.rep with
        offers := s.rep.offers ++ (.survey, .survey .cancelled s.survey.k s.survey.q s.survey.counted s.survey.retired
          (s.survey.lanes.map fun l => ⟨none, none, l.violations⟩)) ::
          (match s.orders.slots.survey with
            | some y => [(.orderUnit, .orderDone .survey y .cancelled)]
            | none => [])
        latched := s.rep.latched ||| Cause.survey.mask |||
          if s.orders.slots.survey.isSome then Cause.order.mask else 0 } } else s := by
  unfold endRunningSurvey
  split
  · unfold endSurvey
    simp only [withLoaded, hl]
    rw [completeStanding_eq]
    simp only [latch, offer, Slots.get, Slots.put, List.append_assoc, List.singleton_append]
    rfl
  · rfl

/-- What the throw of a state becomes at HOLD (R136, R141). -/
def heldImpression (s : State) : Impression :=
  if s.throwOn then { s.imp with
      throw := if s.pins.throwOk then .releasing else .off, horizon := none, release := none, nips := [] }
    else { s.imp with nips := [] }

/-- The reports that HOLD offers, each block's in its order. -/
def holdReports (s : State) : List (Source × Report) :=
  let slots := s.orders.slots
  let cancelled := fun (k : OrderKind) (x : Option Origin) => match x with
    | some y => [(Source.orderUnit, Report.orderDone k y .cancelled)]
    | none => []
  (.station, .mode s.station.mode .held .holdOrder s.web.pos) :: cancelled .stampOff slots.stampOff ++
    cancelled .countTarget slots.countTarget ++
    (.rowTrack, .abandon .hold s.track.rows.length (endSerials s.track.rows)) ::
    if s.survey.running then
      (.survey, .survey .cancelled s.survey.k s.survey.q s.survey.counted s.survey.retired
        (s.survey.lanes.map fun l => ⟨none, none, l.violations⟩)) :: cancelled .survey slots.survey
    else []

/-- The state HELD that HOLD makes of WATCH, RUN or SAFE, before confirmed is looked at (R38). -/
def heldState (c : Loaded) (s : State) : State :=
  { s with
    station := { s.station with mode := .held, cause := .holdOrder, windDown := false, countTarget := none }
    orders := { s.orders with slots := ⟨none, none, if s.survey.running then none else s.orders.slots.survey⟩ }
    web := { pos := s.web.pos, high := s.web.pos, behind := false }
    readers := PerLane.const Reader.reset
    lanes := s.lanes.mapLane fun n _ =>
      if c.hdr.active n then { Tracker.reset with state := .idle } else Tracker.reset
    track := { s.track with rows := [], splices := [], resumes := [], rejectEnd := PerLane.const none }
    imp := heldImpression s
    foil := s.foil.map Foil.cleared
    survey := if s.survey.running then { s.survey with
        running := false, outcome := .cancelled
        lanes := s.survey.lanes.map fun l => { l with meanPitch := none, meanSkew := none, recent := [], watch := none } }
      else s.survey
    msgs := { s.msgs with pulls := s.msgs.pulls.mapLane fun n l => l ++ (s.foil.get n).stopReports }
    rep := { s.rep with
      dirty := true
      latched := s.rep.latched ||| (if s.orders.slots.stampOff.isSome || s.orders.slots.countTarget.isSome ||
          (s.survey.running && s.orders.slots.survey.isSome) then Cause.order.mask else 0) |||
        (if s.survey.running then Cause.survey.mask else 0)
      offers := s.rep.offers ++ holdReports s } }

/-- The pulls cleared outside RUN, in one expression. -/
theorem clearAllPulls_eq {s : State} (h : s.station.mode ≠ .run) :
    ∃ d, forLanes clearPulls s = { s with
      foil := s.foil.map Foil.cleared
      msgs := { s.msgs with pulls := s.msgs.pulls.mapLane fun n l => l ++ (s.foil.get n).stopReports }
      rep := { s.rep with dirty := d } } ∧ (s.rep.dirty = true → d = true) := by
  have k := clearAllPulls_of_not_run h
  refine ⟨(forLanes clearPulls s).rep.dirty, ?_, k.frame.dirty⟩
  have e := k.frame.eq
  have f : (forLanes clearPulls s).foil = s.foil.map Foil.cleared := PerLane.ext_get fun n => by
    rw [k.drive n trivial, PerLane.get_map]
  have m : (forLanes clearPulls s).msgs.pulls = s.msgs.pulls.mapLane fun n l => l ++ (s.foil.get n).stopReports :=
    PerLane.ext_get fun n => by rw [k.reports n trivial, PerLane.get_mapLane]
  generalize forLanes clearPulls s = t at *
  have i : t.imp = s.imp := k.imp
  rw [f, m] at e
  rw [i] at e
  exact e

/-- HOLD in WATCH, RUN and SAFE (R38): HELD, and at once UNCONFIGURED where confirmed is clear (R32). -/
theorem holdEffects_eq {s : State} {c : Loaded} (hl : s.loader.loaded = some c) :
    holdEffects s = if s.loader.confirmed then heldState c s else editInHeld (heldState c s) := by
  obtain ⟨x, hx, ex⟩ : ∃ x, removeTarget .cancelled (completeStanding .stampOff .cancelled
      { setMode .held .holdOrder s with
        station := { (setMode .held .holdOrder s).station with windDown := false } }) = x ∧ x = { s with
      station := { s.station with mode := .held, cause := .holdOrder, windDown := false, countTarget := none }
      orders := { s.orders with slots := ⟨none, none, s.orders.slots.survey⟩ }
      rep := { s.rep with
        dirty := true
        latched := s.rep.latched ||| (if s.orders.slots.stampOff.isSome then Cause.order.mask else 0) |||
          (if s.orders.slots.countTarget.isSome then Cause.order.mask else 0)
        offers := s.rep.offers ++ [(.station, .mode s.station.mode .held .holdOrder s.web.pos)] ++
          (match s.orders.slots.stampOff with
            | some y => [(.orderUnit, .orderDone .stampOff y .cancelled)]
            | none => []) ++
          (match s.orders.slots.countTarget with
            | some y => [(.orderUnit, .orderDone .countTarget y .cancelled)]
            | none => []) } } := by
    refine ⟨_, rfl, ?_⟩
    unfold removeTarget
    rw [completeStanding_eq, completeStanding_eq]
    rfl
  have hm : x.station.mode ≠ .run := by rw [ex]; exact (by decide : Mode.held ≠ .run)
  obtain ⟨y, hy, ey⟩ : ∃ y, dropNips (releaseThrow x) = y ∧ y = { x with imp := heldImpression s } := by
    refine ⟨_, rfl, ?_⟩
    have e : heldImpression x = heldImpression s := by rw [ex]; rfl
    rw [releaseThrow_of_not_run hm, ← e]
    unfold heldImpression dropNips
    split <;> rfl
  have hn : y.station.mode ≠ .run := by rw [ey]; exact hm
  obtain ⟨d, ed, hd⟩ := clearAllPulls_eq hn
  rw [hd (by rw [ey, ex])] at ed
  obtain ⟨z, hz, ez⟩ : ∃ z, endRunningSurvey .cancelled { abandonTrack .hold (forLanes clearPulls y) with
      track := { (abandonTrack .hold (forLanes clearPulls y)).track with rejectEnd := PerLane.const none } } = z ∧
      setHighWater (readersIdle (lanesIdle z)) = heldState c s := by
    refine ⟨_, rfl, ?_⟩
    rw [ed, endRunningSurvey_cancelled (c := c) (by rw [ey, ex]; exact hl), ey, ex]
    have causes : ∀ a b d e : BitVec 12,
        s.rep.latched ||| a ||| b ||| d ||| e = s.rep.latched ||| (a ||| b ||| e) ||| d := by
      intro a b d e
      simp only [BitVec.or_assoc]
      rw [BitVec.or_comm d e]
    have either : ∀ a b d : Bool, (if a || b || d then Cause.order.mask else 0) =
        (if a then Cause.order.mask else 0) ||| (if b then Cause.order.mask else 0) |||
          if d then Cause.order.mask else 0 := by decide
    have zero : ∀ a : BitVec 12, a ||| 0 = a := fun _ => BitVec.or_zero
    unfold heldState holdReports
    by_cases hr : s.survey.running = true
    · rw [if_pos (by exact hr)]
      simp only [hr, if_true, Bool.true_and, either, ← causes, setHighWater, readersIdle, lanesIdle, State.laneActive, hl,
        abandonTrack, offer, List.append_assoc, List.cons_append, List.nil_append]
    · rw [if_neg (by exact hr)]
      simp only [hr, Bool.false_eq_true, if_false, Bool.false_and, either, zero, BitVec.or_assoc, setHighWater, readersIdle,
        lanesIdle, State.laneActive, hl, abandonTrack, offer, List.append_assoc, List.cons_append, List.nil_append]
  have hc : (heldState c s).loader = s.loader := rfl
  unfold holdEffects
  dsimp only
  rw [hx, hy, hz, ez, hc]

end Sys2Proof.Machine
end

