-- ==== Sys2Proof/Laws/Memory.lean ====
section
/-! SUPPORT. Job memory: every write keeps the canonical form, and what a read after a write returns. -/

namespace Sys2Proof.Machine

theorem memWfFrom_mono {lo lo' : Nat} (m : List Host.Cell) (h : lo' ≤ lo) (hm : memWfFrom lo m = true) :
    memWfFrom lo' m = true := by
  cases m with
  | nil => rfl
  | cons p t =>
    obtain ⟨k, v⟩ := p
    simp only [memWfFrom, Bool.and_eq_true, decide_eq_true_eq] at hm ⊢
    exact ⟨⟨⟨by omega, hm.1.1.2⟩, hm.1.2⟩, hm.2⟩

/-- Below its first address a canonical memory reads as unlisted. -/
theorem memRead_below {lo : Nat} (m : List Host.Cell) (x : Nat) (hm : memWfFrom lo m = true) (hx : x < lo) :
    memRead m x = unlistedByte := by
  induction m generalizing lo with
  | nil => rfl
  | cons p t ih =>
    obtain ⟨k, v⟩ := p
    simp only [memWfFrom, Bool.and_eq_true, decide_eq_true_eq] at hm
    have hk : k ≠ x := by omega
    simp only [memRead, if_neg hk]
    exact ih hm.2 (by omega)

theorem memWrite_wfFrom {lo : Nat} (m : List Host.Cell) (a : Nat) (b : Byte) (hm : memWfFrom lo m = true)
    (hlo : lo ≤ a) (ha : a < Config.memoryBytes) : memWfFrom lo (memWrite m a b) = true := by
  induction m generalizing lo with
  | nil =>
    simp only [memWrite]
    split
    · rfl
    · simp only [memWfFrom, Bool.and_eq_true, decide_eq_true_eq, and_true]
      exact ⟨⟨hlo, ha⟩, by assumption⟩
  | cons p t ih =>
    obtain ⟨k, v⟩ := p
    have hm' := hm
    simp only [memWfFrom, Bool.and_eq_true, decide_eq_true_eq] at hm'
    simp only [memWrite]
    split
    · split
      · exact hm
      · simp only [memWfFrom, Bool.and_eq_true, decide_eq_true_eq]
        refine ⟨⟨⟨hlo, ha⟩, by assumption⟩, ⟨⟨⟨by omega, hm'.1.1.2⟩, hm'.1.2⟩, hm'.2⟩⟩
    · split
      · split
        · exact memWfFrom_mono t (by omega) hm'.2
        · simp only [memWfFrom, Bool.and_eq_true, decide_eq_true_eq]
          subst_vars
          exact ⟨⟨⟨hlo, ha⟩, by assumption⟩, hm'.2⟩
      · simp only [memWfFrom, Bool.and_eq_true, decide_eq_true_eq]
        exact ⟨hm'.1, ih hm'.2 (by omega)⟩

/-- A byte written keeps the canonical form. -/
theorem memWrite_wf (m : List Host.Cell) (a : Nat) (b : Byte) (hm : Memory.wf m = true)
    (ha : a < Config.memoryBytes) : Memory.wf (memWrite m a b) = true :=
  memWrite_wfFrom m a b hm (Nat.zero_le a) ha

theorem memRead_memWrite_from {lo : Nat} (m : List Host.Cell) (a x : Nat) (b : Byte)
    (hm : memWfFrom lo m = true) : memRead (memWrite m a b) x = if x = a then b else memRead m x := by
  induction m generalizing lo with
  | nil =>
    simp only [memWrite]
    by_cases hx : x = a
    · subst hx
      split
      · rename_i hb; rw [if_pos rfl, hb]; rfl
      · simp only [memRead, if_true]
    · have hx' : ¬a = x := fun h => hx h.symm
      rw [if_neg hx]
      split
      · rfl
      · simp only [memRead, if_neg hx']
  | cons p t ih =>
    obtain ⟨k, v⟩ := p
    have hm' := hm
    simp only [memWfFrom, Bool.and_eq_true, decide_eq_true_eq] at hm'
    simp only [memWrite]
    split
    · rename_i hak
      split
      · rename_i hb
        split
        · rename_i hx
          subst hx
          have hk : k ≠ x := by omega
          simp only [memRead, if_neg hk]
          rw [memRead_below t x hm'.2 (by omega), hb]
        · rfl
      · by_cases hx : x = a
        · subst hx
          simp only [memRead, if_true]
        · have hx' : ¬a = x := fun h => hx h.symm
          rw [if_neg hx, memRead, if_neg hx']
    · split
      · rename_i _ hak
        subst hak
        split
        · rename_i hb
          split
          · rename_i hx
            subst hx
            rw [memRead_below t x hm'.2 (by omega), hb]
          · rename_i hx
            simp only [memRead, if_neg (Ne.symm hx)]
        · by_cases hx : x = a
          · subst hx
            simp only [memRead, if_true]
          · have hx' : ¬a = x := fun h => hx h.symm
            rw [if_neg hx, memRead, if_neg hx', memRead, if_neg hx']
      · rename_i h1 h2
        simp only [memRead]
        split
        · rename_i hx
          subst hx
          rw [if_neg (Ne.symm h2)]
        · exact ih hm'.2

/-- What a read returns after a byte is written to a canonical memory. -/
theorem memRead_memWrite (m : List Host.Cell) (a x : Nat) (b : Byte) (hm : Memory.wf m = true) :
    memRead (memWrite m a b) x = if x = a then b else memRead m x :=
  memRead_memWrite_from m a x b hm

theorem addr_lt (a : Addr) : a.toNat < Config.memoryBytes := a.isLt

/-- The enabled bytes of a word written keep the canonical form. -/
theorem memWriteWord_wf (m : List Host.Cell) (a : Addr) (r : WordReq) (hm : Memory.wf m = true) :
    Memory.wf (memWriteWord m a r) = true := by
  have h : ∀ (c : Bool) (m' : List Host.Cell) (x : Addr) (b : Byte), Memory.wf m' = true →
      Memory.wf (if c then memWrite m' x.toNat b else m') = true := by
    intro c m' x b h'
    cases c
    · exact h'
    · exact memWrite_wf m' _ b h' (addr_lt x)
  exact h _ _ _ _ (h _ _ _ _ (h _ _ _ _ (h _ _ _ _ hm)))

/-- Addressed words written keep the canonical form. -/
theorem memWriteWords_wf (ws : List (Addr × WordReq)) (m : List Host.Cell) (hm : Memory.wf m = true) :
    Memory.wf (memWriteWords m ws) = true := by
  induction ws generalizing m with
  | nil => exact hm
  | cons p t ih => exact ih _ (memWriteWord_wf m p.1 p.2 hm)

end Sys2Proof.Machine
end

