-- ==== Sys2Proof/Laws/State.lean ====
section
/-! SUPPORT. What each named update of the state leaves in each field: one lemma per field per update, true by rfl. -/

namespace Sys2Proof.Machine

@[simp] theorem place_pending (p : Purpose) (w : Bool) (b : List Burst) (s : State) : (place p w b s).pending = s.pending := rfl
@[simp] theorem place_mem (p : Purpose) (w : Bool) (b : List Burst) (s : State) : (place p w b s).mem = s.mem := rfl
@[simp] theorem place_pins (p : Purpose) (w : Bool) (b : List Burst) (s : State) : (place p w b s).pins = s.pins := rfl
@[simp] theorem place_bus (p : Purpose) (w : Bool) (b : List Burst) (s : State) : (place p w b s).bus = { s.bus with queue := s.bus.queue ++ [⟨s.uid, p, w, b⟩] } := rfl
@[simp] theorem place_loader (p : Purpose) (w : Bool) (b : List Burst) (s : State) : (place p w b s).loader = s.loader := rfl
@[simp] theorem place_station (p : Purpose) (w : Bool) (b : List Burst) (s : State) : (place p w b s).station = s.station := rfl
@[simp] theorem place_orders (p : Purpose) (w : Bool) (b : List Burst) (s : State) : (place p w b s).orders = s.orders := rfl
@[simp] theorem place_web (p : Purpose) (w : Bool) (b : List Burst) (s : State) : (place p w b s).web = s.web := rfl
@[simp] theorem place_readers (p : Purpose) (w : Bool) (b : List Burst) (s : State) : (place p w b s).readers = s.readers := rfl
@[simp] theorem place_lanes (p : Purpose) (w : Bool) (b : List Burst) (s : State) : (place p w b s).lanes = s.lanes := rfl
@[simp] theorem place_track (p : Purpose) (w : Bool) (b : List Burst) (s : State) : (place p w b s).track = s.track := rfl
@[simp] theorem place_imp (p : Purpose) (w : Bool) (b : List Burst) (s : State) : (place p w b s).imp = s.imp := rfl
@[simp] theorem place_foil (p : Purpose) (w : Bool) (b : List Burst) (s : State) : (place p w b s).foil = s.foil := rfl
@[simp] theorem place_survey (p : Purpose) (w : Bool) (b : List Burst) (s : State) : (place p w b s).survey = s.survey := rfl
@[simp] theorem place_rep (p : Purpose) (w : Bool) (b : List Burst) (s : State) : (place p w b s).rep = s.rep := rfl
@[simp] theorem place_cnt (p : Purpose) (w : Bool) (b : List Burst) (s : State) : (place p w b s).cnt = s.cnt := rfl
@[simp] theorem place_msgs (p : Purpose) (w : Bool) (b : List Burst) (s : State) : (place p w b s).msgs = s.msgs := rfl
@[simp] theorem place_uid (p : Purpose) (w : Bool) (b : List Burst) (s : State) : (place p w b s).uid = s.uid + 1 := rfl
@[simp] theorem place_choice (p : Purpose) (w : Bool) (b : List Burst) (s : State) : (place p w b s).choice = s.choice := rfl

@[simp] theorem latch_pending (c : Cause) (s : State) : (latch c s).pending = s.pending := rfl
@[simp] theorem latch_mem (c : Cause) (s : State) : (latch c s).mem = s.mem := rfl
@[simp] theorem latch_pins (c : Cause) (s : State) : (latch c s).pins = s.pins := rfl
@[simp] theorem latch_bus (c : Cause) (s : State) : (latch c s).bus = s.bus := rfl
@[simp] theorem latch_loader (c : Cause) (s : State) : (latch c s).loader = s.loader := rfl
@[simp] theorem latch_station (c : Cause) (s : State) : (latch c s).station = s.station := rfl
@[simp] theorem latch_orders (c : Cause) (s : State) : (latch c s).orders = s.orders := rfl
@[simp] theorem latch_web (c : Cause) (s : State) : (latch c s).web = s.web := rfl
@[simp] theorem latch_readers (c : Cause) (s : State) : (latch c s).readers = s.readers := rfl
@[simp] theorem latch_lanes (c : Cause) (s : State) : (latch c s).lanes = s.lanes := rfl
@[simp] theorem latch_track (c : Cause) (s : State) : (latch c s).track = s.track := rfl
@[simp] theorem latch_imp (c : Cause) (s : State) : (latch c s).imp = s.imp := rfl
@[simp] theorem latch_foil (c : Cause) (s : State) : (latch c s).foil = s.foil := rfl
@[simp] theorem latch_survey (c : Cause) (s : State) : (latch c s).survey = s.survey := rfl
@[simp] theorem latch_rep (c : Cause) (s : State) : (latch c s).rep = { s.rep with latched := s.rep.latched ||| c.mask } := rfl
@[simp] theorem latch_cnt (c : Cause) (s : State) : (latch c s).cnt = s.cnt := rfl
@[simp] theorem latch_msgs (c : Cause) (s : State) : (latch c s).msgs = s.msgs := rfl
@[simp] theorem latch_uid (c : Cause) (s : State) : (latch c s).uid = s.uid := rfl
@[simp] theorem latch_choice (c : Cause) (s : State) : (latch c s).choice = s.choice := rfl

@[simp] theorem offer_pending (src : Source) (r : Report) (s : State) : (offer src r s).pending = s.pending := rfl
@[simp] theorem offer_mem (src : Source) (r : Report) (s : State) : (offer src r s).mem = s.mem := rfl
@[simp] theorem offer_pins (src : Source) (r : Report) (s : State) : (offer src r s).pins = s.pins := rfl
@[simp] theorem offer_bus (src : Source) (r : Report) (s : State) : (offer src r s).bus = s.bus := rfl
@[simp] theorem offer_loader (src : Source) (r : Report) (s : State) : (offer src r s).loader = s.loader := rfl
@[simp] theorem offer_station (src : Source) (r : Report) (s : State) : (offer src r s).station = s.station := rfl
@[simp] theorem offer_orders (src : Source) (r : Report) (s : State) : (offer src r s).orders = s.orders := rfl
@[simp] theorem offer_web (src : Source) (r : Report) (s : State) : (offer src r s).web = s.web := rfl
@[simp] theorem offer_readers (src : Source) (r : Report) (s : State) : (offer src r s).readers = s.readers := rfl
@[simp] theorem offer_lanes (src : Source) (r : Report) (s : State) : (offer src r s).lanes = s.lanes := rfl
@[simp] theorem offer_track (src : Source) (r : Report) (s : State) : (offer src r s).track = s.track := rfl
@[simp] theorem offer_imp (src : Source) (r : Report) (s : State) : (offer src r s).imp = s.imp := rfl
@[simp] theorem offer_foil (src : Source) (r : Report) (s : State) : (offer src r s).foil = s.foil := rfl
@[simp] theorem offer_survey (src : Source) (r : Report) (s : State) : (offer src r s).survey = s.survey := rfl
@[simp] theorem offer_rep (src : Source) (r : Report) (s : State) : (offer src r s).rep = { s.rep with offers := s.rep.offers ++ [(src, r)] } := rfl
@[simp] theorem offer_cnt (src : Source) (r : Report) (s : State) : (offer src r s).cnt = s.cnt := rfl
@[simp] theorem offer_msgs (src : Source) (r : Report) (s : State) : (offer src r s).msgs = s.msgs := rfl
@[simp] theorem offer_uid (src : Source) (r : Report) (s : State) : (offer src r s).uid = s.uid := rfl
@[simp] theorem offer_choice (src : Source) (r : Report) (s : State) : (offer src r s).choice = s.choice := rfl

@[simp] theorem raiseFault_pending (k : FaultKind) (l : Option Lane) (s : State) : (raiseFault k l s).pending = s.pending := rfl
@[simp] theorem raiseFault_mem (k : FaultKind) (l : Option Lane) (s : State) : (raiseFault k l s).mem = s.mem := rfl
@[simp] theorem raiseFault_pins (k : FaultKind) (l : Option Lane) (s : State) : (raiseFault k l s).pins = s.pins := rfl
@[simp] theorem raiseFault_bus (k : FaultKind) (l : Option Lane) (s : State) : (raiseFault k l s).bus = s.bus := rfl
@[simp] theorem raiseFault_loader (k : FaultKind) (l : Option Lane) (s : State) : (raiseFault k l s).loader = s.loader := rfl
@[simp] theorem raiseFault_station (k : FaultKind) (l : Option Lane) (s : State) : (raiseFault k l s).station = s.station := rfl
@[simp] theorem raiseFault_orders (k : FaultKind) (l : Option Lane) (s : State) : (raiseFault k l s).orders = s.orders := rfl
@[simp] theorem raiseFault_web (k : FaultKind) (l : Option Lane) (s : State) : (raiseFault k l s).web = s.web := rfl
@[simp] theorem raiseFault_readers (k : FaultKind) (l : Option Lane) (s : State) : (raiseFault k l s).readers = s.readers := rfl
@[simp] theorem raiseFault_lanes (k : FaultKind) (l : Option Lane) (s : State) : (raiseFault k l s).lanes = s.lanes := rfl
@[simp] theorem raiseFault_track (k : FaultKind) (l : Option Lane) (s : State) : (raiseFault k l s).track = s.track := rfl
@[simp] theorem raiseFault_imp (k : FaultKind) (l : Option Lane) (s : State) : (raiseFault k l s).imp = s.imp := rfl
@[simp] theorem raiseFault_foil (k : FaultKind) (l : Option Lane) (s : State) : (raiseFault k l s).foil = s.foil := rfl
@[simp] theorem raiseFault_survey (k : FaultKind) (l : Option Lane) (s : State) : (raiseFault k l s).survey = s.survey := rfl
@[simp] theorem raiseFault_rep (k : FaultKind) (l : Option Lane) (s : State) : (raiseFault k l s).rep = s.rep := rfl
@[simp] theorem raiseFault_cnt (k : FaultKind) (l : Option Lane) (s : State) : (raiseFault k l s).cnt = s.cnt := rfl
@[simp] theorem raiseFault_msgs (k : FaultKind) (l : Option Lane) (s : State) : (raiseFault k l s).msgs = { s.msgs with faults := s.msgs.faults ++ [⟨k, l⟩] } := rfl
@[simp] theorem raiseFault_uid (k : FaultKind) (l : Option Lane) (s : State) : (raiseFault k l s).uid = s.uid := rfl
@[simp] theorem raiseFault_choice (k : FaultKind) (l : Option Lane) (s : State) : (raiseFault k l s).choice = s.choice := rfl

@[simp] theorem markStatus_pending (s : State) : (markStatus s).pending = s.pending := rfl
@[simp] theorem markStatus_mem (s : State) : (markStatus s).mem = s.mem := rfl
@[simp] theorem markStatus_pins (s : State) : (markStatus s).pins = s.pins := rfl
@[simp] theorem markStatus_bus (s : State) : (markStatus s).bus = s.bus := rfl
@[simp] theorem markStatus_loader (s : State) : (markStatus s).loader = s.loader := rfl
@[simp] theorem markStatus_station (s : State) : (markStatus s).station = s.station := rfl
@[simp] theorem markStatus_orders (s : State) : (markStatus s).orders = s.orders := rfl
@[simp] theorem markStatus_web (s : State) : (markStatus s).web = s.web := rfl
@[simp] theorem markStatus_readers (s : State) : (markStatus s).readers = s.readers := rfl
@[simp] theorem markStatus_lanes (s : State) : (markStatus s).lanes = s.lanes := rfl
@[simp] theorem markStatus_track (s : State) : (markStatus s).track = s.track := rfl
@[simp] theorem markStatus_imp (s : State) : (markStatus s).imp = s.imp := rfl
@[simp] theorem markStatus_foil (s : State) : (markStatus s).foil = s.foil := rfl
@[simp] theorem markStatus_survey (s : State) : (markStatus s).survey = s.survey := rfl
@[simp] theorem markStatus_rep (s : State) : (markStatus s).rep = { s.rep with dirty := true } := rfl
@[simp] theorem markStatus_cnt (s : State) : (markStatus s).cnt = s.cnt := rfl
@[simp] theorem markStatus_msgs (s : State) : (markStatus s).msgs = s.msgs := rfl
@[simp] theorem markStatus_uid (s : State) : (markStatus s).uid = s.uid := rfl
@[simp] theorem markStatus_choice (s : State) : (markStatus s).choice = s.choice := rfl

@[simp] theorem setLane_pending (n : Lane) (x : Tracker) (s : State) : (setLane n x s).pending = s.pending := rfl
@[simp] theorem setLane_mem (n : Lane) (x : Tracker) (s : State) : (setLane n x s).mem = s.mem := rfl
@[simp] theorem setLane_pins (n : Lane) (x : Tracker) (s : State) : (setLane n x s).pins = s.pins := rfl
@[simp] theorem setLane_bus (n : Lane) (x : Tracker) (s : State) : (setLane n x s).bus = s.bus := rfl
@[simp] theorem setLane_loader (n : Lane) (x : Tracker) (s : State) : (setLane n x s).loader = s.loader := rfl
@[simp] theorem setLane_station (n : Lane) (x : Tracker) (s : State) : (setLane n x s).station = s.station := rfl
@[simp] theorem setLane_orders (n : Lane) (x : Tracker) (s : State) : (setLane n x s).orders = s.orders := rfl
@[simp] theorem setLane_web (n : Lane) (x : Tracker) (s : State) : (setLane n x s).web = s.web := rfl
@[simp] theorem setLane_readers (n : Lane) (x : Tracker) (s : State) : (setLane n x s).readers = s.readers := rfl
@[simp] theorem setLane_lanes (n : Lane) (x : Tracker) (s : State) : (setLane n x s).lanes = s.lanes.set n x := rfl
@[simp] theorem setLane_track (n : Lane) (x : Tracker) (s : State) : (setLane n x s).track = s.track := rfl
@[simp] theorem setLane_imp (n : Lane) (x : Tracker) (s : State) : (setLane n x s).imp = s.imp := rfl
@[simp] theorem setLane_foil (n : Lane) (x : Tracker) (s : State) : (setLane n x s).foil = s.foil := rfl
@[simp] theorem setLane_survey (n : Lane) (x : Tracker) (s : State) : (setLane n x s).survey = s.survey := rfl
@[simp] theorem setLane_rep (n : Lane) (x : Tracker) (s : State) : (setLane n x s).rep = s.rep := rfl
@[simp] theorem setLane_cnt (n : Lane) (x : Tracker) (s : State) : (setLane n x s).cnt = s.cnt := rfl
@[simp] theorem setLane_msgs (n : Lane) (x : Tracker) (s : State) : (setLane n x s).msgs = s.msgs := rfl
@[simp] theorem setLane_uid (n : Lane) (x : Tracker) (s : State) : (setLane n x s).uid = s.uid := rfl
@[simp] theorem setLane_choice (n : Lane) (x : Tracker) (s : State) : (setLane n x s).choice = s.choice := rfl

@[simp] theorem setReader_pending (n : Lane) (x : Reader) (s : State) : (setReader n x s).pending = s.pending := rfl
@[simp] theorem setReader_mem (n : Lane) (x : Reader) (s : State) : (setReader n x s).mem = s.mem := rfl
@[simp] theorem setReader_pins (n : Lane) (x : Reader) (s : State) : (setReader n x s).pins = s.pins := rfl
@[simp] theorem setReader_bus (n : Lane) (x : Reader) (s : State) : (setReader n x s).bus = s.bus := rfl
@[simp] theorem setReader_loader (n : Lane) (x : Reader) (s : State) : (setReader n x s).loader = s.loader := rfl
@[simp] theorem setReader_station (n : Lane) (x : Reader) (s : State) : (setReader n x s).station = s.station := rfl
@[simp] theorem setReader_orders (n : Lane) (x : Reader) (s : State) : (setReader n x s).orders = s.orders := rfl
@[simp] theorem setReader_web (n : Lane) (x : Reader) (s : State) : (setReader n x s).web = s.web := rfl
@[simp] theorem setReader_readers (n : Lane) (x : Reader) (s : State) : (setReader n x s).readers = s.readers.set n x := rfl
@[simp] theorem setReader_lanes (n : Lane) (x : Reader) (s : State) : (setReader n x s).lanes = s.lanes := rfl
@[simp] theorem setReader_track (n : Lane) (x : Reader) (s : State) : (setReader n x s).track = s.track := rfl
@[simp] theorem setReader_imp (n : Lane) (x : Reader) (s : State) : (setReader n x s).imp = s.imp := rfl
@[simp] theorem setReader_foil (n : Lane) (x : Reader) (s : State) : (setReader n x s).foil = s.foil := rfl
@[simp] theorem setReader_survey (n : Lane) (x : Reader) (s : State) : (setReader n x s).survey = s.survey := rfl
@[simp] theorem setReader_rep (n : Lane) (x : Reader) (s : State) : (setReader n x s).rep = s.rep := rfl
@[simp] theorem setReader_cnt (n : Lane) (x : Reader) (s : State) : (setReader n x s).cnt = s.cnt := rfl
@[simp] theorem setReader_msgs (n : Lane) (x : Reader) (s : State) : (setReader n x s).msgs = s.msgs := rfl
@[simp] theorem setReader_uid (n : Lane) (x : Reader) (s : State) : (setReader n x s).uid = s.uid := rfl
@[simp] theorem setReader_choice (n : Lane) (x : Reader) (s : State) : (setReader n x s).choice = s.choice := rfl

@[simp] theorem setFoil_pending (n : Lane) (x : Foil) (s : State) : (setFoil n x s).pending = s.pending := rfl
@[simp] theorem setFoil_mem (n : Lane) (x : Foil) (s : State) : (setFoil n x s).mem = s.mem := rfl
@[simp] theorem setFoil_pins (n : Lane) (x : Foil) (s : State) : (setFoil n x s).pins = s.pins := rfl
@[simp] theorem setFoil_bus (n : Lane) (x : Foil) (s : State) : (setFoil n x s).bus = s.bus := rfl
@[simp] theorem setFoil_loader (n : Lane) (x : Foil) (s : State) : (setFoil n x s).loader = s.loader := rfl
@[simp] theorem setFoil_station (n : Lane) (x : Foil) (s : State) : (setFoil n x s).station = s.station := rfl
@[simp] theorem setFoil_orders (n : Lane) (x : Foil) (s : State) : (setFoil n x s).orders = s.orders := rfl
@[simp] theorem setFoil_web (n : Lane) (x : Foil) (s : State) : (setFoil n x s).web = s.web := rfl
@[simp] theorem setFoil_readers (n : Lane) (x : Foil) (s : State) : (setFoil n x s).readers = s.readers := rfl
@[simp] theorem setFoil_lanes (n : Lane) (x : Foil) (s : State) : (setFoil n x s).lanes = s.lanes := rfl
@[simp] theorem setFoil_track (n : Lane) (x : Foil) (s : State) : (setFoil n x s).track = s.track := rfl
@[simp] theorem setFoil_imp (n : Lane) (x : Foil) (s : State) : (setFoil n x s).imp = s.imp := rfl
@[simp] theorem setFoil_foil (n : Lane) (x : Foil) (s : State) : (setFoil n x s).foil = s.foil.set n x := rfl
@[simp] theorem setFoil_survey (n : Lane) (x : Foil) (s : State) : (setFoil n x s).survey = s.survey := rfl
@[simp] theorem setFoil_rep (n : Lane) (x : Foil) (s : State) : (setFoil n x s).rep = s.rep := rfl
@[simp] theorem setFoil_cnt (n : Lane) (x : Foil) (s : State) : (setFoil n x s).cnt = s.cnt := rfl
@[simp] theorem setFoil_msgs (n : Lane) (x : Foil) (s : State) : (setFoil n x s).msgs = s.msgs := rfl
@[simp] theorem setFoil_uid (n : Lane) (x : Foil) (s : State) : (setFoil n x s).uid = s.uid := rfl
@[simp] theorem setFoil_choice (n : Lane) (x : Foil) (s : State) : (setFoil n x s).choice = s.choice := rfl

@[simp] theorem handRead_pending (n : Lane) (x : ReadMsg) (s : State) : (handRead n x s).pending = s.pending := rfl
@[simp] theorem handRead_mem (n : Lane) (x : ReadMsg) (s : State) : (handRead n x s).mem = s.mem := rfl
@[simp] theorem handRead_pins (n : Lane) (x : ReadMsg) (s : State) : (handRead n x s).pins = s.pins := rfl
@[simp] theorem handRead_bus (n : Lane) (x : ReadMsg) (s : State) : (handRead n x s).bus = s.bus := rfl
@[simp] theorem handRead_loader (n : Lane) (x : ReadMsg) (s : State) : (handRead n x s).loader = s.loader := rfl
@[simp] theorem handRead_station (n : Lane) (x : ReadMsg) (s : State) : (handRead n x s).station = s.station := rfl
@[simp] theorem handRead_orders (n : Lane) (x : ReadMsg) (s : State) : (handRead n x s).orders = s.orders := rfl
@[simp] theorem handRead_web (n : Lane) (x : ReadMsg) (s : State) : (handRead n x s).web = s.web := rfl
@[simp] theorem handRead_readers (n : Lane) (x : ReadMsg) (s : State) : (handRead n x s).readers = s.readers := rfl
@[simp] theorem handRead_lanes (n : Lane) (x : ReadMsg) (s : State) : (handRead n x s).lanes = s.lanes := rfl
@[simp] theorem handRead_track (n : Lane) (x : ReadMsg) (s : State) : (handRead n x s).track = s.track := rfl
@[simp] theorem handRead_imp (n : Lane) (x : ReadMsg) (s : State) : (handRead n x s).imp = s.imp := rfl
@[simp] theorem handRead_foil (n : Lane) (x : ReadMsg) (s : State) : (handRead n x s).foil = s.foil := rfl
@[simp] theorem handRead_survey (n : Lane) (x : ReadMsg) (s : State) : (handRead n x s).survey = s.survey := rfl
@[simp] theorem handRead_rep (n : Lane) (x : ReadMsg) (s : State) : (handRead n x s).rep = s.rep := rfl
@[simp] theorem handRead_cnt (n : Lane) (x : ReadMsg) (s : State) : (handRead n x s).cnt = s.cnt := rfl
@[simp] theorem handRead_msgs (n : Lane) (x : ReadMsg) (s : State) : (handRead n x s).msgs = { s.msgs with reads := s.msgs.reads.set n (s.msgs.reads.get n ++ [x]) } := rfl
@[simp] theorem handRead_uid (n : Lane) (x : ReadMsg) (s : State) : (handRead n x s).uid = s.uid := rfl
@[simp] theorem handRead_choice (n : Lane) (x : ReadMsg) (s : State) : (handRead n x s).choice = s.choice := rfl

@[simp] theorem giveStray_pending (n : Lane) (s : State) : (giveStray n s).pending = s.pending := rfl
@[simp] theorem giveStray_mem (n : Lane) (s : State) : (giveStray n s).mem = s.mem := rfl
@[simp] theorem giveStray_pins (n : Lane) (s : State) : (giveStray n s).pins = s.pins := rfl
@[simp] theorem giveStray_bus (n : Lane) (s : State) : (giveStray n s).bus = s.bus := rfl
@[simp] theorem giveStray_loader (n : Lane) (s : State) : (giveStray n s).loader = s.loader := rfl
@[simp] theorem giveStray_station (n : Lane) (s : State) : (giveStray n s).station = s.station := rfl
@[simp] theorem giveStray_orders (n : Lane) (s : State) : (giveStray n s).orders = s.orders := rfl
@[simp] theorem giveStray_web (n : Lane) (s : State) : (giveStray n s).web = s.web := rfl
@[simp] theorem giveStray_readers (n : Lane) (s : State) : (giveStray n s).readers = s.readers := rfl
@[simp] theorem giveStray_lanes (n : Lane) (s : State) : (giveStray n s).lanes = s.lanes := rfl
@[simp] theorem giveStray_track (n : Lane) (s : State) : (giveStray n s).track = s.track := rfl
@[simp] theorem giveStray_imp (n : Lane) (s : State) : (giveStray n s).imp = s.imp := rfl
@[simp] theorem giveStray_foil (n : Lane) (s : State) : (giveStray n s).foil = s.foil := rfl
@[simp] theorem giveStray_survey (n : Lane) (s : State) : (giveStray n s).survey = s.survey := rfl
@[simp] theorem giveStray_rep (n : Lane) (s : State) : (giveStray n s).rep = s.rep := rfl
@[simp] theorem giveStray_cnt (n : Lane) (s : State) : (giveStray n s).cnt = s.cnt := rfl
@[simp] theorem giveStray_msgs (n : Lane) (s : State) : (giveStray n s).msgs = { s.msgs with strays := s.msgs.strays.set n (s.msgs.strays.get n + 1) } := rfl
@[simp] theorem giveStray_uid (n : Lane) (s : State) : (giveStray n s).uid = s.uid := rfl
@[simp] theorem giveStray_choice (n : Lane) (s : State) : (giveStray n s).choice = s.choice := rfl

@[simp] theorem giveSkew_pending (n : Lane) (s : State) : (giveSkew n s).pending = s.pending := rfl
@[simp] theorem giveSkew_mem (n : Lane) (s : State) : (giveSkew n s).mem = s.mem := rfl
@[simp] theorem giveSkew_pins (n : Lane) (s : State) : (giveSkew n s).pins = s.pins := rfl
@[simp] theorem giveSkew_bus (n : Lane) (s : State) : (giveSkew n s).bus = s.bus := rfl
@[simp] theorem giveSkew_loader (n : Lane) (s : State) : (giveSkew n s).loader = s.loader := rfl
@[simp] theorem giveSkew_station (n : Lane) (s : State) : (giveSkew n s).station = s.station := rfl
@[simp] theorem giveSkew_orders (n : Lane) (s : State) : (giveSkew n s).orders = s.orders := rfl
@[simp] theorem giveSkew_web (n : Lane) (s : State) : (giveSkew n s).web = s.web := rfl
@[simp] theorem giveSkew_readers (n : Lane) (s : State) : (giveSkew n s).readers = s.readers := rfl
@[simp] theorem giveSkew_lanes (n : Lane) (s : State) : (giveSkew n s).lanes = s.lanes := rfl
@[simp] theorem giveSkew_track (n : Lane) (s : State) : (giveSkew n s).track = s.track := rfl
@[simp] theorem giveSkew_imp (n : Lane) (s : State) : (giveSkew n s).imp = s.imp := rfl
@[simp] theorem giveSkew_foil (n : Lane) (s : State) : (giveSkew n s).foil = s.foil := rfl
@[simp] theorem giveSkew_survey (n : Lane) (s : State) : (giveSkew n s).survey = s.survey := rfl
@[simp] theorem giveSkew_rep (n : Lane) (s : State) : (giveSkew n s).rep = s.rep := rfl
@[simp] theorem giveSkew_cnt (n : Lane) (s : State) : (giveSkew n s).cnt = s.cnt := rfl
@[simp] theorem giveSkew_msgs (n : Lane) (s : State) : (giveSkew n s).msgs = { s.msgs with skews := s.msgs.skews.set n (s.msgs.skews.get n + 1) } := rfl
@[simp] theorem giveSkew_uid (n : Lane) (s : State) : (giveSkew n s).uid = s.uid := rfl
@[simp] theorem giveSkew_choice (n : Lane) (s : State) : (giveSkew n s).choice = s.choice := rfl

@[simp] theorem handCell_pending (n : Lane) (x : Cell) (s : State) : (handCell n x s).pending = s.pending := rfl
@[simp] theorem handCell_mem (n : Lane) (x : Cell) (s : State) : (handCell n x s).mem = s.mem := rfl
@[simp] theorem handCell_pins (n : Lane) (x : Cell) (s : State) : (handCell n x s).pins = s.pins := rfl
@[simp] theorem handCell_bus (n : Lane) (x : Cell) (s : State) : (handCell n x s).bus = s.bus := rfl
@[simp] theorem handCell_loader (n : Lane) (x : Cell) (s : State) : (handCell n x s).loader = s.loader := rfl
@[simp] theorem handCell_station (n : Lane) (x : Cell) (s : State) : (handCell n x s).station = s.station := rfl
@[simp] theorem handCell_orders (n : Lane) (x : Cell) (s : State) : (handCell n x s).orders = s.orders := rfl
@[simp] theorem handCell_web (n : Lane) (x : Cell) (s : State) : (handCell n x s).web = s.web := rfl
@[simp] theorem handCell_readers (n : Lane) (x : Cell) (s : State) : (handCell n x s).readers = s.readers := rfl
@[simp] theorem handCell_lanes (n : Lane) (x : Cell) (s : State) : (handCell n x s).lanes = s.lanes := rfl
@[simp] theorem handCell_track (n : Lane) (x : Cell) (s : State) : (handCell n x s).track = s.track := rfl
@[simp] theorem handCell_imp (n : Lane) (x : Cell) (s : State) : (handCell n x s).imp = s.imp := rfl
@[simp] theorem handCell_foil (n : Lane) (x : Cell) (s : State) : (handCell n x s).foil = s.foil := rfl
@[simp] theorem handCell_survey (n : Lane) (x : Cell) (s : State) : (handCell n x s).survey = s.survey := rfl
@[simp] theorem handCell_rep (n : Lane) (x : Cell) (s : State) : (handCell n x s).rep = s.rep := rfl
@[simp] theorem handCell_cnt (n : Lane) (x : Cell) (s : State) : (handCell n x s).cnt = s.cnt := rfl
@[simp] theorem handCell_msgs (n : Lane) (x : Cell) (s : State) : (handCell n x s).msgs = { s.msgs with cells := s.msgs.cells.set n (s.msgs.cells.get n ++ [x]) } := rfl
@[simp] theorem handCell_uid (n : Lane) (x : Cell) (s : State) : (handCell n x s).uid = s.uid := rfl
@[simp] theorem handCell_choice (n : Lane) (x : Cell) (s : State) : (handCell n x s).choice = s.choice := rfl

@[simp] theorem handSplice_pending (n : Lane) (x : SpliceMsg) (s : State) : (handSplice n x s).pending = s.pending := rfl
@[simp] theorem handSplice_mem (n : Lane) (x : SpliceMsg) (s : State) : (handSplice n x s).mem = s.mem := rfl
@[simp] theorem handSplice_pins (n : Lane) (x : SpliceMsg) (s : State) : (handSplice n x s).pins = s.pins := rfl
@[simp] theorem handSplice_bus (n : Lane) (x : SpliceMsg) (s : State) : (handSplice n x s).bus = s.bus := rfl
@[simp] theorem handSplice_loader (n : Lane) (x : SpliceMsg) (s : State) : (handSplice n x s).loader = s.loader := rfl
@[simp] theorem handSplice_station (n : Lane) (x : SpliceMsg) (s : State) : (handSplice n x s).station = s.station := rfl
@[simp] theorem handSplice_orders (n : Lane) (x : SpliceMsg) (s : State) : (handSplice n x s).orders = s.orders := rfl
@[simp] theorem handSplice_web (n : Lane) (x : SpliceMsg) (s : State) : (handSplice n x s).web = s.web := rfl
@[simp] theorem handSplice_readers (n : Lane) (x : SpliceMsg) (s : State) : (handSplice n x s).readers = s.readers := rfl
@[simp] theorem handSplice_lanes (n : Lane) (x : SpliceMsg) (s : State) : (handSplice n x s).lanes = s.lanes := rfl
@[simp] theorem handSplice_track (n : Lane) (x : SpliceMsg) (s : State) : (handSplice n x s).track = s.track := rfl
@[simp] theorem handSplice_imp (n : Lane) (x : SpliceMsg) (s : State) : (handSplice n x s).imp = s.imp := rfl
@[simp] theorem handSplice_foil (n : Lane) (x : SpliceMsg) (s : State) : (handSplice n x s).foil = s.foil := rfl
@[simp] theorem handSplice_survey (n : Lane) (x : SpliceMsg) (s : State) : (handSplice n x s).survey = s.survey := rfl
@[simp] theorem handSplice_rep (n : Lane) (x : SpliceMsg) (s : State) : (handSplice n x s).rep = s.rep := rfl
@[simp] theorem handSplice_cnt (n : Lane) (x : SpliceMsg) (s : State) : (handSplice n x s).cnt = s.cnt := rfl
@[simp] theorem handSplice_msgs (n : Lane) (x : SpliceMsg) (s : State) : (handSplice n x s).msgs = { s.msgs with splices := s.msgs.splices.set n (s.msgs.splices.get n ++ [x]) } := rfl
@[simp] theorem handSplice_uid (n : Lane) (x : SpliceMsg) (s : State) : (handSplice n x s).uid = s.uid := rfl
@[simp] theorem handSplice_choice (n : Lane) (x : SpliceMsg) (s : State) : (handSplice n x s).choice = s.choice := rfl

@[simp] theorem handPull_pending (n : Lane) (x : PullMsg) (s : State) : (handPull n x s).pending = s.pending := rfl
@[simp] theorem handPull_mem (n : Lane) (x : PullMsg) (s : State) : (handPull n x s).mem = s.mem := rfl
@[simp] theorem handPull_pins (n : Lane) (x : PullMsg) (s : State) : (handPull n x s).pins = s.pins := rfl
@[simp] theorem handPull_bus (n : Lane) (x : PullMsg) (s : State) : (handPull n x s).bus = s.bus := rfl
@[simp] theorem handPull_loader (n : Lane) (x : PullMsg) (s : State) : (handPull n x s).loader = s.loader := rfl
@[simp] theorem handPull_station (n : Lane) (x : PullMsg) (s : State) : (handPull n x s).station = s.station := rfl
@[simp] theorem handPull_orders (n : Lane) (x : PullMsg) (s : State) : (handPull n x s).orders = s.orders := rfl
@[simp] theorem handPull_web (n : Lane) (x : PullMsg) (s : State) : (handPull n x s).web = s.web := rfl
@[simp] theorem handPull_readers (n : Lane) (x : PullMsg) (s : State) : (handPull n x s).readers = s.readers := rfl
@[simp] theorem handPull_lanes (n : Lane) (x : PullMsg) (s : State) : (handPull n x s).lanes = s.lanes := rfl
@[simp] theorem handPull_track (n : Lane) (x : PullMsg) (s : State) : (handPull n x s).track = s.track := rfl
@[simp] theorem handPull_imp (n : Lane) (x : PullMsg) (s : State) : (handPull n x s).imp = s.imp := rfl
@[simp] theorem handPull_foil (n : Lane) (x : PullMsg) (s : State) : (handPull n x s).foil = s.foil := rfl
@[simp] theorem handPull_survey (n : Lane) (x : PullMsg) (s : State) : (handPull n x s).survey = s.survey := rfl
@[simp] theorem handPull_rep (n : Lane) (x : PullMsg) (s : State) : (handPull n x s).rep = s.rep := rfl
@[simp] theorem handPull_cnt (n : Lane) (x : PullMsg) (s : State) : (handPull n x s).cnt = s.cnt := rfl
@[simp] theorem handPull_msgs (n : Lane) (x : PullMsg) (s : State) : (handPull n x s).msgs = { s.msgs with pulls := s.msgs.pulls.set n (s.msgs.pulls.get n ++ [x]) } := rfl
@[simp] theorem handPull_uid (n : Lane) (x : PullMsg) (s : State) : (handPull n x s).uid = s.uid := rfl
@[simp] theorem handPull_choice (n : Lane) (x : PullMsg) (s : State) : (handPull n x s).choice = s.choice := rfl

@[simp] theorem countUnread_pending (s : State) : (countUnread s).pending = s.pending := rfl
@[simp] theorem countUnread_mem (s : State) : (countUnread s).mem = s.mem := rfl
@[simp] theorem countUnread_pins (s : State) : (countUnread s).pins = s.pins := rfl
@[simp] theorem countUnread_bus (s : State) : (countUnread s).bus = s.bus := rfl
@[simp] theorem countUnread_loader (s : State) : (countUnread s).loader = s.loader := rfl
@[simp] theorem countUnread_station (s : State) : (countUnread s).station = s.station := rfl
@[simp] theorem countUnread_orders (s : State) : (countUnread s).orders = s.orders := rfl
@[simp] theorem countUnread_web (s : State) : (countUnread s).web = s.web := rfl
@[simp] theorem countUnread_readers (s : State) : (countUnread s).readers = s.readers := rfl
@[simp] theorem countUnread_lanes (s : State) : (countUnread s).lanes = s.lanes := rfl
@[simp] theorem countUnread_track (s : State) : (countUnread s).track = s.track := rfl
@[simp] theorem countUnread_imp (s : State) : (countUnread s).imp = s.imp := rfl
@[simp] theorem countUnread_foil (s : State) : (countUnread s).foil = s.foil := rfl
@[simp] theorem countUnread_survey (s : State) : (countUnread s).survey = s.survey := rfl
@[simp] theorem countUnread_rep (s : State) : (countUnread s).rep = s.rep := rfl
@[simp] theorem countUnread_cnt (s : State) : (countUnread s).cnt = { s.cnt with unread := s.cnt.unread + 1 } := rfl
@[simp] theorem countUnread_msgs (s : State) : (countUnread s).msgs = s.msgs := rfl
@[simp] theorem countUnread_uid (s : State) : (countUnread s).uid = s.uid := rfl
@[simp] theorem countUnread_choice (s : State) : (countUnread s).choice = s.choice := rfl

@[simp] theorem sense_pending (lv : Levels) (s : State) : (sense lv s).pending = s.pending := rfl
@[simp] theorem sense_mem (lv : Levels) (s : State) : (sense lv s).mem = s.mem := rfl
@[simp] theorem sense_bus (lv : Levels) (s : State) : (sense lv s).bus = s.bus := rfl
@[simp] theorem sense_loader (lv : Levels) (s : State) : (sense lv s).loader = s.loader := rfl
@[simp] theorem sense_station (lv : Levels) (s : State) : (sense lv s).station = s.station := rfl
@[simp] theorem sense_orders (lv : Levels) (s : State) : (sense lv s).orders = s.orders := rfl
@[simp] theorem sense_web (lv : Levels) (s : State) : (sense lv s).web = s.web := rfl
@[simp] theorem sense_readers (lv : Levels) (s : State) : (sense lv s).readers = s.readers := rfl
@[simp] theorem sense_lanes (lv : Levels) (s : State) : (sense lv s).lanes = s.lanes := rfl
@[simp] theorem sense_track (lv : Levels) (s : State) : (sense lv s).track = s.track := rfl
@[simp] theorem sense_imp (lv : Levels) (s : State) : (sense lv s).imp = s.imp := rfl
@[simp] theorem sense_foil (lv : Levels) (s : State) : (sense lv s).foil = s.foil := rfl
@[simp] theorem sense_survey (lv : Levels) (s : State) : (sense lv s).survey = s.survey := rfl
@[simp] theorem sense_rep (lv : Levels) (s : State) : (sense lv s).rep = s.rep := rfl
@[simp] theorem sense_cnt (lv : Levels) (s : State) : (sense lv s).cnt = s.cnt := rfl
@[simp] theorem sense_msgs (lv : Levels) (s : State) : (sense lv s).msgs = s.msgs := rfl
@[simp] theorem sense_uid (lv : Levels) (s : State) : (sense lv s).uid = s.uid := rfl
@[simp] theorem sense_choice (lv : Levels) (s : State) : (sense lv s).choice = s.choice := rfl

@[simp] theorem setHighWater_pending (s : State) : (setHighWater s).pending = s.pending := rfl
@[simp] theorem setHighWater_mem (s : State) : (setHighWater s).mem = s.mem := rfl
@[simp] theorem setHighWater_pins (s : State) : (setHighWater s).pins = s.pins := rfl
@[simp] theorem setHighWater_bus (s : State) : (setHighWater s).bus = s.bus := rfl
@[simp] theorem setHighWater_loader (s : State) : (setHighWater s).loader = s.loader := rfl
@[simp] theorem setHighWater_station (s : State) : (setHighWater s).station = s.station := rfl
@[simp] theorem setHighWater_orders (s : State) : (setHighWater s).orders = s.orders := rfl
@[simp] theorem setHighWater_web (s : State) : (setHighWater s).web = { s.web with high := s.web.pos, behind := false } := rfl
@[simp] theorem setHighWater_readers (s : State) : (setHighWater s).readers = s.readers := rfl
@[simp] theorem setHighWater_lanes (s : State) : (setHighWater s).lanes = s.lanes := rfl
@[simp] theorem setHighWater_track (s : State) : (setHighWater s).track = s.track := rfl
@[simp] theorem setHighWater_imp (s : State) : (setHighWater s).imp = s.imp := rfl
@[simp] theorem setHighWater_foil (s : State) : (setHighWater s).foil = s.foil := rfl
@[simp] theorem setHighWater_survey (s : State) : (setHighWater s).survey = s.survey := rfl
@[simp] theorem setHighWater_rep (s : State) : (setHighWater s).rep = s.rep := rfl
@[simp] theorem setHighWater_cnt (s : State) : (setHighWater s).cnt = s.cnt := rfl
@[simp] theorem setHighWater_msgs (s : State) : (setHighWater s).msgs = s.msgs := rfl
@[simp] theorem setHighWater_uid (s : State) : (setHighWater s).uid = s.uid := rfl
@[simp] theorem setHighWater_choice (s : State) : (setHighWater s).choice = s.choice := rfl

@[simp] theorem dropNips_pending (s : State) : (dropNips s).pending = s.pending := rfl
@[simp] theorem dropNips_mem (s : State) : (dropNips s).mem = s.mem := rfl
@[simp] theorem dropNips_pins (s : State) : (dropNips s).pins = s.pins := rfl
@[simp] theorem dropNips_bus (s : State) : (dropNips s).bus = s.bus := rfl
@[simp] theorem dropNips_loader (s : State) : (dropNips s).loader = s.loader := rfl
@[simp] theorem dropNips_station (s : State) : (dropNips s).station = s.station := rfl
@[simp] theorem dropNips_orders (s : State) : (dropNips s).orders = s.orders := rfl
@[simp] theorem dropNips_web (s : State) : (dropNips s).web = s.web := rfl
@[simp] theorem dropNips_readers (s : State) : (dropNips s).readers = s.readers := rfl
@[simp] theorem dropNips_lanes (s : State) : (dropNips s).lanes = s.lanes := rfl
@[simp] theorem dropNips_track (s : State) : (dropNips s).track = s.track := rfl
@[simp] theorem dropNips_imp (s : State) : (dropNips s).imp = { s.imp with nips := [] } := rfl
@[simp] theorem dropNips_foil (s : State) : (dropNips s).foil = s.foil := rfl
@[simp] theorem dropNips_survey (s : State) : (dropNips s).survey = s.survey := rfl
@[simp] theorem dropNips_rep (s : State) : (dropNips s).rep = s.rep := rfl
@[simp] theorem dropNips_cnt (s : State) : (dropNips s).cnt = s.cnt := rfl
@[simp] theorem dropNips_msgs (s : State) : (dropNips s).msgs = s.msgs := rfl
@[simp] theorem dropNips_uid (s : State) : (dropNips s).uid = s.uid := rfl
@[simp] theorem dropNips_choice (s : State) : (dropNips s).choice = s.choice := rfl

@[simp] theorem lanesToHunt_pending (s : State) : (lanesToHunt s).pending = s.pending := rfl
@[simp] theorem lanesToHunt_mem (s : State) : (lanesToHunt s).mem = s.mem := rfl
@[simp] theorem lanesToHunt_pins (s : State) : (lanesToHunt s).pins = s.pins := rfl
@[simp] theorem lanesToHunt_bus (s : State) : (lanesToHunt s).bus = s.bus := rfl
@[simp] theorem lanesToHunt_loader (s : State) : (lanesToHunt s).loader = s.loader := rfl
@[simp] theorem lanesToHunt_station (s : State) : (lanesToHunt s).station = s.station := rfl
@[simp] theorem lanesToHunt_orders (s : State) : (lanesToHunt s).orders = s.orders := rfl
@[simp] theorem lanesToHunt_web (s : State) : (lanesToHunt s).web = s.web := rfl
@[simp] theorem lanesToHunt_readers (s : State) : (lanesToHunt s).readers = s.readers := rfl
@[simp] theorem lanesToHunt_track (s : State) : (lanesToHunt s).track = s.track := rfl
@[simp] theorem lanesToHunt_imp (s : State) : (lanesToHunt s).imp = s.imp := rfl
@[simp] theorem lanesToHunt_foil (s : State) : (lanesToHunt s).foil = s.foil := rfl
@[simp] theorem lanesToHunt_survey (s : State) : (lanesToHunt s).survey = s.survey := rfl
@[simp] theorem lanesToHunt_rep (s : State) : (lanesToHunt s).rep = s.rep := rfl
@[simp] theorem lanesToHunt_cnt (s : State) : (lanesToHunt s).cnt = s.cnt := rfl
@[simp] theorem lanesToHunt_msgs (s : State) : (lanesToHunt s).msgs = s.msgs := rfl
@[simp] theorem lanesToHunt_uid (s : State) : (lanesToHunt s).uid = s.uid := rfl
@[simp] theorem lanesToHunt_choice (s : State) : (lanesToHunt s).choice = s.choice := rfl

@[simp] theorem lanesToHuntReverse_pending (s : State) : (lanesToHuntReverse s).pending = s.pending := rfl
@[simp] theorem lanesToHuntReverse_mem (s : State) : (lanesToHuntReverse s).mem = s.mem := rfl
@[simp] theorem lanesToHuntReverse_pins (s : State) : (lanesToHuntReverse s).pins = s.pins := rfl
@[simp] theorem lanesToHuntReverse_bus (s : State) : (lanesToHuntReverse s).bus = s.bus := rfl
@[simp] theorem lanesToHuntReverse_loader (s : State) : (lanesToHuntReverse s).loader = s.loader := rfl
@[simp] theorem lanesToHuntReverse_station (s : State) : (lanesToHuntReverse s).station = s.station := rfl
@[simp] theorem lanesToHuntReverse_orders (s : State) : (lanesToHuntReverse s).orders = s.orders := rfl
@[simp] theorem lanesToHuntReverse_web (s : State) : (lanesToHuntReverse s).web = s.web := rfl
@[simp] theorem lanesToHuntReverse_readers (s : State) : (lanesToHuntReverse s).readers = s.readers := rfl
@[simp] theorem lanesToHuntReverse_track (s : State) : (lanesToHuntReverse s).track = s.track := rfl
@[simp] theorem lanesToHuntReverse_imp (s : State) : (lanesToHuntReverse s).imp = s.imp := rfl
@[simp] theorem lanesToHuntReverse_foil (s : State) : (lanesToHuntReverse s).foil = s.foil := rfl
@[simp] theorem lanesToHuntReverse_survey (s : State) : (lanesToHuntReverse s).survey = s.survey := rfl
@[simp] theorem lanesToHuntReverse_rep (s : State) : (lanesToHuntReverse s).rep = s.rep := rfl
@[simp] theorem lanesToHuntReverse_cnt (s : State) : (lanesToHuntReverse s).cnt = s.cnt := rfl
@[simp] theorem lanesToHuntReverse_msgs (s : State) : (lanesToHuntReverse s).msgs = s.msgs := rfl
@[simp] theorem lanesToHuntReverse_uid (s : State) : (lanesToHuntReverse s).uid = s.uid := rfl
@[simp] theorem lanesToHuntReverse_choice (s : State) : (lanesToHuntReverse s).choice = s.choice := rfl

@[simp] theorem lanesIdle_pending (s : State) : (lanesIdle s).pending = s.pending := rfl
@[simp] theorem lanesIdle_mem (s : State) : (lanesIdle s).mem = s.mem := rfl
@[simp] theorem lanesIdle_pins (s : State) : (lanesIdle s).pins = s.pins := rfl
@[simp] theorem lanesIdle_bus (s : State) : (lanesIdle s).bus = s.bus := rfl
@[simp] theorem lanesIdle_loader (s : State) : (lanesIdle s).loader = s.loader := rfl
@[simp] theorem lanesIdle_station (s : State) : (lanesIdle s).station = s.station := rfl
@[simp] theorem lanesIdle_orders (s : State) : (lanesIdle s).orders = s.orders := rfl
@[simp] theorem lanesIdle_web (s : State) : (lanesIdle s).web = s.web := rfl
@[simp] theorem lanesIdle_readers (s : State) : (lanesIdle s).readers = s.readers := rfl
@[simp] theorem lanesIdle_track (s : State) : (lanesIdle s).track = s.track := rfl
@[simp] theorem lanesIdle_imp (s : State) : (lanesIdle s).imp = s.imp := rfl
@[simp] theorem lanesIdle_foil (s : State) : (lanesIdle s).foil = s.foil := rfl
@[simp] theorem lanesIdle_survey (s : State) : (lanesIdle s).survey = s.survey := rfl
@[simp] theorem lanesIdle_rep (s : State) : (lanesIdle s).rep = s.rep := rfl
@[simp] theorem lanesIdle_cnt (s : State) : (lanesIdle s).cnt = s.cnt := rfl
@[simp] theorem lanesIdle_msgs (s : State) : (lanesIdle s).msgs = s.msgs := rfl
@[simp] theorem lanesIdle_uid (s : State) : (lanesIdle s).uid = s.uid := rfl
@[simp] theorem lanesIdle_choice (s : State) : (lanesIdle s).choice = s.choice := rfl

@[simp] theorem lanesOff_pending (s : State) : (lanesOff s).pending = s.pending := rfl
@[simp] theorem lanesOff_mem (s : State) : (lanesOff s).mem = s.mem := rfl
@[simp] theorem lanesOff_pins (s : State) : (lanesOff s).pins = s.pins := rfl
@[simp] theorem lanesOff_bus (s : State) : (lanesOff s).bus = s.bus := rfl
@[simp] theorem lanesOff_loader (s : State) : (lanesOff s).loader = s.loader := rfl
@[simp] theorem lanesOff_station (s : State) : (lanesOff s).station = s.station := rfl
@[simp] theorem lanesOff_orders (s : State) : (lanesOff s).orders = s.orders := rfl
@[simp] theorem lanesOff_web (s : State) : (lanesOff s).web = s.web := rfl
@[simp] theorem lanesOff_readers (s : State) : (lanesOff s).readers = s.readers := rfl
@[simp] theorem lanesOff_lanes (s : State) : (lanesOff s).lanes = PerLane.const Tracker.reset := rfl
@[simp] theorem lanesOff_track (s : State) : (lanesOff s).track = s.track := rfl
@[simp] theorem lanesOff_imp (s : State) : (lanesOff s).imp = s.imp := rfl
@[simp] theorem lanesOff_foil (s : State) : (lanesOff s).foil = s.foil := rfl
@[simp] theorem lanesOff_survey (s : State) : (lanesOff s).survey = s.survey := rfl
@[simp] theorem lanesOff_rep (s : State) : (lanesOff s).rep = s.rep := rfl
@[simp] theorem lanesOff_cnt (s : State) : (lanesOff s).cnt = s.cnt := rfl
@[simp] theorem lanesOff_msgs (s : State) : (lanesOff s).msgs = s.msgs := rfl
@[simp] theorem lanesOff_uid (s : State) : (lanesOff s).uid = s.uid := rfl
@[simp] theorem lanesOff_choice (s : State) : (lanesOff s).choice = s.choice := rfl

@[simp] theorem readersIdle_pending (s : State) : (readersIdle s).pending = s.pending := rfl
@[simp] theorem readersIdle_mem (s : State) : (readersIdle s).mem = s.mem := rfl
@[simp] theorem readersIdle_pins (s : State) : (readersIdle s).pins = s.pins := rfl
@[simp] theorem readersIdle_bus (s : State) : (readersIdle s).bus = s.bus := rfl
@[simp] theorem readersIdle_loader (s : State) : (readersIdle s).loader = s.loader := rfl
@[simp] theorem readersIdle_station (s : State) : (readersIdle s).station = s.station := rfl
@[simp] theorem readersIdle_orders (s : State) : (readersIdle s).orders = s.orders := rfl
@[simp] theorem readersIdle_web (s : State) : (readersIdle s).web = s.web := rfl
@[simp] theorem readersIdle_readers (s : State) : (readersIdle s).readers = PerLane.const Reader.reset := rfl
@[simp] theorem readersIdle_lanes (s : State) : (readersIdle s).lanes = s.lanes := rfl
@[simp] theorem readersIdle_track (s : State) : (readersIdle s).track = s.track := rfl
@[simp] theorem readersIdle_imp (s : State) : (readersIdle s).imp = s.imp := rfl
@[simp] theorem readersIdle_foil (s : State) : (readersIdle s).foil = s.foil := rfl
@[simp] theorem readersIdle_survey (s : State) : (readersIdle s).survey = s.survey := rfl
@[simp] theorem readersIdle_rep (s : State) : (readersIdle s).rep = s.rep := rfl
@[simp] theorem readersIdle_cnt (s : State) : (readersIdle s).cnt = s.cnt := rfl
@[simp] theorem readersIdle_msgs (s : State) : (readersIdle s).msgs = s.msgs := rfl
@[simp] theorem readersIdle_uid (s : State) : (readersIdle s).uid = s.uid := rfl
@[simp] theorem readersIdle_choice (s : State) : (readersIdle s).choice = s.choice := rfl

@[simp] theorem readersSeek_pending (s : State) : (readersSeek s).pending = s.pending := rfl
@[simp] theorem readersSeek_mem (s : State) : (readersSeek s).mem = s.mem := rfl
@[simp] theorem readersSeek_pins (s : State) : (readersSeek s).pins = s.pins := rfl
@[simp] theorem readersSeek_bus (s : State) : (readersSeek s).bus = s.bus := rfl
@[simp] theorem readersSeek_loader (s : State) : (readersSeek s).loader = s.loader := rfl
@[simp] theorem readersSeek_station (s : State) : (readersSeek s).station = s.station := rfl
@[simp] theorem readersSeek_orders (s : State) : (readersSeek s).orders = s.orders := rfl
@[simp] theorem readersSeek_web (s : State) : (readersSeek s).web = s.web := rfl
@[simp] theorem readersSeek_lanes (s : State) : (readersSeek s).lanes = s.lanes := rfl
@[simp] theorem readersSeek_track (s : State) : (readersSeek s).track = s.track := rfl
@[simp] theorem readersSeek_imp (s : State) : (readersSeek s).imp = s.imp := rfl
@[simp] theorem readersSeek_foil (s : State) : (readersSeek s).foil = s.foil := rfl
@[simp] theorem readersSeek_survey (s : State) : (readersSeek s).survey = s.survey := rfl
@[simp] theorem readersSeek_rep (s : State) : (readersSeek s).rep = s.rep := rfl
@[simp] theorem readersSeek_cnt (s : State) : (readersSeek s).cnt = s.cnt := rfl
@[simp] theorem readersSeek_msgs (s : State) : (readersSeek s).msgs = s.msgs := rfl
@[simp] theorem readersSeek_uid (s : State) : (readersSeek s).uid = s.uid := rfl
@[simp] theorem readersSeek_choice (s : State) : (readersSeek s).choice = s.choice := rfl

@[simp] theorem dropTaps_pending (s : State) : (dropTaps s).pending = s.pending := rfl
@[simp] theorem dropTaps_mem (s : State) : (dropTaps s).mem = s.mem := rfl
@[simp] theorem dropTaps_pins (s : State) : (dropTaps s).pins = s.pins := rfl
@[simp] theorem dropTaps_bus (s : State) : (dropTaps s).bus = s.bus := rfl
@[simp] theorem dropTaps_loader (s : State) : (dropTaps s).loader = s.loader := rfl
@[simp] theorem dropTaps_station (s : State) : (dropTaps s).station = s.station := rfl
@[simp] theorem dropTaps_web (s : State) : (dropTaps s).web = s.web := rfl
@[simp] theorem dropTaps_readers (s : State) : (dropTaps s).readers = s.readers := rfl
@[simp] theorem dropTaps_lanes (s : State) : (dropTaps s).lanes = s.lanes := rfl
@[simp] theorem dropTaps_track (s : State) : (dropTaps s).track = s.track := rfl
@[simp] theorem dropTaps_imp (s : State) : (dropTaps s).imp = s.imp := rfl
@[simp] theorem dropTaps_foil (s : State) : (dropTaps s).foil = s.foil := rfl
@[simp] theorem dropTaps_survey (s : State) : (dropTaps s).survey = s.survey := rfl
@[simp] theorem dropTaps_rep (s : State) : (dropTaps s).rep = s.rep := rfl
@[simp] theorem dropTaps_cnt (s : State) : (dropTaps s).cnt = s.cnt := rfl
@[simp] theorem dropTaps_msgs (s : State) : (dropTaps s).msgs = s.msgs := rfl
@[simp] theorem dropTaps_uid (s : State) : (dropTaps s).uid = s.uid := rfl
@[simp] theorem dropTaps_choice (s : State) : (dropTaps s).choice = s.choice := rfl

@[simp] theorem fillSlot_pending (k : OrderKind) (o : Origin) (s : State) : (fillSlot k o s).pending = s.pending := rfl
@[simp] theorem fillSlot_mem (k : OrderKind) (o : Origin) (s : State) : (fillSlot k o s).mem = s.mem := rfl
@[simp] theorem fillSlot_pins (k : OrderKind) (o : Origin) (s : State) : (fillSlot k o s).pins = s.pins := rfl
@[simp] theorem fillSlot_bus (k : OrderKind) (o : Origin) (s : State) : (fillSlot k o s).bus = s.bus := rfl
@[simp] theorem fillSlot_loader (k : OrderKind) (o : Origin) (s : State) : (fillSlot k o s).loader = s.loader := rfl
@[simp] theorem fillSlot_station (k : OrderKind) (o : Origin) (s : State) : (fillSlot k o s).station = s.station := rfl
@[simp] theorem fillSlot_orders (k : OrderKind) (o : Origin) (s : State) : (fillSlot k o s).orders = { s.orders with slots := s.orders.slots.put k (some o) } := rfl
@[simp] theorem fillSlot_web (k : OrderKind) (o : Origin) (s : State) : (fillSlot k o s).web = s.web := rfl
@[simp] theorem fillSlot_readers (k : OrderKind) (o : Origin) (s : State) : (fillSlot k o s).readers = s.readers := rfl
@[simp] theorem fillSlot_lanes (k : OrderKind) (o : Origin) (s : State) : (fillSlot k o s).lanes = s.lanes := rfl
@[simp] theorem fillSlot_track (k : OrderKind) (o : Origin) (s : State) : (fillSlot k o s).track = s.track := rfl
@[simp] theorem fillSlot_imp (k : OrderKind) (o : Origin) (s : State) : (fillSlot k o s).imp = s.imp := rfl
@[simp] theorem fillSlot_foil (k : OrderKind) (o : Origin) (s : State) : (fillSlot k o s).foil = s.foil := rfl
@[simp] theorem fillSlot_survey (k : OrderKind) (o : Origin) (s : State) : (fillSlot k o s).survey = s.survey := rfl
@[simp] theorem fillSlot_rep (k : OrderKind) (o : Origin) (s : State) : (fillSlot k o s).rep = s.rep := rfl
@[simp] theorem fillSlot_cnt (k : OrderKind) (o : Origin) (s : State) : (fillSlot k o s).cnt = s.cnt := rfl
@[simp] theorem fillSlot_msgs (k : OrderKind) (o : Origin) (s : State) : (fillSlot k o s).msgs = s.msgs := rfl
@[simp] theorem fillSlot_uid (k : OrderKind) (o : Origin) (s : State) : (fillSlot k o s).uid = s.uid := rfl
@[simp] theorem fillSlot_choice (k : OrderKind) (o : Origin) (s : State) : (fillSlot k o s).choice = s.choice := rfl

@[simp] theorem issueOwn_pending (s : State) : (issueOwn s).pending = s.pending := rfl
@[simp] theorem issueOwn_mem (s : State) : (issueOwn s).mem = s.mem := rfl
@[simp] theorem issueOwn_pins (s : State) : (issueOwn s).pins = s.pins := rfl
@[simp] theorem issueOwn_bus (s : State) : (issueOwn s).bus = { s.bus with port := .own, passOver := 0 } := rfl
@[simp] theorem issueOwn_loader (s : State) : (issueOwn s).loader = s.loader := rfl
@[simp] theorem issueOwn_station (s : State) : (issueOwn s).station = s.station := rfl
@[simp] theorem issueOwn_orders (s : State) : (issueOwn s).orders = s.orders := rfl
@[simp] theorem issueOwn_web (s : State) : (issueOwn s).web = s.web := rfl
@[simp] theorem issueOwn_readers (s : State) : (issueOwn s).readers = s.readers := rfl
@[simp] theorem issueOwn_lanes (s : State) : (issueOwn s).lanes = s.lanes := rfl
@[simp] theorem issueOwn_track (s : State) : (issueOwn s).track = s.track := rfl
@[simp] theorem issueOwn_imp (s : State) : (issueOwn s).imp = s.imp := rfl
@[simp] theorem issueOwn_foil (s : State) : (issueOwn s).foil = s.foil := rfl
@[simp] theorem issueOwn_survey (s : State) : (issueOwn s).survey = s.survey := rfl
@[simp] theorem issueOwn_rep (s : State) : (issueOwn s).rep = s.rep := rfl
@[simp] theorem issueOwn_cnt (s : State) : (issueOwn s).cnt = s.cnt := rfl
@[simp] theorem issueOwn_msgs (s : State) : (issueOwn s).msgs = s.msgs := rfl
@[simp] theorem issueOwn_uid (s : State) : (issueOwn s).uid = s.uid := rfl
@[simp] theorem issueOwn_choice (s : State) : (issueOwn s).choice = s.choice := rfl

@[simp] theorem issueForwarded_pending (k : Nat) (s : State) : (issueForwarded k s).pending = s.pending := rfl
@[simp] theorem issueForwarded_mem (k : Nat) (s : State) : (issueForwarded k s).mem = s.mem := rfl
@[simp] theorem issueForwarded_pins (k : Nat) (s : State) : (issueForwarded k s).pins = s.pins := rfl
@[simp] theorem issueForwarded_loader (k : Nat) (s : State) : (issueForwarded k s).loader = s.loader := rfl
@[simp] theorem issueForwarded_station (k : Nat) (s : State) : (issueForwarded k s).station = s.station := rfl
@[simp] theorem issueForwarded_orders (k : Nat) (s : State) : (issueForwarded k s).orders = s.orders := rfl
@[simp] theorem issueForwarded_web (k : Nat) (s : State) : (issueForwarded k s).web = s.web := rfl
@[simp] theorem issueForwarded_readers (k : Nat) (s : State) : (issueForwarded k s).readers = s.readers := rfl
@[simp] theorem issueForwarded_lanes (k : Nat) (s : State) : (issueForwarded k s).lanes = s.lanes := rfl
@[simp] theorem issueForwarded_track (k : Nat) (s : State) : (issueForwarded k s).track = s.track := rfl
@[simp] theorem issueForwarded_imp (k : Nat) (s : State) : (issueForwarded k s).imp = s.imp := rfl
@[simp] theorem issueForwarded_foil (k : Nat) (s : State) : (issueForwarded k s).foil = s.foil := rfl
@[simp] theorem issueForwarded_survey (k : Nat) (s : State) : (issueForwarded k s).survey = s.survey := rfl
@[simp] theorem issueForwarded_rep (k : Nat) (s : State) : (issueForwarded k s).rep = s.rep := rfl
@[simp] theorem issueForwarded_cnt (k : Nat) (s : State) : (issueForwarded k s).cnt = s.cnt := rfl
@[simp] theorem issueForwarded_msgs (k : Nat) (s : State) : (issueForwarded k s).msgs = s.msgs := rfl
@[simp] theorem issueForwarded_uid (k : Nat) (s : State) : (issueForwarded k s).uid = s.uid := rfl
@[simp] theorem issueForwarded_choice (k : Nat) (s : State) : (issueForwarded k s).choice = s.choice := rfl

@[simp] theorem answerAll_pending (l : List WordAnswer) (s : State) : (answerAll l s).pending = s.pending := rfl
@[simp] theorem answerAll_mem (l : List WordAnswer) (s : State) : (answerAll l s).mem = s.mem := rfl
@[simp] theorem answerAll_pins (l : List WordAnswer) (s : State) : (answerAll l s).pins = s.pins := rfl
@[simp] theorem answerAll_bus (l : List WordAnswer) (s : State) : (answerAll l s).bus = { s.bus with inHand := none, answer := l } := rfl
@[simp] theorem answerAll_loader (l : List WordAnswer) (s : State) : (answerAll l s).loader = s.loader := rfl
@[simp] theorem answerAll_station (l : List WordAnswer) (s : State) : (answerAll l s).station = s.station := rfl
@[simp] theorem answerAll_orders (l : List WordAnswer) (s : State) : (answerAll l s).orders = s.orders := rfl
@[simp] theorem answerAll_web (l : List WordAnswer) (s : State) : (answerAll l s).web = s.web := rfl
@[simp] theorem answerAll_readers (l : List WordAnswer) (s : State) : (answerAll l s).readers = s.readers := rfl
@[simp] theorem answerAll_lanes (l : List WordAnswer) (s : State) : (answerAll l s).lanes = s.lanes := rfl
@[simp] theorem answerAll_track (l : List WordAnswer) (s : State) : (answerAll l s).track = s.track := rfl
@[simp] theorem answerAll_imp (l : List WordAnswer) (s : State) : (answerAll l s).imp = s.imp := rfl
@[simp] theorem answerAll_foil (l : List WordAnswer) (s : State) : (answerAll l s).foil = s.foil := rfl
@[simp] theorem answerAll_survey (l : List WordAnswer) (s : State) : (answerAll l s).survey = s.survey := rfl
@[simp] theorem answerAll_rep (l : List WordAnswer) (s : State) : (answerAll l s).rep = s.rep := rfl
@[simp] theorem answerAll_cnt (l : List WordAnswer) (s : State) : (answerAll l s).cnt = s.cnt := rfl
@[simp] theorem answerAll_msgs (l : List WordAnswer) (s : State) : (answerAll l s).msgs = s.msgs := rfl
@[simp] theorem answerAll_uid (l : List WordAnswer) (s : State) : (answerAll l s).uid = s.uid := rfl
@[simp] theorem answerAll_choice (l : List WordAnswer) (s : State) : (answerAll l s).choice = s.choice := rfl

@[simp] theorem setHand_pending (a : Access) (p : Phase) (e : List Observed) (o : Option TapOrder) (s : State) : (setHand a p e o s).pending = s.pending := rfl
@[simp] theorem setHand_mem (a : Access) (p : Phase) (e : List Observed) (o : Option TapOrder) (s : State) : (setHand a p e o s).mem = s.mem := rfl
@[simp] theorem setHand_pins (a : Access) (p : Phase) (e : List Observed) (o : Option TapOrder) (s : State) : (setHand a p e o s).pins = s.pins := rfl
@[simp] theorem setHand_bus (a : Access) (p : Phase) (e : List Observed) (o : Option TapOrder) (s : State) : (setHand a p e o s).bus = { s.bus with inHand := some ⟨a, p, e, o⟩ } := rfl
@[simp] theorem setHand_loader (a : Access) (p : Phase) (e : List Observed) (o : Option TapOrder) (s : State) : (setHand a p e o s).loader = s.loader := rfl
@[simp] theorem setHand_station (a : Access) (p : Phase) (e : List Observed) (o : Option TapOrder) (s : State) : (setHand a p e o s).station = s.station := rfl
@[simp] theorem setHand_orders (a : Access) (p : Phase) (e : List Observed) (o : Option TapOrder) (s : State) : (setHand a p e o s).orders = s.orders := rfl
@[simp] theorem setHand_web (a : Access) (p : Phase) (e : List Observed) (o : Option TapOrder) (s : State) : (setHand a p e o s).web = s.web := rfl
@[simp] theorem setHand_readers (a : Access) (p : Phase) (e : List Observed) (o : Option TapOrder) (s : State) : (setHand a p e o s).readers = s.readers := rfl
@[simp] theorem setHand_lanes (a : Access) (p : Phase) (e : List Observed) (o : Option TapOrder) (s : State) : (setHand a p e o s).lanes = s.lanes := rfl
@[simp] theorem setHand_track (a : Access) (p : Phase) (e : List Observed) (o : Option TapOrder) (s : State) : (setHand a p e o s).track = s.track := rfl
@[simp] theorem setHand_imp (a : Access) (p : Phase) (e : List Observed) (o : Option TapOrder) (s : State) : (setHand a p e o s).imp = s.imp := rfl
@[simp] theorem setHand_foil (a : Access) (p : Phase) (e : List Observed) (o : Option TapOrder) (s : State) : (setHand a p e o s).foil = s.foil := rfl
@[simp] theorem setHand_survey (a : Access) (p : Phase) (e : List Observed) (o : Option TapOrder) (s : State) : (setHand a p e o s).survey = s.survey := rfl
@[simp] theorem setHand_rep (a : Access) (p : Phase) (e : List Observed) (o : Option TapOrder) (s : State) : (setHand a p e o s).rep = s.rep := rfl
@[simp] theorem setHand_cnt (a : Access) (p : Phase) (e : List Observed) (o : Option TapOrder) (s : State) : (setHand a p e o s).cnt = s.cnt := rfl
@[simp] theorem setHand_msgs (a : Access) (p : Phase) (e : List Observed) (o : Option TapOrder) (s : State) : (setHand a p e o s).msgs = s.msgs := rfl
@[simp] theorem setHand_uid (a : Access) (p : Phase) (e : List Observed) (o : Option TapOrder) (s : State) : (setHand a p e o s).uid = s.uid := rfl
@[simp] theorem setHand_choice (a : Access) (p : Phase) (e : List Observed) (o : Option TapOrder) (s : State) : (setHand a p e o s).choice = s.choice := rfl

@[simp] theorem clearConfirmed_pending (s : State) : (clearConfirmed s).pending = s.pending := rfl
@[simp] theorem clearConfirmed_mem (s : State) : (clearConfirmed s).mem = s.mem := rfl
@[simp] theorem clearConfirmed_pins (s : State) : (clearConfirmed s).pins = s.pins := rfl
@[simp] theorem clearConfirmed_bus (s : State) : (clearConfirmed s).bus = s.bus := rfl
@[simp] theorem clearConfirmed_loader (s : State) : (clearConfirmed s).loader = { s.loader with confirmed := false } := rfl
@[simp] theorem clearConfirmed_station (s : State) : (clearConfirmed s).station = s.station := rfl
@[simp] theorem clearConfirmed_orders (s : State) : (clearConfirmed s).orders = s.orders := rfl
@[simp] theorem clearConfirmed_web (s : State) : (clearConfirmed s).web = s.web := rfl
@[simp] theorem clearConfirmed_readers (s : State) : (clearConfirmed s).readers = s.readers := rfl
@[simp] theorem clearConfirmed_lanes (s : State) : (clearConfirmed s).lanes = s.lanes := rfl
@[simp] theorem clearConfirmed_track (s : State) : (clearConfirmed s).track = s.track := rfl
@[simp] theorem clearConfirmed_imp (s : State) : (clearConfirmed s).imp = s.imp := rfl
@[simp] theorem clearConfirmed_foil (s : State) : (clearConfirmed s).foil = s.foil := rfl
@[simp] theorem clearConfirmed_survey (s : State) : (clearConfirmed s).survey = s.survey := rfl
@[simp] theorem clearConfirmed_rep (s : State) : (clearConfirmed s).rep = s.rep := rfl
@[simp] theorem clearConfirmed_cnt (s : State) : (clearConfirmed s).cnt = s.cnt := rfl
@[simp] theorem clearConfirmed_msgs (s : State) : (clearConfirmed s).msgs = s.msgs := rfl
@[simp] theorem clearConfirmed_uid (s : State) : (clearConfirmed s).uid = s.uid := rfl
@[simp] theorem clearConfirmed_choice (s : State) : (clearConfirmed s).choice = s.choice := rfl

@[simp] theorem clearRecord_pending (s : State) : (clearRecord s).pending = s.pending := rfl
@[simp] theorem clearRecord_mem (s : State) : (clearRecord s).mem = s.mem := rfl
@[simp] theorem clearRecord_pins (s : State) : (clearRecord s).pins = s.pins := rfl
@[simp] theorem clearRecord_bus (s : State) : (clearRecord s).bus = s.bus := rfl
@[simp] theorem clearRecord_loader (s : State) : (clearRecord s).loader = s.loader := rfl
@[simp] theorem clearRecord_station (s : State) : (clearRecord s).station = { s.station with record := none, secondary := 0 } := rfl
@[simp] theorem clearRecord_orders (s : State) : (clearRecord s).orders = s.orders := rfl
@[simp] theorem clearRecord_web (s : State) : (clearRecord s).web = s.web := rfl
@[simp] theorem clearRecord_readers (s : State) : (clearRecord s).readers = s.readers := rfl
@[simp] theorem clearRecord_lanes (s : State) : (clearRecord s).lanes = s.lanes := rfl
@[simp] theorem clearRecord_track (s : State) : (clearRecord s).track = s.track := rfl
@[simp] theorem clearRecord_imp (s : State) : (clearRecord s).imp = s.imp := rfl
@[simp] theorem clearRecord_foil (s : State) : (clearRecord s).foil = s.foil := rfl
@[simp] theorem clearRecord_survey (s : State) : (clearRecord s).survey = s.survey := rfl
@[simp] theorem clearRecord_rep (s : State) : (clearRecord s).rep = s.rep := rfl
@[simp] theorem clearRecord_cnt (s : State) : (clearRecord s).cnt = s.cnt := rfl
@[simp] theorem clearRecord_msgs (s : State) : (clearRecord s).msgs = s.msgs := rfl
@[simp] theorem clearRecord_uid (s : State) : (clearRecord s).uid = s.uid := rfl
@[simp] theorem clearRecord_choice (s : State) : (clearRecord s).choice = s.choice := rfl

@[simp] theorem startSurvey_pending (k q : Nat) (s : State) : (startSurvey k q s).pending = s.pending := rfl
@[simp] theorem startSurvey_mem (k q : Nat) (s : State) : (startSurvey k q s).mem = s.mem := rfl
@[simp] theorem startSurvey_pins (k q : Nat) (s : State) : (startSurvey k q s).pins = s.pins := rfl
@[simp] theorem startSurvey_bus (k q : Nat) (s : State) : (startSurvey k q s).bus = s.bus := rfl
@[simp] theorem startSurvey_loader (k q : Nat) (s : State) : (startSurvey k q s).loader = s.loader := rfl
@[simp] theorem startSurvey_station (k q : Nat) (s : State) : (startSurvey k q s).station = s.station := rfl
@[simp] theorem startSurvey_orders (k q : Nat) (s : State) : (startSurvey k q s).orders = s.orders := rfl
@[simp] theorem startSurvey_web (k q : Nat) (s : State) : (startSurvey k q s).web = s.web := rfl
@[simp] theorem startSurvey_readers (k q : Nat) (s : State) : (startSurvey k q s).readers = s.readers := rfl
@[simp] theorem startSurvey_lanes (k q : Nat) (s : State) : (startSurvey k q s).lanes = s.lanes := rfl
@[simp] theorem startSurvey_track (k q : Nat) (s : State) : (startSurvey k q s).track = s.track := rfl
@[simp] theorem startSurvey_imp (k q : Nat) (s : State) : (startSurvey k q s).imp = s.imp := rfl
@[simp] theorem startSurvey_foil (k q : Nat) (s : State) : (startSurvey k q s).foil = s.foil := rfl
@[simp] theorem startSurvey_rep (k q : Nat) (s : State) : (startSurvey k q s).rep = s.rep := rfl
@[simp] theorem startSurvey_cnt (k q : Nat) (s : State) : (startSurvey k q s).cnt = s.cnt := rfl
@[simp] theorem startSurvey_msgs (k q : Nat) (s : State) : (startSurvey k q s).msgs = s.msgs := rfl
@[simp] theorem startSurvey_uid (k q : Nat) (s : State) : (startSurvey k q s).uid = s.uid := rfl
@[simp] theorem startSurvey_choice (k q : Nat) (s : State) : (startSurvey k q s).choice = s.choice := rfl

@[simp] theorem addSkips_pending (a : BitVec 16) (k : Nat) (s : State) : (addSkips a k s).pending = s.pending := rfl
@[simp] theorem addSkips_mem (a : BitVec 16) (k : Nat) (s : State) : (addSkips a k s).mem = s.mem := rfl
@[simp] theorem addSkips_pins (a : BitVec 16) (k : Nat) (s : State) : (addSkips a k s).pins = s.pins := rfl
@[simp] theorem addSkips_bus (a : BitVec 16) (k : Nat) (s : State) : (addSkips a k s).bus = s.bus := rfl
@[simp] theorem addSkips_loader (a : BitVec 16) (k : Nat) (s : State) : (addSkips a k s).loader = s.loader := rfl
@[simp] theorem addSkips_station (a : BitVec 16) (k : Nat) (s : State) : (addSkips a k s).station = s.station := rfl
@[simp] theorem addSkips_orders (a : BitVec 16) (k : Nat) (s : State) : (addSkips a k s).orders = s.orders := rfl
@[simp] theorem addSkips_web (a : BitVec 16) (k : Nat) (s : State) : (addSkips a k s).web = s.web := rfl
@[simp] theorem addSkips_readers (a : BitVec 16) (k : Nat) (s : State) : (addSkips a k s).readers = s.readers := rfl
@[simp] theorem addSkips_track (a : BitVec 16) (k : Nat) (s : State) : (addSkips a k s).track = s.track := rfl
@[simp] theorem addSkips_imp (a : BitVec 16) (k : Nat) (s : State) : (addSkips a k s).imp = s.imp := rfl
@[simp] theorem addSkips_foil (a : BitVec 16) (k : Nat) (s : State) : (addSkips a k s).foil = s.foil := rfl
@[simp] theorem addSkips_survey (a : BitVec 16) (k : Nat) (s : State) : (addSkips a k s).survey = s.survey := rfl
@[simp] theorem addSkips_rep (a : BitVec 16) (k : Nat) (s : State) : (addSkips a k s).rep = s.rep := rfl
@[simp] theorem addSkips_cnt (a : BitVec 16) (k : Nat) (s : State) : (addSkips a k s).cnt = s.cnt := rfl
@[simp] theorem addSkips_msgs (a : BitVec 16) (k : Nat) (s : State) : (addSkips a k s).msgs = s.msgs := rfl
@[simp] theorem addSkips_uid (a : BitVec 16) (k : Nat) (s : State) : (addSkips a k s).uid = s.uid := rfl
@[simp] theorem addSkips_choice (a : BitVec 16) (k : Nat) (s : State) : (addSkips a k s).choice = s.choice := rfl

@[simp] theorem updateRow_pending (u : Nat) (f : Row → Row) (s : State) : (updateRow u f s).pending = s.pending := rfl
@[simp] theorem updateRow_mem (u : Nat) (f : Row → Row) (s : State) : (updateRow u f s).mem = s.mem := rfl
@[simp] theorem updateRow_pins (u : Nat) (f : Row → Row) (s : State) : (updateRow u f s).pins = s.pins := rfl
@[simp] theorem updateRow_bus (u : Nat) (f : Row → Row) (s : State) : (updateRow u f s).bus = s.bus := rfl
@[simp] theorem updateRow_loader (u : Nat) (f : Row → Row) (s : State) : (updateRow u f s).loader = s.loader := rfl
@[simp] theorem updateRow_station (u : Nat) (f : Row → Row) (s : State) : (updateRow u f s).station = s.station := rfl
@[simp] theorem updateRow_orders (u : Nat) (f : Row → Row) (s : State) : (updateRow u f s).orders = s.orders := rfl
@[simp] theorem updateRow_web (u : Nat) (f : Row → Row) (s : State) : (updateRow u f s).web = s.web := rfl
@[simp] theorem updateRow_readers (u : Nat) (f : Row → Row) (s : State) : (updateRow u f s).readers = s.readers := rfl
@[simp] theorem updateRow_lanes (u : Nat) (f : Row → Row) (s : State) : (updateRow u f s).lanes = s.lanes := rfl
@[simp] theorem updateRow_imp (u : Nat) (f : Row → Row) (s : State) : (updateRow u f s).imp = s.imp := rfl
@[simp] theorem updateRow_foil (u : Nat) (f : Row → Row) (s : State) : (updateRow u f s).foil = s.foil := rfl
@[simp] theorem updateRow_survey (u : Nat) (f : Row → Row) (s : State) : (updateRow u f s).survey = s.survey := rfl
@[simp] theorem updateRow_rep (u : Nat) (f : Row → Row) (s : State) : (updateRow u f s).rep = s.rep := rfl
@[simp] theorem updateRow_cnt (u : Nat) (f : Row → Row) (s : State) : (updateRow u f s).cnt = s.cnt := rfl
@[simp] theorem updateRow_msgs (u : Nat) (f : Row → Row) (s : State) : (updateRow u f s).msgs = s.msgs := rfl
@[simp] theorem updateRow_uid (u : Nat) (f : Row → Row) (s : State) : (updateRow u f s).uid = s.uid := rfl
@[simp] theorem updateRow_choice (u : Nat) (f : Row → Row) (s : State) : (updateRow u f s).choice = s.choice := rfl

@[simp] theorem endStatusWrite_pending (s : State) : (endStatusWrite s).pending = s.pending := rfl
@[simp] theorem endStatusWrite_mem (s : State) : (endStatusWrite s).mem = s.mem := rfl
@[simp] theorem endStatusWrite_pins (s : State) : (endStatusWrite s).pins = s.pins := rfl
@[simp] theorem endStatusWrite_bus (s : State) : (endStatusWrite s).bus = s.bus := rfl
@[simp] theorem endStatusWrite_loader (s : State) : (endStatusWrite s).loader = s.loader := rfl
@[simp] theorem endStatusWrite_station (s : State) : (endStatusWrite s).station = s.station := rfl
@[simp] theorem endStatusWrite_orders (s : State) : (endStatusWrite s).orders = s.orders := rfl
@[simp] theorem endStatusWrite_web (s : State) : (endStatusWrite s).web = s.web := rfl
@[simp] theorem endStatusWrite_readers (s : State) : (endStatusWrite s).readers = s.readers := rfl
@[simp] theorem endStatusWrite_lanes (s : State) : (endStatusWrite s).lanes = s.lanes := rfl
@[simp] theorem endStatusWrite_track (s : State) : (endStatusWrite s).track = s.track := rfl
@[simp] theorem endStatusWrite_imp (s : State) : (endStatusWrite s).imp = s.imp := rfl
@[simp] theorem endStatusWrite_foil (s : State) : (endStatusWrite s).foil = s.foil := rfl
@[simp] theorem endStatusWrite_survey (s : State) : (endStatusWrite s).survey = s.survey := rfl
@[simp] theorem endStatusWrite_rep (s : State) : (endStatusWrite s).rep = { s.rep with statusQueued := false } := rfl
@[simp] theorem endStatusWrite_cnt (s : State) : (endStatusWrite s).cnt = s.cnt := rfl
@[simp] theorem endStatusWrite_msgs (s : State) : (endStatusWrite s).msgs = s.msgs := rfl
@[simp] theorem endStatusWrite_uid (s : State) : (endStatusWrite s).uid = s.uid := rfl
@[simp] theorem endStatusWrite_choice (s : State) : (endStatusWrite s).choice = s.choice := rfl

@[simp] theorem statusError_pending (s : State) : (statusError s).pending = s.pending := rfl
@[simp] theorem statusError_mem (s : State) : (statusError s).mem = s.mem := rfl
@[simp] theorem statusError_pins (s : State) : (statusError s).pins = s.pins := rfl
@[simp] theorem statusError_bus (s : State) : (statusError s).bus = s.bus := rfl
@[simp] theorem statusError_loader (s : State) : (statusError s).loader = s.loader := rfl
@[simp] theorem statusError_station (s : State) : (statusError s).station = s.station := rfl
@[simp] theorem statusError_orders (s : State) : (statusError s).orders = s.orders := rfl
@[simp] theorem statusError_web (s : State) : (statusError s).web = s.web := rfl
@[simp] theorem statusError_readers (s : State) : (statusError s).readers = s.readers := rfl
@[simp] theorem statusError_lanes (s : State) : (statusError s).lanes = s.lanes := rfl
@[simp] theorem statusError_track (s : State) : (statusError s).track = s.track := rfl
@[simp] theorem statusError_imp (s : State) : (statusError s).imp = s.imp := rfl
@[simp] theorem statusError_foil (s : State) : (statusError s).foil = s.foil := rfl
@[simp] theorem statusError_survey (s : State) : (statusError s).survey = s.survey := rfl
@[simp] theorem statusError_rep (s : State) : (statusError s).rep = { s.rep with statusQueued := false, dirty := true } := rfl
@[simp] theorem statusError_cnt (s : State) : (statusError s).cnt = s.cnt := rfl
@[simp] theorem statusError_msgs (s : State) : (statusError s).msgs = s.msgs := rfl
@[simp] theorem statusError_uid (s : State) : (statusError s).uid = s.uid := rfl
@[simp] theorem statusError_choice (s : State) : (statusError s).choice = s.choice := rfl

@[simp] theorem finish_pending (old : State) (s : State) : (finish old s).pending = s.pending := rfl
@[simp] theorem finish_mem (old : State) (s : State) : (finish old s).mem = s.mem := rfl
@[simp] theorem finish_pins (old : State) (s : State) : (finish old s).pins = s.pins := rfl
@[simp] theorem finish_bus (old : State) (s : State) : (finish old s).bus = (reportWork old s).bus := rfl
@[simp] theorem finish_loader (old : State) (s : State) : (finish old s).loader = s.loader := rfl
@[simp] theorem finish_station (old : State) (s : State) : (finish old s).station = s.station := rfl
@[simp] theorem finish_orders (old : State) (s : State) : (finish old s).orders = s.orders := rfl
@[simp] theorem finish_web (old : State) (s : State) : (finish old s).web = s.web := rfl
@[simp] theorem finish_readers (old : State) (s : State) : (finish old s).readers = s.readers := rfl
@[simp] theorem finish_lanes (old : State) (s : State) : (finish old s).lanes = s.lanes := rfl
@[simp] theorem finish_track (old : State) (s : State) : (finish old s).track = s.track := rfl
@[simp] theorem finish_imp (old : State) (s : State) : (finish old s).imp = s.imp := rfl
@[simp] theorem finish_foil (old : State) (s : State) : (finish old s).foil = s.foil := rfl
@[simp] theorem finish_survey (old : State) (s : State) : (finish old s).survey = s.survey := rfl
@[simp] theorem finish_rep (old : State) (s : State) : (finish old s).rep = (reportWork old s).rep := rfl
@[simp] theorem finish_cnt (old : State) (s : State) : (finish old s).cnt = s.cnt := rfl
@[simp] theorem finish_msgs (old : State) (s : State) : (finish old s).msgs = s.msgs := rfl
@[simp] theorem finish_uid (old : State) (s : State) : (finish old s).uid = (reportWork old s).uid := rfl
@[simp] theorem finish_choice (old : State) (s : State) : (finish old s).choice = (reportWork old s).choice := rfl

end Sys2Proof.Machine
end

