-- ==== Sys2Proof/Laws/Within.lean ====
section
/-! SUPPORT. What every shared operation keeps: it never touches the commands that wait, job memory or the pass-over count,
and it leaves the capacities of the queues, the track and the lanes' counters respected. -/

namespace Sys2Proof.Machine

/-- `t` comes from `s` by operations that touch neither the commands that wait, nor job memory, nor the pass-over count, and
that keep the capacities. -/
structure Within (s t : State) : Prop where
  pending : t.pending = s.pending
  mem : t.mem = s.mem
  passOver : t.bus.passOver = s.bus.passOver
  taps : TapQueueInRange s → TapQueueInRange t
  post : PostQueueInRange s → PostQueueInRange t
  rows : TrackInRange s → TrackInRange t
  lanes : LanesInRange s → LanesInRange t
  uid : s.uid ≤ t.uid
  names : TrackNames s → TrackNames t

theorem Within.refl (s : State) : Within s s := ⟨rfl, rfl, rfl, id, id, id, id, le_rfl, id⟩

theorem Within.trans {s t u : State} (h : Within s t) (k : Within t u) : Within s u :=
  ⟨k.pending.trans h.pending, k.mem.trans h.mem, k.passOver.trans h.passOver, k.taps ∘ h.taps,
    k.post ∘ h.post, k.rows ∘ h.rows, k.lanes ∘ h.lanes, h.uid.trans k.uid, k.names ∘ h.names⟩

/-- Names that are new stay new when the next name moves on. -/
theorem Named.mono {rows : List Row} {splices : List Span} {u v : Nat} (h : u ≤ v)
    (k : Named rows splices u) : Named rows splices v :=
  ⟨k.1, k.2.1, fun r hr => (k.2.2.1 r hr).trans_le h, fun p hp => (k.2.2.2 p hp).trans_le h⟩

/-- Rows mapped by a function that keeps names. -/
theorem Named.map_rows {rows : List Row} {splices : List Span} {u : Nat} (f : Row → Row)
    (hf : ∀ r, (f r).uid = r.uid) (k : Named rows splices u) : Named (rows.map f) splices u := by
  refine ⟨?_, k.2.1, ?_, k.2.2.2⟩
  · rw [List.pairwise_map]; simp only [hf]; exact k.1
  · intro r hr
    obtain ⟨x, hx, rfl⟩ := List.mem_map.mp hr
    rw [hf]; exact k.2.2.1 x hx

/-- Spans mapped by a function that keeps names. -/
theorem Named.map_spans {rows : List Row} {splices : List Span} {u : Nat} (f : Span → Span)
    (hf : ∀ r, (f r).uid = r.uid) (k : Named rows splices u) : Named rows (splices.map f) u := by
  refine ⟨k.1, ?_, k.2.2.1, ?_⟩
  · rw [List.pairwise_map]; simp only [hf]; exact k.2.1
  · intro r hr
    obtain ⟨x, hx, rfl⟩ := List.mem_map.mp hr
    rw [hf]; exact k.2.2.2 x hx

/-- Rows and spans taken out. -/
theorem Named.sublist {rows rows' : List Row} {splices splices' : List Span} {u : Nat}
    (h : rows'.Sublist rows) (h' : splices'.Sublist splices) (k : Named rows splices u) :
    Named rows' splices' u :=
  ⟨k.1.sublist h, k.2.1.sublist h', fun r hr => k.2.2.1 r (h.subset hr),
    fun p hp => k.2.2.2 p (h'.subset hp)⟩

/-- A row with the next name added as the newest. -/
theorem Named.add_row {rows : List Row} {splices : List Span} {u : Nat} (r : Row) (hr : r.uid = u)
    (k : Named rows splices u) : Named (rows ++ [r]) splices (u + 1) := by
  refine ⟨?_, k.2.1, ?_, fun p hp => (k.2.2.2 p hp).trans (Nat.lt_succ_self u)⟩
  · rw [List.pairwise_append]
    refine ⟨k.1, List.pairwise_singleton _ _, fun a ha b hb => ?_⟩
    rw [List.mem_singleton.mp hb, hr]; exact Nat.ne_of_lt (k.2.2.1 a ha)
  · intro x hx
    rcases List.mem_append.mp hx with hx | hx
    · exact (k.2.2.1 x hx).trans (Nat.lt_succ_self u)
    · rw [List.mem_singleton.mp hx, hr]; exact Nat.lt_succ_self u

/-- A span with the next name added as the newest. -/
theorem Named.add_span {rows : List Row} {splices : List Span} {u : Nat} (r : Span) (hr : r.uid = u)
    (k : Named rows splices u) : Named rows (splices ++ [r]) (u + 1) := by
  refine ⟨k.1, ?_, fun p hp => (k.2.2.1 p hp).trans (Nat.lt_succ_self u), ?_⟩
  · rw [List.pairwise_append]
    refine ⟨k.2.1, List.pairwise_singleton _ _, fun a ha b hb => ?_⟩
    rw [List.mem_singleton.mp hb, hr]; exact Nat.ne_of_lt (k.2.2.2 a ha)
  · intro x hx
    rcases List.mem_append.mp hx with hx | hx
    · exact (k.2.2.2 x hx).trans (Nat.lt_succ_self u)
    · rw [List.mem_singleton.mp hx, hr]; exact Nat.lt_succ_self u

/-- In a track with distinct names a row's name is no other row's. -/
theorem TrackNames.others {s : State} (h : TrackNames s) {pre post : List Row} {r : Row}
    (hr : s.track.rows = pre ++ r :: post) : ∀ y ∈ pre ++ post, y.uid ≠ r.uid := by
  have k := h.1
  rw [hr, List.pairwise_append] at k
  intro y hy
  rcases List.mem_append.mp hy with hy | hy
  · exact k.2.2 y hy r (List.mem_cons_self ..)
  · exact ((List.pairwise_cons.mp k.2.1).1 y hy).symm

/-- In a track with distinct names a span's name is no other span's. -/
theorem TrackNames.otherSpans {s : State} (h : TrackNames s) {pre post : List Span} {p : Span}
    (hp : s.track.splices = pre ++ p :: post) : ∀ y ∈ pre ++ post, y.uid ≠ p.uid := by
  have k := h.2.1
  rw [hp, List.pairwise_append] at k
  intro y hy
  rcases List.mem_append.mp hy with hy | hy
  · exact k.2.2 y hy p (List.mem_cons_self ..)
  · exact ((List.pairwise_cons.mp k.2.1).1 y hy).symm

/-- An update of other fields. -/
theorem within_upd {s0 s t : State} (h : Within s0 s) (h1 : t.pending = s.pending) (h2 : t.mem = s.mem)
    (h3 : t.bus.passOver = s.bus.passOver) (h4 : t.orders.tapQueue = s.orders.tapQueue)
    (h5 : t.rep.post = s.rep.post) (h6 : t.track.rows = s.track.rows) (h7 : t.lanes = s.lanes)
    (h8 : t.track.splices = s.track.splices) (h9 : s.uid ≤ t.uid) : Within s0 t :=
  h.trans ⟨h1, h2, h3, fun k => by unfold TapQueueInRange; rw [h4]; exact k,
    fun k => by unfold PostQueueInRange; rw [h5]; exact k,
    fun k => by unfold TrackInRange; rw [h6]; exact k,
    fun k => by unfold LanesInRange; rw [h7]; exact k, h9,
    fun k => by unfold TrackNames; rw [h6, h8]; exact Named.mono h9 k⟩

/-- An update whose lists are no longer than before. -/
theorem within_shrink {s0 s t : State} (h : Within s0 s) (h1 : t.pending = s.pending) (h2 : t.mem = s.mem)
    (h3 : t.bus.passOver = s.bus.passOver)
    (h4 : t.orders.tapQueue.length ≤ s.orders.tapQueue.length ∨
      t.orders.tapQueue.length ≤ Config.tapQueueCapacity)
    (h5 : t.rep.post.length ≤ s.rep.post.length ∨ t.rep.post.length ≤ Config.postQueueCapacity)
    (h6 : t.track.rows.length ≤ s.track.rows.length ∨ t.track.rows.length ≤ Config.trackCapacity)
    (h7 : LanesInRange s → LanesInRange t) (h8 : s.uid ≤ t.uid) (h9 : TrackNames s → TrackNames t) :
    Within s0 t := by
  refine h.trans ⟨h1, h2, h3, ?_, ?_, ?_, h7, h8, h9⟩
  · intro k; unfold TapQueueInRange at *; omega
  · intro k; unfold PostQueueInRange at *; omega
  · intro k; unfold TrackInRange at *; omega

/-- An update written as a literal that keeps the fields named. -/
theorem within_lit {s0 s : State} {pins : Pins} {bus : Bus} {loader : Loader} {station : Station}
    {orders : OrderUnit} {web : Web} {readers : PerLane Reader} {lanes : PerLane Tracker} {track : Track}
    {imp : Impression} {foil : PerLane Foil} {survey : Survey} {rep : ReportUnit} {cnt : Counters}
    {msgs : Messages} {uid choice : Nat} (h : Within s0 s)
    (h3 : bus.passOver = s.bus.passOver) (h4 : orders.tapQueue = s.orders.tapQueue)
    (h5 : rep.post = s.rep.post) (h6 : track.rows = s.track.rows) (h7 : lanes = s.lanes)
    (h8 : track.splices = s.track.splices) (h9 : s.uid ≤ uid) :
    Within s0 ⟨s.pending, s.mem, pins, bus, loader, station, orders, web, readers, lanes, track, imp, foil,
      survey, rep, cnt, msgs, uid, choice⟩ :=
  within_upd h rfl rfl h3 h4 h5 h6 h7 h8 h9

/-- An update written as a literal whose lists are no longer than before, or within their capacity. -/
theorem within_shr {s0 s : State} {pins : Pins} {bus : Bus} {loader : Loader} {station : Station}
    {orders : OrderUnit} {web : Web} {readers : PerLane Reader} {lanes : PerLane Tracker} {track : Track}
    {imp : Impression} {foil : PerLane Foil} {survey : Survey} {rep : ReportUnit} {cnt : Counters}
    {msgs : Messages} {uid choice : Nat} (h : Within s0 s)
    (h3 : bus.passOver = s.bus.passOver)
    (h4 : orders.tapQueue.length ≤ s.orders.tapQueue.length ∨
      orders.tapQueue.length ≤ Config.tapQueueCapacity)
    (h5 : rep.post.length ≤ s.rep.post.length ∨ rep.post.length ≤ Config.postQueueCapacity)
    (h6 : track.rows.length ≤ s.track.rows.length ∨ track.rows.length ≤ Config.trackCapacity)
    (h7 : (∀ n : Lane, (s.lanes.get n).inRange) → ∀ n : Lane, (lanes.get n).inRange) (h8 : s.uid ≤ uid)
    (h9 : Named s.track.rows s.track.splices s.uid → Named track.rows track.splices uid) :
    Within s0 ⟨s.pending, s.mem, pins, bus, loader, station, orders, web, readers, lanes, track, imp, foil,
      survey, rep, cnt, msgs, uid, choice⟩ :=
  within_shrink h rfl rfl h3 h4 h5 h6 h7 h8 h9

theorem within_withLoaded {s0 s : State} {f : Loaded → State} (h : Within s0 s)
    (k : ∀ c, Within s0 (f c)) : Within s0 (withLoaded s f) := by
  unfold withLoaded
  split
  · exact k _
  · exact h

theorem within_forLanes {s0 s : State} {f : Lane → State → State}
    (k : ∀ n t, Within s0 t → Within s0 (f n t)) (h : Within s0 s) : Within s0 (forLanes f s) :=
  k _ _ (k _ _ (k _ _ (k _ _ h)))

theorem within_place {s0 : State} {purpose : Purpose} {write : Bool} {bursts : List Burst} {s : State} (h : Within s0 s) :
    Within s0 (place purpose write bursts s) := by
  unfold place
  repeat' first
    | with_reducible exact h | with_reducible assumption | split | dsimp only
    | (with_reducible refine within_lit ?_ ?_ ?_ ?_ ?_ ?_ ?_ ?_
       rotate_left; iterate 6 (exact rfl)
       first | exact le_rfl | exact Nat.le_succ _)

theorem within_latch {s0 : State} {c : Cause} {s : State} (h : Within s0 s) :
    Within s0 (latch c s) := by
  unfold latch
  repeat' first
    | with_reducible exact h | with_reducible assumption | split | dsimp only
    | (with_reducible refine within_lit ?_ ?_ ?_ ?_ ?_ ?_ ?_ ?_
       rotate_left; iterate 6 (exact rfl)
       first | exact le_rfl | exact Nat.le_succ _)

theorem within_offer {s0 : State} {src : Source} {r : Report} {s : State} (h : Within s0 s) :
    Within s0 (offer src r s) := by
  unfold offer
  repeat' first
    | with_reducible exact h | with_reducible assumption | split | dsimp only
    | (with_reducible refine within_lit ?_ ?_ ?_ ?_ ?_ ?_ ?_ ?_
       rotate_left; iterate 6 (exact rfl)
       first | exact le_rfl | exact Nat.le_succ _)

theorem within_raiseFault {s0 : State} {k : FaultKind} {lane : Option Lane} {s : State} (h : Within s0 s) :
    Within s0 (raiseFault k lane s) := by
  unfold raiseFault
  repeat' first
    | with_reducible exact h | with_reducible assumption | split | dsimp only
    | (with_reducible refine within_lit ?_ ?_ ?_ ?_ ?_ ?_ ?_ ?_
       rotate_left; iterate 6 (exact rfl)
       first | exact le_rfl | exact Nat.le_succ _)

theorem within_markStatus {s0 : State} {s : State} (h : Within s0 s) :
    Within s0 (markStatus s) := by
  unfold markStatus
  repeat' first
    | with_reducible exact h | with_reducible assumption | split | dsimp only
    | (with_reducible refine within_lit ?_ ?_ ?_ ?_ ?_ ?_ ?_ ?_
       rotate_left; iterate 6 (exact rfl)
       first | exact le_rfl | exact Nat.le_succ _)

theorem within_setMode {s0 : State} {new : Mode} {cause : ModeCause} {s : State} (h : Within s0 s) :
    Within s0 (setMode new cause s) := by
  unfold setMode
  repeat' first
    | with_reducible exact h | with_reducible assumption | with_reducible apply within_offer
    | with_reducible apply within_markStatus | split | dsimp only
    | (with_reducible refine within_lit ?_ ?_ ?_ ?_ ?_ ?_ ?_ ?_
       rotate_left; iterate 6 (exact rfl)
       first | exact le_rfl | exact Nat.le_succ _)

/-- A lane whose quality counter is 0 and that is not BLOCKED. -/
theorem fresh_range (t : Tracker) (hq : t.quality = 0) (hb : t.state ≠ .blocked)
    (hs : t.skip ≤ Config.skipMax) : t.inRange :=
  ⟨hq ▸ Nat.zero_le _, ⟨fun k => absurd (hq.symm.trans k) (by decide), fun k => absurd k hb⟩, hs⟩

theorem within_setLane {s0 : State} {n : Lane} {t : Tracker} {s : State} (h : Within s0 s)
    (ht : LanesInRange s → t.inRange) : Within s0 (setLane n t s) := by
  unfold setLane
  refine within_shr h rfl (.inl le_rfl) (.inl le_rfl) (.inl le_rfl) (fun k m => ?_) le_rfl (fun k => k)
  simp only [PerLane.get_set]
  split
  · exact ht k
  · exact k m

theorem within_setReader {s0 : State} {n : Lane} {r : Reader} {s : State} (h : Within s0 s) :
    Within s0 (setReader n r s) := by
  unfold setReader
  repeat' first
    | with_reducible exact h | with_reducible assumption | split | dsimp only
    | (with_reducible refine within_lit ?_ ?_ ?_ ?_ ?_ ?_ ?_ ?_
       rotate_left; iterate 6 (exact rfl)
       first | exact le_rfl | exact Nat.le_succ _)

theorem within_setFoil {s0 : State} {n : Lane} {f : Foil} {s : State} (h : Within s0 s) :
    Within s0 (setFoil n f s) := by
  unfold setFoil
  repeat' first
    | with_reducible exact h | with_reducible assumption | split | dsimp only
    | (with_reducible refine within_lit ?_ ?_ ?_ ?_ ?_ ?_ ?_ ?_
       rotate_left; iterate 6 (exact rfl)
       first | exact le_rfl | exact Nat.le_succ _)

theorem within_testLanesDown {s0 : State} {s : State} (h : Within s0 s) :
    Within s0 (testLanesDown s) := by
  unfold testLanesDown
  repeat' first
    | with_reducible exact h | with_reducible assumption | with_reducible apply within_raiseFault | split
    | dsimp only
    | (with_reducible refine within_lit ?_ ?_ ?_ ?_ ?_ ?_ ?_ ?_
       rotate_left; iterate 6 (exact rfl)
       first | exact le_rfl | exact Nat.le_succ _)

theorem within_handRead {s0 : State} {n : Lane} {r : ReadMsg} {s : State} (h : Within s0 s) :
    Within s0 (handRead n r s) := by
  unfold handRead
  repeat' first
    | with_reducible exact h | with_reducible assumption | split | dsimp only
    | (with_reducible refine within_lit ?_ ?_ ?_ ?_ ?_ ?_ ?_ ?_
       rotate_left; iterate 6 (exact rfl)
       first | exact le_rfl | exact Nat.le_succ _)

theorem within_giveStray {s0 : State} {n : Lane} {s : State} (h : Within s0 s) :
    Within s0 (giveStray n s) := by
  unfold giveStray
  repeat' first
    | with_reducible exact h | with_reducible assumption | split | dsimp only
    | (with_reducible refine within_lit ?_ ?_ ?_ ?_ ?_ ?_ ?_ ?_
       rotate_left; iterate 6 (exact rfl)
       first | exact le_rfl | exact Nat.le_succ _)

theorem within_giveSkew {s0 : State} {n : Lane} {s : State} (h : Within s0 s) :
    Within s0 (giveSkew n s) := by
  unfold giveSkew
  repeat' first
    | with_reducible exact h | with_reducible assumption | split | dsimp only
    | (with_reducible refine within_lit ?_ ?_ ?_ ?_ ?_ ?_ ?_ ?_
       rotate_left; iterate 6 (exact rfl)
       first | exact le_rfl | exact Nat.le_succ _)

theorem within_handCell {s0 : State} {n : Lane} {c : Cell} {s : State} (h : Within s0 s) :
    Within s0 (handCell n c s) := by
  unfold handCell
  repeat' first
    | with_reducible exact h | with_reducible assumption | split | dsimp only
    | (with_reducible refine within_lit ?_ ?_ ?_ ?_ ?_ ?_ ?_ ?_
       rotate_left; iterate 6 (exact rfl)
       first | exact le_rfl | exact Nat.le_succ _)

theorem within_handSplice {s0 : State} {n : Lane} {m : SpliceMsg} {s : State} (h : Within s0 s) :
    Within s0 (handSplice n m s) := by
  unfold handSplice
  repeat' first
    | with_reducible exact h | with_reducible assumption | split | dsimp only
    | (with_reducible refine within_lit ?_ ?_ ?_ ?_ ?_ ?_ ?_ ?_
       rotate_left; iterate 6 (exact rfl)
       first | exact le_rfl | exact Nat.le_succ _)

theorem within_handPull {s0 : State} {n : Lane} {m : PullMsg} {s : State} (h : Within s0 s) :
    Within s0 (handPull n m s) := by
  unfold handPull
  repeat' first
    | with_reducible exact h | with_reducible assumption | split | dsimp only
    | (with_reducible refine within_lit ?_ ?_ ?_ ?_ ?_ ?_ ?_ ?_
       rotate_left; iterate 6 (exact rfl)
       first | exact le_rfl | exact Nat.le_succ _)

theorem within_countUnread {s0 : State} {s : State} (h : Within s0 s) :
    Within s0 (countUnread s) := by
  unfold countUnread
  repeat' first
    | with_reducible exact h | with_reducible assumption | split | dsimp only
    | (with_reducible refine within_lit ?_ ?_ ?_ ?_ ?_ ?_ ?_ ?_
       rotate_left; iterate 6 (exact rfl)
       first | exact le_rfl | exact Nat.le_succ _)

theorem within_sense {s0 : State} {lv : Levels} {s : State} (h : Within s0 s) :
    Within s0 (sense lv s) := by
  unfold sense
  repeat' first
    | with_reducible exact h | with_reducible assumption | split | dsimp only
    | (with_reducible refine within_lit ?_ ?_ ?_ ?_ ?_ ?_ ?_ ?_
       rotate_left; iterate 6 (exact rfl)
       first | exact le_rfl | exact Nat.le_succ _)

theorem within_takeFollow {s0 : State} {r : Row} {s : State} (h : Within s0 s) :
    Within s0 (takeFollow r s) := by
  unfold takeFollow
  repeat' first
    | with_reducible exact h | with_reducible assumption | split | dsimp only
    | (with_reducible refine within_lit ?_ ?_ ?_ ?_ ?_ ?_ ?_ ?_
       rotate_left; iterate 6 (exact rfl)
       first | exact le_rfl | exact Nat.le_succ _)

theorem within_placeFill {s0 : State} {r : Report} {s : State} (h : Within s0 s) :
    Within s0 (placeFill r s) := by
  unfold placeFill
  repeat' first
    | with_reducible exact h | with_reducible assumption | with_reducible apply within_place | split
    | dsimp only
    | (with_reducible refine within_lit ?_ ?_ ?_ ?_ ?_ ?_ ?_ ?_
       rotate_left; iterate 6 (exact rfl)
       first | exact le_rfl | exact Nat.le_succ _)

theorem within_testFill {s0 : State} {s : State} (h : Within s0 s) :
    Within s0 (testFill s) := by
  unfold testFill
  split
  · exact h
  · rename_i r rest hp
    split
    · split
      · exact within_placeFill (within_lit h rfl rfl rfl rfl rfl rfl le_rfl)
      · refine within_placeFill (within_shr h rfl (.inl le_rfl) (.inl ?_) (.inl le_rfl) (fun k => k) le_rfl (fun k => k))
        rw [hp]; exact Nat.le_succ _
    · exact h

theorem within_enqueueReport {s0 : State} {r : Report} {s : State} (h : Within s0 s) :
    Within s0 (enqueueReport r s) := by
  unfold enqueueReport
  split
  · rename_i hl
    refine within_shr h rfl (.inl le_rfl) (.inr ?_) (.inl le_rfl) (fun k => k) le_rfl (fun k => k)
    rw [List.length_append]; exact hl
  · exact within_latch (within_lit h rfl rfl rfl rfl rfl rfl le_rfl)

theorem within_takeReport {s0 : State} {r : Report} {s : State} (h : Within s0 s) :
    Within s0 (takeReport r s) := by
  unfold takeReport
  repeat' first
    | with_reducible exact h | with_reducible assumption | with_reducible apply within_placeFill
    | with_reducible apply within_testFill | with_reducible apply within_enqueueReport | split | dsimp only
    | (with_reducible refine within_lit ?_ ?_ ?_ ?_ ?_ ?_ ?_ ?_
       rotate_left; iterate 6 (exact rfl)
       first | exact le_rfl | exact Nat.le_succ _)

theorem within_takeOffer {s0 : State} {r : Report} {s : State} (h : Within s0 s) :
    Within s0 (takeOffer r s) := by
  unfold takeOffer
  repeat' first
    | with_reducible exact h | with_reducible assumption | with_reducible apply within_takeFollow
    | with_reducible apply within_takeReport | split | dsimp only
    | (with_reducible refine within_lit ?_ ?_ ?_ ?_ ?_ ?_ ?_ ?_
       rotate_left; iterate 6 (exact rfl)
       first | exact le_rfl | exact Nat.le_succ _)

theorem within_takeOffers {s0 : State} {l : List Report} {s : State} (h : Within s0 s) :
    Within s0 (takeOffers l s) := by
  induction l generalizing s with
  | nil => exact h
  | cons r t ih => exact ih (within_takeOffer h)

theorem within_flushOffers {s0 : State} {s : State} (h : Within s0 s) :
    Within s0 (flushOffers s) := by
  unfold flushOffers
  exact within_takeOffers (within_testFill (within_lit h rfl rfl rfl rfl rfl rfl le_rfl))

theorem within_queueStatus {s0 : State} {base : Nat} {s : State} (h : Within s0 s) :
    Within s0 (queueStatus base s) := by
  unfold queueStatus
  repeat' first
    | with_reducible exact h | with_reducible assumption | with_reducible apply within_place | split
    | dsimp only
    | (with_reducible refine within_lit ?_ ?_ ?_ ?_ ?_ ?_ ?_ ?_
       rotate_left; iterate 6 (exact rfl)
       first | exact le_rfl | exact Nat.le_succ _)

theorem within_testStatus {s0 : State} {s : State} (h : Within s0 s) :
    Within s0 (testStatus s) := by
  unfold testStatus
  repeat' first
    | with_reducible exact h | with_reducible assumption | with_reducible apply within_queueStatus | split
    | dsimp only
    | (with_reducible refine within_lit ?_ ?_ ?_ ?_ ?_ ?_ ?_ ?_
       rotate_left; iterate 6 (exact rfl)
       first | exact le_rfl | exact Nat.le_succ _)

theorem within_markChanges {s0 : State} {old : State} {s : State} (h : Within s0 s) :
    Within s0 (markChanges old s) := by
  unfold markChanges
  repeat' first
    | with_reducible exact h | with_reducible assumption | with_reducible apply within_markStatus | split
    | dsimp only
    | (with_reducible refine within_lit ?_ ?_ ?_ ?_ ?_ ?_ ?_ ?_
       rotate_left; iterate 6 (exact rfl)
       first | exact le_rfl | exact Nat.le_succ _)

theorem within_reportWork {s0 : State} {old : State} {s : State} (h : Within s0 s) :
    Within s0 (reportWork old s) := by
  unfold reportWork
  repeat' first
    | with_reducible exact h | with_reducible assumption | with_reducible apply within_testFill
    | with_reducible apply within_flushOffers | with_reducible apply within_testStatus
    | with_reducible apply within_markChanges | split | dsimp only
    | (with_reducible refine within_lit ?_ ?_ ?_ ?_ ?_ ?_ ?_ ?_
       rotate_left; iterate 6 (exact rfl)
       first | exact le_rfl | exact Nat.le_succ _)

theorem within_finish {s0 : State} {old : State} {s : State} (h : Within s0 s) :
    Within s0 (finish old s) := by
  have k : Within s (reportWork old s) := within_reportWork (Within.refl s)
  exact h.trans ⟨rfl, rfl, k.passOver, fun x => x, k.post, fun x => x, fun x => x, k.uid,
    Named.mono k.uid⟩

theorem within_fillSlot {s0 : State} {k : OrderKind} {o : Origin} {s : State} (h : Within s0 s) :
    Within s0 (fillSlot k o s) := by
  unfold fillSlot
  repeat' first
    | with_reducible exact h | with_reducible assumption | split | dsimp only
    | (with_reducible refine within_lit ?_ ?_ ?_ ?_ ?_ ?_ ?_ ?_
       rotate_left; iterate 6 (exact rfl)
       first | exact le_rfl | exact Nat.le_succ _)

theorem within_completeStanding {s0 : State} {k : OrderKind} {c : Completion} {s : State} (h : Within s0 s) :
    Within s0 (completeStanding k c s) := by
  unfold completeStanding
  repeat' first
    | with_reducible exact h | with_reducible assumption | with_reducible apply within_latch
    | with_reducible apply within_offer | split | dsimp only
    | (with_reducible refine within_lit ?_ ?_ ?_ ?_ ?_ ?_ ?_ ?_
       rotate_left; iterate 6 (exact rfl)
       first | exact le_rfl | exact Nat.le_succ _)

theorem within_removeTarget {s0 : State} {c : Completion} {s : State} (h : Within s0 s) :
    Within s0 (removeTarget c s) := by
  unfold removeTarget
  repeat' first
    | with_reducible exact h | with_reducible assumption | with_reducible apply within_completeStanding
    | split | dsimp only
    | (with_reducible refine within_lit ?_ ?_ ?_ ?_ ?_ ?_ ?_ ?_
       rotate_left; iterate 6 (exact rfl)
       first | exact le_rfl | exact Nat.le_succ _)

theorem within_testWindDown {s0 : State} {s : State} (h : Within s0 s) :
    Within s0 (testWindDown s) := by
  unfold testWindDown
  repeat' first
    | with_reducible exact h | with_reducible assumption | with_reducible apply within_setMode
    | with_reducible apply within_completeStanding | with_reducible apply within_removeTarget | split
    | dsimp only
    | (with_reducible refine within_lit ?_ ?_ ?_ ?_ ?_ ?_ ?_ ?_
       rotate_left; iterate 6 (exact rfl)
       first | exact le_rfl | exact Nat.le_succ _)

theorem within_setWindDown {s0 : State} {s : State} (h : Within s0 s) :
    Within s0 (setWindDown s) := by
  unfold setWindDown
  repeat' first
    | with_reducible exact h | with_reducible assumption | with_reducible apply within_testWindDown | split
    | dsimp only
    | (with_reducible refine within_lit ?_ ?_ ?_ ?_ ?_ ?_ ?_ ?_
       rotate_left; iterate 6 (exact rfl)
       first | exact le_rfl | exact Nat.le_succ _)

theorem within_negateThrow {s0 : State} {s : State} (h : Within s0 s) :
    Within s0 (negateThrow s) := by
  unfold negateThrow
  repeat' first
    | with_reducible exact h | with_reducible assumption | with_reducible apply within_testWindDown | split
    | dsimp only
    | (with_reducible refine within_lit ?_ ?_ ?_ ?_ ?_ ?_ ?_ ?_
       rotate_left; iterate 6 (exact rfl)
       first | exact le_rfl | exact Nat.le_succ _)

theorem within_releaseThrow {s0 : State} {s : State} (h : Within s0 s) :
    Within s0 (releaseThrow s) := by
  unfold releaseThrow
  repeat' first
    | with_reducible exact h | with_reducible assumption | with_reducible apply within_negateThrow | split
    | dsimp only
    | (with_reducible refine within_lit ?_ ?_ ?_ ?_ ?_ ?_ ?_ ?_
       rotate_left; iterate 6 (exact rfl)
       first | exact le_rfl | exact Nat.le_succ _)

theorem within_dropNips {s0 : State} {s : State} (h : Within s0 s) :
    Within s0 (dropNips s) := by
  unfold dropNips
  repeat' first
    | with_reducible exact h | with_reducible assumption | split | dsimp only
    | (with_reducible refine within_lit ?_ ?_ ?_ ?_ ?_ ?_ ?_ ?_
       rotate_left; iterate 6 (exact rfl)
       first | exact le_rfl | exact Nat.le_succ _)

theorem within_reportRecords {s0 : State} {n : Lane} {e : PullEvent} {l : List PullRec} {s : State} (h : Within s0 s) :
    Within s0 (reportRecords n e l s) := by
  induction l generalizing s with
  | nil => exact h
  | cons r t ih => exact ih (within_handPull h)

theorem within_stopPull {s0 : State} {n : Lane} {s : State} (h : Within s0 s) :
    Within s0 (stopPull n s) := by
  unfold stopPull
  repeat' first
    | with_reducible exact h | with_reducible assumption | with_reducible apply within_markStatus
    | with_reducible apply within_setFoil | with_reducible apply within_testWindDown
    | with_reducible apply within_reportRecords | split | dsimp only
    | (with_reducible refine within_lit ?_ ?_ ?_ ?_ ?_ ?_ ?_ ?_
       rotate_left; iterate 6 (exact rfl)
       first | exact le_rfl | exact Nat.le_succ _)

theorem within_haltPull {s0 : State} {n : Lane} {s : State} (h : Within s0 s) :
    Within s0 (haltPull n s) := by
  unfold haltPull
  exact within_setFoil (within_stopPull h)

theorem within_clearPulls {s0 : State} {n : Lane} {s : State} (h : Within s0 s) :
    Within s0 (clearPulls n s) := by
  unfold clearPulls
  repeat' first
    | with_reducible exact h | with_reducible assumption | with_reducible apply within_setFoil
    | with_reducible apply within_stopPull | split | dsimp only
    | (with_reducible refine within_lit ?_ ?_ ?_ ?_ ?_ ?_ ?_ ?_
       rotate_left; iterate 6 (exact rfl)
       first | exact le_rfl | exact Nat.le_succ _)

theorem within_endSurvey {s0 : State} {o : SurveyOutcome} {s : State} (h : Within s0 s) :
    Within s0 (endSurvey o s) := by
  unfold endSurvey
  repeat' first
    | with_reducible exact h | with_reducible assumption | with_reducible apply within_latch
    | with_reducible apply within_offer | with_reducible apply within_completeStanding
    | with_reducible refine within_withLoaded ?_ (fun _ => ?_) | split | dsimp only
    | (with_reducible refine within_lit ?_ ?_ ?_ ?_ ?_ ?_ ?_ ?_
       rotate_left; iterate 6 (exact rfl)
       first | exact le_rfl | exact Nat.le_succ _)

theorem within_endRunningSurvey {s0 : State} {o : SurveyOutcome} {s : State} (h : Within s0 s) :
    Within s0 (endRunningSurvey o s) := by
  unfold endRunningSurvey
  repeat' first
    | with_reducible exact h | with_reducible assumption | with_reducible apply within_endSurvey | split
    | dsimp only
    | (with_reducible refine within_lit ?_ ?_ ?_ ?_ ?_ ?_ ?_ ?_
       rotate_left; iterate 6 (exact rfl)
       first | exact le_rfl | exact Nat.le_succ _)

theorem within_abandonTrack {s0 : State} {cause : AbandonCause} {s : State} (h : Within s0 s) :
    Within s0 (abandonTrack cause s) := by
  unfold abandonTrack
  exact within_offer (within_shr h rfl (.inl le_rfl) (.inl le_rfl) (.inl (Nat.zero_le _)) (fun k => k) le_rfl
    (Named.sublist (List.nil_sublist _) (List.nil_sublist _)))

theorem within_lanesToHunt {s0 : State} {s : State} (h : Within s0 s) :
    Within s0 (lanesToHunt s) := by
  unfold lanesToHunt
  refine within_shr h rfl (.inl le_rfl) (.inl le_rfl) (.inl le_rfl) (fun k n => ?_) le_rfl (fun k => k)
  simp only [PerLane.get_mapLane]
  split
  · exact fresh_range _ rfl (fun x => LaneState.noConfusion x) (Nat.zero_le _)
  · exact k n

theorem within_lanesToHuntReverse {s0 : State} {s : State} (h : Within s0 s) :
    Within s0 (lanesToHuntReverse s) := by
  unfold lanesToHuntReverse
  refine within_shr h rfl (.inl le_rfl) (.inl le_rfl) (.inl le_rfl) (fun k n => ?_) le_rfl (fun k => k)
  simp only [PerLane.get_mapLane]
  split
  · exact fresh_range _ rfl (fun x => LaneState.noConfusion x) ((k n).2.2)
  · exact k n

theorem within_lanesIdle {s0 : State} {s : State} (h : Within s0 s) :
    Within s0 (lanesIdle s) := by
  unfold lanesIdle
  refine within_shr h rfl (.inl le_rfl) (.inl le_rfl) (.inl le_rfl) (fun k n => ?_) le_rfl (fun k => k)
  simp only [PerLane.get_mapLane]
  split
  · exact fresh_range _ rfl (fun x => LaneState.noConfusion x) (Nat.zero_le _)
  · exact fresh_range _ rfl (fun x => LaneState.noConfusion x) (Nat.zero_le _)

theorem within_lanesOff {s0 : State} {s : State} (h : Within s0 s) :
    Within s0 (lanesOff s) := by
  unfold lanesOff
  refine within_shr h rfl (.inl le_rfl) (.inl le_rfl) (.inl le_rfl) (fun k n => ?_) le_rfl (fun k => k)
  simp only [PerLane.get_const]
  exact fresh_range _ rfl (fun x => LaneState.noConfusion x) (Nat.zero_le _)

theorem within_readersIdle {s0 : State} {s : State} (h : Within s0 s) :
    Within s0 (readersIdle s) := by
  unfold readersIdle
  repeat' first
    | with_reducible exact h | with_reducible assumption | split | dsimp only
    | (with_reducible refine within_lit ?_ ?_ ?_ ?_ ?_ ?_ ?_ ?_
       rotate_left; iterate 6 (exact rfl)
       first | exact le_rfl | exact Nat.le_succ _)

theorem within_readersSeek {s0 : State} {s : State} (h : Within s0 s) :
    Within s0 (readersSeek s) := by
  unfold readersSeek
  repeat' first
    | with_reducible exact h | with_reducible assumption | split | dsimp only
    | (with_reducible refine within_lit ?_ ?_ ?_ ?_ ?_ ?_ ?_ ?_
       rotate_left; iterate 6 (exact rfl)
       first | exact le_rfl | exact Nat.le_succ _)

theorem within_setHighWater {s0 : State} {s : State} (h : Within s0 s) :
    Within s0 (setHighWater s) := by
  unfold setHighWater
  repeat' first
    | with_reducible exact h | with_reducible assumption | split | dsimp only
    | (with_reducible refine within_lit ?_ ?_ ?_ ?_ ?_ ?_ ?_ ?_
       rotate_left; iterate 6 (exact rfl)
       first | exact le_rfl | exact Nat.le_succ _)

theorem within_dropTaps {s0 : State} {s : State} (h : Within s0 s) :
    Within s0 (dropTaps s) := by
  unfold dropTaps
  exact within_shr h rfl (.inl (Nat.zero_le _)) (.inl le_rfl) (.inl le_rfl) (fun k => k) le_rfl (fun k => k)

theorem within_loseConfiguration {s0 : State} {code : ErrorCode} {cause : ModeCause} {s : State} (h : Within s0 s) :
    Within s0 (loseConfiguration code cause s) := by
  unfold loseConfiguration
  refine within_readersIdle (within_lanesOff (within_latch (within_shr (within_dropTaps (within_setMode h))
    rfl (.inl le_rfl) (.inl (Nat.zero_le _)) (.inl (Nat.zero_le _)) (fun k => k) le_rfl
    (Named.sublist (List.nil_sublist _) (List.nil_sublist _)))))

theorem within_editInHeld {s0 : State} {s : State} (h : Within s0 s) :
    Within s0 (editInHeld s) := by
  unfold editInHeld
  repeat' first
    | with_reducible exact h | with_reducible assumption | with_reducible apply within_flushOffers
    | with_reducible apply within_loseConfiguration | split | dsimp only
    | (with_reducible refine within_lit ?_ ?_ ?_ ?_ ?_ ?_ ?_ ?_
       rotate_left; iterate 6 (exact rfl)
       first | exact le_rfl | exact Nat.le_succ _)

theorem within_recordFault {s0 : State} {k : FaultKind} {lane : Option Lane} {s : State} (h : Within s0 s) :
    Within s0 (recordFault k lane s) := by
  unfold recordFault
  repeat' first
    | with_reducible exact h | with_reducible assumption | split | dsimp only
    | (with_reducible refine within_lit ?_ ?_ ?_ ?_ ?_ ?_ ?_ ?_
       rotate_left; iterate 6 (exact rfl)
       first | exact le_rfl | exact Nat.le_succ _)

theorem within_startSurvey {s0 : State} {k q : Nat} {s : State} (h : Within s0 s) :
    Within s0 (startSurvey k q s) := by
  unfold startSurvey
  repeat' first
    | with_reducible exact h | with_reducible assumption | split | dsimp only
    | (with_reducible refine within_lit ?_ ?_ ?_ ?_ ?_ ?_ ?_ ?_
       rotate_left; iterate 6 (exact rfl)
       first | exact le_rfl | exact Nat.le_succ _)

theorem within_surveyPulse {s0 : State} {n : Lane} {e : Pos} {s : State} (h : Within s0 s) :
    Within s0 (surveyPulse n e s) := by
  unfold surveyPulse
  repeat' first
    | with_reducible exact h | with_reducible assumption | split | dsimp only
    | (with_reducible refine within_lit ?_ ?_ ?_ ?_ ?_ ?_ ?_ ?_
       rotate_left; iterate 6 (exact rfl)
       first | exact le_rfl | exact Nat.le_succ _)

theorem within_surveyRead {s0 : State} {n : Lane} {mark stop : Pos} {s : State} (h : Within s0 s) :
    Within s0 (surveyRead n mark stop s) := by
  unfold surveyRead
  repeat' first
    | with_reducible exact h | with_reducible assumption | split | dsimp only
    | (with_reducible refine within_lit ?_ ?_ ?_ ?_ ?_ ?_ ?_ ?_
       rotate_left; iterate 6 (exact rfl)
       first | exact le_rfl | exact Nat.le_succ _)

theorem within_testSurvey {s0 : State} {c : Loaded} {s : State} (h : Within s0 s) :
    Within s0 (testSurvey c s) := by
  unfold testSurvey
  repeat' first
    | with_reducible exact h | with_reducible assumption | with_reducible apply within_endSurvey | split
    | dsimp only
    | (with_reducible refine within_lit ?_ ?_ ?_ ?_ ?_ ?_ ?_ ?_
       rotate_left; iterate 6 (exact rfl)
       first | exact le_rfl | exact Nat.le_succ _)

theorem within_surveyRow {s0 : State} {r : Row} {s : State} (h : Within s0 s) :
    Within s0 (surveyRow r s) := by
  unfold surveyRow
  repeat' first
    | with_reducible exact h | with_reducible assumption | with_reducible apply within_testSurvey
    | with_reducible refine within_withLoaded ?_ (fun _ => ?_) | split | dsimp only
    | (with_reducible refine within_lit ?_ ?_ ?_ ?_ ?_ ?_ ?_ ?_
       rotate_left; iterate 6 (exact rfl)
       first | exact le_rfl | exact Nat.le_succ _)

theorem within_addOut {s0 : State} {n : Lane} {s : State} (h : Within s0 s) :
    Within s0 (addOut n s) := by
  unfold addOut
  repeat' first
    | with_reducible exact h | with_reducible assumption | with_reducible apply within_latch
    | with_reducible apply within_setFoil | with_reducible apply within_testLanesDown | split | dsimp only
    | (with_reducible refine within_lit ?_ ?_ ?_ ?_ ?_ ?_ ?_ ?_
       rotate_left; iterate 6 (exact rfl)
       first | exact le_rfl | exact Nat.le_succ _)

theorem within_runOut {s0 : State} {n : Lane} {s : State} (h : Within s0 s) :
    Within s0 (runOut n s) := by
  unfold runOut
  repeat' first
    | with_reducible exact h | with_reducible assumption | with_reducible apply within_latch
    | with_reducible apply within_setFoil | with_reducible apply within_testLanesDown
    | with_reducible apply within_stopPull | split | dsimp only
    | (with_reducible refine within_lit ?_ ?_ ?_ ?_ ?_ ?_ ?_ ?_
       rotate_left; iterate 6 (exact rfl)
       first | exact le_rfl | exact Nat.le_succ _)

theorem within_addBreak {s0 : State} {n : Lane} {s : State} (h : Within s0 s) :
    Within s0 (addBreak n s) := by
  unfold addBreak
  repeat' first
    | with_reducible exact h | with_reducible assumption | with_reducible apply within_latch
    | with_reducible apply within_setFoil | with_reducible apply within_testLanesDown
    | with_reducible apply within_stopPull | split | dsimp only
    | (with_reducible refine within_lit ?_ ?_ ?_ ?_ ?_ ?_ ?_ ?_
       rotate_left; iterate 6 (exact rfl)
       first | exact le_rfl | exact Nat.le_succ _)

theorem within_testLow {s0 : State} {c : Loaded} {n : Lane} {s : State} (h : Within s0 s) :
    Within s0 (testLow c n s) := by
  unfold testLow
  repeat' first
    | with_reducible exact h | with_reducible assumption | with_reducible apply within_latch
    | with_reducible apply within_setFoil | split | dsimp only
    | (with_reducible refine within_lit ?_ ?_ ?_ ?_ ?_ ?_ ?_ ?_
       rotate_left; iterate 6 (exact rfl)
       first | exact le_rfl | exact Nat.le_succ _)

theorem within_stepLoop {s0 : State} {c : Loaded} {n : Lane} {fuel : Nat} {s : State} (h : Within s0 s) :
    Within s0 (stepLoop c n fuel s) := by
  induction fuel generalizing s with
  | zero => exact h
  | succ k ih =>
    unfold stepLoop
    dsimp only
    split
    · split
      · exact within_runOut (within_testLow (within_setFoil h))
      · exact ih (within_testLow (within_setFoil h))
    · exact h

theorem within_testRunOut {s0 : State} {old : State} {n : Lane} {s : State} (h : Within s0 s) :
    Within s0 (testRunOut old n s) := by
  unfold testRunOut
  split
  · exact within_raiseFault h
  · exact h

theorem within_foilAdvance {s0 : State} {c : Loaded} {n : Lane} {s : State} (h : Within s0 s) :
    Within s0 (foilAdvance c n s) := by
  unfold foilAdvance
  repeat' first
    | with_reducible exact h | with_reducible assumption | with_reducible apply within_setFoil
    | with_reducible apply within_stepLoop | split | dsimp only
    | (with_reducible refine within_lit ?_ ?_ ?_ ?_ ?_ ?_ ?_ ?_
       rotate_left; iterate 6 (exact rfl)
       first | exact le_rfl | exact Nat.le_succ _)

theorem within_refusePull {s0 : State} {n : Lane} {row : Nat} {s : State} (h : Within s0 s) :
    Within s0 (refusePull n row s) := by
  unfold refusePull
  repeat' first
    | with_reducible exact h | with_reducible assumption | with_reducible apply within_setFoil
    | with_reducible apply within_handPull | split | dsimp only
    | (with_reducible refine within_lit ?_ ?_ ?_ ?_ ?_ ?_ ?_ ?_
       rotate_left; iterate 6 (exact rfl)
       first | exact le_rfl | exact Nat.le_succ _)

theorem within_beginPull {s0 : State} {n : Lane} {row : Nat} {s : State} (h : Within s0 s) :
    Within s0 (beginPull n row s) := by
  unfold beginPull
  repeat' first
    | with_reducible exact h | with_reducible assumption | with_reducible apply within_setFoil
    | with_reducible apply within_handPull | with_reducible apply within_addOut
    | with_reducible apply within_refusePull | with_reducible refine within_withLoaded ?_ (fun _ => ?_)
    | split | dsimp only
    | (with_reducible refine within_lit ?_ ?_ ?_ ?_ ?_ ?_ ?_ ?_
       rotate_left; iterate 6 (exact rfl)
       first | exact le_rfl | exact Nat.le_succ _)

theorem within_armPull {s0 : State} {n : Lane} {row : Nat} {p : Pull} {s : State} (h : Within s0 s) :
    Within s0 (armPull n row p s) := by
  unfold armPull
  repeat' first
    | with_reducible exact h | with_reducible assumption | with_reducible apply within_setFoil
    | with_reducible apply within_handPull | with_reducible apply within_beginPull | split | dsimp only
    | (with_reducible refine within_lit ?_ ?_ ?_ ?_ ?_ ?_ ?_ ?_
       rotate_left; iterate 6 (exact rfl)
       first | exact le_rfl | exact Nat.le_succ _)

theorem within_pullStart {s0 : State} {n : Lane} {s : State} (h : Within s0 s) :
    Within s0 (pullStart n s) := by
  unfold pullStart
  repeat' first
    | with_reducible exact h | with_reducible assumption | with_reducible apply within_beginPull | split
    | dsimp only
    | (with_reducible refine within_lit ?_ ?_ ?_ ?_ ?_ ?_ ?_ ?_
       rotate_left; iterate 6 (exact rfl)
       first | exact le_rfl | exact Nat.le_succ _)

theorem within_ownPullEnd {s0 : State} {n : Lane} {s : State} (h : Within s0 s) :
    Within s0 (ownPullEnd n s) := by
  unfold ownPullEnd
  repeat' first
    | with_reducible exact h | with_reducible assumption | with_reducible apply within_setFoil
    | with_reducible apply within_handPull | split | dsimp only
    | (with_reducible refine within_lit ?_ ?_ ?_ ?_ ?_ ?_ ?_ ?_
       rotate_left; iterate 6 (exact rfl)
       first | exact le_rfl | exact Nat.le_succ _)

theorem within_pullEnd {s0 : State} {n : Lane} {s : State} (h : Within s0 s) :
    Within s0 (pullEnd n s) := by
  unfold pullEnd
  repeat' first
    | with_reducible exact h | with_reducible assumption | with_reducible apply within_markStatus
    | with_reducible apply within_setFoil | with_reducible apply within_testWindDown
    | with_reducible apply within_reportRecords | split | dsimp only
    | (with_reducible refine within_lit ?_ ?_ ?_ ?_ ?_ ?_ ?_ ?_
       rotate_left; iterate 6 (exact rfl)
       first | exact le_rfl | exact Nat.le_succ _)

theorem within_foilbrkAssert {s0 : State} {n : Lane} {s : State} (h : Within s0 s) :
    Within s0 (foilbrkAssert n s) := by
  unfold foilbrkAssert
  repeat' first
    | with_reducible exact h | with_reducible assumption | with_reducible apply within_addBreak | split
    | dsimp only
    | (with_reducible refine within_lit ?_ ?_ ?_ ?_ ?_ ?_ ?_ ?_
       rotate_left; iterate 6 (exact rfl)
       first | exact le_rfl | exact Nat.le_succ _)

theorem within_foilLoadTaken {s0 : State} {c : Loaded} {n : Lane} {count : Word} {s : State} (h : Within s0 s) :
    Within s0 (foilLoadTaken c n count s) := by
  unfold foilLoadTaken
  repeat' first
    | with_reducible exact h | with_reducible assumption | with_reducible apply within_markStatus
    | with_reducible apply within_setFoil | with_reducible apply within_runOut
    | with_reducible apply within_testRunOut
    | with_reducible apply within_testLow | split | dsimp only
    | (with_reducible refine within_lit ?_ ?_ ?_ ?_ ?_ ?_ ?_ ?_
       rotate_left; iterate 6 (exact rfl)
       first | exact le_rfl | exact Nat.le_succ _)

theorem within_foilAtLoad {s0 : State} {n : Lane} {s : State} (h : Within s0 s) :
    Within s0 (foilAtLoad n s) := by
  unfold foilAtLoad
  repeat' first
    | with_reducible exact h | with_reducible assumption | with_reducible apply within_latch
    | with_reducible apply within_setFoil | with_reducible apply within_pullEnd | split | dsimp only
    | (with_reducible refine within_lit ?_ ?_ ?_ ?_ ?_ ?_ ?_ ?_
       rotate_left; iterate 6 (exact rfl)
       first | exact le_rfl | exact Nat.le_succ _)

theorem within_updateRow {s0 : State} {uid : Nat} {f : Row → Row} {s : State}
    (hf : ∀ r, r.uid = uid → (f r).uid = r.uid) (h : Within s0 s) :
    Within s0 (updateRow uid f s) := by
  unfold updateRow
  refine within_shr h rfl (.inl le_rfl) (.inl le_rfl) (.inl ?_) (fun k => k) le_rfl (Named.map_rows _ ?_)
  · rw [List.length_map]
  · intro r
    split
    · rename_i e; exact hf r e
    · rfl

theorem within_engage {s0 : State} {c : Loaded} {nip : Pos} {s : State} (h : Within s0 s) :
    Within s0 (engage c nip s) := by
  unfold engage
  repeat' first
    | with_reducible exact h | with_reducible assumption | split | dsimp only
    | (with_reducible refine within_lit ?_ ?_ ?_ ?_ ?_ ?_ ?_ ?_
       rotate_left; iterate 6 (exact rfl)
       first | exact le_rfl | exact Nat.le_succ _)

theorem within_takeDecided {s0 : State} {c : Loaded} {r : Row} {s : State} (h : Within s0 s) :
    Within s0 (takeDecided c r s) := by
  unfold takeDecided
  repeat' first
    | with_reducible exact h | with_reducible assumption | with_reducible apply within_engage | split
    | dsimp only
    | (with_reducible refine within_lit ?_ ?_ ?_ ?_ ?_ ?_ ?_ ?_
       rotate_left; iterate 6 (exact rfl)
       first | exact le_rfl | exact Nat.le_succ _)

theorem within_releasePoint {s0 : State} {s : State} (h : Within s0 s) :
    Within s0 (releasePoint s) := by
  unfold releasePoint
  repeat' first
    | with_reducible exact h | with_reducible assumption | with_reducible apply within_negateThrow | split
    | dsimp only
    | (with_reducible refine within_lit ?_ ?_ ?_ ?_ ?_ ?_ ?_ ?_
       rotate_left; iterate 6 (exact rfl)
       first | exact le_rfl | exact Nat.le_succ _)

theorem within_throwRise {s0 : State} {s : State} (h : Within s0 s) :
    Within s0 (throwRise s) := by
  unfold throwRise
  repeat' first
    | with_reducible exact h | with_reducible assumption | with_reducible apply within_raiseFault | split
    | dsimp only
    | (with_reducible refine within_lit ?_ ?_ ?_ ?_ ?_ ?_ ?_ ?_
       rotate_left; iterate 6 (exact rfl)
       first | exact le_rfl | exact Nat.le_succ _)

theorem within_throwFall {s0 : State} {s : State} (h : Within s0 s) :
    Within s0 (throwFall s) := by
  unfold throwFall
  repeat' first
    | with_reducible exact h | with_reducible assumption | with_reducible apply within_raiseFault
    | with_reducible apply within_testWindDown | split | dsimp only
    | (with_reducible refine within_lit ?_ ?_ ?_ ?_ ?_ ?_ ?_ ?_
       rotate_left; iterate 6 (exact rfl)
       first | exact le_rfl | exact Nat.le_succ _)

theorem within_heatFall {s0 : State} {s : State} (h : Within s0 s) :
    Within s0 (heatFall s) := by
  unfold heatFall
  repeat' first
    | with_reducible exact h | with_reducible assumption | with_reducible apply within_latch | split
    | dsimp only
    | (with_reducible refine within_lit ?_ ?_ ?_ ?_ ?_ ?_ ?_ ?_
       rotate_left; iterate 6 (exact rfl)
       first | exact le_rfl | exact Nat.le_succ _)

theorem within_cylIndexTaken {s0 : State} {s : State} (h : Within s0 s) :
    Within s0 (cylIndexTaken s) := by
  unfold cylIndexTaken
  repeat' first
    | with_reducible exact h | with_reducible assumption | with_reducible apply within_raiseFault | split
    | dsimp only
    | (with_reducible refine within_lit ?_ ?_ ?_ ?_ ?_ ?_ ?_ ?_
       rotate_left; iterate 6 (exact rfl)
       first | exact le_rfl | exact Nat.le_succ _)

theorem within_applyCorrection {s0 : State} {c : Loaded} {x : Int} {s : State} (h : Within s0 s) :
    Within s0 (applyCorrection c x s) := by
  unfold applyCorrection
  repeat' first
    | with_reducible exact h | with_reducible assumption | with_reducible apply within_raiseFault | split
    | dsimp only
    | (with_reducible refine within_lit ?_ ?_ ?_ ?_ ?_ ?_ ?_ ?_
       rotate_left; iterate 6 (exact rfl)
       first | exact le_rfl | exact Nat.le_succ _)

theorem within_trimAt {s0 : State} {c : Loaded} {err : Option Int} {s : State} (h : Within s0 s) :
    Within s0 (trimAt c err s) := by
  unfold trimAt
  repeat' first
    | with_reducible exact h | with_reducible assumption | with_reducible apply within_applyCorrection | split
    | dsimp only
    | (with_reducible refine within_lit ?_ ?_ ?_ ?_ ?_ ?_ ?_ ?_
       rotate_left; iterate 6 (exact rfl)
       first | exact le_rfl | exact Nat.le_succ _)

theorem within_takeNip {s0 : State} {s : State} (h : Within s0 s) :
    Within s0 (takeNip s) := by
  unfold takeNip
  repeat' first
    | with_reducible exact h | with_reducible assumption | with_reducible apply within_raiseFault
    | with_reducible refine within_updateRow (fun _ _ => rfl) ?_ | with_reducible apply within_trimAt
    | with_reducible refine within_withLoaded ?_ (fun _ => ?_) | split | dsimp only
    | (with_reducible refine within_lit ?_ ?_ ?_ ?_ ?_ ?_ ?_ ?_
       rotate_left; iterate 6 (exact rfl)
       first | exact le_rfl | exact Nat.le_succ _)

theorem within_nipTaken {s0 : State} {s : State} (h : Within s0 s) :
    Within s0 (nipTaken s) := by
  unfold nipTaken
  repeat' first
    | with_reducible exact h | with_reducible assumption | with_reducible apply within_takeNip | split
    | dsimp only
    | (with_reducible refine within_lit ?_ ?_ ?_ ?_ ?_ ?_ ?_ ?_
       rotate_left; iterate 6 (exact rfl)
       first | exact le_rfl | exact Nat.le_succ _)

theorem within_flagRows {s0 : State} {s : State} (h : Within s0 s) :
    Within s0 (flagRows s) := by
  unfold flagRows
  refine within_shr h rfl (.inl le_rfl) (.inl le_rfl) (.inl ?_) (fun k => k) le_rfl
    (Named.map_rows _ (fun _ => rfl))
  rw [List.length_map]

theorem within_reopenSpan {s0 : State} {p : Span} {s : State} (h : Within s0 s) :
    Within s0 (reopenSpan p s) := by
  unfold reopenSpan
  refine within_shr h rfl (.inl le_rfl) (.inl le_rfl) (.inl le_rfl) (fun k => k) le_rfl
    (Named.map_spans _ fun x => ?_)
  split
  · rename_i e; exact e.symm
  · rfl

theorem within_newSplice {s0 : State} {n : Lane} {dark start : Pos} {s : State} (h : Within s0 s) :
    Within s0 (newSplice n dark start s) := by
  unfold newSplice
  repeat' first
    | with_reducible exact h | with_reducible assumption | with_reducible apply within_latch
    | with_reducible apply within_offer | with_reducible apply within_endRunningSurvey | split | dsimp only
    | (with_reducible refine within_lit ?_ ?_ ?_ ?_ ?_ ?_ ?_ ?_
       rotate_left; iterate 6 (exact rfl)
       first | exact le_rfl | exact Nat.le_succ _)

theorem within_addSpan {s0 : State} {l : List Span} {start : Pos} {n : Lane} {s : State}
    (hl : l.Sublist s.track.splices) (h : Within s0 s) :
    Within s0 (addSpan l start n s) := by
  unfold addSpan
  exact within_shr h rfl (.inl le_rfl) (.inl le_rfl) (.inl le_rfl) (fun k => k) (Nat.le_succ _)
    (fun k => Named.add_span _ rfl (Named.sublist (List.Sublist.refl _) hl k))

theorem within_takeDetection {s0 : State} {c : Loaded} {n : Lane} {dark : Pos} {s : State} (h : Within s0 s) :
    Within s0 (takeDetection c n dark s) := by
  unfold takeDetection
  dsimp only
  split
  · exact within_flagRows (within_reopenSpan h)
  · split
    · exact within_newSplice (within_flagRows (within_addSpan (List.Sublist.refl _) h))
    · split
      · exact within_newSplice (within_flagRows (within_addSpan List.filter_sublist h))
      · split
        · exact within_newSplice (within_flagRows (within_reopenSpan h))
        · exact h

theorem within_spliceDetectionTaken {s0 : State} {n : Lane} {s : State} (h : Within s0 s) :
    Within s0 (spliceDetectionTaken n s) := by
  unfold spliceDetectionTaken
  repeat' first
    | with_reducible exact h | with_reducible assumption | with_reducible apply within_takeDetection
    | with_reducible refine within_withLoaded ?_ (fun _ => ?_) | split | dsimp only
    | (with_reducible refine within_lit ?_ ?_ ?_ ?_ ?_ ?_ ?_ ?_
       rotate_left; iterate 6 (exact rfl)
       first | exact le_rfl | exact Nat.le_succ _)

theorem within_takeLightReturn {s0 : State} {c : Loaded} {n : Lane} {l : Pos} {s : State} (h : Within s0 s) :
    Within s0 (takeLightReturn c n l s) := by
  unfold takeLightReturn
  split
  · exact h
  · refine within_shr h rfl (.inl le_rfl) (.inl le_rfl) (.inl le_rfl) (fun k => k) le_rfl
      (Named.map_spans _ fun x => ?_)
    split
    · rename_i e; exact e.symm
    · rfl

theorem within_lightReturnTaken {s0 : State} {n : Lane} {s : State} (h : Within s0 s) :
    Within s0 (lightReturnTaken n s) := by
  unfold lightReturnTaken
  repeat' first
    | with_reducible exact h | with_reducible assumption | with_reducible apply within_takeLightReturn
    | with_reducible refine within_withLoaded ?_ (fun _ => ?_) | split | dsimp only
    | (with_reducible refine within_lit ?_ ?_ ?_ ?_ ?_ ?_ ?_ ?_
       rotate_left; iterate 6 (exact rfl)
       first | exact le_rfl | exact Nat.le_succ _)

theorem within_lowerSkips {s0 : State} {cells : PerLane (Option Cell)} {s : State} (h : Within s0 s) :
    Within s0 (lowerSkips cells s) := by
  unfold lowerSkips
  refine within_shr h rfl (.inl le_rfl) (.inl le_rfl) (.inl le_rfl) (fun k n => ?_) le_rfl (fun k => k)
  have := k n
  simp only [PerLane.get_mapLane]
  split
  · exact ⟨this.1, this.2.1, le_trans (Nat.sub_le _ _) this.2.2⟩
  · exact this

theorem within_setLastReasons {s0 : State} {cells : PerLane (Option Cell)} {s : State} (h : Within s0 s) :
    Within s0 (setLastReasons cells s) := by
  unfold setLastReasons
  repeat' first
    | with_reducible exact h | with_reducible assumption | split | dsimp only
    | (with_reducible refine within_lit ?_ ?_ ?_ ?_ ?_ ?_ ?_ ?_
       rotate_left; iterate 6 (exact rfl)
       first | exact le_rfl | exact Nat.le_succ _)

theorem within_countStrikeRow {s0 : State} {s : State} (h : Within s0 s) :
    Within s0 (countStrikeRow s) := by
  unfold countStrikeRow
  repeat' first
    | with_reducible exact h | with_reducible assumption | with_reducible apply within_removeTarget
    | with_reducible apply within_setWindDown | split | dsimp only
    | (with_reducible refine within_lit ?_ ?_ ?_ ?_ ?_ ?_ ?_ ?_
       rotate_left; iterate 6 (exact rfl)
       first | exact le_rfl | exact Nat.le_succ _)

theorem within_armLane {s0 : State} {uid : Nat} {cells : PerLane (Option Cell)} {n : Lane} {s : State} (h : Within s0 s) :
    Within s0 (armLane uid cells n s) := by
  unfold armLane
  repeat' first
    | with_reducible exact h | with_reducible assumption | with_reducible apply within_armPull | split
    | dsimp only
    | (with_reducible refine within_lit ?_ ?_ ?_ ?_ ?_ ?_ ?_ ?_
       rotate_left; iterate 6 (exact rfl)
       first | exact le_rfl | exact Nat.le_succ _)

theorem within_handDecided {s0 : State} {c : Loaded} {r : Row} {s : State} (h : Within s0 s) :
    Within s0 (handDecided c r s) := by
  unfold handDecided
  repeat' first
    | with_reducible exact h | with_reducible assumption | with_reducible apply within_takeDecided
    | with_reducible apply within_takeNip | split | dsimp only
    | (with_reducible refine within_lit ?_ ?_ ?_ ?_ ?_ ?_ ?_ ?_
       rotate_left; iterate 6 (exact rfl)
       first | exact le_rfl | exact Nat.le_succ _)

theorem within_decideRow {s0 : State} {uid : Nat} {s : State} (h : Within s0 s) :
    Within s0 (decideRow uid s) := by
  unfold decideRow
  refine within_withLoaded h (fun c => ?_)
  split
  · exact h
  · rename_i r hr
    have hu : r.uid = uid := by simpa using List.find?_some hr
    refine within_handDecided (within_forLanes (fun _ _ k => within_armLane k) ?_)
    have k := fun (x : Row) (e : x.uid = uid) => hu.trans e.symm
    split
    · exact within_countStrikeRow (within_setLastReasons (within_lowerSkips (within_updateRow k h)))
    · exact within_setLastReasons (within_lowerSkips (within_updateRow k h))

theorem within_decisionTaken {s0 : State} {s : State} (h : Within s0 s) :
    Within s0 (decisionTaken s) := by
  unfold decisionTaken
  repeat' first
    | with_reducible exact h | with_reducible assumption | with_reducible apply within_decideRow | split
    | dsimp only
    | (with_reducible refine within_lit ?_ ?_ ?_ ?_ ?_ ?_ ?_ ?_
       rotate_left; iterate 6 (exact rfl)
       first | exact le_rfl | exact Nat.le_succ _)

theorem within_decideIfReached {s0 : State} {uid : Nat} {s : State} (h : Within s0 s) :
    Within s0 (decideIfReached uid s) := by
  unfold decideIfReached
  repeat' first
    | with_reducible exact h | with_reducible assumption | with_reducible apply within_decideRow | split
    | dsimp only
    | (with_reducible refine within_lit ?_ ?_ ?_ ?_ ?_ ?_ ?_ ?_
       rotate_left; iterate 6 (exact rfl)
       first | exact le_rfl | exact Nat.le_succ _)

theorem within_skewDiscard {s0 : State} {n : Lane} {s : State} (h : Within s0 s) :
    Within s0 (skewDiscard n s) := by
  unfold skewDiscard
  repeat' first
    | with_reducible exact h | with_reducible assumption | with_reducible apply within_giveSkew | split
    | dsimp only
    | (with_reducible refine within_lit ?_ ?_ ?_ ?_ ?_ ?_ ?_ ?_
       rotate_left; iterate 6 (exact rfl)
       first | exact le_rfl | exact Nat.le_succ _)


theorem within_needRow {s0 : State} {c : Loaded} {n : Lane} {cell : Cell} {nip : Pos} {s : State} (h : Within s0 s) :
    Within s0 (needRow c n cell nip s) := by
  unfold needRow
  split
  · rename_i hl
    unfold createRow
    refine within_decideIfReached (within_shr h rfl (.inl le_rfl) (.inl le_rfl) (.inr ?_) (fun k => k)
      (Nat.le_succ _) (Named.add_row _ rfl))
    rw [List.length_append]; exact hl
  · exact within_raiseFault h

theorem within_joinCell {s0 : State} {c : Loaded} {n : Lane} {cell : Cell} {nip : Pos} {r : Row} {s : State} (h : Within s0 s) :
    Within s0 (joinCell c n cell nip r s) := by
  unfold joinCell
  have k : ∀ r2 : Row, r2.uid = r.uid →
      Within s0 (updateRow r.uid (fun _ => flagRow s.track.splices r2) s) :=
    fun r2 e => within_updateRow (fun x ex => e.trans ex.symm) h
  dsimp only
  split
  · exact within_decideIfReached (k _ rfl)
  · exact k _ rfl

theorem within_placeCell {s0 : State} {c : Loaded} {n : Lane} {cell : Cell} {nip : Pos} {s : State} (h : Within s0 s) :
    Within s0 (placeCell c n cell nip s) := by
  unfold placeCell
  repeat' first
    | with_reducible exact h | with_reducible assumption | with_reducible apply within_skewDiscard
    | with_reducible apply within_needRow | with_reducible apply within_joinCell | split | dsimp only
    | (with_reducible refine within_lit ?_ ?_ ?_ ?_ ?_ ?_ ?_ ?_
       rotate_left; iterate 6 (exact rfl)
       first | exact le_rfl | exact Nat.le_succ _)

theorem within_cellTaken {s0 : State} {n : Lane} {s : State} (h : Within s0 s) :
    Within s0 (cellTaken n s) := by
  unfold cellTaken
  repeat' first
    | with_reducible exact h | with_reducible assumption | with_reducible apply within_placeCell
    | with_reducible refine within_withLoaded ?_ (fun _ => ?_) | split | dsimp only
    | (with_reducible refine within_lit ?_ ?_ ?_ ?_ ?_ ?_ ?_ ?_
       rotate_left; iterate 6 (exact rfl)
       first | exact le_rfl | exact Nat.le_succ _)

theorem within_pullReportTaken {s0 : State} {n : Lane} {s : State} (h : Within s0 s) :
    Within s0 (pullReportTaken n s) := by
  unfold pullReportTaken
  split
  · exact h
  · exact within_updateRow (fun _ _ => rfl) (within_lit h rfl rfl rfl rfl rfl rfl le_rfl)

theorem within_beginPulse {s0 : State} {c : Loaded} {point : Pos} {n : Lane} {s : State} (h : Within s0 s) :
    Within s0 (beginPulse c point n s) := by
  unfold beginPulse
  repeat' first
    | with_reducible exact h | with_reducible assumption | split | dsimp only
    | (with_reducible refine within_lit ?_ ?_ ?_ ?_ ?_ ?_ ?_ ?_
       rotate_left; iterate 6 (exact rfl)
       first | exact le_rfl | exact Nat.le_succ _)

theorem within_pulseLane {s0 : State} {c : Loaded} {point : Pos} {r : Row} {n : Lane} {s : State} (h : Within s0 s) :
    Within s0 (pulseLane c point r n s) := by
  unfold pulseLane
  repeat' first
    | with_reducible exact h | with_reducible assumption | with_reducible apply within_beginPulse | split
    | dsimp only
    | (with_reducible refine within_lit ?_ ?_ ?_ ?_ ?_ ?_ ?_ ?_
       rotate_left; iterate 6 (exact rfl)
       first | exact le_rfl | exact Nat.le_succ _)

theorem within_retireRow {s0 : State} {r : Row} {s : State} (h : Within s0 s) :
    Within s0 (retireRow r s) := by
  unfold retireRow
  refine within_surveyRow (within_offer (within_shr h rfl (.inl le_rfl) (.inl le_rfl) (.inl ?_) (fun k => k) le_rfl
    (Named.sublist List.filter_sublist (List.Sublist.refl _))))
  exact List.length_filter_le _ _

theorem within_rejectPointTaken {s0 : State} {s : State} (h : Within s0 s) :
    Within s0 (rejectPointTaken s) := by
  unfold rejectPointTaken
  refine within_withLoaded h (fun c => ?_)
  split
  · exact h
  · split
    · exact within_retireRow (within_forLanes (fun _ _ k => within_pulseLane k) h)
    · exact h

theorem within_rejectEndTaken {s0 : State} {n : Lane} {s : State} (h : Within s0 s) :
    Within s0 (rejectEndTaken n s) := by
  unfold rejectEndTaken
  repeat' first
    | with_reducible exact h | with_reducible assumption | split | dsimp only
    | (with_reducible refine within_lit ?_ ?_ ?_ ?_ ?_ ?_ ?_ ?_
       rotate_left; iterate 6 (exact rfl)
       first | exact le_rfl | exact Nat.le_succ _)

theorem within_enterBlocked {s0 : State} {n : Lane} {src : LaneSource} {s : State} (h : Within s0 s) :
    Within s0 (enterBlocked n src s) := by
  unfold enterBlocked
  repeat' first
    | with_reducible exact h | with_reducible assumption | with_reducible apply within_latch
    | with_reducible apply within_offer | with_reducible apply within_testLanesDown | split | dsimp only
    | (with_reducible refine within_lit ?_ ?_ ?_ ?_ ?_ ?_ ?_ ?_
       rotate_left; iterate 6 (exact rfl)
       first | exact le_rfl | exact Nat.le_succ _)

theorem hunt_range (t : Tracker) (h : t.inRange) : t.hunt.inRange :=
  fresh_range _ rfl (fun k => LaneState.noConfusion k) h.2.2

/-- A counter in range of a lane that is not BLOCKED is below 32. -/
theorem quality_lt (t : Tracker) (h : t.inRange) (hb : t.state ≠ .blocked) :
    t.quality < Config.blockedQuality :=
  lt_of_le_of_ne h.1 (fun k => hb (h.2.1.mp k))

theorem raiseQuality_range (q m : Nat) (t : Tracker) (hb : t.state ≠ .blocked) (h : t.inRange) :
    (raiseQuality q m t).inRange := by
  unfold raiseQuality
  split
  · rename_i hq
    exact ⟨Nat.le_of_lt hq, ⟨fun k => absurd k (Nat.ne_of_lt hq), fun k => absurd k hb⟩, h.2.2⟩
  · exact ⟨le_rfl, ⟨fun _ => rfl, fun _ => rfl⟩, h.2.2⟩

/-- A tracker whose state becomes another that is not BLOCKED, with the counters kept. -/
theorem restate_range (t : Tracker) (h : t.inRange) (hb : t.state ≠ .blocked) (u : Tracker)
    (hu : u.state ≠ .blocked) (hq : u.quality ≤ t.quality) (hs : u.skip = t.skip) : u.inRange :=
  ⟨hq.trans h.1, ⟨fun k => absurd k (Nat.ne_of_lt (lt_of_le_of_lt hq (quality_lt t h hb))),
    fun k => absurd k hu⟩, hs ▸ h.2.2⟩

theorem judgeHunt_range (c : Loaded) (n : Lane) (t : Tracker) (r : ReadMsg) (h : t.inRange)
    (hb : t.state ≠ .blocked) : (judgeHunt c n t r).tracker.inRange := by
  unfold judgeHunt
  dsimp only
  repeat' split
  all_goals first
    | exact h
    | exact restate_range t h hb _ (fun k => LaneState.noConfusion k) le_rfl rfl

theorem lockedAt_range (t : Tracker) (p : Nat) (h : t.inRange) (hb : t.state ≠ .blocked) :
    (lockedAt t p).inRange := restate_range t h hb _ (fun k => LaneState.noConfusion k) le_rfl rfl

theorem judgeUnread_range (c : Loaded) (n : Lane) (t : Tracker) (r : ReadMsg) (p : Nat) (u : UnreadCause)
    (h : t.inRange) (hb : t.state ≠ .blocked) : (judgeUnread c n t r p u).tracker.inRange :=
  raiseQuality_range _ _ (lockedAt t p) (fun k => LaneState.noConfusion k) (lockedAt_range t p h hb)

theorem judgeTracked_range (c : Loaded) (n : Lane) (t : Tracker) (r : ReadMsg) (h : t.inRange)
    (hb : t.state ≠ .blocked) : (judgeTracked c n t r).tracker.inRange := by
  have raised : ∀ (q m : Nat) (u : Tracker), u.state ≠ .blocked → u.quality ≤ t.quality → u.skip = t.skip →
      (raiseQuality q m u).inRange := fun q m u hu hq hs =>
    raiseQuality_range q m u hu (restate_range t h hb u hu hq hs)
  unfold judgeTracked
  dsimp only
  split
  · unfold judgeMissed
    dsimp only
    split
    · exact raised _ _ _ (fun k => LaneState.noConfusion k) le_rfl rfl
    · exact raised _ _ _ (fun k => LaneState.noConfusion k) le_rfl rfl
  · split
    · exact restate_range t h hb _ (fun k => LaneState.noConfusion k) (Nat.sub_le _ _) rfl
    · unfold judgeOther
      split
      · exact raised _ _ _ (fun k => LaneState.noConfusion k) le_rfl rfl
      · exact raised _ _ _ (fun k => LaneState.noConfusion k) le_rfl rfl
    · exact judgeUnread_range c n t r _ _ h hb
    · exact judgeUnread_range c n t r _ _ h hb
  · exact judgeUnread_range c n t r _ _ h hb
  · exact judgeUnread_range c n t r _ _ h hb

theorem within_applyJudged {s0 : State} {n : Lane} {j : Judged} {s : State} (h : Within s0 s)
    (hj : LanesInRange s → j.tracker.inRange) : Within s0 (applyJudged n j s) := by
  unfold applyJudged
  dsimp only
  have h1 := within_setLane (n := n) h hj
  have h2 : Within s0 (if j.cell.status.countedHere = true then countUnread (setLane n j.tracker s)
      else setLane n j.tracker s) := by
    split
    · exact within_countUnread h1
    · exact h1
  generalize (if j.cell.status.countedHere = true then countUnread (setLane n j.tracker s)
      else setLane n j.tracker s) = u at h2 ⊢
  have h3 : Within s0 (if j.resync = true then { u with cnt := { u.cnt with resyncs := u.cnt.resyncs + 1 } }
      else u) := by
    split
    · exact within_lit h2 rfl rfl rfl rfl rfl rfl le_rfl
    · exact h2
  generalize (if j.resync = true then { u with cnt := { u.cnt with resyncs := u.cnt.resyncs + 1 } }
      else u) = v at h3 ⊢
  split
  · exact within_enterBlocked (within_handCell h3)
  · exact within_handCell h3

theorem within_readTakenBy {s0 : State} {n : Lane} {s : State} (h : Within s0 s) :
    Within s0 (readTakenBy n s) := by
  unfold readTakenBy
  split
  · exact h
  · dsimp only
    refine within_withLoaded (within_lit h rfl rfl rfl rfl rfl rfl le_rfl) (fun c => ?_)
    split
    · rename_i hst
      exact within_applyJudged (within_lit h rfl rfl rfl rfl rfl rfl le_rfl)
        (fun k => judgeHunt_range c n _ _ (k n) (by rw [hst]; decide))
    · rename_i hst
      exact within_applyJudged (within_lit h rfl rfl rfl rfl rfl rfl le_rfl)
        (fun k => judgeTracked_range c n _ _ (k n) (by rw [hst]; decide))
    · rename_i hst
      exact within_applyJudged (within_lit h rfl rfl rfl rfl rfl rfl le_rfl)
        (fun k => judgeTracked_range c n _ _ (k n) (by rw [hst]; decide))
    all_goals exact within_lit h rfl rfl rfl rfl rfl rfl le_rfl

theorem within_noticeTaken {s0 : State} {n : Lane} {src : LaneSource} {s : State} (h : Within s0 s) :
    Within s0 (noticeTaken n src s) := by
  unfold noticeTaken
  dsimp only
  have hs : (s.lanes.get n).state ≠ .blocked →
      Within s0 (setLane n (raiseQuality (s.lanes.get n).quality (s.lanes.get n).misses (s.lanes.get n)) s) :=
    fun hb => within_setLane h (fun k => raiseQuality_range _ _ _ hb (k n))
  split
  iterate 3
    rename_i hst
    have hs := hs (by rw [hst]; decide)
    split
    · exact within_enterBlocked hs
    · exact hs
  all_goals exact h

theorem within_strayTaken {s0 : State} {n : Lane} {s : State} (h : Within s0 s) :
    Within s0 (strayTaken n s) := by
  unfold strayTaken
  repeat' first
    | with_reducible exact h | with_reducible assumption | with_reducible apply within_noticeTaken | split
    | dsimp only
    | (with_reducible refine within_lit ?_ ?_ ?_ ?_ ?_ ?_ ?_ ?_
       rotate_left; iterate 6 (exact rfl)
       first | exact le_rfl | exact Nat.le_succ _)

theorem within_skewTaken {s0 : State} {n : Lane} {s : State} (h : Within s0 s) :
    Within s0 (skewTaken n s) := by
  unfold skewTaken
  repeat' first
    | with_reducible exact h | with_reducible assumption | with_reducible apply within_noticeTaken | split
    | dsimp only
    | (with_reducible refine within_lit ?_ ?_ ?_ ?_ ?_ ?_ ?_ ?_
       rotate_left; iterate 6 (exact rfl)
       first | exact le_rfl | exact Nat.le_succ _)

theorem within_resumeTaken {s0 : State} {n : Lane} {s : State} (h : Within s0 s) :
    Within s0 (resumeTaken n s) := by
  unfold resumeTaken
  split
  · exact h
  · dsimp only
    split
    all_goals first
      | exact within_lit h rfl rfl rfl rfl rfl rfl le_rfl
      | exact within_setLane (within_lit h rfl rfl rfl rfl rfl rfl le_rfl) (fun k => hunt_range _ (k n))

theorem within_missMark {s0 : State} {c : Loaded} {n : Lane} {s : State} (h : Within s0 s) :
    Within s0 (missMark c n s) := by
  unfold missMark
  repeat' first
    | with_reducible exact h | with_reducible assumption | with_reducible apply within_setReader
    | with_reducible apply within_handRead | split | dsimp only
    | (with_reducible refine within_lit ?_ ?_ ?_ ?_ ?_ ?_ ?_ ?_
       rotate_left; iterate 6 (exact rfl)
       first | exact le_rfl | exact Nat.le_succ _)

theorem within_windowEndTaken {s0 : State} {n : Lane} {s : State} (h : Within s0 s) :
    Within s0 (windowEndTaken n s) := by
  unfold windowEndTaken
  repeat' first
    | with_reducible exact h | with_reducible assumption | with_reducible apply within_setReader
    | with_reducible apply within_missMark | with_reducible refine within_withLoaded ?_ (fun _ => ?_) | split
    | dsimp only
    | (with_reducible refine within_lit ?_ ?_ ?_ ?_ ?_ ?_ ?_ ?_
       rotate_left; iterate 6 (exact rfl)
       first | exact le_rfl | exact Nat.le_succ _)

theorem within_leadingEdge {s0 : State} {n : Lane} {s : State} (h : Within s0 s) :
    Within s0 (leadingEdge n s) := by
  unfold leadingEdge
  repeat' first
    | with_reducible exact h | with_reducible assumption | with_reducible apply within_setReader
    | with_reducible refine within_withLoaded ?_ (fun _ => ?_) | split | dsimp only
    | (with_reducible refine within_lit ?_ ?_ ?_ ?_ ?_ ?_ ?_ ?_
       rotate_left; iterate 6 (exact rfl)
       first | exact le_rfl | exact Nat.le_succ _)

theorem within_acceptMark {s0 : State} {c : Loaded} {n : Lane} {p : Pulse} {w : Nat} {s : State} (h : Within s0 s) :
    Within s0 (acceptMark c n p w s) := by
  unfold acceptMark
  repeat' first
    | with_reducible exact h | with_reducible assumption | with_reducible apply within_setReader | split
    | dsimp only
    | (with_reducible refine within_lit ?_ ?_ ?_ ?_ ?_ ?_ ?_ ?_
       rotate_left; iterate 6 (exact rfl)
       first | exact le_rfl | exact Nat.le_succ _)

theorem within_endPulse {s0 : State} {c : Loaded} {n : Lane} {p : Pulse} {s : State} (h : Within s0 s) :
    Within s0 (endPulse c n p s) := by
  unfold endPulse
  repeat' first
    | with_reducible exact h | with_reducible assumption | with_reducible apply within_setReader
    | with_reducible apply within_missMark | split | dsimp only
    | (with_reducible refine within_lit ?_ ?_ ?_ ?_ ?_ ?_ ?_ ?_
       rotate_left; iterate 6 (exact rfl)
       first | exact le_rfl | exact Nat.le_succ _)

theorem within_strayMark {s0 : State} {n : Lane} {s : State} (h : Within s0 s) :
    Within s0 (strayMark n s) := by
  unfold strayMark
  repeat' first
    | with_reducible exact h | with_reducible assumption | with_reducible apply within_giveStray | split
    | dsimp only
    | (with_reducible refine within_lit ?_ ?_ ?_ ?_ ?_ ?_ ?_ ?_
       rotate_left; iterate 6 (exact rfl)
       first | exact le_rfl | exact Nat.le_succ _)

theorem within_pulseTrailing {s0 : State} {c : Loaded} {n : Lane} {p : Pulse} {s : State} (h : Within s0 s) :
    Within s0 (pulseTrailing c n p s) := by
  unfold pulseTrailing
  repeat' first
    | with_reducible exact h | with_reducible assumption | with_reducible apply within_surveyPulse
    | with_reducible apply within_acceptMark | with_reducible apply within_endPulse
    | with_reducible apply within_strayMark | split | dsimp only
    | (with_reducible refine within_lit ?_ ?_ ?_ ?_ ?_ ?_ ?_ ?_
       rotate_left; iterate 6 (exact rfl)
       first | exact le_rfl | exact Nat.le_succ _)

theorem within_lightReturn {s0 : State} {n : Lane} {s : State} (h : Within s0 s) :
    Within s0 (lightReturn n s) := by
  unfold lightReturn
  repeat' first
    | with_reducible exact h | with_reducible assumption | with_reducible apply within_setReader
    | with_reducible apply within_handSplice | split | dsimp only
    | (with_reducible refine within_lit ?_ ?_ ?_ ?_ ?_ ?_ ?_ ?_
       rotate_left; iterate 6 (exact rfl)
       first | exact le_rfl | exact Nat.le_succ _)

theorem within_trailingEdge {s0 : State} {n : Lane} {s : State} (h : Within s0 s) :
    Within s0 (trailingEdge n s) := by
  unfold trailingEdge
  repeat' first
    | with_reducible exact h | with_reducible assumption | with_reducible apply within_setReader
    | with_reducible apply within_pulseTrailing | with_reducible apply within_lightReturn
    | with_reducible refine within_withLoaded ?_ (fun _ => ?_) | split | dsimp only
    | (with_reducible refine within_lit ?_ ?_ ?_ ?_ ?_ ?_ ?_ ?_
       rotate_left; iterate 6 (exact rfl)
       first | exact le_rfl | exact Nat.le_succ _)

theorem within_sampleTaken {s0 : State} {n : Lane} {s : State} (h : Within s0 s) :
    Within s0 (sampleTaken n s) := by
  unfold sampleTaken
  repeat' first
    | with_reducible exact h | with_reducible assumption | with_reducible apply within_setReader
    | with_reducible refine within_withLoaded ?_ (fun _ => ?_) | split | dsimp only
    | (with_reducible refine within_lit ?_ ?_ ?_ ?_ ?_ ?_ ?_ ?_
       rotate_left; iterate 6 (exact rfl)
       first | exact le_rfl | exact Nat.le_succ _)

theorem within_handResult {s0 : State} {n : Lane} {x : ReadInHand} {result : ReadResult} {s : State} (h : Within s0 s) :
    Within s0 (handResult n x result s) := by
  unfold handResult
  repeat' first
    | with_reducible exact h | with_reducible assumption | with_reducible apply within_handRead
    | with_reducible apply within_countUnread | with_reducible apply within_surveyRead | split | dsimp only
    | (with_reducible refine within_lit ?_ ?_ ?_ ?_ ?_ ?_ ?_ ?_
       rotate_left; iterate 6 (exact rfl)
       first | exact le_rfl | exact Nat.le_succ _)

theorem within_stopTaken {s0 : State} {n : Lane} {s : State} (h : Within s0 s) :
    Within s0 (stopTaken n s) := by
  unfold stopTaken
  repeat' first
    | with_reducible exact h | with_reducible assumption | with_reducible apply within_setReader
    | with_reducible apply within_handResult | split | dsimp only
    | (with_reducible refine within_lit ?_ ?_ ?_ ?_ ?_ ?_ ?_ ?_
       rotate_left; iterate 6 (exact rfl)
       first | exact le_rfl | exact Nat.le_succ _)

theorem within_abortForSplice {s0 : State} {n : Lane} {r : Reader} {s : State} (h : Within s0 s) :
    Within s0 (abortForSplice n r s) := by
  unfold abortForSplice
  repeat' first
    | with_reducible exact h | with_reducible assumption | with_reducible apply within_handRead
    | with_reducible apply within_countUnread | with_reducible apply within_handResult | split | dsimp only
    | (with_reducible refine within_lit ?_ ?_ ?_ ?_ ?_ ?_ ?_ ?_
       rotate_left; iterate 6 (exact rfl)
       first | exact le_rfl | exact Nat.le_succ _)

theorem within_spliceDetected {s0 : State} {n : Lane} {s : State} (h : Within s0 s) :
    Within s0 (spliceDetected n s) := by
  unfold spliceDetected
  repeat' first
    | with_reducible exact h | with_reducible assumption | with_reducible apply within_setReader
    | with_reducible apply within_handSplice | with_reducible apply within_abortForSplice | split | dsimp only
    | (with_reducible refine within_lit ?_ ?_ ?_ ?_ ?_ ?_ ?_ ?_
       rotate_left; iterate 6 (exact rfl)
       first | exact le_rfl | exact Nat.le_succ _)

theorem within_backwardReader {s0 : State} {n : Lane} {s : State} (h : Within s0 s) :
    Within s0 (backwardReader n s) := by
  unfold backwardReader
  repeat' first
    | with_reducible exact h | with_reducible assumption | with_reducible apply within_setReader
    | with_reducible apply within_handResult | split | dsimp only
    | (with_reducible refine within_lit ?_ ?_ ?_ ?_ ?_ ?_ ?_ ?_
       rotate_left; iterate 6 (exact rfl)
       first | exact le_rfl | exact Nat.le_succ _)

theorem within_reachPositions {s0 : State} {s : State} (h : Within s0 s) :
    Within s0 (reachPositions s) := by
  unfold reachPositions
  refine within_shr h rfl (.inl le_rfl) (.inl le_rfl) (.inl ?_) (fun k => k) le_rfl
    (Named.map_rows _ (fun _ => rfl))
  unfold Track.advance
  rw [List.length_map]

theorem within_advanceWeb {s0 : State} {s : State} (h : Within s0 s) :
    Within s0 (advanceWeb s) := by
  unfold advanceWeb
  dsimp only
  apply within_reachPositions
  split
  · exact within_forLanes (fun _ _ k => within_testRunOut k)
      (within_forLanes (fun _ _ k => within_foilAdvance k) (within_lit h rfl rfl rfl rfl rfl rfl le_rfl))
  · exact within_lit h rfl rfl rfl rfl rfl rfl le_rfl

theorem within_forwardCount {s0 : State} {s : State} (h : Within s0 s) :
    Within s0 (forwardCount s) := by
  unfold forwardCount
  repeat' first
    | with_reducible exact h | with_reducible assumption | with_reducible apply within_setHighWater
    | with_reducible apply within_advanceWeb | split | dsimp only
    | (with_reducible refine within_lit ?_ ?_ ?_ ?_ ?_ ?_ ?_ ?_
       rotate_left; iterate 6 (exact rfl)
       first | exact le_rfl | exact Nat.le_succ _)

theorem within_reverseBeyond {s0 : State} {s : State} (h : Within s0 s) :
    Within s0 (reverseBeyond s) := by
  unfold reverseBeyond
  repeat' first
    | with_reducible exact h | with_reducible assumption | with_reducible apply within_raiseFault
    | with_reducible apply within_setHighWater | split | dsimp only
    | (with_reducible refine within_lit ?_ ?_ ?_ ?_ ?_ ?_ ?_ ?_
       rotate_left; iterate 6 (exact rfl)
       first | exact le_rfl | exact Nat.le_succ _)

theorem within_backwardCount {s0 : State} {s : State} (h : Within s0 s) :
    Within s0 (backwardCount s) := by
  unfold backwardCount
  repeat' first
    | with_reducible exact h | with_reducible assumption | with_reducible apply within_setHighWater
    | with_reducible apply within_backwardReader | with_reducible apply within_reverseBeyond
    | with_reducible refine within_withLoaded ?_ (fun _ => ?_)
    | with_reducible refine within_forLanes (fun _ _ _ => ?_) ?_ | split | dsimp only
    | (with_reducible refine within_lit ?_ ?_ ?_ ?_ ?_ ?_ ?_ ?_
       rotate_left; iterate 6 (exact rfl)
       first | exact le_rfl | exact Nat.le_succ _)

theorem within_doubleChange {s0 : State} {s : State} (h : Within s0 s) :
    Within s0 (doubleChange s) := by
  unfold doubleChange
  repeat' first
    | with_reducible exact h | with_reducible assumption | split | dsimp only
    | (with_reducible refine within_lit ?_ ?_ ?_ ?_ ?_ ?_ ?_ ?_
       rotate_left; iterate 6 (exact rfl)
       first | exact le_rfl | exact Nat.le_succ _)

theorem within_reverseImpression {s0 : State} {s : State} (h : Within s0 s) :
    Within s0 (reverseImpression s) := by
  unfold reverseImpression
  repeat' first
    | with_reducible exact h | with_reducible assumption | split | dsimp only
    | (with_reducible refine within_lit ?_ ?_ ?_ ?_ ?_ ?_ ?_ ?_
       rotate_left; iterate 6 (exact rfl)
       first | exact le_rfl | exact Nat.le_succ _)

theorem within_reverseEffects {s0 : State} {s : State} (h : Within s0 s) :
    Within s0 (reverseEffects s) := by
  unfold reverseEffects
  repeat' first
    | with_reducible exact h | with_reducible assumption | with_reducible apply within_clearPulls
    | with_reducible apply within_endRunningSurvey | with_reducible apply within_abandonTrack
    | with_reducible apply within_lanesToHuntReverse | with_reducible apply within_reverseImpression
    | with_reducible refine within_forLanes (fun _ _ _ => ?_) ?_ | split | dsimp only
    | (with_reducible refine within_lit ?_ ?_ ?_ ?_ ?_ ?_ ?_ ?_
       rotate_left; iterate 6 (exact rfl)
       first | exact le_rfl | exact Nat.le_succ _)

theorem within_enterSafe {s0 : State} {k : FaultKind} {s : State} (h : Within s0 s) :
    Within s0 (enterSafe k s) := by
  unfold enterSafe
  repeat' first
    | with_reducible exact h | with_reducible assumption | with_reducible apply within_setMode
    | with_reducible apply within_releaseThrow | with_reducible apply within_haltPull
    | with_reducible refine within_forLanes (fun _ _ _ => ?_) ?_ | split | dsimp only
    | (with_reducible refine within_lit ?_ ?_ ?_ ?_ ?_ ?_ ?_ ?_
       rotate_left; iterate 6 (exact rfl)
       first | exact le_rfl | exact Nat.le_succ _)

theorem within_noteFault {s0 : State} {f : RaisedFault} {s : State} (h : Within s0 s) :
    Within s0 (noteFault f s) := by
  unfold noteFault
  repeat' first
    | with_reducible exact h | with_reducible assumption | with_reducible apply within_latch
    | with_reducible apply within_offer | with_reducible apply within_recordFault | split | dsimp only
    | (with_reducible refine within_lit ?_ ?_ ?_ ?_ ?_ ?_ ?_ ?_
       rotate_left; iterate 6 (exact rfl)
       first | exact le_rfl | exact Nat.le_succ _)

theorem within_applyFault {s0 : State} {f : RaisedFault} {s : State} (h : Within s0 s) :
    Within s0 (applyFault f s) := by
  unfold applyFault
  repeat' first
    | with_reducible exact h | with_reducible assumption | with_reducible apply within_reverseEffects
    | with_reducible apply within_enterSafe | with_reducible apply within_noteFault | split | dsimp only
    | (with_reducible refine within_lit ?_ ?_ ?_ ?_ ?_ ?_ ?_ ?_
       rotate_left; iterate 6 (exact rfl)
       first | exact le_rfl | exact Nat.le_succ _)

theorem within_faultTaken {s0 : State} {which : Nat} {s : State} (h : Within s0 s) :
    Within s0 (faultTaken which s) := by
  unfold faultTaken
  repeat' first
    | with_reducible exact h | with_reducible assumption | with_reducible apply within_applyFault | split
    | dsimp only
    | (with_reducible refine within_lit ?_ ?_ ?_ ?_ ?_ ?_ ?_ ?_
       rotate_left; iterate 6 (exact rfl)
       first | exact le_rfl | exact Nat.le_succ _)

theorem within_failLoad {s0 : State} {code : ErrorCode} {s : State} (h : Within s0 s) :
    Within s0 (failLoad code s) := by
  unfold failLoad
  repeat' first
    | with_reducible exact h | with_reducible assumption | with_reducible apply within_loseConfiguration
    | split | dsimp only
    | (with_reducible refine within_lit ?_ ?_ ?_ ?_ ?_ ?_ ?_ ?_
       rotate_left; iterate 6 (exact rfl)
       first | exact le_rfl | exact Nat.le_succ _)

theorem within_installBlocks {s0 : State} {c : Loaded} {s : State} (h : Within s0 s) :
    Within s0 (installBlocks c s) := by
  unfold installBlocks
  exact within_shr h rfl (.inl le_rfl) (.inl (Nat.zero_le _)) (.inl (Nat.zero_le _)) (fun k => k) le_rfl
    (Named.sublist (List.nil_sublist _) (List.nil_sublist _))

theorem within_loadSucceeds {s0 : State} {c : Loaded} {s : State} (h : Within s0 s) :
    Within s0 (loadSucceeds c s) := by
  unfold loadSucceeds
  repeat' first
    | with_reducible exact h | with_reducible assumption | with_reducible apply within_setMode
    | with_reducible apply within_lanesIdle | with_reducible apply within_readersIdle
    | with_reducible apply within_foilAtLoad | with_reducible apply within_installBlocks
    | with_reducible refine within_forLanes (fun _ _ _ => ?_) ?_ | split | dsimp only
    | (with_reducible refine within_lit ?_ ?_ ?_ ?_ ?_ ?_ ?_ ?_
       rotate_left; iterate 6 (exact rfl)
       first | exact le_rfl | exact Nat.le_succ _)

theorem within_runChecks {s0 : State} {s : State} (h : Within s0 s) :
    Within s0 (runChecks s) := by
  unfold runChecks
  repeat' first
    | with_reducible exact h | with_reducible assumption | with_reducible apply within_failLoad
    | with_reducible apply within_loadSucceeds | split | dsimp only
    | (with_reducible refine within_lit ?_ ?_ ?_ ?_ ?_ ?_ ?_ ?_
       rotate_left; iterate 6 (exact rfl)
       first | exact le_rfl | exact Nat.le_succ _)

theorem within_placeHeaderRead {s0 : State} {s : State} (h : Within s0 s) :
    Within s0 (placeHeaderRead s) := by
  unfold placeHeaderRead
  repeat' first
    | with_reducible exact h | with_reducible assumption | with_reducible apply within_place | split
    | dsimp only
    | (with_reducible refine within_lit ?_ ?_ ?_ ?_ ?_ ?_ ?_ ?_
       rotate_left; iterate 6 (exact rfl)
       first | exact le_rfl | exact Nat.le_succ _)

theorem within_placeTableRead {s0 : State} {k : Nat} {s : State} (h : Within s0 s) :
    Within s0 (placeTableRead k s) := by
  unfold placeTableRead
  repeat' first
    | with_reducible exact h | with_reducible assumption | with_reducible apply within_place | split
    | dsimp only
    | (with_reducible refine within_lit ?_ ?_ ?_ ?_ ?_ ?_ ?_ ?_
       rotate_left; iterate 6 (exact rfl)
       first | exact le_rfl | exact Nat.le_succ _)

theorem within_placeSeedOrder {s0 : State} {b : Bounds} {first : Nat} {s : State} (h : Within s0 s) :
    Within s0 (placeSeedOrder b first s) := by
  unfold placeSeedOrder
  repeat' first
    | with_reducible exact h | with_reducible assumption | with_reducible apply within_place | split
    | dsimp only
    | (with_reducible refine within_lit ?_ ?_ ?_ ?_ ?_ ?_ ?_ ?_
       rotate_left; iterate 6 (exact rfl)
       first | exact le_rfl | exact Nat.le_succ _)

theorem within_placeSeedReport {s0 : State} {b : Bounds} {first : Nat} {s : State} (h : Within s0 s) :
    Within s0 (placeSeedReport b first s) := by
  unfold placeSeedReport
  repeat' first
    | with_reducible exact h | with_reducible assumption | with_reducible apply within_place | split
    | dsimp only
    | (with_reducible refine within_lit ?_ ?_ ?_ ?_ ?_ ?_ ?_ ?_
       rotate_left; iterate 6 (exact rfl)
       first | exact le_rfl | exact Nat.le_succ _)

theorem within_headerRead {s0 : State} {ws : List Word} {s : State} (h : Within s0 s) :
    Within s0 (headerRead ws s) := by
  unfold headerRead
  repeat' first
    | with_reducible exact h | with_reducible assumption | with_reducible apply within_placeTableRead | split
    | dsimp only
    | (with_reducible refine within_lit ?_ ?_ ?_ ?_ ?_ ?_ ?_ ?_
       rotate_left; iterate 6 (exact rfl)
       first | exact le_rfl | exact Nat.le_succ _)

theorem within_tableRead {s0 : State} {k : Nat} {ws : List Word} {s : State} (h : Within s0 s) :
    Within s0 (tableRead k ws s) := by
  unfold tableRead
  repeat' first
    | with_reducible exact h | with_reducible assumption | with_reducible apply within_runChecks
    | with_reducible apply within_placeTableRead | with_reducible apply within_placeSeedOrder | split
    | dsimp only
    | (with_reducible refine within_lit ?_ ?_ ?_ ?_ ?_ ?_ ?_ ?_
       rotate_left; iterate 6 (exact rfl)
       first | exact le_rfl | exact Nat.le_succ _)

theorem within_seedOrderRead {s0 : State} {b : Bounds} {first : Nat} {ws : List Word} {s : State} (h : Within s0 s) :
    Within s0 (seedOrderRead b first ws s) := by
  unfold seedOrderRead
  repeat' first
    | with_reducible exact h | with_reducible assumption | with_reducible apply within_placeSeedOrder
    | with_reducible apply within_placeSeedReport | split | dsimp only
    | (with_reducible refine within_lit ?_ ?_ ?_ ?_ ?_ ?_ ?_ ?_
       rotate_left; iterate 6 (exact rfl)
       first | exact le_rfl | exact Nat.le_succ _)

theorem within_seedReportRead {s0 : State} {b : Bounds} {first : Nat} {ws : List Word} {s : State} (h : Within s0 s) :
    Within s0 (seedReportRead b first ws s) := by
  unfold seedReportRead
  repeat' first
    | with_reducible exact h | with_reducible assumption | with_reducible apply within_runChecks
    | with_reducible apply within_placeSeedReport | split | dsimp only
    | (with_reducible refine within_lit ?_ ?_ ?_ ?_ ?_ ?_ ?_ ?_
       rotate_left; iterate 6 (exact rfl)
       first | exact le_rfl | exact Nat.le_succ _)

theorem within_beginLoad {s0 : State} {s : State} (h : Within s0 s) :
    Within s0 (beginLoad s) := by
  unfold beginLoad
  repeat' first
    | with_reducible exact h | with_reducible assumption | with_reducible apply within_setMode
    | with_reducible apply within_dropTaps | with_reducible apply within_placeHeaderRead | split | dsimp only
    | (with_reducible refine within_lit ?_ ?_ ?_ ?_ ?_ ?_ ?_ ?_
       rotate_left; iterate 6 (exact rfl)
       first | exact le_rfl | exact Nat.le_succ _)

theorem within_restartLoad {s0 : State} {s : State} (h : Within s0 s) :
    Within s0 (restartLoad s) := by
  unfold restartLoad
  repeat' first
    | with_reducible exact h | with_reducible assumption | with_reducible apply within_placeHeaderRead | split
    | dsimp only
    | (with_reducible refine within_lit ?_ ?_ ?_ ?_ ?_ ?_ ?_ ?_
       rotate_left; iterate 6 (exact rfl)
       first | exact le_rfl | exact Nat.le_succ _)

theorem within_commitEvent {s0 : State} {s : State} (h : Within s0 s) :
    Within s0 (commitEvent s) := by
  unfold commitEvent
  repeat' first
    | with_reducible exact h | with_reducible assumption | with_reducible apply within_beginLoad
    | with_reducible apply within_restartLoad | split | dsimp only
    | (with_reducible refine within_lit ?_ ?_ ?_ ?_ ?_ ?_ ?_ ?_
       rotate_left; iterate 6 (exact rfl)
       first | exact le_rfl | exact Nat.le_succ _)

theorem within_clearConfirmed {s0 : State} {s : State} (h : Within s0 s) :
    Within s0 (clearConfirmed s) := by
  unfold clearConfirmed
  repeat' first
    | with_reducible exact h | with_reducible assumption | split | dsimp only
    | (with_reducible refine within_lit ?_ ?_ ?_ ?_ ?_ ?_ ?_ ?_
       rotate_left; iterate 6 (exact rfl)
       first | exact le_rfl | exact Nat.le_succ _)

theorem within_editEvent {s0 : State} {s : State} (h : Within s0 s) :
    Within s0 (editEvent s) := by
  unfold editEvent
  repeat' first
    | with_reducible exact h | with_reducible assumption | with_reducible apply within_editInHeld
    | with_reducible apply within_clearConfirmed | split | dsimp only
    | (with_reducible refine within_lit ?_ ?_ ?_ ?_ ?_ ?_ ?_ ?_
       rotate_left; iterate 6 (exact rfl)
       first | exact le_rfl | exact Nat.le_succ _)

theorem within_configEvent {s0 : State} {commitPattern : Bool} {s : State} (h : Within s0 s) :
    Within s0 (configEvent commitPattern s) := by
  unfold configEvent
  repeat' first
    | with_reducible exact h | with_reducible assumption | with_reducible apply within_commitEvent
    | with_reducible apply within_editEvent | split | dsimp only
    | (with_reducible refine within_lit ?_ ?_ ?_ ?_ ?_ ?_ ?_ ?_
       rotate_left; iterate 6 (exact rfl)
       first | exact le_rfl | exact Nat.le_succ _)

theorem within_watchFromHeld {s0 : State} {s : State} (h : Within s0 s) :
    Within s0 (watchFromHeld s) := by
  unfold watchFromHeld
  exact within_setHighWater (within_shr (within_readersSeek (within_lanesToHunt (within_setMode h)))
    rfl (.inl le_rfl) (.inl le_rfl) (.inl (Nat.zero_le _)) (fun k => k) le_rfl
    (Named.sublist (List.nil_sublist _) (List.nil_sublist _)))

theorem within_watchFromSafe {s0 : State} {s : State} (h : Within s0 s) :
    Within s0 (watchFromSafe s) := by
  unfold watchFromSafe
  repeat' first
    | with_reducible exact h | with_reducible assumption | with_reducible apply within_setMode
    | with_reducible apply within_completeStanding | with_reducible apply within_removeTarget
    | with_reducible apply within_lanesToHunt | split | dsimp only
    | (with_reducible refine within_lit ?_ ?_ ?_ ?_ ?_ ?_ ?_ ?_
       rotate_left; iterate 6 (exact rfl)
       first | exact le_rfl | exact Nat.le_succ _)

theorem within_holdEffects {s0 : State} {s : State} (h : Within s0 s) :
    Within s0 (holdEffects s) := by
  unfold holdEffects
  repeat' first
    | with_reducible exact h | with_reducible assumption | with_reducible apply within_setMode
    | with_reducible apply within_completeStanding | with_reducible apply within_removeTarget
    | with_reducible apply within_releaseThrow | with_reducible apply within_dropNips
    | with_reducible apply within_clearPulls | with_reducible apply within_endRunningSurvey
    | with_reducible apply within_abandonTrack | with_reducible apply within_lanesIdle
    | with_reducible apply within_readersIdle | with_reducible apply within_setHighWater
    | with_reducible apply within_editInHeld | with_reducible refine within_forLanes (fun _ _ _ => ?_) ?_
    | split | dsimp only
    | (with_reducible refine within_lit ?_ ?_ ?_ ?_ ?_ ?_ ?_ ?_
       rotate_left; iterate 6 (exact rfl)
       first | exact le_rfl | exact Nat.le_succ _)

theorem within_addSkips {s0 : State} {a : BitVec 16} {n : Nat} {s : State} (h : Within s0 s) :
    Within s0 (addSkips a n s) := by
  unfold addSkips
  refine within_shr h rfl (.inl le_rfl) (.inl le_rfl) (.inl le_rfl) (fun k l => ?_) le_rfl (fun k => k)
  have := k l
  simp only [PerLane.get_mapLane]
  split
  · exact ⟨this.1, this.2.1, Nat.min_le_left _ _⟩
  · exact this

theorem within_clearRecord {s0 : State} {s : State} (h : Within s0 s) :
    Within s0 (clearRecord s) := by
  unfold clearRecord
  repeat' first
    | with_reducible exact h | with_reducible assumption | split | dsimp only
    | (with_reducible refine within_lit ?_ ?_ ?_ ?_ ?_ ?_ ?_ ?_
       rotate_left; iterate 6 (exact rfl)
       first | exact le_rfl | exact Nat.le_succ _)

theorem within_countRefusal {s0 : State} {code : ResultCode} {s : State} (h : Within s0 s) :
    Within s0 (countRefusal code s) := by
  unfold countRefusal
  split
  · exact within_lit h rfl rfl rfl rfl rfl rfl le_rfl
  · exact h

theorem setAt_range (p : Nat) (t : Tracker) (h : t.inRange) : (t.setAt p).inRange := by
  unfold Tracker.setAt
  split
  · rename_i hst
    exact restate_range t h (by rw [hst]; decide) _ (fun k => LaneState.noConfusion k) le_rfl rfl
  · exact fresh_range _ rfl (fun k => LaneState.noConfusion k) h.2.2
  all_goals exact h

/-- Applying an order of a known kind. -/
theorem within_apply {s0 : State} {k : OrderKind} {c : Loaded} {x : Order} {g : Origin} {s : State}
    (h : Within s0 s) : Within s0 (k.apply c x g s).st := by
  cases k
  · show Within s0 (if s.station.mode = .held then watchFromHeld s else watchFromSafe s)
    split
    · exact within_watchFromHeld h
    · exact within_watchFromSafe h
  · show Within s0 (orderRun c s).st
    unfold orderRun
    repeat' split
    all_goals first
      | exact h
      | exact (show Within s0 (setMode .run .runOrder s) from within_setMode h)
  · show Within s0 (orderStampOff g s).st
    unfold orderStampOff
    split
    · exact h
    · exact within_setWindDown (within_fillSlot h)
  · show Within s0 (orderHold s).st
    unfold orderHold
    split
    · exact h
    · exact within_holdEffects h
  · show Within s0 (orderSkip c x s).st
    unfold orderSkip
    split
    · exact within_addSkips h
    · exact h
  · show Within s0 (orderLaneRestart c x s).st
    unfold orderLaneRestart
    split
    · rename_i n _
      exact within_setLane h (fun k => hunt_range _ (k n))
    · exact h
  · show Within s0 (orderSetPosition c x s).st
    unfold orderSetPosition
    split
    · rename_i n _
      split
      · exact within_setLane h (fun k => setAt_range _ _ (k n))
      · exact h
    · exact h
  · show Within s0 (orderTrimReset s).st
    unfold orderTrimReset
    split
    · exact h
    · exact within_lit h rfl rfl rfl rfl rfl rfl le_rfl
  · show Within s0 (orderFoilLoad c x s).st
    unfold orderFoilLoad
    split
    · exact within_foilLoadTaken h
    · exact h
  · show Within s0 (orderCountTarget x g s).st
    unfold orderCountTarget
    split
    · exact within_removeTarget h
    · split
      · exact h
      · exact within_fillSlot (within_lit (within_removeTarget h) rfl rfl rfl rfl rfl rfl le_rfl)
  · show Within s0 (orderSurvey x g s).st
    unfold orderSurvey
    split
    · exact h
    · split
      · exact h
      · exact within_startSurvey (within_fillSlot h)
  · show Within s0 (orderReportPolicy c x s).st
    unfold orderReportPolicy
    split
    · exact h
    · split
      · exact h
      · exact within_lit h rfl rfl rfl rfl rfl rfl le_rfl
  · show Within s0 (orderAck x s).st
    unfold orderAck
    dsimp only
    split
    · exact within_clearRecord (within_lit h rfl rfl rfl rfl rfl rfl le_rfl)
    · exact within_lit h rfl rfl rfl rfl rfl rfl le_rfl

/-- Judging an order. -/
theorem within_judgeOrder {s0 : State} {x : Order} {g : Origin} {s : State} (h : Within s0 s) :
    Within s0 (judgeOrder x g s).st := by
  unfold judgeOrder
  split
  · exact h
  · split
    · split
      · exact within_apply h
      · exact h
    · exact h

theorem within_applyTap {s0 : State} {t : TapOrder} {s : State} (h : Within s0 s) :
    Within s0 (applyTap t s) := by
  unfold applyTap
  exact within_markStatus (within_lit (within_countRefusal
    (within_judgeOrder (within_lit h rfl rfl rfl rfl rfl rfl le_rfl))) rfl rfl rfl rfl rfl rfl le_rfl)

theorem within_serveTaps {s0 : State} {fuel : Nat} {s : State} (h : Within s0 s) :
    Within s0 (serveTaps fuel s) := by
  induction fuel generalizing s with
  | zero => exact h
  | succ k ih =>
    unfold serveTaps
    split
    · split
      · exact h
      · rename_i t rest hq
        refine ih (within_applyTap (within_shr h rfl (.inl ?_) (.inl le_rfl) (.inl le_rfl) (fun k => k) le_rfl (fun k => k)))
        rw [hq]; exact Nat.le_succ _
    · exact h

theorem within_serveWaiting {s0 : State} {s : State} (h : Within s0 s) :
    Within s0 (serveWaiting s) := by
  unfold serveWaiting
  repeat' first
    | with_reducible exact h | with_reducible assumption | with_reducible apply within_serveTaps | split
    | dsimp only
    | (with_reducible refine within_lit ?_ ?_ ?_ ?_ ?_ ?_ ?_ ?_
       rotate_left; iterate 6 (exact rfl)
       first | exact le_rfl | exact Nat.le_succ _)

theorem within_deliverTap {s0 : State} {t : TapOrder} {s : State} (h : Within s0 s) :
    Within s0 (deliverTap t s) := by
  unfold deliverTap
  split
  · rename_i hl
    refine within_serveWaiting (within_shr h rfl (.inr ?_) (.inl le_rfl) (.inl le_rfl) (fun k => k) le_rfl (fun k => k))
    rw [List.length_append]; exact hl
  · exact within_lit h rfl rfl rfl rfl rfl rfl le_rfl

theorem within_takeBegin {s0 : State} {s : State} (h : Within s0 s) :
    Within s0 (takeBegin s) := by
  unfold takeBegin
  repeat' first
    | with_reducible exact h | with_reducible assumption | with_reducible apply within_place | split
    | dsimp only
    | (with_reducible refine within_lit ?_ ?_ ?_ ?_ ?_ ?_ ?_ ?_
       rotate_left; iterate 6 (exact rfl)
       first | exact le_rfl | exact Nat.le_succ _)

theorem within_placeResult {s0 : State} {t : Taking} {code : ResultCode} {value : Word} {s : State} (h : Within s0 s) :
    Within s0 (placeResult t code value s) := by
  unfold placeResult
  repeat' first
    | with_reducible exact h | with_reducible assumption | with_reducible apply within_place | split
    | dsimp only
    | (with_reducible refine within_lit ?_ ?_ ?_ ?_ ?_ ?_ ?_ ?_
       rotate_left; iterate 6 (exact rfl)
       first | exact le_rfl | exact Nat.le_succ _)

theorem within_applyEntry {s0 : State} {t : Taking} {ws : List Word} {s : State} (h : Within s0 s) :
    Within s0 (applyEntry t ws s) := by
  unfold applyEntry
  exact within_placeResult (within_countRefusal (within_judgeOrder h))

theorem within_entryReadError {s0 : State} {t : Taking} {s : State} (h : Within s0 s) :
    Within s0 (entryReadError t s) := by
  unfold entryReadError
  repeat' first
    | with_reducible exact h | with_reducible assumption | with_reducible apply within_countRefusal
    | with_reducible apply within_placeResult | split | dsimp only
    | (with_reducible refine within_lit ?_ ?_ ?_ ?_ ?_ ?_ ?_ ?_
       rotate_left; iterate 6 (exact rfl)
       first | exact le_rfl | exact Nat.le_succ _)

theorem within_endTake {s0 : State} {s : State} (h : Within s0 s) :
    Within s0 (endTake s) := by
  unfold endTake
  repeat' first
    | with_reducible exact h | with_reducible assumption | split | dsimp only
    | (with_reducible refine within_lit ?_ ?_ ?_ ?_ ?_ ?_ ?_ ?_
       rotate_left; iterate 6 (exact rfl)
       first | exact le_rfl | exact Nat.le_succ _)

theorem within_answerAll {s0 : State} {l : List WordAnswer} {s : State} (h : Within s0 s) :
    Within s0 (answerAll l s) := by
  unfold answerAll
  repeat' first
    | with_reducible exact h | with_reducible assumption | split | dsimp only
    | (with_reducible refine within_lit ?_ ?_ ?_ ?_ ?_ ?_ ?_ ?_
       rotate_left; iterate 6 (exact rfl)
       first | exact le_rfl | exact Nat.le_succ _)

theorem within_answerReady {s0 : State} {a : Access} {s : State} (h : Within s0 s) :
    Within s0 (answerReady a s) := by
  unfold answerReady
  repeat' first
    | with_reducible exact h | with_reducible assumption | with_reducible apply within_answerAll | split
    | dsimp only
    | (with_reducible refine within_lit ?_ ?_ ?_ ?_ ?_ ?_ ?_ ?_
       rotate_left; iterate 6 (exact rfl)
       first | exact le_rfl | exact Nat.le_succ _)

theorem within_setHand {s0 : State} {a : Access} {p : Phase} {events : List Observed} {tap : Option TapOrder} {s : State} (h : Within s0 s) :
    Within s0 (setHand a p events tap s) := by
  unfold setHand
  repeat' first
    | with_reducible exact h | with_reducible assumption | split | dsimp only
    | (with_reducible refine within_lit ?_ ?_ ?_ ?_ ?_ ?_ ?_ ?_
       rotate_left; iterate 6 (exact rfl)
       first | exact le_rfl | exact Nat.le_succ _)

theorem within_guardDrop {s0 : State} {why : GuardReason} {a : Access} {s : State} (h : Within s0 s) :
    Within s0 (guardDrop why a s) := by
  unfold guardDrop
  repeat' first
    | with_reducible exact h | with_reducible assumption | with_reducible apply within_latch
    | with_reducible apply within_answerReady | split | dsimp only
    | (with_reducible refine within_lit ?_ ?_ ?_ ?_ ?_ ?_ ?_ ?_
       rotate_left; iterate 6 (exact rfl)
       first | exact le_rfl | exact Nat.le_succ _)

theorem within_passWrite {s0 : State} {a : Access} {events : List Observed} {s : State} (h : Within s0 s) :
    Within s0 (passWrite a events s) := by
  unfold passWrite
  repeat' first
    | with_reducible exact h | with_reducible assumption | with_reducible apply within_deliverTap
    | with_reducible apply within_answerReady | with_reducible apply within_setHand | split | dsimp only
    | (with_reducible refine within_lit ?_ ?_ ?_ ?_ ?_ ?_ ?_ ?_
       rotate_left; iterate 6 (exact rfl)
       first | exact le_rfl | exact Nat.le_succ _)

theorem within_settleWrite {s0 : State} {a : Access} {s : State} (h : Within s0 s) :
    Within s0 (settleWrite a s) := by
  unfold settleWrite
  repeat' first
    | with_reducible exact h | with_reducible assumption | with_reducible apply within_setHand
    | with_reducible apply within_guardDrop | with_reducible apply within_passWrite | split | dsimp only
    | (with_reducible refine within_lit ?_ ?_ ?_ ?_ ?_ ?_ ?_ ?_
       rotate_left; iterate 6 (exact rfl)
       first | exact le_rfl | exact Nat.le_succ _)

theorem within_settleRead {s0 : State} {a : Access} {s : State} (h : Within s0 s) :
    Within s0 (settleRead a s) := by
  unfold settleRead
  repeat' first
    | with_reducible exact h | with_reducible assumption | with_reducible apply within_setHand | split
    | dsimp only
    | (with_reducible refine within_lit ?_ ?_ ?_ ?_ ?_ ?_ ?_ ?_
       rotate_left; iterate 6 (exact rfl)
       first | exact le_rfl | exact Nat.le_succ _)

theorem within_arrive {s0 : State} {a : Access} {s : State} (h : Within s0 s) :
    Within s0 (arrive a s) := by
  unfold arrive
  repeat' first
    | with_reducible exact h | with_reducible assumption | with_reducible apply within_answerAll
    | with_reducible apply within_setHand | with_reducible apply within_settleWrite
    | with_reducible apply within_settleRead | split | dsimp only
    | (with_reducible refine within_lit ?_ ?_ ?_ ?_ ?_ ?_ ?_ ?_
       rotate_left; iterate 6 (exact rfl)
       first | exact le_rfl | exact Nat.le_succ _)

theorem within_resettle {s0 : State} {s : State} (h : Within s0 s) :
    Within s0 (resettle s) := by
  unfold resettle
  repeat' first
    | with_reducible exact h | with_reducible assumption | with_reducible apply within_setHand
    | with_reducible apply within_settleWrite | split | dsimp only
    | (with_reducible refine within_lit ?_ ?_ ?_ ?_ ?_ ?_ ?_ ?_
       rotate_left; iterate 6 (exact rfl)
       first | exact le_rfl | exact Nat.le_succ _)

theorem within_recordHandoff {s0 : State} {e gen : Nat} {s : State} (h : Within s0 s) :
    Within s0 (recordHandoff e gen s) := by
  unfold recordHandoff
  repeat' first
    | with_reducible exact h | with_reducible assumption | split | dsimp only
    | (with_reducible refine within_lit ?_ ?_ ?_ ?_ ?_ ?_ ?_ ?_
       rotate_left; iterate 6 (exact rfl)
       first | exact le_rfl | exact Nat.le_succ _)

theorem within_recordRelease {s0 : State} {e gen : Nat} {s : State} (h : Within s0 s) :
    Within s0 (recordRelease e gen s) := by
  unfold recordRelease
  repeat' first
    | with_reducible exact h | with_reducible assumption | split | dsimp only
    | (with_reducible refine within_lit ?_ ?_ ?_ ?_ ?_ ?_ ?_ ?_
       rotate_left; iterate 6 (exact rfl)
       first | exact le_rfl | exact Nat.le_succ _)

theorem within_deliverEvent {s0 : State} {e : WinEvent} {s : State} (h : Within s0 s) :
    Within s0 (deliverEvent e s) := by
  unfold deliverEvent
  repeat' first
    | with_reducible exact h | with_reducible assumption | with_reducible apply within_configEvent
    | with_reducible apply within_recordHandoff | with_reducible apply within_recordRelease | split
    | dsimp only
    | (with_reducible refine within_lit ?_ ?_ ?_ ?_ ?_ ?_ ?_ ?_
       rotate_left; iterate 6 (exact rfl)
       first | exact le_rfl | exact Nat.le_succ _)

theorem within_deliverEvents {s0 : State} {l : List Observed} {s : State} (h : Within s0 s) :
    Within s0 (deliverEvents l s) := by
  induction l generalizing s with
  | nil => exact h
  | cons e t ih => exact ih (within_deliverEvent h)

theorem within_deliverTapOf {s0 : State} {o : Option TapOrder} {s : State} (h : Within s0 s) :
    Within s0 (deliverTapOf o s) := by
  unfold deliverTapOf
  repeat' first
    | with_reducible exact h | with_reducible assumption | with_reducible apply within_deliverTap | split
    | dsimp only
    | (with_reducible refine within_lit ?_ ?_ ?_ ?_ ?_ ?_ ?_ ?_
       rotate_left; iterate 6 (exact rfl)
       first | exact le_rfl | exact Nat.le_succ _)

theorem within_seedingRead {s0 : State} {p : Purpose} {ws : List Word} {s : State} (h : Within s0 s) :
    Within s0 (seedingRead p ws s) := by
  unfold seedingRead
  repeat' first
    | with_reducible exact h | with_reducible assumption | with_reducible apply within_seedOrderRead
    | with_reducible apply within_seedReportRead | split | dsimp only
    | (with_reducible refine within_lit ?_ ?_ ?_ ?_ ?_ ?_ ?_ ?_
       rotate_left; iterate 6 (exact rfl)
       first | exact le_rfl | exact Nat.le_succ _)

theorem within_discardEnds {s0 : State} {s : State} (h : Within s0 s) :
    Within s0 (discardEnds s) := by
  unfold discardEnds
  repeat' first
    | with_reducible exact h | with_reducible assumption | with_reducible apply within_placeHeaderRead | split
    | dsimp only
    | (with_reducible refine within_lit ?_ ?_ ?_ ?_ ?_ ?_ ?_ ?_
       rotate_left; iterate 6 (exact rfl)
       first | exact le_rfl | exact Nat.le_succ _)

theorem within_endFill {s0 : State} {s : State} (h : Within s0 s) :
    Within s0 (endFill s) := by
  unfold endFill
  repeat' first
    | with_reducible exact h | with_reducible assumption | split | dsimp only
    | (with_reducible refine within_lit ?_ ?_ ?_ ?_ ?_ ?_ ?_ ?_
       rotate_left; iterate 6 (exact rfl)
       first | exact le_rfl | exact Nat.le_succ _)

theorem within_endStatusWrite {s0 : State} {s : State} (h : Within s0 s) :
    Within s0 (endStatusWrite s) := by
  unfold endStatusWrite
  repeat' first
    | with_reducible exact h | with_reducible assumption | split | dsimp only
    | (with_reducible refine within_lit ?_ ?_ ?_ ?_ ?_ ?_ ?_ ?_
       rotate_left; iterate 6 (exact rfl)
       first | exact le_rfl | exact Nat.le_succ _)

theorem within_fillError {s0 : State} {s : State} (h : Within s0 s) :
    Within s0 (fillError s) := by
  unfold fillError
  repeat' first
    | with_reducible exact h | with_reducible assumption | split | dsimp only
    | (with_reducible refine within_lit ?_ ?_ ?_ ?_ ?_ ?_ ?_ ?_
       rotate_left; iterate 6 (exact rfl)
       first | exact le_rfl | exact Nat.le_succ _)

theorem within_loaderError {s0 : State} {s : State} (h : Within s0 s) :
    Within s0 (loaderError s) := by
  unfold loaderError
  repeat' first
    | with_reducible exact h | with_reducible assumption | with_reducible apply within_failLoad
    | with_reducible apply within_discardEnds | split | dsimp only
    | (with_reducible refine within_lit ?_ ?_ ?_ ?_ ?_ ?_ ?_ ?_
       rotate_left; iterate 6 (exact rfl)
       first | exact le_rfl | exact Nat.le_succ _)

theorem within_takeError {s0 : State} {s : State} (h : Within s0 s) :
    Within s0 (takeError s) := by
  unfold takeError
  repeat' first
    | with_reducible exact h | with_reducible assumption | with_reducible apply within_entryReadError | split
    | dsimp only
    | (with_reducible refine within_lit ?_ ?_ ?_ ?_ ?_ ?_ ?_ ?_
       rotate_left; iterate 6 (exact rfl)
       first | exact le_rfl | exact Nat.le_succ _)

theorem within_statusError {s0 s : State} (h : Within s0 s) : Within s0 (statusError s) :=
  within_markStatus (within_endStatusWrite h)

theorem within_producerError {s0 : State} {p : Purpose} {s : State} (h : Within s0 s) :
    Within s0 (producerError p s) := by
  unfold producerError
  repeat' first
    | with_reducible exact h | with_reducible assumption | with_reducible apply within_serveWaiting
    | with_reducible apply within_endTake | with_reducible apply within_statusError
    | with_reducible apply within_fillError | with_reducible apply within_loaderError
    | with_reducible apply within_takeError | split | dsimp only
    | (with_reducible refine within_lit ?_ ?_ ?_ ?_ ?_ ?_ ?_ ?_
       rotate_left; iterate 6 (exact rfl)
       first | exact le_rfl | exact Nat.le_succ _)

end Sys2Proof.Machine
end

