-- ==== Sys2Proof/Laws/Kept.lean ====
section
/-! SUPPORT. What the operations that write job memory, grant the port or reset the part keep. -/

namespace Sys2Proof.Machine

/-- `t` comes from `s` by an operation of the part: the commands that wait stay, job memory stays canonical, the pass-over
count stays in range, and the capacities are kept. -/
structure Kept (s t : State) : Prop where
  pending : t.pending = s.pending
  mem : MemoryCanonical s → MemoryCanonical t
  passOver : PassOverInRange s → PassOverInRange t
  taps : TapQueueInRange s → TapQueueInRange t
  post : PostQueueInRange s → PostQueueInRange t
  rows : TrackInRange s → TrackInRange t
  lanes : LanesInRange s → LanesInRange t
  names : TrackNames s → TrackNames t

theorem Within.kept {s t : State} (h : Within s t) : Kept s t :=
  ⟨h.pending, fun k => by unfold MemoryCanonical; rw [h.mem]; exact k,
    fun k => by unfold PassOverInRange; rw [h.passOver]; exact k, h.taps, h.post, h.rows, h.lanes,
    h.names⟩

theorem Kept.refl (s : State) : Kept s s := (Within.refl s).kept

theorem Kept.trans {s t u : State} (h : Kept s t) (k : Kept t u) : Kept s u :=
  ⟨k.pending.trans h.pending, k.mem ∘ h.mem, k.passOver ∘ h.passOver, k.taps ∘ h.taps, k.post ∘ h.post,
    k.rows ∘ h.rows, k.lanes ∘ h.lanes, k.names ∘ h.names⟩

theorem Kept.within {s t u : State} (h : Kept s t) (k : Within t u) : Kept s u := h.trans k.kept

/-- Words written to job memory. -/
theorem kept_memWrite (s : State) (ws : List (Addr × WordReq)) :
    Kept s { s with mem := memWriteWords s.mem ws } :=
  ⟨rfl, fun k => memWriteWords_wf ws s.mem k, id, id, id, id, id, id⟩

theorem kept_landOwn (o : OwnAccess) (k : Nat) (s : State) : Kept s (landOwn o k s) := by
  unfold landOwn
  split
  · exact kept_memWrite s _
  · exact Kept.refl s

theorem kept_endOwn (o : OwnAccess) (k : Nat) (s : State) : Kept s (endOwn o k s) :=
  (kept_landOwn o k s).within ⟨rfl, rfl, rfl, id, id, id, id, le_rfl, id⟩

/-- The end of an own access changes job memory, the queue, the port and the access in hand alone. -/
theorem endOwn_eq (o : OwnAccess) (k : Nat) (s : State) :
    endOwn o k s = { s with mem := (endOwn o k s).mem, bus := (endOwn o k s).bus } := by
  unfold endOwn landOwn
  split <;> rfl

theorem kept_completeOwn (o : OwnAccess) (s : State) : Kept s (completeOwn o s) := kept_endOwn o _ s

theorem kept_endForwarded (a : Access) (k : Nat) (s : State) : Kept s (endForwarded a k s) := by
  unfold endForwarded
  dsimp only
  split
  · exact (kept_memWrite s _).within ⟨rfl, rfl, rfl, id, id, id, id, le_rfl, id⟩
  · exact Within.kept ⟨rfl, rfl, rfl, id, id, id, id, le_rfl, id⟩

theorem kept_issueOwn (s : State) : Kept s (issueOwn s) :=
  ⟨rfl, id, fun _ => Nat.zero_le _, id, id, id, id, id⟩

theorem kept_grantPort (s : State) : Kept s (grantPort s) := by
  unfold grantPort
  split
  · split
    · split
      · exact Within.kept ⟨rfl, rfl, rfl, id, id, id, id, le_rfl, id⟩
      · split
        · rename_i h
          exact ⟨rfl, id, fun _ => h, id, id, id, id, id⟩
        · exact kept_issueOwn s
    · split
      · exact Kept.refl s
      · exact kept_issueOwn s
  · exact Kept.refl s

theorem lanes_reset (s : State) (h : s.lanes = PerLane.const Tracker.reset) : LanesInRange s := by
  intro n
  rw [h, PerLane.get_const]
  exact fresh_range _ rfl (fun k => LaneState.noConfusion k) (Nat.zero_le _)

theorem named_reset (u : Nat) : Named Track.reset.rows Track.reset.splices u :=
  ⟨List.Pairwise.nil, List.Pairwise.nil, fun _ h => absurd h List.not_mem_nil,
    fun _ h => absurd h List.not_mem_nil⟩

theorem kept_landAtReset (k : Nat) (s : State) : Kept s (landAtReset k s) := by
  unfold landAtReset
  split
  · exact kept_landOwn _ k s
  · exact Kept.refl s

theorem kept_resetAsserted (k : Nat) (s : State) : Kept s (resetAsserted k s) := by
  unfold resetAsserted
  split
  · exact Kept.refl s
  · exact ⟨rfl, (kept_landAtReset k s).mem, fun _ => Nat.zero_le _, fun _ => Nat.zero_le _,
      fun _ => Nat.zero_le _, fun _ => Nat.zero_le _, fun _ => lanes_reset _ rfl, fun _ => named_reset _⟩

theorem kept_resetReleased (b : BitVec 2) (x y : Bool) (s : State) : Kept s (resetReleased b x y s) := by
  unfold resetReleased
  split
  · exact ⟨rfl, id, fun _ => Nat.zero_le _, fun _ => Nat.zero_le _, fun _ => Nat.zero_le _,
      fun _ => Nat.zero_le _, fun _ => lanes_reset _ rfl, fun _ => named_reset _⟩
  · exact Kept.refl s

theorem kept_forwardedEnd (s : State) : Kept s (forwardedEnd s) := by
  unfold forwardedEnd
  split
  · exact (kept_endForwarded _ _ s).within
      (within_deliverTapOf (within_deliverEvents (Within.refl _)))
  · exact Kept.refl s

theorem kept_forwardedError (k : Nat) (s : State) : Kept s (forwardedError k s) := by
  unfold forwardedError
  split
  · split
    · exact (kept_endForwarded _ _ s).within (within_deliverEvents (Within.refl _))
    · exact Kept.refl s
  · exact Kept.refl s

theorem kept_headerDone (s : State) : Kept s (headerDone s) := by
  unfold headerDone
  split
  · split
    · exact (kept_completeOwn _ s).within (within_headerRead (Within.refl _))
    · exact Kept.refl s
  · exact Kept.refl s

theorem kept_tableDone (s : State) : Kept s (tableDone s) := by
  unfold tableDone
  split
  · split
    · exact (kept_completeOwn _ s).within (within_tableRead (Within.refl _))
    all_goals exact Kept.refl s
  · exact Kept.refl s

theorem kept_seedingDone (s : State) : Kept s (seedingDone s) := by
  unfold seedingDone
  split
  · split
    · exact (kept_completeOwn _ s).within (within_serveWaiting (within_seedingRead (Within.refl _)))
    · exact Kept.refl s
  · exact Kept.refl s

theorem kept_discardedDone (s : State) : Kept s (discardedDone s) := by
  unfold discardedDone
  split
  · split
    · exact (kept_completeOwn _ s).within (within_discardEnds (Within.refl _))
    · exact Kept.refl s
  · exact Kept.refl s

theorem kept_resultDone (s : State) : Kept s (resultDone s) := by
  unfold resultDone
  split
  · split
    · exact (kept_completeOwn _ s).within
        (within_serveWaiting (within_resettle (within_endTake (Within.refl _))))
    · exact Kept.refl s
  · exact Kept.refl s

theorem kept_fillDone (s : State) : Kept s (fillDone s) := by
  unfold fillDone
  split
  · split
    · exact (kept_completeOwn _ s).within (within_resettle (within_endFill (Within.refl _)))
    · exact Kept.refl s
  · exact Kept.refl s

theorem kept_statusDone (s : State) : Kept s (statusDone s) := by
  unfold statusDone
  split
  · split
    · exact (kept_completeOwn _ s).within (within_resettle (within_endStatusWrite (Within.refl _)))
    · exact Kept.refl s
  · exact Kept.refl s

theorem kept_ownError (k : Nat) (s : State) : Kept s (ownError k s) := by
  unfold ownError
  split
  · split
    · exact (kept_endOwn _ k s).within
        (within_resettle (within_producerError (within_raiseFault (within_latch (Within.refl _)))))
    · exact Kept.refl s
  · exact Kept.refl s

theorem kept_entryReadDone (f : Byte → Bool) (s : State) : Kept s (entryReadDone f s) := by
  unfold entryReadDone
  split
  · split
    · split
      · exact (kept_completeOwn _ s).within (within_applyEntry (Within.refl _))
      · exact kept_completeOwn _ s
    · exact Kept.refl s
  · exact Kept.refl s

theorem kept_orderRow (k : Byte) (f : Byte → Bool) (src : OrderSource) (s : State) :
    Kept s (orderRow k f src s) := by
  unfold orderRow
  split
  · exact kept_entryReadDone f s
  · split
    · exact (within_deliverTap (Within.refl s)).kept
    · exact Kept.refl s

theorem kept_knownRow (k : OrderKind) (src : OrderSource) (s : State) : Kept s (knownRow k src s) :=
  kept_orderRow _ _ src s

/-- Every command ends so. -/
theorem kept_finish {s t : State} (old : State) (h : Kept s t) : Kept s (finish old t) :=
  h.within (within_finish (Within.refl t))

end Sys2Proof.Machine
end

