-- ==== Sys2Proof/Laws/Layout.lean ====
section
/-! SUPPORT. Reading back the fields of packed words (11): the bytes of `packBytes`, the halves of `packHalves`, and a word
as its bytes. -/

namespace Sys2Proof.Machine

/-- Fields laid one above the other, as a number. -/
theorem append_toNat {n m : Nat} (x : BitVec n) (y : BitVec m) : (x ++ y).toNat = x.toNat * 2 ^ m + y.toNat := by
  rw [BitVec.toNat_append, ← Nat.shiftLeft_add_eq_or_of_lt y.isLt, Nat.shiftLeft_eq]

/-- A byte of a word as a number. -/
theorem byteOf_toNat (w : Word) (k : Nat) : (byteOf w k).toNat = w.toNat / 256 ^ k % 256 := by
  unfold byteOf
  rw [BitVec.toNat_setWidth, BitVec.toNat_ushiftRight, Nat.shiftRight_eq_div_pow, Nat.pow_mul]

/-- A word is its bytes, the least significant first. -/
theorem word_toNat (w : Word) : w.toNat = (byteOf w 0).toNat + 256 * (byteOf w 1).toNat +
    65536 * ((byteOf w 2).toNat + 256 * (byteOf w 3).toNat) := by
  have := w.isLt
  simp only [byteOf_toNat]
  omega

/-- Four packed bytes as one number. -/
theorem packBytes_toNat (a b c d : Nat) : (packBytes a b c d).toNat =
    a % 256 + 256 * (b % 256) + 65536 * (c % 256) + 16777216 * (d % 256) := by
  unfold packBytes wordOfBytes
  simp only [append_toNat, BitVec.toNat_ofNat]
  omega

theorem byte0_packBytes (a b c d : Nat) : (byteOf (packBytes a b c d) 0).toNat = a % 256 := by
  rw [byteOf_toNat, packBytes_toNat]; omega

theorem byte1_packBytes (a b c d : Nat) : (byteOf (packBytes a b c d) 1).toNat = b % 256 := by
  rw [byteOf_toNat, packBytes_toNat]; omega

theorem byte2_packBytes (a b c d : Nat) : (byteOf (packBytes a b c d) 2).toNat = c % 256 := by
  rw [byteOf_toNat, packBytes_toNat]; omega

theorem byte3_packBytes (a b c d : Nat) : (byteOf (packBytes a b c d) 3).toNat = d % 256 := by
  rw [byteOf_toNat, packBytes_toNat]; omega

/-- Two packed halves as one number. -/
theorem packHalves_toNat (lo hi : Nat) : (packHalves lo hi).toNat = lo % 65536 + 65536 * (hi % 65536) := by
  unfold packHalves
  simp only [append_toNat, BitVec.toNat_ofNat]
  omega

theorem low_packHalves (lo hi : Nat) :
    (byteOf (packHalves lo hi) 0).toNat + 256 * (byteOf (packHalves lo hi) 1).toNat = lo % 65536 := by
  simp only [byteOf_toNat, packHalves_toNat]; omega

theorem high_packHalves (lo hi : Nat) :
    (byteOf (packHalves lo hi) 2).toNat + 256 * (byteOf (packHalves lo hi) 3).toNat = hi % 65536 := by
  simp only [byteOf_toNat, packHalves_toNat]; omega

/-- A two-byte field as a number (R194). -/
theorem halfAt_toNat (ws : List Word) (off : Nat) :
    (halfAt ws off).toNat = natAt ws off + 256 * natAt ws (off + 1) := by
  unfold halfAt natAt
  rw [append_toNat]; omega

/-- A four-byte field at an aligned offset as a number (R194). -/
theorem wordAt_toNat (ws : List Word) (k : Nat) : (wordAt ws (4 * k)).toNat =
    natAt ws (4 * k) + 256 * natAt ws (4 * k + 1) + 65536 * (natAt ws (4 * k + 2) + 256 * natAt ws (4 * k + 3)) := by
  unfold wordAt natAt byteAt
  rw [word_toNat, show 4 * k / 4 = k by omega, show (4 * k + 1) / 4 = k by omega, show (4 * k + 2) / 4 = k by omega,
    show (4 * k + 3) / 4 = k by omega, show 4 * k % 4 = 0 by omega, show (4 * k + 1) % 4 = 1 by omega,
    show (4 * k + 2) % 4 = 2 by omega, show (4 * k + 3) % 4 = 3 by omega]

/-- A byte address at an aligned offset as a number: its high byte is not looked at (R194). -/
theorem addrAt_toNat (ws : List Word) (k : Nat) : (addrAt ws (4 * k)).toNat =
    natAt ws (4 * k) + 256 * natAt ws (4 * k + 1) + 65536 * natAt ws (4 * k + 2) := by
  unfold addrAt
  rw [BitVec.toNat_setWidth, wordAt_toNat]
  have b : ∀ i, natAt ws i < 256 := fun i => (byteAt ws i).isLt
  have := b (4 * k); have := b (4 * k + 1); have := b (4 * k + 2)
  omega

end Sys2Proof.Machine
end

