-- ==== Sys2Proof/Laws/Step.lean ====
section
/-! SUPPORT. What a command keeps: the shared laws of the operations, read at `exec` and at `step`. -/

namespace Sys2Proof.Machine

/-- Every command answers a next state that keeps what `Kept` names. -/
theorem exec_kept (c : Instr) (s : State) : ∃ t, exec c s = .next t ∧ Kept s t := by
  cases c
  case processorWrite lv a w =>
    exact ⟨_, rfl, kept_finish _ (within_arrive (within_sense (Within.refl s))).kept⟩
  case processorRead a w =>
    exact ⟨_, rfl, kept_finish _ (within_arrive (Within.refl s)).kept⟩
  case portGrant =>
    exact ⟨_, rfl, kept_finish _ (kept_grantPort s)⟩
  case forwardedBurstEnd lv =>
    exact ⟨_, rfl, kept_finish _ ((within_sense (Within.refl s)).kept.trans (kept_forwardedEnd _))⟩
  case forwardedAccessError lv k =>
    exact ⟨_, rfl, kept_finish _ ((within_sense (Within.refl s)).kept.trans (kept_forwardedError k _))⟩
  case resetNAsserted k =>
    exact ⟨_, rfl, kept_finish _ (kept_resetAsserted k s)⟩
  case resetNReleased b x y =>
    exact ⟨_, rfl, kept_finish _ (kept_resetReleased b x y s)⟩
  case headerReadComplete =>
    exact ⟨_, rfl, kept_finish _ (kept_headerDone s)⟩
  case tableReadComplete =>
    exact ⟨_, rfl, kept_finish _ (kept_tableDone s)⟩
  case seedingReadComplete lv =>
    exact ⟨_, rfl, kept_finish _ ((within_sense (Within.refl s)).kept.trans (kept_seedingDone _))⟩
  case discardedReadComplete =>
    exact ⟨_, rfl, kept_finish _ (kept_discardedDone s)⟩
  case ownAccessError lv k =>
    exact ⟨_, rfl, kept_finish _ ((within_sense (Within.refl s)).kept.trans (kept_ownError k _))⟩
  case orderTakeBegin =>
    exact ⟨_, rfl, kept_finish _ (within_takeBegin (Within.refl s)).kept⟩
  case unknownOrderKind lv src k =>
    exact ⟨_, rfl, kept_finish _ ((within_sense (Within.refl s)).kept.trans (kept_orderRow _ _ src _))⟩
  case resultWriteComplete lv =>
    exact ⟨_, rfl, kept_finish _ ((within_sense (Within.refl s)).kept.trans (kept_resultDone _))⟩
  case fillComplete lv =>
    exact ⟨_, rfl, kept_finish _ ((within_sense (Within.refl s)).kept.trans (kept_fillDone _))⟩
  case statusWriteComplete =>
    exact ⟨_, rfl, kept_finish _ (kept_statusDone s)⟩
  case orderEntryReadComplete lv =>
    exact ⟨_, rfl, kept_finish _ ((within_sense (Within.refl s)).kept.trans (kept_entryReadDone _ _))⟩
  case stationFaultApplied n =>
    exact ⟨_, rfl, kept_finish _ (within_faultTaken (Within.refl s)).kept⟩
  case webForwardCount =>
    exact ⟨_, rfl, kept_finish _ (within_forwardCount (Within.refl s)).kept⟩
  case webBackwardCount =>
    exact ⟨_, rfl, kept_finish _ (within_backwardCount (Within.refl s)).kept⟩
  case encoderDoubleChange =>
    exact ⟨_, rfl, kept_finish _ (within_doubleChange (Within.refl s)).kept⟩
  case markLeadingEdge n =>
    exact ⟨_, rfl, kept_finish _ (within_leadingEdge (Within.refl s)).kept⟩
  case markTrailingEdge n =>
    exact ⟨_, rfl, kept_finish _ (within_trailingEdge (Within.refl s)).kept⟩
  case windowEndReached n =>
    exact ⟨_, rfl, kept_finish _ (within_windowEndTaken (Within.refl s)).kept⟩
  case samplePositionReached n =>
    exact ⟨_, rfl, kept_finish _ (within_sampleTaken (Within.refl s)).kept⟩
  case stopSampleReached n =>
    exact ⟨_, rfl, kept_finish _ (within_stopTaken (Within.refl s)).kept⟩
  case spliceDetection n =>
    exact ⟨_, rfl, kept_finish _ (within_spliceDetected (Within.refl s)).kept⟩
  case readTaken n =>
    exact ⟨_, rfl, kept_finish _ (within_readTakenBy (Within.refl s)).kept⟩
  case strayNotice n =>
    exact ⟨_, rfl, kept_finish _ (within_strayTaken (Within.refl s)).kept⟩
  case skewDiscardNotice n =>
    exact ⟨_, rfl, kept_finish _ (within_skewTaken (Within.refl s)).kept⟩
  case cellPlaced lv n =>
    exact ⟨_, rfl, kept_finish _ (within_cellTaken (within_sense (Within.refl s))).kept⟩
  case spliceDetectionTaken n =>
    exact ⟨_, rfl, kept_finish _ (within_spliceDetectionTaken (Within.refl s)).kept⟩
  case lightReturnTaken n =>
    exact ⟨_, rfl, kept_finish _ (within_lightReturnTaken (Within.refl s)).kept⟩
  case resumePositionReached n =>
    exact ⟨_, rfl, kept_finish _ (within_resumeTaken (Within.refl s)).kept⟩
  case decisionPointReached lv =>
    exact ⟨_, rfl, kept_finish _ (within_decisionTaken (within_sense (Within.refl s))).kept⟩
  case nipReached =>
    exact ⟨_, rfl, kept_finish _ (within_nipTaken (Within.refl s)).kept⟩
  case releasePointReached =>
    exact ⟨_, rfl, kept_finish _ (within_releasePoint (Within.refl s)).kept⟩
  case throwOkRise =>
    exact ⟨_, rfl, kept_finish _ (within_throwRise (Within.refl s)).kept⟩
  case throwOkFall =>
    exact ⟨_, rfl, kept_finish _ (within_throwFall (Within.refl s)).kept⟩
  case cylIndex =>
    exact ⟨_, rfl, kept_finish _ (within_cylIndexTaken (Within.refl s)).kept⟩
  case heatRdyFall =>
    exact ⟨_, rfl, kept_finish _ (within_heatFall (Within.refl s)).kept⟩
  case foilbrkAsserted n =>
    exact ⟨_, rfl, kept_finish _ (within_foilbrkAssert (Within.refl s)).kept⟩
  case pullStartReached n =>
    exact ⟨_, rfl, kept_finish _ (within_pullStart (Within.refl s)).kept⟩
  case ownPullEndReached n =>
    exact ⟨_, rfl, kept_finish _ (within_ownPullEnd (Within.refl s)).kept⟩
  case pullEndReached n =>
    exact ⟨_, rfl, kept_finish _ (within_pullEnd (Within.refl s)).kept⟩
  case pullReport n =>
    exact ⟨_, rfl, kept_finish _ (within_pullReportTaken (Within.refl s)).kept⟩
  case rejectPointReached =>
    exact ⟨_, rfl, kept_finish _ (within_rejectPointTaken (Within.refl s)).kept⟩
  case rejectEndReached n =>
    exact ⟨_, rfl, kept_finish _ (within_rejectEndTaken (Within.refl s)).kept⟩
  all_goals exact ⟨_, rfl, kept_finish _ ((within_sense (Within.refl s)).kept.trans (kept_knownRow _ _ _))⟩


end Sys2Proof.Machine
end

