-- ==== Sys2Proof/Laws/Stepping.lean ====
section
/-! SUPPORT. What the steps due to an advance of the web do (R158, R163, R167), in one expression, and where they run a lane
out. -/

namespace Sys2Proof.Machine

/-- The credits of `k` steps. -/
def creditSteps (k : Nat) (l : List PullRec) : List PullRec :=
  match k with
  | 0 => l
  | k + 1 => creditSteps k (creditLast l).1

/-- The SERVED record latest in the list, and not at its own end, is credited (R158). -/
theorem creditLast_split {pre post : List PullRec} {r : PullRec} (hs : r.served = true) (he : r.ownEnd.reached = false)
    (hp : ∀ y ∈ post, ¬ (y.served = true ∧ y.ownEnd.reached = false)) :
    creditLast (pre ++ r :: post) = (pre ++ { r with credit := r.credit + 1 } :: post, true) := by
  have tail : creditLast post = (post, false) := by
    induction post with
    | nil => rfl
    | cons y t ih =>
      have hy := hp y (by simp)
      rw [creditLast, ih fun x hx => hp x (by simp [hx])]
      simpa using hy
  induction pre with
  | nil => simp [creditLast, tail, hs, he]
  | cons x t ih => simp [creditLast, ih]

theorem creditLast_none {l : List PullRec} (h : ∀ y ∈ l, ¬ (y.served = true ∧ y.ownEnd.reached = false)) :
    creditLast l = (l, false) := by
  induction l with
  | nil => rfl
  | cons y t ih =>
    have hy := h y (by simp)
    rw [creditLast, ih fun x hx => h x (by simp [hx])]
    simpa using hy

theorem creditSteps_split (k : Nat) {pre post : List PullRec} {r : PullRec} (hs : r.served = true)
    (he : r.ownEnd.reached = false) (hp : ∀ y ∈ post, ¬ (y.served = true ∧ y.ownEnd.reached = false)) :
    creditSteps k (pre ++ r :: post) = pre ++ { r with credit := r.credit + BitVec.ofNat 32 k } :: post := by
  induction k generalizing r with
  | zero => simp [creditSteps]
  | succ k ih =>
    have e : r.credit + 1 + BitVec.ofNat 32 k = r.credit + BitVec.ofNat 32 (k + 1) := by
      rw [BitVec.add_assoc, Nat.add_comm k 1, BitVec.ofNat_add]
      rfl
    rw [creditSteps, creditLast_split hs he hp, ← e]
    exact ih (r := { r with credit := r.credit + 1 }) hs he

theorem creditSteps_none (k : Nat) {l : List PullRec}
    (h : ∀ y ∈ l, ¬ (y.served = true ∧ y.ownEnd.reached = false)) : creditSteps k l = l := by
  induction k with
  | zero => rfl
  | succ k ih => rw [creditSteps, creditLast_none h]; exact ih

/-- Credits move no record between ARMED and SERVED. -/
theorem creditLast_any (l : List PullRec) : (creditLast l).1.any (·.served) = l.any (·.served) := by
  induction l with
  | nil => rfl
  | cons y t ih =>
    unfold creditLast
    dsimp only
    by_cases h : (creditLast t).2 = true
    · simp only [h, if_true, List.any_cons, ih]
    · rw [if_neg h]
      split <;> simp [ih]

theorem creditSteps_any (k : Nat) (l : List PullRec) : (creditSteps k l).any (·.served) = l.any (·.served) := by
  induction k generalizing l with
  | zero => rfl
  | succ k ih => rw [creditSteps, ih, creditLast_any]

/-- The lane after `k` steps, none of which has run it out. -/
def stepped (c : Loaded) (n : Lane) (k : Nat) (s : State) : State :=
  let f := s.foil.get n
  let low := f.lowArmed && decide (0 < k ∧ f.remaining.toNat - k < c.hdr.foilLow.toNat)
  { s with
    foil := s.foil.set n { f with
      records := creditSteps k f.records, acc := f.acc - k * c.hdr.ratioDen
      remaining := f.remaining - BitVec.ofNat 32 k, fstep := f.fstep + k, lowArmed := f.lowArmed && !low }
    rep := { s.rep with latched := s.rep.latched ||| if low then Cause.foilLow.mask else 0 } }

theorem stepped_zero (c : Loaded) (n : Lane) (s : State) : stepped c n 0 s = s := by
  have e : s.foil.set n { s.foil.get n with lowArmed := (s.foil.get n).lowArmed } = s.foil := s.foil.set_get n
  simp [stepped, creditSteps, e]

theorem toNat_sub_one {w : Word} (h : w ≠ 0) : (w - 1).toNat = w.toNat - 1 := by
  have : w.toNat ≠ 0 := fun h0 => h (BitVec.eq_of_toNat_eq h0)
  rw [BitVec.toNat_sub]
  have := w.isLt
  simp
  omega

/-- One step, with the test of the low threshold. -/
theorem stepped_one (c : Loaded) (n : Lane) {s : State} (h : (s.foil.get n).remaining ≠ 0) :
    testLow c n (setFoil n ((s.foil.get n).stepOnce c.hdr.ratioDen) s) = stepped c n 1 s := by
  have hr := toNat_sub_one h
  unfold testLow stepped
  simp only [setFoil, PerLane.get_set_same, Foil.stepOnce, hr, Nat.zero_lt_one, true_and, creditSteps, Nat.one_mul]
  by_cases ha : (s.foil.get n).lowArmed = true <;>
    by_cases hl : (s.foil.get n).remaining.toNat - 1 < c.hdr.foilLow.toNat <;>
    simp [ha, hl, latch]

/-- Steps after a step. -/
theorem stepped_succ (c : Loaded) (n : Lane) (k : Nat) {s : State} (h : (s.foil.get n).remaining ≠ 0) :
    stepped c n k (stepped c n 1 s) = stepped c n (k + 1) s := by
  have hr : ((s.foil.get n).remaining - BitVec.ofNat 32 1).toNat = (s.foil.get n).remaining.toNat - 1 :=
    toNat_sub_one h
  have e1 : (s.foil.get n).remaining - BitVec.ofNat 32 1 - BitVec.ofNat 32 k =
      (s.foil.get n).remaining - BitVec.ofNat 32 (k + 1) := by
    rw [BitVec.ofNat_add]; bv_omega
  have e2 : ∀ a : Nat, a - 1 * c.hdr.ratioDen - k * c.hdr.ratioDen = a - (k + 1) * c.hdr.ratioDen := by
    intro a; rw [Nat.add_mul]; omega
  have e3 : ∀ a : Nat, a + 1 + k = a + (k + 1) := by intro a; omega
  unfold stepped
  simp only [PerLane.get_set_same, PerLane.set_set, hr, creditSteps, e1, e2, e3]
  by_cases ha : (s.foil.get n).lowArmed = true
  · have hk : (s.foil.get n).remaining.toNat - 1 - k = (s.foil.get n).remaining.toNat - (k + 1) := by omega
    by_cases h1 : (s.foil.get n).remaining.toNat - 1 < c.hdr.foilLow.toNat
    · have h2 : (s.foil.get n).remaining.toNat - (k + 1) < c.hdr.foilLow.toNat := by omega
      simp [ha, h1, h2]
    · rcases Nat.eq_zero_or_pos k with rfl | hp
      · simp [ha, h1]
      · simp [ha, h1, hk, hp]
  · simp [ha]

/-- R158: every step due is issued, or the lane runs out at the step that leaves nothing. -/
theorem stepLoop_eq (c : Loaded) (n : Lane) (hd : 0 < c.hdr.ratioDen) (fuel : Nat) {s : State}
    (h : (s.foil.get n).remaining ≠ 0) :
    let due := (s.foil.get n).acc / c.hdr.ratioDen
    let left := (s.foil.get n).remaining.toNat
    due ≤ fuel → stepLoop c n fuel s = if due < left then stepped c n due s else runOut n (stepped c n left s) := by
  have pos : ∀ {s : State}, (s.foil.get n).remaining ≠ 0 → 0 < (s.foil.get n).remaining.toNat := fun h =>
    Nat.pos_of_ne_zero fun h0 => h (BitVec.eq_of_toNat_eq h0)
  induction fuel generalizing s with
  | zero =>
    intro due left hf
    have h0 : due = 0 := Nat.le_zero.1 hf
    rw [stepLoop, h0, if_pos (pos h), stepped_zero]
  | succ fuel ih =>
    intro due left hf
    unfold stepLoop
    dsimp only
    by_cases ha : c.hdr.ratioDen ≤ (s.foil.get n).acc
    · have hdue : due = ((s.foil.get n).acc - c.hdr.ratioDen) / c.hdr.ratioDen + 1 :=
        Nat.div_eq_sub_div hd ha
      generalize hq : ((s.foil.get n).acc - c.hdr.ratioDen) / c.hdr.ratioDen = q at hdue
      rw [if_pos (by simpa [ha] using h), stepped_one c n h]
      by_cases h1 : (s.foil.get n).remaining = 1
      · have hl : left = 1 := by simp [left, h1]
        rw [if_pos h1, hl, if_neg (by rw [hdue]; omega)]
      · have hr := toNat_sub_one h
        have e : ((stepped c n 1 s).foil.get n).remaining = (s.foil.get n).remaining - 1 := by simp [stepped]
        have e' : ((stepped c n 1 s).foil.get n).acc = (s.foil.get n).acc - c.hdr.ratioDen := by simp [stepped]
        have hne : ((stepped c n 1 s).foil.get n).remaining ≠ 0 := by
          rw [e]
          intro h0
          apply h1
          bv_omega
        have hp := pos h
        have hp' := pos hne
        rw [if_neg h1, ih hne (by rw [e', hq]; omega), e', e, hr, hq]
        rw [e, hr] at hp'
        rw [stepped_succ c n _ h, stepped_succ c n _ h, ← hdue]
        have hl : left - 1 + 1 = left := by omega
        rw [show (s.foil.get n).remaining.toNat - 1 + 1 = left from hl]
        by_cases hdl : due < left
        · rw [if_pos hdl, if_pos (by omega)]
        · rw [if_neg hdl, if_neg (by omega)]
    · have h0 : due = 0 := Nat.div_eq_of_lt (by omega)
      rw [if_neg (by simp [ha]), h0, if_pos (pos h), stepped_zero]

end Sys2Proof.Machine
end

