-- ==== Sys2Proof/Laws/Taking.lean ====
section
/-! SUPPORT. Judging an order leaves the order in progress alone; and what an order row answers when its source presents an
order. -/

namespace Sys2Proof.Machine

/-- The order in progress. -/
abbrev taking (s : State) : Option Taking := s.orders.inProgress

theorem taking_withLoaded {s : State} {f : Loaded → State} (h : ∀ c, taking (f c) = taking s) :
    taking (withLoaded s f) = taking s := by
  unfold withLoaded; split
  · exact h _
  · rfl

theorem taking_forLanes {f : Lane → State → State} (h : ∀ n t, taking (f n t) = taking t) (s : State) :
    taking (forLanes f s) = taking s := by
  unfold forLanes; rw [h, h, h, h]

theorem taking_setMode (m : Mode) (c : ModeCause) (s : State) : taking (setMode m c s) = taking s := by
  unfold setMode; dsimp only; split <;> rfl

theorem taking_completeStanding (k : OrderKind) (c : Completion) (s : State) :
    taking (completeStanding k c s) = taking s := by
  unfold completeStanding; split <;> rfl

theorem taking_removeTarget (c : Completion) (s : State) : taking (removeTarget c s) = taking s :=
  taking_completeStanding _ _ _

theorem taking_testWindDown (s : State) : taking (testWindDown s) = taking s := by
  unfold testWindDown
  split
  · dsimp only
    split
    · rw [taking_removeTarget, taking_completeStanding]; exact taking_setMode _ _ s
    · rw [taking_completeStanding]; exact taking_setMode _ _ s
  · rfl

theorem taking_setWindDown (s : State) : taking (setWindDown s) = taking s := taking_testWindDown _

theorem taking_releaseThrow (s : State) : taking (releaseThrow s) = taking s := by
  unfold releaseThrow negateThrow
  dsimp only
  split
  · split
    · rfl
    · exact taking_testWindDown _
  · rfl

theorem taking_reportRecords (n : Lane) (e : PullEvent) (l : List PullRec) (s : State) :
    taking (reportRecords n e l s) = taking s := by
  induction l generalizing s with
  | nil => rfl
  | cons r t ih => exact ih _

theorem taking_stopPull (n : Lane) (s : State) : taking (stopPull n s) = taking s := by
  unfold stopPull
  dsimp only
  split
  · rw [taking_testWindDown]; exact taking_reportRecords _ _ _ _
  · rfl

theorem taking_clearPulls (n : Lane) (s : State) : taking (clearPulls n s) = taking s := taking_stopPull n s

theorem taking_endSurvey (o : SurveyOutcome) (s : State) : taking (endSurvey o s) = taking s :=
  taking_withLoaded fun _ => taking_completeStanding _ _ _

theorem taking_endRunningSurvey (o : SurveyOutcome) (s : State) :
    taking (endRunningSurvey o s) = taking s := by
  unfold endRunningSurvey; split
  · exact taking_endSurvey _ _
  · rfl

theorem taking_testLanesDown (s : State) : taking (testLanesDown s) = taking s := by
  unfold testLanesDown; split <;> rfl

theorem taking_runOut (n : Lane) (s : State) : taking (runOut n s) = taking s := by
  unfold runOut
  dsimp only
  split <;> exact taking_stopPull _ _

theorem taking_testRunOut (old : State) (n : Lane) (s : State) : taking (testRunOut old n s) = taking s := by
  unfold testRunOut; split <;> rfl

theorem taking_testLow (c : Loaded) (n : Lane) (s : State) : taking (testLow c n s) = taking s := by
  unfold testLow; dsimp only; split <;> rfl

theorem taking_foilLoadTaken (c : Loaded) (n : Lane) (k : Word) (s : State) :
    taking (foilLoadTaken c n k s) = taking s := by
  unfold foilLoadTaken
  dsimp only
  split
  · rw [taking_testRunOut, taking_runOut]; exact taking_testLow _ _ _
  · exact taking_testLow _ _ _

theorem taking_placeFill (r : Report) (s : State) : taking (placeFill r s) = taking s := by
  unfold placeFill; split <;> rfl

theorem taking_testFill (s : State) : taking (testFill s) = taking s := by
  unfold testFill
  split
  · rfl
  · split
    · split <;> exact taking_placeFill _ _
    · rfl

theorem taking_enqueueReport (r : Report) (s : State) : taking (enqueueReport r s) = taking s := by
  unfold enqueueReport; split <;> rfl

theorem taking_takeReport (r : Report) (s : State) : taking (takeReport r s) = taking s := by
  unfold takeReport
  split
  · exact taking_placeFill _ _
  · rw [taking_testFill, taking_enqueueReport]

theorem taking_takeOffer (r : Report) (s : State) : taking (takeOffer r s) = taking s := by
  unfold takeOffer
  split
  · have h : ∀ x, taking (takeFollow x s) = taking s := fun x => by
      unfold takeFollow; split
      · split <;> rfl
      · rfl
    dsimp only
    split
    · rw [taking_takeReport, h]
    · exact h _
  · exact taking_takeReport _ _

theorem taking_takeOffers (l : List Report) (s : State) : taking (takeOffers l s) = taking s := by
  induction l generalizing s with
  | nil => rfl
  | cons r t ih => exact (ih _).trans (taking_takeOffer _ _)

theorem taking_flushOffers (s : State) : taking (flushOffers s) = taking s :=
  (taking_takeOffers _ _).trans (taking_testFill _)

theorem taking_loseConfiguration (e : ErrorCode) (c : ModeCause) (s : State) :
    taking (loseConfiguration e c s) = taking s := taking_setMode _ c s

theorem taking_editInHeld (s : State) : taking (editInHeld s) = taking s :=
  (taking_loseConfiguration _ _ _).trans (taking_flushOffers s)

theorem taking_watchFromHeld (s : State) : taking (watchFromHeld s) = taking s := taking_setMode _ _ s

theorem taking_watchFromSafe (s : State) : taking (watchFromSafe s) = taking s := by
  unfold watchFromSafe
  dsimp only
  rw [taking_removeTarget, taking_completeStanding]
  exact taking_setMode _ _ s

theorem taking_holdEffects (s : State) : taking (holdEffects s) = taking s := by
  unfold holdEffects
  extract_lets s1 st s2 s3 s4 tr s5 s6
  have h1 : taking s1 = taking s := taking_setMode _ _ s
  have h2 : taking s2 = taking s1 := rfl
  have h3 : taking s3 = taking s2 := (taking_removeTarget _ _).trans (taking_completeStanding _ _ _)
  have h4 : taking s4 = taking s3 :=
    (taking_forLanes taking_clearPulls (dropNips (releaseThrow s3))).trans (taking_releaseThrow s3)
  have h5 : taking s5 = taking s4 := rfl
  have h6 : taking s6 = taking s5 := taking_endRunningSurvey .cancelled s5
  have h : taking s6 = taking s := by rw [h6, h5, h4, h3, h2, h1]
  clear_value s6
  split
  · exact h
  · exact (taking_editInHeld s6).trans h

theorem taking_orderWatch (s : State) : taking (orderWatch s).st = taking s := by
  unfold orderWatch
  dsimp only
  split
  · exact taking_watchFromHeld s
  · exact taking_watchFromSafe s

theorem taking_orderRun (c : Loaded) (s : State) : taking (orderRun c s).st = taking s := by
  unfold orderRun
  split
  · rfl
  · split
    · rfl
    · split
      · rfl
      · exact taking_setMode _ _ s

theorem taking_orderStampOff (g : Origin) (s : State) : taking (orderStampOff g s).st = taking s := by
  unfold orderStampOff
  split
  · rfl
  · exact taking_setWindDown _

theorem taking_orderHold (s : State) : taking (orderHold s).st = taking s := by
  unfold orderHold
  split
  · rfl
  · exact taking_holdEffects s

theorem taking_orderSkip (c : Loaded) (o : Order) (s : State) : taking (orderSkip c o s).st = taking s := by
  unfold orderSkip; split <;> rfl

theorem taking_orderLaneRestart (c : Loaded) (o : Order) (s : State) :
    taking (orderLaneRestart c o s).st = taking s := by
  unfold orderLaneRestart; split <;> rfl

theorem taking_orderSetPosition (c : Loaded) (o : Order) (s : State) :
    taking (orderSetPosition c o s).st = taking s := by
  unfold orderSetPosition
  split
  · split <;> rfl
  · rfl

theorem taking_orderTrimReset (s : State) : taking (orderTrimReset s).st = taking s := by
  unfold orderTrimReset; split <;> rfl

theorem taking_orderFoilLoad (c : Loaded) (o : Order) (s : State) :
    taking (orderFoilLoad c o s).st = taking s := by
  unfold orderFoilLoad
  split
  · exact taking_foilLoadTaken _ _ _ _
  · rfl

theorem taking_orderCountTarget (o : Order) (g : Origin) (s : State) :
    taking (orderCountTarget o g s).st = taking s := by
  unfold orderCountTarget
  split
  · exact taking_removeTarget _ s
  · split
    · rfl
    · exact taking_removeTarget _ s

theorem taking_orderSurvey (o : Order) (g : Origin) (s : State) : taking (orderSurvey o g s).st = taking s := by
  unfold orderSurvey
  split
  · rfl
  · split <;> rfl

theorem taking_orderReportPolicy (c : Loaded) (o : Order) (s : State) :
    taking (orderReportPolicy c o s).st = taking s := by
  unfold orderReportPolicy
  split
  · rfl
  · split <;> rfl

theorem taking_orderAck (o : Order) (s : State) : taking (orderAck o s).st = taking s := by
  unfold orderAck; dsimp only; split <;> rfl

/-- Judging an order never touches the order in progress. -/
theorem taking_judgeOrder (o : Order) (g : Origin) (s : State) : taking (judgeOrder o g s).st = taking s := by
  unfold judgeOrder
  split
  · rfl
  · rename_i k _
    split
    · split
      · cases k
        · exact taking_orderWatch s
        · exact taking_orderRun _ s
        · exact taking_orderStampOff g s
        · exact taking_orderHold s
        · exact taking_orderSkip _ o s
        · exact taking_orderLaneRestart _ o s
        · exact taking_orderSetPosition _ o s
        · exact taking_orderTrimReset s
        · exact taking_orderFoilLoad _ o s
        · exact taking_orderCountTarget o g s
        · exact taking_orderSurvey o g s
        · exact taking_orderReportPolicy _ o s
        · exact taking_orderAck o s
      · rfl
    · rfl

/-- What an order row makes of a state whose source presents an order of a kind it accepts: the order is judged, and its
result is shown. -/
theorem orderRow_presents {kind : Byte} {accepts : Byte → Bool} {src : OrderSource} {s : State} {o : Order}
    {g : Origin} (h : Presents kind src s o g) (ha : accepts kind = true) :
    orderRow kind accepts src s = shown kind src (judgeOrder o g (judgedAt src s)) := by
  cases src with
  | entry =>
    obtain ⟨own, t, ho, hp, hw, ht, rfl, hk, rfl⟩ := h
    have hj : (judgeOrder (readOrder (ownReadWords s.mem own)) (.ring t.entry) (completeOwn own s)).st.orders.inProgress
        = some t := (taking_judgeOrder _ _ _).trans (by
          unfold completeOwn endOwn landOwn taking; dsimp only; split <;> exact ht)
    simp only [orderRow, entryReadDone, entryWords, ho, hp, if_true, hk, ha, ht, applyEntry, judgedAt, shown, hj]
    unfold countRefusal
    split <;> rfl
  | tap n lane arg =>
    obtain ⟨hf, hq, rfl, hk, rfl⟩ := h
    have hb : s.station.mode ≠ .bypass := by
      intro hm; simp [unitFree, hm, Mode.configured] at hf
    have hs : { s with orders := { s.orders with tapQueue := [] } } = s := by
      rw [← hq]
    have hf' : unitFree { s with orders := { s.orders with tapQueue := [⟨n.val, kind, lane, arg⟩] } } = true := hf
    simp only [orderRow, ha, deliverTap, hq, List.length_nil, Config.tapQueueCapacity, serveWaiting, List.nil_append,
      List.length_cons, serveTaps, hf', if_true, Nat.zero_lt_succ, decide_true, Bool.and_true,
      ne_eq, hb, not_false_eq_true, applyTap]
    have hs' : { s with orders := { s.orders with tapQueue := [], tapOrders := s.orders.tapOrders + 1 } } =
        { s with orders := { s.orders with tapOrders := s.orders.tapOrders + 1 } } := by
      rw [← hq]
    simp only [hs']
    unfold judgedAt shown countRefusal
    dsimp only
    split <;> rfl

theorem completeOwn_shape (o : OwnAccess) (s : State) :
    ∃ m b, completeOwn o s = { s with mem := m, bus := b } := by
  refine ⟨(completeOwn o s).mem, (completeOwn o s).bus, ?_⟩
  unfold completeOwn endOwn landOwn
  dsimp only
  split <;> rfl

/-- The state in which an order is judged differs in job memory, the bus and the tap orders count alone. -/
theorem judgedAt_shape (src : OrderSource) (s : State) : ∃ m b n,
    judgedAt src s = { s with mem := m, bus := b, orders := { s.orders with tapOrders := n } } := by
  cases src
  · unfold judgedAt
    dsimp only
    split
    · obtain ⟨m, b, e⟩ := completeOwn_shape ‹_› s
      exact ⟨m, b, _, by rw [e]⟩
    · exact ⟨_, _, _, rfl⟩
  · exact ⟨_, _, _, rfl⟩

theorem Presents.kind_eq {kind : Byte} {src : OrderSource} {s : State} {o : Order} {g : Origin}
    (h : Presents kind src s o g) : o.kind = kind := by
  cases src
  · obtain ⟨_, _, _, _, _, _, _, hk, _⟩ := h; exact hk
  · obtain ⟨_, _, _, hk, _⟩ := h; exact hk

/-- A row of a known kind, in a mode that accepts it, applies the order and shows its result. -/
theorem accepted_row {k : OrderKind} {lv : Levels} {src : OrderSource} {s : State} {o : Order} {g : Origin}
    {c : Loaded} (h : Presents k.code src (sense lv s) o g) (hl : s.loader.loaded = some c)
    (hm : k.acceptedIn s.station.mode = true) :
    exec (k.command lv src) s =
      .next (finish s (shown k.code src (k.apply c o g (judgedAt src (sense lv s))))) := by
  have hx : exec (k.command lv src) s = .next (finish s (knownRow k src (sense lv s))) := by cases k <;> rfl
  rw [hx, knownRow, orderRow_presents h (by simp)]
  have h2 : OrderKind.ofCode k.code = some k := by cases k <;> rfl
  obtain ⟨m, b, n, e⟩ := judgedAt_shape src (sense lv s)
  have h3 : (judgedAt src (sense lv s)).station = s.station := by rw [e]; rfl
  have h4 : (judgedAt src (sense lv s)).loader = s.loader := by rw [e]; rfl
  simp only [judgeOrder, h.kind_eq, h2, h3, h4, hm, hl, if_true]

end Sys2Proof.Machine
end

