-- ==== Sys2Proof/Tests/Slice0.lean ====
section
/-! SUPPORT. Tests on small states: ill-formed commands, single commands, and for each statement with hypotheses a state and
operands that meet them. -/

namespace Sys2Proof.Tests

open Sys2Proof Sys2Proof.Machine

/-! ## Small states -/

/-- No line changes. -/
def off : Levels := ⟨false, PerLane.const false⟩

/-- A header with lanes 0 and 1 active, lane 0 the lead lane. -/
def header : Header :=
  { edition := 1, laneMask := 3, leadLane := 0, codeLength := 4, plates := 2, nominalPitch := 1000, windowEarly := 50
    windowLate := 60, minMarkWidth := 20, sensorToNip := PerLane.const 500, nipToReject := 300, rejectWidth := 100
    skewTolerance := 40, spliceDarkLength := 200, spliceMarginBefore := 100, spliceMarginAfter := 100, flywheelLimit := 2
    flywheelStrike := false, setLength := 2, trimGain := 4, indexOffset := 0, throwLead := 200, releaseClearance := 150
    trimStepMax := 3, trimLimit := 10, ratioNum := 1, ratioDen := 2, foilLead := 5, foilTrail := 5, foilLow := 100
    reverseTolerance := 3, orderBase := 0x2000, orderSize := 4, reportSize := 8, reportBase := 0x3000, statusBase := 0x4000
    attentionMask := 0xFFF, policy := 0, policyVariant := 0, setList := PerLane.const ([0, 1] ++ List.replicate 14 0) }

/-- A tap on word 8000h, byte 0 carrying 5Ah, that makes ACK of mask 1; the first consumes. -/
def tap (consume : Bool) : TapEntry := ⟨true, 0x8000, 0, 0x5A, 1, consume, 0x0D, 0, false, 1⟩

/-- A loaded copy with two classes, two variants and one tap. -/
def copy : Loaded :=
  { hdr := header, classes := [⟨40, 8⟩, ⟨90, 10⟩], taps := [tap true]
    variants := [⟨true, 5, 15, 0, 0, true, 0, 20⟩, ⟨true, 3, 15, 1, 1, false, 0, 0⟩] }

/-- The bounds of `header`. -/
def bounds : Bounds := ⟨0x2000, 4, 0x3000, 8, 0x4000⟩

/-- A state with `copy` loaded, in a mode. -/
def inMode (m : Mode) : State :=
  { State.reset with
    station := { Station.reset with mode := m }
    loader := { Loader.reset with loaded := some copy, bounds := some bounds, confirmed := true, gen := 1 }
    uid := 9 }

/-- `inMode` with one own access issued on the port. -/
def issued (m : Mode) (o : OwnAccess) : State :=
  { inMode m with bus := { Bus.reset with port := .own, queue := [o] } }

/-- What a command leaves. -/
def after (c : Instr) (s : State) : State :=
  match exec c s with
  | .next t => t
  | .fault _ | .refused _ => s

/-- A word written whole. -/
def whole (w : Word) : WordReq := ⟨15, w⟩

/-- A write in hand at an address. -/
def writeOf (addr : Addr) (w : Word) : Access := ⟨true, addr, [whole w]⟩

/-- A write in hand in a phase. -/
def handed (p : Phase) : InHand := ⟨writeOf 0x2000 1, p, [⟨0, .handoff 0 1⟩], none⟩

/-- A cell of lane 0 identified as variant 0. -/
def cell : Cell :=
  { markPos := some 500, nipPos := some 1000, markKind := some .accepted, status := .identified, variant := some 0
    setPos := some 0, predicted := false, decision := none, reason := none, pull := none, outcome := none, reject := false
    foilUsed := 0 }

/-- A row with `cell` on lane 0. -/
def row (uid : Nat) (stage : Stage) (nip : Pos) : Row :=
  { uid := uid, serial := 0, nip := nip, decisionPoint := ⟨nip - 200, true⟩, stage := stage, slot := none
    regError := none, splice := false, throwAtNip := none, rejectPoint := none
    cells := (PerLane.const none).set 0 (some cell) }

/-- `inMode` with rows. -/
def withRows (m : Mode) (l : List Row) : State :=
  { inMode m with track := { Track.reset with rows := l } }

/-- A tracker in a state with a quality. -/
def tracker (st : LaneState) (q : Nat) : Tracker := { Tracker.reset with state := st, quality := q }

/-- A reader in a state. -/
def reader (st : ReaderState) : Reader := { Reader.reset with state := st }

/-- `inMode .watch` with the reader of lane 0. -/
def reading (r : Reader) : State :=
  { inMode .watch with readers := (PerLane.const Reader.reset).set 0 r, lanes := (PerLane.const Tracker.reset).set 0 (tracker .locked 0) }

/-- A read in hand with its samples taken. -/
def inHand (cls : Option Nat) : ReadInHand := ⟨100, 30, cls, 8, 130, 0, 4, none, ⟨160, true⟩⟩

/-- A pull record of a row. -/
def record (row : Nat) (served : Bool) (start stop : Held) : PullRec := ⟨row, start, stop, served, 4⟩

/-- `inMode` with the drive of lane 0. -/
def driving (m : Mode) (f : Foil) : State := { inMode m with foil := (PerLane.const Foil.reset).set 0 f }

/-- A tap source. -/
def byTap : OrderSource := .tap 0 0 1

/-- A tap brings an order where the Order Unit is free and none waits. -/
theorem tapPresents (kind : Byte) (s : State) (h : unitFree (sense off s) = true) (ht : s.orders.tapQueue = []) :
    Presents kind byTap (sense off s) (TapOrder.order ⟨0, kind, 0, 1⟩) (.tap 0) := by
  refine ⟨h, ht, rfl, ?_, rfl⟩
  simp only [TapOrder.order]
  split <;> rfl

/-! ## Well-formed commands -/

theorem test_wellFormed_write : Instr.wellFormed (.processorWrite off 0x2000 [whole 1]) = true := by decide
theorem test_illFormed_write_unaligned : Instr.wellFormed (.processorWrite off 0x2001 [whole 1]) = false := by decide
theorem test_illFormed_write_empty : Instr.wellFormed (.processorWrite off 0x2000 []) = false := by decide
theorem test_illFormed_read_unaligned : Instr.wellFormed (.processorRead 0x2002 [15]) = false := by decide
theorem test_illFormed_read_empty : Instr.wellFormed (.processorRead 0x2000 []) = false := by decide
theorem test_illFormed_own_error : Instr.wellFormed (.ownAccessError off 64) = false := by decide
theorem test_illFormed_reset : Instr.wellFormed (.resetNAsserted 65) = false := by decide
theorem test_illFormed_kind : Instr.wellFormed (.unknownOrderKind off .entry 0x0D) = false := by decide
theorem test_wellFormed_kind : Instr.wellFormed (.unknownOrderKind off .entry 0x0E) = true := by decide

/-! ## Single commands -/

theorem test_forward_count : (after .webForwardCount (inMode .watch)).web = ⟨1, 1, false⟩ := by decide
theorem test_backward_count_wraps : (after .webBackwardCount (inMode .watch)).web = ⟨0xFFFFFFFF, 0, true⟩ := by decide
theorem test_reverse_beyond : (after .webBackwardCount { inMode .watch with web := ⟨7, 10, true⟩ }).web = ⟨6, 6, false⟩ := by
  decide
theorem test_double_change : (after .encoderDoubleChange (inMode .watch)).pins.webA = true := by decide
theorem test_write_arrives : (after (.processorWrite off 0x9000 [whole 7]) (inMode .watch)).bus.inHand =
    some ⟨⟨true, 0x9000, [whole 7]⟩, .contender, [], none⟩ := by decide
theorem test_window_write_dropped : (after (.processorWrite off 0x1000 [whole 1]) (inMode .watch)).bus.guardDrops = 1 := by
  decide
theorem test_commit_begins_load : (deliverEvent (.config true) State.reset).station.mode = .loading := by decide
theorem test_consuming_tap : (after (.processorWrite off 0x8000 [whole 0x5A])
    { inMode .run with rep := { ReportUnit.reset with latched := 3 } }).rep.latched = 2 := by decide
theorem test_order_take : (after .orderTakeBegin
    { inMode .held with orders := { OrderUnit.reset with handed := [0] } }).bus.queue.map OwnAccess.purpose =
      [.entryRead, .statusWrite] := by decide +kernel
theorem test_run_refused_for_heat : (after (.run off byTap) (inMode .watch)).orders.lastTap =
    some ⟨0, 2, .refusedState, 1⟩ := by decide
theorem test_slot_counter : (after .cylIndex { inMode .run with web := ⟨5, 5, false⟩ }).imp.lastIndex = some 5 := by decide
theorem test_heat_fall : (after .heatRdyFall (inMode .run)).rep.latched = 0x800 := by decide
theorem test_throw_uncommanded : (after .throwOkRise (inMode .held)).msgs.faults = [⟨.throwUncommanded, none⟩] := by decide
theorem test_need_rounds_up : foilNeed copy ⟨true, 0, 0, 0, 0, true, 0, 21⟩ = 16 := by decide
theorem test_correction_truncates : correction header (-7) = -3 ∧ correction header (-3) = -1 ∧ correction header 1 = 0 := by
  decide
theorem test_class_walk : classWalk copy 40 = some 0 ∧ classWalk copy 41 = some 1 ∧ classWalk copy 91 = none := by decide
theorem test_identify : identify copy (some 0) 0x15 (some 0) = .expected ∧ identify copy (some 1) 5 (some 0) = .other 0 ∧
    identify copy (some 0) 5 (some 1) = .cls ∧ identify copy (some 0) 8 (some 0) = .unknown := by decide
theorem test_report_words : (Report.words (.gap 3)).length = 15 := by decide

/-! ## The hypotheses of the statements are met -/

theorem test_meets_KeptByStep : MemoryCanonical (inMode .run) ∧ PassOverInRange (inMode .run) ∧ TapQueueInRange (inMode .run) ∧
    PostQueueInRange (inMode .run) ∧ TrackInRange (inMode .run) ∧ LanesInRange (inMode .run) ∧ ThrowTable (inMode .run) ∧
    TrackNames (withRows .run [row 1 .opened 1000, row 2 .opened 2000]) ∧
    ∃ t, step { inMode .run with pending := [.cylIndex] } = .next t := by
  refine ⟨by unfold MemoryCanonical; decide, by unfold PassOverInRange; decide, by unfold TapQueueInRange; decide, by unfold PostQueueInRange; decide,
    by unfold TrackInRange; decide, ?_, ⟨rfl, rfl⟩, ?_, ⟨_, rfl⟩⟩
  · unfold LanesInRange Tracker.inRange; decide
  · unfold TrackNames Named; decide

theorem test_meets_StepRunsFrontCommand : State.reset.pending = [] := rfl

theorem test_meets_JobMemoryWrites_frame : (∀ lv, Instr.cylIndex ≠ .forwardedBurstEnd lv) ∧
    (∀ lv k, Instr.cylIndex ≠ .forwardedAccessError lv k) ∧
    (∀ o, issuedOwn (inMode .run) = some o → o.write = false) ∧ ∃ t, exec .cylIndex (inMode .run) = .next t :=
  by
  refine ⟨fun _ h => Instr.noConfusion h, fun _ _ h => Instr.noConfusion h, fun _ h => ?_, ⟨_, rfl⟩⟩
  cases h

theorem test_meets_JobMemoryWrites : Memory.wf [(5, 1)] = true ∧ (⟨8, 0⟩ : WordReq).en.getLsbD 3 = true ∧
    ¬ enabledByte [(4, ⟨8, 0⟩)] 6 ∧ ¬ enabledByte [(4, ⟨8, 0⟩)] 8 := by
  refine ⟨by decide, by decide, ?_, ?_⟩ <;> (unfold enabledByte; simp; decide)

/-- A state with a report ring entry released or not, and reports that wait. -/
def posting (released : List Nat) (post : List Report) (gap : Nat) : State :=
  { inMode .run with rep := { ReportUnit.reset with released := released, post := post, gap := gap } }

theorem test_meets_ReportQueueing : (posting [0] [] 0).loader.bounds = some bounds ∧
    ((posting [0] [] 0).rep.post = [] ∧ (posting [0] [] 0).rep.gap = 0 ∧ canFill (posting [0] [] 0) = true) ∧
    ((posting [] (List.replicate 7 (.gap 1)) 0).rep.post.length < 8 ∧
      canFill (posting [] (List.replicate 7 (.gap 1)) 0) = false) ∧
    (8 ≤ (posting [] (List.replicate 8 (.gap 1)) 0).rep.post.length ∧
      canFill (posting [] (List.replicate 8 (.gap 1)) 0) = false) ∧
    ((posting [0] [.gap 1] 1).rep.post = .gap 1 :: [] ∧ canFill (posting [0] [.gap 1] 1) = true ∧
      0 < (posting [0] [.gap 1] 1).rep.gap) ∧
    (posting [0] [.gap 1] 0).rep.gap = 0 ∧ canFill (posting [0] [.gap 1] 0) = true ∧ (posting [0] [.gap 1] 0).rep.post ≠ [] ∧
    ((posting [0] [] 1).rep.post = [] ∧ 0 < (posting [0] [] 1).rep.gap ∧ canFill (posting [0] [] 1) = true) ∧
    (takeReport (.gap 9) (posting [0] [] 1)).rep.post = [.gap 9] ∧ canFill (posting [1] [] 0) = false := by decide

/-- `inMode` with dirty clear. -/
def unmarked (m : Mode) : State := { inMode m with rep := { ReportUnit.reset with dirty := false } }

theorem test_meets_StatusWriteQueued : (inMode .held).loader.loaded = some copy ∧ (inMode .held).station.mode.configured = true ∧
    (inMode .held).loader.phase = .idle ∧ (inMode .held).rep.dirty = true ∧ (inMode .held).rep.statusQueued = false ∧
    (inMode .held).rep.statusAt = none ∧ (inMode .held).rep.offers = [] ∧
    (inMode .loading).station.mode.configured = false ∧
    (∀ b, ({ inMode .unconfigured with rep := { ReportUnit.reset with statusAt := some 0x4000, statusQueued := b } } : State).rep.statusAt
      = some 0x4000) ∧
    (after .heatRdyFall (inMode .held)).rep.updateCount = 1 ∧ (after .heatRdyFall (inMode .loading)).rep.updateCount = 0 ∧
    (posting [] [] 0).rep.dirty = true ∧ (unmarked .run).rep.dirty = false ∧
    (finish (unmarked .held) (unmarked .run)).rep.updateCount = 1 ∧ (finish (unmarked .run) (unmarked .run)).rep.updateCount = 0 ∧
    (finish (unmarked .held) (unmarked .loading)).rep.dirty = true := by
  refine ⟨rfl, rfl, rfl, rfl, rfl, rfl, rfl, rfl, fun _ => rfl, by decide⟩

theorem test_meets_StatusBlockLayout : (statusWords (inMode .held) 7).length = 64 ∧
    natAt (statusWords (inMode .held) 7) 4 = 3 ∧ natAt (statusWords (inMode .held) 7) 141 = 255 ∧
    wordAt (statusWords (inMode .held) 7) 252 = 7 := by decide +kernel

theorem test_meets_EntryLayouts : (row 1 .struck 0).laneCells[0]? = some (0, cell) ∧
    natAt ((Report.row (row 1 .struck 0)).word0 :: (Report.row (row 1 .struck 0)).words) 2 = 1 ∧
    natAt ((Report.row (row 1 .struck 0)).word0 :: (Report.row (row 1 .struck 0)).words) 17 = 0 := by decide +kernel

theorem test_meets_PolicyFilter : (inMode .run).loader.loaded = some copy ∧ (row 1 .struck 0).anyReject = false ∧
    ({ row 1 .struck 0 with cells := (PerLane.const none).set 0 (some { cell with reject := true }) } : Row).anyReject = true ∧
    (inMode .run).rep.policy = .all ∧ (∀ p : Policy, ∃ s : State, s.rep.policy = p ∧ s.loader.loaded = some copy) :=
  ⟨rfl, rfl, rfl, rfl, fun p => ⟨{ inMode .run with rep := { ReportUnit.reset with policy := p } }, rfl, rfl⟩⟩

theorem test_meets_MalformedAccesses : (inMode .run).bus.inHand = none ∧ (inMode .bypass).bus.inHand = none ∧
    3 ∉ [1, 2, 4, 8] ∧ 32 < (wordAddr 0x2004).toNat % 32 + 4 * 8 ∧ ¬ 32 < (wordAddr 0x2000).toNat % 32 + 4 * 8 ∧
    (inMode .run).station.mode ≠ .bypass ∧ (inMode .bypass).station.mode = .bypass := by decide

/-- `inMode .held` with entry 1 handed, entry 2 being taken and entry 3 being filled. -/
def guarding : State :=
  { inMode .held with
    orders := { OrderUnit.reset with handed := [1], inProgress := some ⟨2, 0x2020, 1, false⟩ }
    rep := { ReportUnit.reset with fill := some ⟨3, 1, .gap 1⟩ } }

theorem test_meets_GuardTable : guarding.station.mode ≠ .bypass ∧ guarding.station.mode.working = false ∧
    (inMode .run).station.mode.working = true ∧ guarding.loader.bounds = some bounds ∧ State.reset.loader.bounds = none ∧
    (bounds.statusBase % 4 = 0 ∧ bounds.orderBase % 4 = 0 ∧ bounds.reportBase % 4 = 0) ∧
    (guarding.configBase = 0x1000 ∧ 0x1000 ≤ 0x15FC ∧ 0x15FC < 0x1000 + 1536 ∧ ¬ 0x1600 < 0x1000 + 1536) ∧
    (wordFate guarding 0x1000 (whole 1) = .pass (some (.config true)) ∧
      wordFate guarding 0x15FC (whole 1) = .pass (some (.config false)) ∧
      wordFate (inMode .run) 0x15FC (whole 1) = .drop .window ∧ wordFate guarding 0x1600 (whole 1) = .pass none) ∧
    (wordFate guarding 0x40FC (whole 1) = .drop .status ∧ wordFate guarding 0x4100 (whole 1) = .pass none) ∧
    (wordFate guarding 0x201C (whole 1) = .drop .collision ∧ wordFate guarding 0x2020 (whole 1) = .drop .collision ∧
      wordFate guarding 0x2030 (whole 1) = .pass (some (.handoff 3 1)) ∧
      wordFate guarding 0x2034 (whole 1) = .pass none ∧ wordFate guarding 0x2040 (whole 1) = .pass none) ∧
    wordFate guarding 0x30FC (whole 0) = .hold 3 ∧ wordFate guarding 0x3080 (whole 0) = .pass (some (.release 2 1)) ∧
    wordFate guarding 0x3084 (whole 0) = .pass none ∧ wordFate guarding 0x3200 (whole 0) = .pass none := by decide

/-- `guarding` with a tap that consumes or not. -/
def tapping (consume : Bool) : State :=
  { guarding with loader := { guarding.loader with loaded := some { copy with taps := [tap consume] } } }

theorem test_meets_FateOfAWrite : guarding.bus.inHand = none ∧ (writeOf 0x30C0 0).malformed = false ∧
    fillConds ((writeOf 0x30C0 0).fates guarding) ≠ [] ∧
    (fillConds ((writeOf 0x4000 0).fates guarding) = [] ∧ firstDrop ((writeOf 0x4000 0).fates guarding) = some .status) ∧
    (fillConds ((writeOf 0x8000 0x5A).fates (tapping true)) = [] ∧
      firstDrop ((writeOf 0x8000 0x5A).fates (tapping true)) = none ∧
      firedTap (writeOf 0x8000 0x5A) (tapping true) = some (tap true, ⟨0, 0x0D, 0, 1⟩) ∧ (tap true).consume = true) ∧
    (firedTap (writeOf 0x8000 0x5A) (tapping false) = some (tap false, ⟨0, 0x0D, 0, 1⟩) ∧ (tap false).consume = false) ∧
    fillConds ((writeOf 0x8000 0x5B).fates (tapping true)) = [] ∧
    firstDrop ((writeOf 0x8000 0x5B).fates (tapping true)) = none ∧ firedTap (writeOf 0x8000 0x5B) (tapping true) = none := by
  decide

theorem test_meets_TapMatch : (tap true).fromByte = false ∧ ({ tap true with fromByte := true } : TapEntry).fromByte = true ∧
    (tap true).matchesWord 0x8000 (whole 0x5A) = true ∧ (tap true).matchesWord 0x8004 (whole 0x5A) = false ∧
    (tap true).matchesWord 0x8000 ⟨14, 0x5A⟩ = false ∧
    tapOfWrite [tap true] [(0, 0x7FFC, whole 0x5A), (1, 0x8000, whole 0x5A)] = some (tap true, ⟨0, 0x0D, 0, 1⟩) ∧
    tapOfWrite [tap true] [(0, 0x7FFC, whole 0x5A)] = none ∧
    (∀ k : OrderKind, (⟨0, k.code, 2, 7⟩ : TapOrder).kind = k.code) ∧
    (⟨0, 5, 2, 7⟩ : TapOrder).order = ⟨5, 2, 4, 7, 0⟩ ∧ (⟨0, 14, 2, 7⟩ : TapOrder).order = ⟨14, 2, 0, 0, 0⟩ ∧
    (⟨0, 12, 2, 0x103⟩ : TapOrder).order = ⟨12, 2, 3, 1, 0⟩ := by
  refine ⟨by decide, by decide, by decide, by decide, by decide, by decide, by decide, fun _ => rfl, by decide, by decide, by decide⟩

/-- `inMode .held` with tap orders waiting, while a ring order is in progress or not. -/
def waiting (busy : Bool) (n : Nat) : State :=
  { inMode .held with orders := { OrderUnit.reset with
      tapQueue := (List.range n).map fun k => ⟨k, 0x0D, 0, 1⟩
      inProgress := if busy then some ⟨0, 0x2000, 1, true⟩ else none } }

theorem test_meets_TapOrderQueue : (waiting true 4).orders.tapQueue.length = 4 ∧ (waiting true 3).orders.tapQueue.length < 4 ∧
    unitFree (waiting true 3) = false ∧ unitFree (waiting false 2) = true ∧ (waiting false 0).orders.tapQueue = [] ∧
    (waiting false 2).orders.tapQueue = ⟨0, 0x0D, 0, 1⟩ :: [⟨1, 0x0D, 0, 1⟩] ∧
    (after (.ack off byTap) (waiting true 4)).orders.tapLosses = 1 ∧
    (after (.ack off byTap) (waiting true 3)).orders.tapQueue.length = 4 ∧
    ((serveWaiting (waiting false 2)).orders.tapOrders = 2 ∧
      (serveWaiting (waiting false 2)).orders.lastTap = some ⟨1, 0x0D, .done, 0⟩) := by decide

/-- `guarding` with an own write of a word in the queue. -/
def writing : State :=
  { inMode .held with bus := { Bus.reset with queue := [⟨7, .resultWrite, true, resultBursts 0x2020 .done 0⟩] } }

theorem test_meets_ReadOrdering : writing.bus.inHand = none ∧ writing.station.mode ≠ .bypass ∧
    (⟨false, 0x2020, [⟨15, 0⟩]⟩ : Access).malformed = false ∧
    (after (.processorRead 0x2020 [15]) writing).bus.inHand =
      some ⟨⟨false, 0x2020, [⟨15, 0⟩]⟩, .held [.ownWrite 7], [], none⟩ ∧
    (after (.processorRead 0x2024 [15]) writing).bus.inHand = some ⟨⟨false, 0x2024, [⟨15, 0⟩]⟩, .contender, [], none⟩ := by
  decide

/-- Both contenders wait at a pass-over count. -/
def contended (n : Nat) : State :=
  { inMode .held with bus := { Bus.reset with
      queue := [⟨7, .resultWrite, true, resultBursts 0x2020 .done 0⟩], inHand := some (handed .contender), passOver := n } }

theorem test_meets_PortArbiter : (issued .held ⟨0, .header, false, []⟩).bus.port ≠ .free ∧
    ((inMode .held).bus.port = .free ∧ contending (inMode .held) = false ∧ (inMode .held).bus.queue = []) ∧
    (writing.bus.port = .free ∧ contending writing = false ∧ writing.bus.queue ≠ []) ∧
    (contending { inMode .held with bus := { Bus.reset with inHand := some (handed .contender) } } = true) ∧
    (contending (contended 3) = true ∧ (contended 3).bus.queue ≠ [] ∧ (contended 3).bus.passOver < 4) ∧
    contending (contended 4) = true ∧ 4 ≤ (contended 4).bus.passOver ∧
    (after .portGrant (contended 3)).bus.port = .forwarded ∧ (after .portGrant (contended 4)).bus.port = .own := by decide

/-- A forwarded write on the port. -/
def forwarding : State :=
  { inMode .held with bus := { Bus.reset with port := .forwarded, inHand := some (handed .issued) } }

theorem test_meets_ForwardedAccessEnds : forwarding.bus.port = .forwarded ∧
    forwarding.bus.inHand = some ⟨writeOf 0x2000 1, .issued, [⟨0, .handoff 0 1⟩], none⟩ ∧
    0 < (writeOf 0x2000 1).words.length ∧ (after (.forwardedBurstEnd off) forwarding).orders.handed = [0] ∧
    (after (.forwardedAccessError off 0) forwarding).orders.handed = [] := by decide

theorem test_meets_WindowEvents : (inMode .held).loader.bounds.isSome = true ∧ State.reset.station.mode = .unconfigured ∧
    (inMode .loading).station.mode = .loading ∧ (inMode .safe).station.mode.working = true ∧
    (inMode .held).station.mode = .held ∧ loaderReading (inMode .loading) = false ∧
    loaderReading (issued .loading ⟨0, .header, false, readBursts64 0x1000⟩) = true ∧
    ((inMode .held).throwOn = false ∧ (inMode .held).rep.offers = []) := by decide

/-- Marks of both rings, a tap order and a report that wait, and the slot count in step. -/
def marked (m : Mode) (header : Option (List Word)) : State :=
  { inMode m with
    loader := { (inMode m).loader with header := header }
    orders := { OrderUnit.reset with handed := [0], takeIndex := 1, tapQueue := [⟨0, 0x0D, 0, 1⟩] }
    rep := { ReportUnit.reset with released := [2], fillIndex := 1, post := [.gap 1, .gap 2], gap := 1, latched := Cause.loss.mask }
    imp := { Impression.reset with slotCounter := 1, slotSync := true } }

/-- An edit in HELD (R32, R47, R146, R170), and a commit that restarts a load before and after its header read (R26, log 16). -/
theorem test_window_edit_and_restart :
    (deliverEvent (.config false) (marked .held none)).orders = { OrderUnit.reset with tapLosses := 1 } ∧
    (deliverEvent (.config false) (marked .held none)).rep.post = [] ∧
    (deliverEvent (.config false) (marked .held none)).rep.gap = 0 ∧
    (deliverEvent (.config false) (marked .held none)).rep.latched = Cause.loss.mask ||| Cause.config.mask ∧
    (deliverEvent (.config false) (marked .held none)).imp = Impression.reset ∧
    (deliverEvent (.config true) (marked .loading none)).orders.handed = [0] ∧
    (deliverEvent (.config true) (marked .loading (some []))).orders.handed = [] ∧
    (deliverEvent (.config true) (marked .loading (some []))).rep.released = [] := by decide

theorem test_meets_ResetLine_asserted : (issued .held ⟨0, .statusWrite, true, [⟨0x4000, [whole 1]⟩]⟩).station.mode ≠ .bypass ∧
    issuedOwn (issued .held ⟨0, .statusWrite, true, [⟨0x4000, [whole 1]⟩]⟩) = some ⟨0, .statusWrite, true, [⟨0x4000, [whole 1]⟩]⟩ ∧
    (contended 0).bus.inHand = some (handed .contender) ∧ (handed .contender).phase ≠ .issued ∧
    (after (.resetNAsserted 1) (issued .held ⟨0, .statusWrite, true, [⟨0x4000, [whole 1]⟩]⟩)).mem = [(0x4000, 1)] ∧
    (after (.resetNAsserted 0) (issued .held ⟨0, .statusWrite, true, [⟨0x4000, [whole 1]⟩]⟩)).mem = [] := by decide

theorem test_meets_ResetLine_released : (inMode .bypass).station.mode = .bypass ∧
    (after (.resetNReleased 3 true false) (inMode .bypass)).configBase = 0xFF0000 := by decide

theorem test_meets_OwnAccessLeavesTheQueue :
    (issued .held ⟨0, .fill 0, true, []⟩).bus.port = .own ∧ (issued .held ⟨0, .fill 0, true, []⟩).bus.queue = ⟨0, .fill 0, true, []⟩ :: [] := by
  decide

/-- The loader with a header read. -/
def loading (o : OwnAccess) (discard : Bool) (h : List Word) : State :=
  { issued .loading o with loader := { (inMode .loading).loader with
      phase := .tables, discard := discard, header := some h } }

theorem test_meets_LoadReads_tables :
    issuedOwn (loading ⟨0, .header, false, readBursts64 0x1000⟩ false []) = some ⟨0, .header, false, readBursts64 0x1000⟩ ∧
    (loading ⟨0, .table 3, false, []⟩ false []).loader.discard = false ∧
    (loading ⟨0, .table 4, false, []⟩ false []).loader.header = some [] ∧
    (loading ⟨0, .table 4, false, []⟩ false []).loader.bounds = some bounds ∧
    seedable 0x1000 (readHeader []) = false ∧ seedable 0x1000 header = true ∧
    (Purpose.table 4).ofLoader = true ∧ (loading ⟨0, .table 4, false, []⟩ true []).loader.discard = true := by decide

/-- The loader reading the owner bytes. -/
def seeding (p : Purpose) : State :=
  { issued .loading ⟨0, p, false, seedBursts 0x2000 16 0 4⟩ with
    loader := { (inMode .loading).loader with phase := .seeding }, mem := [(0x2010, 1)] }

theorem test_meets_LoadReads_seeding : (issuedOwn (seeding (.seedOrder 0))).isSome = true ∧ (seeding (.seedOrder 0)).loader.discard = false ∧
    (seeding (.seedOrder 0)).loader.bounds = some bounds ∧ (seeding (.seedOrder 0)).station.mode = .loading ∧
    (seeding (.seedOrder 0)).loader.phase = .seeding ∧ (seeding (.seedReport 0)).orders.tapQueue = [] ∧
    (after (.seedingReadComplete off) (seeding (.seedOrder 0))).orders.handed = [1] := by decide +kernel

/-- A structure of `n` words, given by those that are not 0. -/
def sparse (n : Nat) (l : List (Nat × Word)) : List Word :=
  (List.range n).map fun i => ((l.find? fun p => p.1 == i).map Prod.snd).getD 0

/-- The header words of `header`, as 11.1 lays them out. -/
def headerWords : List Word :=
  sparse 64 [(0, 0x10001), (1, 0x02040003), (2, 1000), (3, 50), (4, 60), (5, 20), (6, 500), (7, 500), (8, 500), (9, 500),
    (10, 300), (11, 100), (12, 40), (13, 200), (14, 100), (15, 100), (16, 0x04020002), (18, 200), (19, 150),
    (20, 0x000A0003), (21, 0x00020001), (22, 5), (23, 5), (24, 100), (25, 3), (26, 0x2000), (27, 0x00080004),
    (28, 0x3000), (29, 0x4000), (30, 0xFFF), (32, 0x100), (36, 0x100), (40, 0x100), (44, 0x100)]

/-- The table words of the classes and variants of `copy`. -/
def tableWords : List Word :=
  sparse 320 [(0, 0x00080028), (1, 0x000A005A), (72, 0x000F0005), (73, 3), (74, 0x00140000), (76, 0x000F0003),
    (77, 0x00010101)]

theorem test_header_layout : readHeader headerWords = header := by decide +kernel

theorem test_table_layout : readClasses tableWords = copy.classes ∧ readVariant tableWords 0 = ⟨true, 5, 15, 0, 0, true, 0, 20⟩ ∧
    readVariant tableWords 1 = ⟨true, 3, 15, 1, 1, false, 0, 0⟩ := by decide +kernel

theorem test_meets_WindowLayout : (readCopy headerWords tableWords).classes.length = 2 ∧
    halfAt tableWords 0 = 40 ∧ halfAt tableWords 8 = 0 ∧
    (readTap (sparse 320 [(11, 0xFFFE0D05)]) 0).arg = 2 ∧ (readTap (sparse 320 [(11, 0xFFFE0D01)]) 0).arg = 0xFFFE := by
  decide +kernel

/-- A header whose order ring has no entry, at an address inside the configuration window. -/
def emptyRing : Header := { header with orderSize := 0, orderBase := 0x1100 }

theorem test_meets_LoadChecks : 0 < header.nominalPitch.toNat - header.windowEarly.toNat ∧
    (overlaps 0x1000 1536 0x1100 0 = false ∧ overlaps 0x1000 1536 0x15FF 1 = true ∧ overlaps 0x1000 1536 0x1600 1 = false) ∧
    (checkWindows 0x1000 emptyRing = true ∧ checkRingSize emptyRing = false) ∧
    (checkGeometry { copy with hdr := { header with skewTolerance := 500 } } = false ∧
      checkGeometry { copy with hdr := { header with skewTolerance := 499 } } = true) ∧
    (checkTrackCapacity { header with nipToReject := 27940 } = true ∧
      checkTrackCapacity { header with nipToReject := 27941 } = false) := by decide +kernel

theorem test_checks_pass : ((loadChecks 0x1000 (readCopy headerWords tableWords)).all fun p => p.2) = true := by decide +kernel

theorem test_meets_LoadOutcome :
    (loading ⟨0, .table 4, false, []⟩ false headerWords).loader.header = some headerWords ∧
    (loading ⟨0, .table 4, false, []⟩ false headerWords).loader.edited = false ∧
    (firstFailure (loadChecks 0x1000 (readCopy [] []))).isSome = true ∧
    (loadChecks 0x1000 (readCopy headerWords tableWords)).getLast? = some (.trim, true) ∧
    (∀ p ∈ loadChecks 0x1000 (readCopy headerWords tableWords), p.2 = true) ∧
    (loadSucceeds copy { inMode .loading with
      pins := { Pins.reset with foilbrk := PerLane.const true } }).rep.latched = Cause.foil.mask ∧
    ∃ s : State, s.loader.edited = true ∧ s.loader.header = some headerWords := by
  refine ⟨rfl, rfl, by decide +kernel, by decide +kernel, by decide +kernel, by decide, ?_⟩
  exact ⟨{ inMode .loading with loader := { Loader.reset with edited := true, header := some headerWords } }, rfl, rfl⟩

/-- A result write of entry 0 under the bounds `gen`, a read held on it, and a tap order that waits. -/
def failing (gen : Nat) : State :=
  { inMode .held with
    bus := { Bus.reset with
      port := .own, queue := [⟨0, .resultWrite, true, resultBursts 0x2000 .done 0⟩]
      inHand := some ⟨⟨false, 0x2000, [⟨15, 0⟩]⟩, .held [.ownWrite 0], [], none⟩ }
    orders := { OrderUnit.reset with
      handed := [0, 1], inProgress := some ⟨0, 0x2000, gen, true⟩, tapQueue := [⟨0, 0x0D, 0, 1⟩] } }

theorem test_meets_OwnAccessErrors :
    issuedOwn (loading ⟨0, .table 3, false, readBursts64 0x1000⟩ true []) = some ⟨0, .table 3, false, readBursts64 0x1000⟩ ∧
    63 < (⟨0, .table 3, false, readBursts64 0x1000⟩ : OwnAccess).addressed.length ∧
    (loading ⟨0, .table 3, false, readBursts64 0x1000⟩ true []).bus.inHand = none ∧
    (loading ⟨0, .table 3, false, readBursts64 0x1000⟩ true []).orders.tapQueue = [] ∧
    (Purpose.table 3).ofLoader = true ∧
    ({ issued .held ⟨0, .resultWrite, true, resultBursts 0x2000 .done 0⟩ with
      orders := { OrderUnit.reset with inProgress := some ⟨0, 0x2000, 1, true⟩ } } : State).orders.inProgress =
        some ⟨0, 0x2000, (inMode .held).loader.gen, true⟩ ∧
    (posting [] [] 0).rep.fill = none ∧ guarding.rep.fill = some ⟨3, 1, .gap 1⟩ ∧
    (after (.ownAccessError off 0) (issued .held ⟨0, .statusWrite, true, [⟨0x4000, [whole 1]⟩]⟩)).msgs.faults =
      [⟨.memory, none⟩] ∧
    (after (.ownAccessError off 0) (failing 1)).orders = { OrderUnit.reset with
      handed := [1], takeIndex := 1, tapOrders := 1, lastTap := some ⟨0, 0x0D, .done, 0x400⟩ } ∧
    (after (.ownAccessError off 0) (failing 0)).orders.handed = [0, 1] ∧
    (after (.ownAccessError off 0) (failing 1)).bus.inHand = some ⟨⟨false, 0x2000, [⟨15, 0⟩]⟩, .contender, [], none⟩ := by
  decide +kernel

/-- A status write issued with the block unmarked and MEMORY latched already. -/
def writingStatus : State :=
  { issued .held ⟨0, .statusWrite, true, [⟨0x4000, [whole 1]⟩]⟩ with
    rep := { ReportUnit.reset with
      dirty := false, statusQueued := true, latched := Cause.memory.mask } }

/-- Its error marks the block again, and the next write is queued at once (R182). -/
theorem test_status_write_again :
    (after (.ownAccessError off 0) writingStatus).rep = { writingStatus.rep with updateCount := 1 } ∧
    (after (.ownAccessError off 0) writingStatus).bus.queue.map OwnAccess.purpose = [.statusWrite] := by decide +kernel

/-! ### Orders -/

/-- The read of the ring entry at 2000h, which holds an order of a kind code, is issued. -/
def entryRead (m : Mode) (kind : Byte) : State :=
  { issued m ⟨0, .entryRead, false, entryBurst 0x2000⟩ with
    orders := { OrderUnit.reset with handed := [0], inProgress := some ⟨0, 0x2000, 1, false⟩ }
    mem := [(0x2000, 1), (0x2001, kind)] }

theorem test_meets_Presents_entry : Presents 0x0D .entry (sense off (entryRead .held 0x0D))
    (readOrder (ownReadWords [(0x2000, 1), (0x2001, 0x0D)] ⟨0, .entryRead, false, entryBurst 0x2000⟩)) (.ring 0) :=
  ⟨_, _, rfl, rfl, rfl, rfl, rfl, by decide, rfl⟩

theorem test_entry_result : (after (.ack off .entry) (entryRead .held 0x0D)).bus.queue.map OwnAccess.purpose =
    [.resultWrite, .statusWrite] := by decide +kernel

theorem test_meets_OrderTakeAndJudgement :
    (Presents 0x0E byTap (sense off (inMode .run)) (TapOrder.order ⟨0, 0x0E, 0, 1⟩) (.tap 0) ∧ 13 < (0x0E : Byte).toNat) ∧
    (Presents 0 byTap (sense off (inMode .run)) (TapOrder.order ⟨0, 0, 0, 1⟩) (.tap 0) ∧ (0 : Byte).toNat = 0) ∧
    (∀ k : OrderKind, Presents k.code byTap (sense off (inMode .held)) (TapOrder.order ⟨0, k.code, 0, 1⟩) (.tap 0)) ∧
    OrderKind.run.acceptedIn .held = false ∧
    (∀ m ∈ [Mode.held, .watch, .run, .safe], (inMode m).loader.phase = .idle ∧ (inMode m).orders.tapQueue = []) ∧
    ({ inMode .held with orders := { OrderUnit.reset with handed := [0] } } : State).orders.takeIndex ∈ [0] :=
  ⟨⟨tapPresents _ _ rfl rfl, by decide⟩, ⟨tapPresents _ _ rfl rfl, rfl⟩, fun _ => tapPresents _ _ rfl rfl, rfl,
    by decide, by decide⟩

/-- `inMode .watch` ready to run: HEAT_RDY asserted, lane 0 LOCKED. -/
def ready : State :=
  { inMode .watch with
    pins := { Pins.reset with heatRdy := true }, lanes := (PerLane.const Tracker.reset).set 0 (tracker .locked 0) }

theorem test_meets_WatchAndRunOrders :
    (∀ m ∈ [Mode.held, .safe], Presents 1 byTap (sense off (inMode m)) (TapOrder.order ⟨0, 1, 0, 1⟩) (.tap 0) ∧
      (inMode m).loader.loaded = some copy) ∧
    Presents 2 byTap (sense off ready) (TapOrder.order ⟨0, 2, 0, 1⟩) (.tap 0) ∧ ready.station.mode = .watch ∧
    (inMode .watch).pins.heatRdy = false ∧ ready.pins.heatRdy = true ∧
    (∃ n, copy.hdr.active n = true ∧ (ready.lane n).state = .locked) ∧
    (¬ ∃ n, copy.hdr.active n = true ∧ ((inMode .watch).lane n).state = .locked) ∧
    (ready.survey.running = false ∧ ready.orders.slots.survey.isSome = false) ∧
    ({ ready with survey := { Survey.reset with running := true } } : State).survey.running = true ∧
    (after (.run off byTap) ready).station.mode = .run ∧
    (watchFromSafe { inMode .safe with
      orders := { OrderUnit.reset with slots := ⟨none, some (.tap 0), none⟩ } }).rep.latched = Cause.order.mask := by
  refine ⟨?_, tapPresents _ _ rfl rfl, rfl, rfl, rfl, ⟨0, by decide⟩, ?_, by decide, rfl, by decide, by decide⟩
  · intro m hm
    simp only [List.mem_cons, List.not_mem_nil, or_false] at hm
    rcases hm with rfl | rfl
    · exact ⟨tapPresents _ _ rfl rfl, rfl⟩
    · exact ⟨tapPresents _ _ rfl rfl, rfl⟩
  · unfold State.lane; decide

theorem test_meets_StandingOrders :
    (∀ m ∈ [Mode.watch, .run], ∀ k : Byte, Presents k byTap (sense off (inMode m)) (TapOrder.order ⟨0, k, 0, 1⟩) (.tap 0)) ∧
    (inMode .run).station.windDown = false ∧
    ({ inMode .run with station := { (inMode .run).station with windDown := true } } : State).station.windDown = true ∧
    (TapOrder.order ⟨0, 10, 0, 0⟩).a = 0 ∧ (TapOrder.order ⟨0, 10, 0, 1⟩).a ≠ 0 ∧
    (TapOrder.order ⟨0, 11, 0, 6⟩).a.toNat ≤ 6 ∧ 6 < (TapOrder.order ⟨0, 11, 0, 7⟩).a.toNat ∧
    (inMode .watch).survey.running = false ∧ ({ ready with survey := { Survey.reset with running := true } } : State).survey.running = true ∧
    windDownDone { inMode .run with station := { (inMode .run).station with windDown := true } } = true ∧
    windDownDone (inMode .run) = false ∧
    (setWindDown { inMode .run with orders := { OrderUnit.reset with
      slots := ⟨some (.tap 0), none, none⟩ } }).rep.latched = Cause.order.mask := by
  refine ⟨?_, by decide⟩
  intro m hm k
  simp only [List.mem_cons, List.not_mem_nil, or_false] at hm
  rcases hm with rfl | rfl
  · exact tapPresents _ _ rfl rfl
  · exact tapPresents _ _ rfl rfl

theorem test_meets_HoldOrder : (inMode .held).loader.loaded = some copy ∧
    Presents 4 byTap (sense off (inMode .held)) (TapOrder.order ⟨0, 4, 0, 1⟩) (.tap 0) ∧
    Presents 4 byTap (sense off (inMode .safe)) (TapOrder.order ⟨0, 4, 0, 1⟩) (.tap 0) ∧
    (inMode .safe).station.mode.working = true ∧ (inMode .safe).loader.confirmed = true ∧
    ({ inMode .run with loader := { (inMode .run).loader with confirmed := false } } : State).loader.confirmed = false ∧
    (after (.hold off byTap) (inMode .safe)).station.mode = .held ∧
    (after (.hold off byTap) { inMode .run with loader := { (inMode .run).loader with confirmed := false } }).station.mode =
      .unconfigured :=
  ⟨rfl, tapPresents _ _ rfl rfl, tapPresents _ _ rfl rfl, rfl, rfl, rfl, by decide, rfl⟩

/-- RUN with the throw ON, a pull, a survey and three orders that stand. -/
def busyRun : State :=
  { inMode .run with
    pins := { Pins.reset with throwOk := true }
    station := { Station.reset with mode := .run, windDown := true, countTarget := some 3 }
    orders := { OrderUnit.reset with slots := ⟨some (.tap 0), some (.tap 1), some (.ring 2)⟩ }
    imp := { Impression.reset with
      throw := .on, horizon := some 100, release := some ⟨250, true⟩, slotCounter := 1, slotSync := true }
    foil := (PerLane.const Foil.reset).set 0
      { Foil.reset with records := [record 1 true ⟨0, true⟩ ⟨9, false⟩, record 2 false ⟨9, false⟩ ⟨20, false⟩], acc := 1 }
    survey := { Survey.reset with running := true }
    rep := { ReportUnit.reset with latched := Cause.lane.mask } }

/-- HOLD ends all of it and keeps the slot count and the other causes (R38, R48, R141, R146, R156, R162, R191). -/
theorem test_hold_ends_orders : ThrowTable busyRun ∧ busyRun.throwOn = true ∧
    (holdEffects busyRun).rep.latched = Cause.lane.mask ||| Cause.order.mask ||| Cause.survey.mask ∧
    (holdEffects busyRun).rep.offers.map Prod.fst = [.station, .orderUnit, .orderUnit, .rowTrack, .survey, .orderUnit] ∧
    (holdEffects busyRun).orders.slots = ⟨none, none, none⟩ ∧
    (holdEffects busyRun).imp = { Impression.reset with throw := .releasing, slotCounter := 1, slotSync := true } ∧
    (holdEffects busyRun).msgs.pulls.get 0 = [⟨1, .stopped, 4⟩] ∧ (holdEffects busyRun).foil.l0 = Foil.reset := by
  refine ⟨⟨rfl, rfl, rfl, rfl⟩, by decide⟩

theorem test_meets_LaneOrders :
    (∀ k : Byte, Presents k byTap (sense off (inMode .run)) (TapOrder.order ⟨0, k, 0, 1⟩) (.tap 0)) ∧
    (TapOrder.order ⟨0, 5, 0, 255⟩).a ≠ 0 ∧ (TapOrder.order ⟨0, 5, 0, 255⟩).b.toNat ≤ 255 ∧
    ¬ (TapOrder.order ⟨0, 5, 0, 256⟩).b.toNat ≤ 255 ∧ ¬ 1 ≤ (TapOrder.order ⟨0, 5, 0, 0⟩).b.toNat ∧
    (TapOrder.order ⟨0, 6, 1, 0⟩).lane = (1 : Lane).val ∧ copy.hdr.active 1 = true ∧
    (∀ n : Lane, (TapOrder.order ⟨0, 6, 2, 0⟩).lane = n.val → copy.hdr.active n = false) ∧
    (TapOrder.order ⟨0, 7, 0, 1⟩).a.toNat < copy.hdr.setLength ∧ copy.hdr.setLength ≤ (TapOrder.order ⟨0, 7, 0, 2⟩).a.toNat :=
  ⟨fun _ => tapPresents _ _ rfl rfl, by decide⟩

/-- In RUN, an active pull on lane 0, and lane 1 with its foil out. -/
def twoDown : State :=
  { inMode .run with foil := ⟨{ Foil.reset with records := [record 1 true ⟨0, true⟩ ⟨9, false⟩], remaining := 5 },
      { Foil.reset with out := true }, Foil.reset, Foil.reset⟩ }

theorem test_meets_TrimResetAndFoilLoad :
    (∀ k : Byte, Presents k byTap (sense off (inMode .run)) (TapOrder.order ⟨0, k, 0, 1⟩) (.tap 0)) ∧
    ({ inMode .run with imp := { Impression.reset with throw := .on } } : State).imp.throw ≠ .off ∧
    (inMode .run).imp.throw = .off ∧ (inMode .safe).station.mode ≠ .run ∧
    (TapOrder.order ⟨0, 9, 0, 0⟩).lane = (0 : Lane).val ∧ copy.hdr.active 0 = true ∧ (TapOrder.order ⟨0, 9, 0, 0⟩).c = 0 ∧
    (∀ n : Lane, (TapOrder.order ⟨0, 9, 3, 0⟩).lane = n.val → copy.hdr.active n = false) ∧
    (TapOrder.order ⟨0, 9, 0, 1⟩).c ≠ 0 ∧ ((inMode .run).drive 0).activePull = false ∧
    ((driving .run { Foil.reset with records := [record 1 true ⟨0, true⟩ ⟨9, false⟩], remaining := 5 }).drive 0).activePull = true ∧
    (TapOrder.order ⟨0, 9, 0, 0⟩).c = 0 ∧ (after (.foilLoad off (.tap 0 0 0)) twoDown).msgs.faults = [⟨.allLanesDown, none⟩] :=
  ⟨fun _ => tapPresents _ _ rfl rfl, by decide⟩

theorem test_meets_ReportPolicyAndAck :
    (∀ k : Byte, Presents k byTap (sense off (inMode .held)) (TapOrder.order ⟨0, k, 0, 1⟩) (.tap 0)) ∧
    (inMode .held).station.mode.configured = true ∧ (inMode .held).loader.loaded = some copy ∧
    3 < (TapOrder.order ⟨0, 12, 0, 4⟩).a.toNat ∧ (TapOrder.order ⟨0, 12, 0, 3⟩).a.toNat = Policy.variant.code ∧
    (∃ e, copy.variants[(TapOrder.order ⟨0, 12, 0, 0x103⟩).b.toNat]? = some e ∧ e.valid = true) ∧
    copy.variants[(TapOrder.order ⟨0, 12, 0, 0x203⟩).b.toNat]? = none ∧
    (TapOrder.order ⟨0, 12, 0, 0⟩).a.toNat = Policy.all.code :=
  ⟨fun _ => tapPresents _ _ rfl rfl, rfl, rfl, by decide, by decide, ⟨_, rfl, rfl⟩, by decide, by decide⟩

/-- A write whose hold set the fill of entry 3 empties. -/
def behind (a : Access) : State :=
  { issued .held ⟨0, .fill 3, true, []⟩ with
    bus := { Bus.reset with
      port := .own, queue := [⟨0, .fill 3, true, []⟩], inHand := some ⟨a, .held [.fill 3], [], none⟩ }
    rep := { ReportUnit.reset with fill := some ⟨3, 1, .gap 1⟩, fillIndex := 3, released := [3] } }

theorem test_meets_OwnWritesComplete :
    (issuedOwn (issued .held ⟨0, .resultWrite, true, []⟩) = some ⟨0, .resultWrite, true, []⟩ ∧
      (issued .held ⟨0, .resultWrite, true, []⟩).loader.bounds = some bounds ∧
      (issued .held ⟨0, .resultWrite, true, []⟩).orders.tapQueue = [] ∧
      (completeOwn ⟨0, .resultWrite, true, []⟩ (issued .held ⟨0, .resultWrite, true, []⟩)).bus.inHand = none) ∧
    guarding.orders.inProgress = some ⟨2, 0x2020, 1, false⟩ ∧ guarding.rep.fill = some ⟨3, 1, .gap 1⟩ ∧
    (({ inMode .held with bus := { Bus.reset with inHand := some (handed (.held [])) } } : State).bus.inHand =
      some ⟨writeOf 0x2000 1, .held [], [⟨0, .handoff 0 1⟩], none⟩ ∧ (writeOf 0x2000 1).write = true ∧
      fillConds ((writeOf 0x2000 1).fates (inMode .held)) = [] ∧ firstDrop ((writeOf 0x2000 1).fates (inMode .held)) = none ∧
      firedTap (writeOf 0x2000 1) (inMode .held) = none) ∧
    (⟨false, 0x2000, [⟨15, 0⟩]⟩ : Access).write = false ∧
    (after (.fillComplete off) (behind (writeOf 0x30C0 1))).bus.inHand =
      some ⟨writeOf 0x30C0 1, .contender, [], none⟩ ∧
    (resettle { guarding with bus := { Bus.reset with inHand := some ⟨writeOf 0x30C0 0, .held [], [], none⟩ } }).bus.inHand =
      some ⟨writeOf 0x30C0 0, .held [.fill 3], [], none⟩ ∧
    (after (.fillComplete off) (behind (writeOf 0x4000 1))).bus.guardDrops = 1 ∧
    (after (.fillComplete off) (behind (writeOf 0x8000 0x5A))).orders.tapOrders = 1 := by decide +kernel

/-! ### The web, the lanes and the track -/

/-- `inMode` with one fault raised. -/
def faulted (m : Mode) (k : FaultKind) : State := { inMode m with msgs := { Messages.empty with faults := [⟨k, none⟩] } }

theorem test_meets_StationFaults :
    (∀ m ∈ [Mode.unconfigured, .loading, .held, .watch, .run, .safe], (faulted m .trimLimit).msgs.faults[0]? = some ⟨.trimLimit, none⟩ ∧
      (faulted m .trimLimit).loader.loaded = some copy) ∧
    (faulted .watch .throwLost).msgs.faults[0]? = some ⟨.throwLost, none⟩ ∧
    (faulted .watch .webReverse).msgs.faults[0]? = some ⟨.webReverse, none⟩ ∧ (inMode .safe).station.mode.working = true ∧
    ({ faulted .watch .webReverse with survey := { Survey.reset with running := true } } : State).survey.running = true ∧
    (after (.stationFaultApplied 0) (faulted .run .throwLost)).station.mode = .safe ∧
    (after (.stationFaultApplied 0) { faulted .run .throwLost with
      foil := PerLane.const { Foil.reset with acc := 1 } }).foil.l0.acc = 0 ∧
    (faultTaken 0 (faulted .safe .webReverse)).station.record = some ⟨.webReverse, 0, none⟩ ∧
    (faultTaken 0 (faulted .safe .webReverse)).rep.latched = Cause.fault.mask ∧
    (faultTaken 0 (faulted .safe .webReverse)).msgs.faults = [] := by decide

/-- `inMode` with the web at a position. -/
def webAt (m : Mode) (pos high : Pos) : State := { inMode m with web := ⟨pos, high, decide (pos ≠ high)⟩ }

/-- A drive on the last step of its foil. -/
def lastPull : Foil :=
  { Foil.reset with records := [record 1 true ⟨0, true⟩ ⟨9, false⟩], pullEnd := some ⟨9, false⟩, acc := 1, remaining := 1 }

theorem test_meets_WebForwardCount : (inMode .run).loader.loaded = some copy ∧ (∀ n, ((inMode .run).drive n).activePull = false) ∧
    (inMode .bypass).station.mode = .bypass ∧ ((inMode .held).station.mode ≠ .bypass ∧ (inMode .held).station.mode.working = false) ∧
    0 < ((webAt .run 0xFFFFFFFF 0xFFFFFFFF).web.pos + 1 - (webAt .run 0xFFFFFFFF 0xFFFFFFFF).web.high).toInt ∧
    ((webAt .run 9 10).web.pos + 1 - (webAt .run 9 10).web.high).toInt = 0 ∧
    ((webAt .run 8 10).web.pos + 1 - (webAt .run 8 10).web.high).toInt < 0 ∧
    (after .webForwardCount { inMode .run with foil := ⟨lastPull, lastPull, Foil.reset, Foil.reset⟩ }).msgs.faults =
      [⟨.allLanesDown, none⟩, ⟨.allLanesDown, none⟩] := by
  refine ⟨rfl, ?_, by decide⟩
  unfold State.drive; decide

/-- `lastPull` in RUN, with a wind-down set or not, the throw ON or OFF. -/
def lastPulling (w : Bool) (t : ThrowState) : State :=
  { driving .run lastPull with
    station := { Station.reset with mode := .run, windDown := w }
    imp := { Impression.reset with throw := t, release := some ⟨9, false⟩ } }

/-- The last pull stops, by run-out or by a break, and ends a wind-down (R37, R162). -/
theorem test_stop_winds_down : ((lastPulling true .off).drive 0).activePull = true ∧
    (foilAdvance copy 0 (lastPulling true .off)).station.mode = .watch ∧
    (foilbrkAssert 0 (lastPulling true .off)).station.mode = .watch ∧
    (foilAdvance copy 0 (lastPulling true .on)).station.mode = .run ∧
    (foilAdvance copy 0 (lastPulling false .off)).station.mode = .run := by decide

/-- A fault in RUN reports the stopped pull and releases the throw (R39, R136, R162). -/
theorem test_fault_stops_pull :
    (applyFault ⟨.throwLost, none⟩ (lastPulling false .on)).msgs.pulls.get 0 = [⟨1, .stopped, 4⟩] ∧
    (applyFault ⟨.throwLost, none⟩ (lastPulling false .on)).imp.throw = .off ∧
    (applyFault ⟨.throwLost, none⟩ (lastPulling false .on)).imp.release = none := by decide

/-- Two lanes in CODE, each with a read in hand whose trailing edge the web stands on. -/
def twoReads : State :=
  let r := { reader .code with read := some (inHand (some 0)) }
  { webAt .run 130 130 with readers := ⟨r, reader .seek, r, reader .idle⟩ }

theorem test_meets_WebBackwardCount : (webAt .run 8 10).loader.loaded = some copy ∧ (webAt .run 8 10).station.mode.working = true ∧
    ((webAt .run 8 10).web.high - ((webAt .run 8 10).web.pos - 1)).toInt ≤ copy.hdr.reverseTolerance.toNat ∧
    (copy.hdr.reverseTolerance.toNat : Int) < ((webAt .run 7 10).web.high - ((webAt .run 7 10).web.pos - 1)).toInt ∧
    (after .webBackwardCount twoReads).msgs.reads =
      ⟨[⟨.accepted, 100, some 30, some 0, .unread .abort⟩], [], [⟨.accepted, 100, some 30, some 0, .unread .abort⟩], []⟩ ∧
    (after .webBackwardCount twoReads).cnt.unread = 2 ∧
    (after .webBackwardCount twoReads).readers = ⟨reader .seek, reader .seek, reader .seek, reader .idle⟩ := by decide

theorem test_meets_FoilStepping : 0 < copy.hdr.ratioDen ∧ ((inMode .run).drive 0).activePull = false ∧
    (let s := driving .run { Foil.reset with records := [record 1 true ⟨0, true⟩ ⟨9, false⟩], pullEnd := some ⟨9, false⟩, acc := 1, remaining := 1, lowArmed := true };
      (s.drive 0).activePull = true ∧ (∀ h, (s.drive 0).pullEnd = some h → h.reached = false) ∧ (s.drive 0).remaining ≠ 0 ∧
      ((s.drive 0).remaining.toNat ≤ ((s.drive 0).acc + copy.hdr.ratioNum) / copy.hdr.ratioDen) ∧ (s.drive 0).out = false ∧
      (s.drive 0).lowArmed = true ∧ 0 < ((s.drive 0).acc + copy.hdr.ratioNum) / copy.hdr.ratioDen ∧
      (((foilAdvance copy 0 s).drive 0).remaining.toNat < copy.hdr.foilLow.toNat)) ∧
    ((0 + copy.hdr.ratioNum) / copy.hdr.ratioDen < 1) ∧
    lastPull.records = [] ++ record 1 true ⟨0, true⟩ ⟨9, false⟩ :: [] ∧
    (foilAdvance copy 0 (driving .run lastPull)).msgs.pulls.get 0 = [⟨1, .stopped, 5⟩] := by
  refine ⟨by decide, by decide, ⟨by decide, ?_, by decide⟩, by decide, rfl, by decide⟩
  intro h e
  cases e
  rfl

theorem test_meets_MarkLeadingEdge : ((reading (reader .seek)).pins.mark.get 0 = false ∧
      ({ reading (reader .seek) with pins := { Pins.reset with mark := PerLane.const true } } : State).pins.mark.get 0 = true) ∧
    (reading (reader .seek)).web.behind = false ∧ (webAt .run 8 10).web.behind = true ∧
    (∀ st : ReaderState, ((reading (reader st)).reader 0).state = st) ∧
    (((50 : Pos) - copy.hdr.windowEarly - 0).toInt ≤ 0 ∧ ((0 : Pos) - (50 + copy.hdr.windowLate)).toInt ≤ 0) :=
  ⟨⟨rfl, rfl⟩, rfl, rfl, fun _ => rfl, by decide⟩

/-- A pulse in hand at the dark line of lane 0. -/
def pulsing (p : Pulse) (web : Web) : State :=
  { reading { reader .pulse with pulse := some p, expected := some 60, darkStart := some p.lead } with
    pins := { Pins.reset with mark := PerLane.const true }, web := web }

theorem test_meets_MarkTrailingEdge : (pulsing ⟨0, true, true⟩ ⟨20, 20, false⟩).loader.loaded = some copy ∧
    (pulsing ⟨0, true, true⟩ ⟨20, 20, false⟩).pins.mark.get 0 = true ∧ (inMode .run).pins.mark.get 0 = false ∧
    ((pulsing ⟨0, true, true⟩ ⟨20, 20, false⟩).reader 0).state = .pulse ∧
    ((pulsing ⟨0, true, true⟩ ⟨20, 20, false⟩).reader 0).pulse = some ⟨0, true, true⟩ ∧
    ((pulsing ⟨0, true, true⟩ ⟨20, 20, false⟩).reader 0).expected = some 60 ∧
    copy.hdr.minMarkWidth.toNat ≤ ((20 : Pos) - 0).toNat ∧ ((19 : Pos) - 0).toNat < copy.hdr.minMarkWidth.toNat ∧
    (pulsing ⟨0, false, false⟩ ⟨19, 20, true⟩).web.behind = true ∧
    (∀ st : ReaderState, ({ reading (reader st) with pins := { Pins.reset with mark := PerLane.const true } } : State).pins.mark.get 0 = true) ∧
    (after (.markTrailingEdge 0) (pulsing ⟨0, true, false⟩ ⟨20, 20, false⟩)).readers.l0.state = .code ∧
    (after (.markTrailingEdge 0) (pulsing ⟨0, true, false⟩ ⟨19, 19, false⟩)).readers.l0.state = .seek :=
  ⟨rfl, rfl, rfl, rfl, rfl, rfl, by decide, by decide, rfl, fun _ => rfl, by decide, by decide⟩

theorem test_meets_ReaderPositions :
    (((reading { reader .seek with expected := some 9, windowEnd := some ⟨70, true⟩ }).reader 0).windowEnd = some ⟨70, true⟩ ∧
      ((reading (reader .seek)).lane 0).state ≠ .hunt ∧ ((inMode .run).lane 0).state ≠ .hunt) ∧
    (({ inMode .run with lanes := PerLane.const (tracker .hunt 0) } : State).lane 0).state = .hunt ∧
    ((pulsing ⟨0, true, false⟩ ⟨20, 20, false⟩).reader 0).pulse = some ⟨0, true, false⟩ ∧
    ((reading { reader .code with read := some { inHand (some 0) with nextSample := some ⟨134, true⟩ } }).reader 0).read =
      some { inHand (some 0) with nextSample := some ⟨134, true⟩ } ∧
    (∀ cls, ((reading { reader .code with read := some (inHand cls) }).reader 0).read = some (inHand cls) ∧
      (inHand cls).stop.reached = true ∧ (inHand cls).nextSample = none) ∧
    ((reading { reader .seek with darkStart := some 1, spliceAt := some ⟨201, true⟩ }).reader 0).spliceAt = some ⟨201, true⟩ :=
  ⟨⟨rfl, by decide, by decide⟩, rfl, rfl, rfl, fun _ => ⟨rfl, rfl, rfl⟩, rfl⟩

theorem test_meets_Identification :
    (∃ e, copy.variants[0]? = some e ∧ e.matchesCode 0x15 = true ∧ some 0 = some e.cls ∧ some 1 ≠ some e.cls) ∧
    (∃ e, copy.variants[1]? = some e ∧ e.matchesCode 0x13 = true ∧ e.matchesCode 0x15 = false) ∧
    (copy.variants.all fun e => !e.matchesCode 8) = true :=
  ⟨⟨_, rfl, by decide⟩, ⟨_, rfl, by decide⟩, by decide⟩

/-- A lane with a tracker and one read handed. -/
def tracking (t : Tracker) (r : ReadMsg) : State :=
  { inMode .run with
    lanes := (PerLane.const Tracker.reset).set 0 t
    msgs := { Messages.empty with reads := (PerLane.const []).set 0 [r] } }

/-- A complete read of a code. -/
def complete (code : BitVec 12) : ReadMsg := ⟨.accepted, 100, some 30, some 0, .complete code⟩

/-- A missed mark. -/
def missed : ReadMsg := ⟨.flywheel, 100, none, none, .absent⟩

theorem test_meets_ReadTaken : (∀ t r, (tracking t r).loader.loaded = some copy ∧ (tracking t r).msgs.reads.get 0 = r :: [] ∧
      (tracking t r).lane 0 = t) ∧
    (tracker .blocked 32).state = .blocked ∧ (tracker .hunt 0).state = .hunt ∧
    identify copy (copy.hdr.setAt 0 0) 5 (some 0) = .expected ∧
    (identify copy (copy.hdr.setAt 0 0) 8 (some 0) = .unknown ∧ identify copy (copy.hdr.setAt 0 0) 5 (some 1) = .cls) ∧
    (identify copy (copy.hdr.setAt 0 1) 5 (some 0) = .other 0 ∧ copy.hdr.setAt 0 0 = some 0 ∧
      ∀ m < copy.hdr.setLength, copy.hdr.setAt 0 m = some 0 → m = 0) ∧
    (¬ ∃ k < copy.hdr.setLength, copy.hdr.setAt 0 k = some 2 ∧ ∀ m < copy.hdr.setLength, copy.hdr.setAt 0 m = some 2 → m = k) ∧
    ((tracker .locked 30).quality < 31 ∧ (tracker .flywheel 31).quality = 31) ∧
    (missed.markKind = .flywheel ∧ 1 + 1 ≤ copy.hdr.flywheelLimit ∧ copy.hdr.flywheelLimit < 2 + 1) ∧
    (after (.readTaken 0) (tracking (tracker .locked 31) missed)).lanes.l0 =
      { tracker .blocked 32 with setPos := 1, misses := 1 } ∧
    (after (.readTaken 0) (tracking { tracker .locked 31 with misses := 1 } (complete 5))).lanes.l0 =
      { tracker .blocked 32 with setPos := 0, misses := 1 } ∧
    (after (.readTaken 0) (tracking (tracker .locked 31) (complete 5))).cnt.resyncs = 1 ∧
    (after (.readTaken 0) (tracking { tracker .locked 3 with setPos := 1 } (complete 5))).lanes.l0 = tracker .locked 2 := by
  refine ⟨fun _ _ => ⟨rfl, rfl, rfl⟩, rfl, rfl, by decide, by decide, by decide, by decide, by decide, by decide, by decide,
    by decide⟩

/-- A lane with a tracker, notices and a resume position reached. -/
def noticed (t : Tracker) : State :=
  { inMode .run with
    lanes := (PerLane.const Tracker.reset).set 0 t
    msgs := { Messages.empty with strays := PerLane.const 1, skews := PerLane.const 1 }
    track := { Track.reset with resumes := [⟨3, 1, ⟨5, true⟩⟩, ⟨3, 0, ⟨5, true⟩⟩] } }

theorem test_meets_NoticesAndResume : (∀ t, (noticed t).loader.loaded = some copy ∧ (noticed t).lane 0 = t ∧
      (noticed t).msgs.strays.get 0 = 0 + 1 ∧ (noticed t).msgs.skews.get 0 = 0 + 1 ∧
      (noticed t).track.resumes = [⟨3, 1, ⟨5, true⟩⟩] ++ ⟨3, 0, ⟨5, true⟩⟩ :: []) ∧
    (∀ y ∈ [(⟨3, 1, ⟨5, true⟩⟩ : Resume)], ¬ (y.lane = 0 ∧ y.at_.reached = true)) ∧
    (tracker .hunt 30).quality < 31 ∧ 31 ≤ (tracker .flywheel 31).quality ∧ (tracker .idle 0).state = .idle :=
  ⟨fun _ => ⟨rfl, rfl, rfl, rfl, rfl⟩, by decide⟩

/-- Rows and one cell handed on lane 1, at a nip position. -/
def placing (m : Mode) (l : List Row) (nip : Pos) : State :=
  { withRows m l with msgs := { Messages.empty with cells := (PerLane.const []).set 1 [{ cell with nipPos := some nip }] } }

theorem test_meets_CellPlaced : (placing .run [row 1 .opened 1000, row 2 .opened 2000] 1040).loader.loaded = some copy ∧
    (placing .run [row 1 .opened 1000, row 2 .opened 2000] 1040).msgs.cells.get 1 = { cell with nipPos := some 1040 } :: [] ∧
    copy.hdr.active 1 = true ∧ TrackNames (placing .run [row 1 .opened 1000, row 2 .opened 2000] 1040) ∧
    (((1040 : Pos) - 1000).toInt.natAbs ≤ copy.hdr.skewTolerance.toNat ∧ ¬ ((1041 : Pos) - 1000).toInt.natAbs ≤ copy.hdr.skewTolerance.toNat) ∧
    ((row 1 .opened 1000).cells.get 1 = none ∧ ((row 1 .opened 1000).cells.get 0).isSome = true ∧ copy.hdr.leadLane = 0) ∧
    ((copy.hdr.skewTolerance.toNat : Int) < ((2041 : Pos) - 2000).toInt ∧ ¬ (copy.hdr.skewTolerance.toNat : Int) < ((2040 : Pos) - 2000).toInt) ∧
    (0 < ((1040 : Pos) - copy.hdr.throwLead - 839).toInt ∧ ((1040 : Pos) - copy.hdr.throwLead - 840).toInt ≤ 0) ∧
    ((row 3 .struck 500).stage ≠ .opened ∧ (withRows .held []).station.mode.working = false) ∧
    32 ≤ (placing .run ((List.range 32).map fun k => row k .struck 0) 1040).track.rows.length ∧
    (after (.cellPlaced off 1) (placing .run [row 1 .opened 1000] 1040)).track.rows.length = 1 ∧
    (after (.cellPlaced off 1) (placing .run [row 1 .opened 1000] 1041)).track.rows.length = 2 := by
  refine ⟨rfl, rfl, rfl, ?_, by decide, by decide, by decide, by decide, by decide, by decide, by decide, by decide⟩
  unfold TrackNames Named; decide

/-- A span of the list. -/
def span (uid : Nat) (start : Pos) (open_ : Bool) (e : Option Pos) : Span := ⟨uid, start, (PerLane.const false).set 0 open_, e⟩

/-- Spans, and one report of the reader of lane 0. -/
def splicing (l : List Span) (m : SpliceMsg) : State :=
  { inMode .run with
    track := { Track.reset with splices := l }
    msgs := { Messages.empty with splices := (PerLane.const []).set 0 [m] } }

theorem test_meets_SpliceList :
    (∀ l m, (splicing l m).loader.loaded = some copy ∧ (splicing l m).msgs.splices.get 0 = m :: [] ∧
      (splicing l m).track.splices = l) ∧
    TrackNames (splicing [span 1 600 true none, span 2 900 false (some 950)] (.detection 450)) ∧
    ((span 1 600 true none).covers 950 = true ∧ (span 2 900 false (some 950)).covers 950 = true ∧
      (span 2 900 false (some 950)).covers 951 = false ∧ (span 1 600 true none).covers 599 = false) ∧
    displaceable copy 1250 (span 2 900 false (some 950)) = true ∧ displaceable copy 1249 (span 2 900 false (some 950)) = false ∧
    (span 1 600 true none).openLanes.get 0 = true ∧ (span 2 900 false (some 950)).openLanes.get 0 = false := by
  refine ⟨fun _ _ => ⟨rfl, rfl, rfl⟩, ?_, by decide⟩
  unfold TrackNames Named; decide

/-- A drive with a SERVED and an ARMED record. -/
def pulling (served : List PullRec) (armed : List PullRec) (e : Option Held) : Foil :=
  { Foil.reset with records := served ++ armed, pullEnd := e, remaining := 50 }

/-- Rows one of which is due for its decision. -/
def deciding (target : Option Nat) : State :=
  { ready with
    station := { Station.reset with mode := .run, countTarget := target }
    track := { Track.reset with rows := [row 1 .decided 500, row 2 .opened 1000] }
    web := ⟨800, 800, false⟩
    imp := { Impression.reset with slotSync := true }
    foil := PerLane.const { Foil.reset with remaining := 50 } }

theorem test_meets_DecisionTaken : (∀ t, (deciding t).loader.loaded = some copy ∧ (deciding t).station.mode = .run ∧
      (deciding t).track.rows = [row 1 .decided 500] ++ row 2 .opened 1000 :: []) ∧
    TrackNames (deciding none) ∧
    ((row 1 .decided 500).stage ≠ .opened ∧ (row 2 .opened 1000).stage = .opened ∧
      (row 2 .opened 1000).decisionPoint.reached = true ∧ 0 < ((1000 : Pos) - 800).toInt ∧
      0 < ((1000 : Pos) + 0 - 5 - 800).toInt ∧ ((deciding none).drive 0).records.length < 32 ∧
      32 ≤ ((pulling [] (List.replicate 32 (record 7 false ⟨0, false⟩ ⟨30, false⟩)) none).records).length ∧
      ({ Impression.reset with throw := .engaging } : Impression).throw ≠ .off) ∧
    (reasonOf copy ⟨.run, false, false, some 0, true⟩ ((deciding none).drive 0) 0 cell = .strike ∧
      reasonOf copy ⟨.run, true, false, some 0, true⟩ ((deciding none).drive 0) 0 cell = .stopped) := by
  refine ⟨fun _ => ⟨rfl, rfl, rfl⟩, ?_, by decide⟩
  unfold TrackNames Named; decide

/-- The count target falls to 1 with a strike, and the throw and the pull begin. -/
theorem test_meets_DecisionTaken_struck :
    (deciding (some 2)).station.countTarget = some 2 ∧
    (after (.decisionPointReached off) (deciding (some 2))).imp.throw = .engaging ∧
    (after (.decisionPointReached off) (deciding (some 2))).station.countTarget = some 1 ∧
    ((after (.decisionPointReached off) (deciding (some 2))).foil.l0.records.map fun r => (r.start.pos, r.ownEnd.pos)) =
      [(995, 1025)] := by
  decide

/-- The last strike of a count ends RUN; it winds down at once, and refuses a tap that waits. -/
theorem test_meets_DecisionTaken_counted :
    ((deciding (some 1)).station.countTarget = some 1 ∧ (deciding (some 1)).imp.throw = .off ∧
      (deciding (some 1)).imp.nips = []) ∧
    (after (.decisionPointReached off) (deciding (some 1))).station.mode = .watch ∧
    (after (.decisionPointReached off) (deciding (some 1))).imp.throw = .off ∧
    (decideRow 2 { deciding (some 1) with
      orders := { OrderUnit.reset with slots := ⟨some (.tap 0), none, none⟩ } }).rep.latched = Cause.order.mask := by
  decide

/-- A point that the web stands at already: the row is struck and its pull served in the decision. -/
theorem test_meets_DecisionTaken_reached :
    ¬ 0 < ((1000 : Pos) - 1000).toInt ∧ ¬ 0 < ((995 : Pos) - 1000).toInt ∧
    (after (.decisionPointReached off) { deciding none with web := ⟨1000, 1000, false⟩ }).track.rows.map Row.stage =
      [.decided, .struck] ∧
    ((after (.decisionPointReached off) { deciding none with web := ⟨1000, 1000, false⟩ }).foil.l0.records.map
      PullRec.served) = [true] := by
  decide

/-- A nip reached. -/
def nipping (m : Mode) (imp : Impression) : State :=
  { withRows m [row 1 .decided 1000] with
    web := ⟨1000, 1000, false⟩
    imp := { imp with nips := [⟨1, ⟨1000, true⟩⟩] } }

theorem test_meets_NipTaken :
    (∀ m i, (nipping m i).loader.loaded = some copy ∧ (nipping m i).imp.nips = ⟨1, ⟨1000, true⟩⟩ :: [] ∧
      (nipping m i).track.rows = [] ++ row 1 .decided 1000 :: []) ∧ (row 1 .decided 1000).uid = 1 ∧
    TrackNames (nipping .watch Impression.reset) ∧ Impression.reset.lastIndex = none ∧
    (∃ n x, n.val = copy.hdr.leadLane ∧ (row 1 .decided 1000).cells.get n = some x ∧ x.markKind = some .accepted ∧
      x.status = .identified ∧ x.predicted = false ∧ x.nipPos = some 1000) ∧
    ((0 + correction header 20).natAbs ≤ header.trimLimit ∧ header.trimLimit < (8 + correction header 20 : Int).natAbs) ∧
    ((inMode .safe).station.mode ≠ .watch ∧ (inMode .safe).station.mode ≠ .run) ∧
    (after .nipReached (nipping .watch { Impression.reset with slotSync := true, lastIndex := some 980 })).imp.trim = 3 ∧
    (after .nipReached (nipping .watch { Impression.reset with slotSync := true, lastIndex := some 980, trim := 8 })).msgs.faults =
      [⟨.trimLimit, none⟩] ∧
    (after .nipReached (nipping .watch { Impression.reset with slotSync := true, slotCounter := 1 })).imp.slotCounter = 0 := by
  refine ⟨fun _ _ => ⟨rfl, rfl, rfl⟩, rfl, ?_, rfl, ⟨0, cell, by decide⟩, by decide, by decide, by decide, by decide, by decide⟩
  unfold TrackNames Named; decide

/-- A throw state with its horizon and release point. -/
def throwing (t : ThrowState) (okLevel : Bool) : State :=
  { inMode .run with
    pins := { Pins.reset with throwOk := okLevel }
    imp := { Impression.reset with throw := t, horizon := some 100, release := some ⟨250, true⟩ } }

theorem test_meets_ThrowReleaseIndexAndHeat_release : ThrowTable (throwing .on true) ∧ ThrowTable (throwing .engaging false) ∧
    ThrowTable (inMode .run) ∧ (throwing .on true).imp.throw = .on ∧ (throwing .engaging false).imp.throw = .engaging ∧
    (inMode .run).imp.throw = .off ∧ (throwing .on true).imp.release = some ⟨250, true⟩ ∧
    (∀ x ∈ (throwing .on true).imp.nips, x.nip.reached = false) ∧
    (∃ h ∈ (nipping .run Impression.reset).imp.nips, h.nip.reached = true) ∧ ThrowTable (nipping .run Impression.reset) ∧
    (after .releasePointReached (throwing .on true)).imp.throw = .releasing ∧
    (after .releasePointReached (throwing .engaging false)).imp.throw = .off :=
  ⟨⟨rfl, rfl, rfl, rfl⟩, ⟨rfl, rfl, rfl, rfl⟩, ⟨rfl, rfl⟩, rfl, rfl, rfl, rfl, by decide, ⟨_, List.mem_singleton_self _, rfl⟩,
    ⟨rfl, rfl⟩, by decide, by decide⟩

theorem test_meets_ThrowReleaseIndexAndHeat_edges : (∀ t b, (throwing t b).imp.throw = t ∧ (throwing t b).pins.throwOk = b ∧
      (throwing t b).station.mode ≠ .bypass ∧ (throwing t b).station.mode.working = true ∧ (throwing t b).web.behind = false) ∧
    (inMode .bypass).station.mode = .bypass ∧ (webAt .run 8 10).web.behind = true ∧ (inMode .held).station.mode.working = false ∧
    (after .cylIndex { inMode .run with imp := { Impression.reset with slotSync := true, slotCounter := 1 } }).msgs.faults =
      [⟨.cylinderSlip, none⟩] :=
  ⟨fun _ _ => ⟨rfl, rfl, fun h => (nomatch h), rfl, rfl⟩, rfl, rfl, rfl, by decide⟩

/-- `twoDown` with no foil on lane 0 and a pull start reached there. -/
def noFoil : State :=
  let f := { Foil.reset with records := [record 1 false ⟨0, true⟩ ⟨30, false⟩] }
  { twoDown with foil := twoDown.foil.set 0 f }

theorem test_meets_Pulls : (∀ f, (driving .run f).loader.loaded = some copy ∧ (driving .run f).drive 0 = f ∧
      (driving .run f).station.mode = .run ∧ (driving .run f).web.high = 0) ∧
    copy.hdr.active 0 = true ∧ copy.hdr.active 2 = false ∧ (inMode .held).station.mode.configured = true ∧
    (pulling [] [record 1 false ⟨0, true⟩ ⟨30, false⟩] none).records = [] ++ record 1 false ⟨0, true⟩ ⟨30, false⟩ :: [] ∧
    (0 < ((30 : Pos) - 0).toInt ∧ ¬ 0 < ((0 : Pos) - 0).toInt) ∧
    ((pulling [] [] none).faulty = false ∧ (pulling [] [] none).remaining ≠ 0 ∧ (pulling [] [] none).activePull = false) ∧
    (pulling [record 1 true ⟨0, true⟩ ⟨20, false⟩] [record 2 false ⟨0, true⟩ ⟨30, false⟩] (some ⟨20, false⟩)).activePull = true ∧
    (pulling [record 1 true ⟨0, true⟩ ⟨10, true⟩, record 2 true ⟨0, true⟩ ⟨30, false⟩] [] (some ⟨30, false⟩)).records =
      [] ++ record 1 true ⟨0, true⟩ ⟨10, true⟩ :: [record 2 true ⟨0, true⟩ ⟨30, false⟩] ∧
    (30 : Pos) ≠ 10 ∧
    (pulling [record 1 true ⟨0, true⟩ ⟨10, true⟩] [] (some ⟨10, true⟩)).pullEnd = some ⟨10, true⟩ ∧
    ((after (.pullStartReached 0) (driving .run (pulling [] [record 1 false ⟨0, true⟩ ⟨30, false⟩] none))).foil.l0.acc = 1) ∧
    (after (.foilbrkAsserted 0) (inMode .run)).foil.l0.brk = true ∧
    (after (.foilbrkAsserted 0) (inMode .run)).msgs.faults = [] ∧
    (after (.foilbrkAsserted 0) twoDown).msgs.faults = [⟨.allLanesDown, none⟩] ∧
    (after (.pullStartReached 0) noFoil).msgs.faults = [⟨.allLanesDown, none⟩] :=
  ⟨fun _ => ⟨rfl, rfl, rfl, rfl⟩, rfl, rfl, rfl, rfl, by decide⟩

/-- A row past the nip with its reject point reached. -/
def struckRow : Row :=
  { row 1 .struck 1000 with
    rejectPoint := some ⟨1300, true⟩
    cells := (PerLane.const none).set 0 (some { cell with
      outcome := some .foiled, pull := some ⟨995, 1025, .active⟩, reject := true }) }

/-- A pull report on its way. -/
def reporting (l : List Row) (m : PullMsg) : State :=
  { withRows .run l with msgs := { Messages.empty with pulls := (PerLane.const []).set 0 [m] } }

theorem test_meets_PullReportsAndRejects :
    (∀ l m, (reporting l m).msgs.pulls.get 0 = m :: [] ∧ (reporting l m).track.rows = l) ∧
    (∀ r ∈ [row 2 .opened 0], r.uid ≠ 1) ∧ TrackNames (reporting [struckRow] ⟨1, .stopped, 3⟩) ∧
    (struckRow.cells.get 0).isSome = true ∧ struckRow.stage = .struck ∧ struckRow.rejectPoint = some ⟨1300, true⟩ ∧
    (∀ y ∈ [row 2 .decided 2000], ¬ (y.stage = .opened ∧ y.decisionPoint.reached = true)) ∧
    (({ inMode .run with track := { Track.reset with rejectEnd := (PerLane.const none).set 0 (some ⟨5, true⟩) } } : State).track.rejectEnd.get 0
      = some ⟨5, true⟩) ∧
    ((after (.pullReport 0) (reporting [struckRow] ⟨1, .stopped, 3⟩)).track.rows.map fun r => (r.cells.get 0).map fun x => x.outcome) =
      [some (some .blind)] ∧
    (after .rejectPointReached (withRows .run [struckRow])).track.rejectEnd.l0 = some ⟨1400, false⟩ ∧
    (after .rejectPointReached (withRows .run [struckRow])).track.rows = [] ∧
    (after .rejectPointReached (withRows .run [struckRow, row 2 .opened 2000])).track.rows.length = 2 := by
  refine ⟨fun _ _ => ⟨rfl, rfl⟩, by decide, ?_, rfl, rfl, rfl, by decide, rfl, by decide, by decide, by decide, by decide⟩
  unfold TrackNames Named; decide

theorem test_meets_SurveyUnit : (inMode .watch).loader.loaded = some copy ∧
    (∀ n, copy.hdr.active n = true → (Survey.reset.lanes.get n).violations = 0) ∧
    (Survey.reset.counted ≠ 2 ^ Survey.reset.k ∧ ({ Survey.reset with counted := 1 } : Survey).counted = 2 ^ Survey.reset.k ∧
      ({ Survey.reset with retired := 4 } : Survey).retired = 4 * 2 ^ Survey.reset.k) ∧
    (inTrailingZone 10 100 110 = true ∧ inTrailingZone 10 100 111 = false ∧ inTrailingZone 10 100 100 = false) ∧
    (inLeadingZone 10 100 90 = true ∧ inLeadingZone 10 100 100 = false ∧ inLeadingZone 10 100 89 = false) ∧
    SurveyLane.reset.violations ≤ 65535 ∧
    (after (.survey off (.tap 0 0 2)) (inMode .watch)).survey.k = 2 ∧
    (({ SurveyLane.reset with watch := some (90, 100) } : SurveyLane).pulse 10 110).offsets = [20] ∧
    ((({ SurveyLane.reset with recent := [90, 95, 89] } : SurveyLane).complete 10 100 120).offsets = [-10, -5]) ∧
    (endSurvey .pass { inMode .watch with survey := { Survey.reset with k := 1, lanes := PerLane.const { SurveyLane.reset with
      pitchSum := 7, skewSum := -3 } } }).survey.lanes.map SurveyLane.meanSkew = ⟨none, some (-2), none, none⟩ := by
  refine ⟨rfl, by decide, by decide, by decide, by decide, by decide, by decide, by decide, by decide, by decide⟩

theorem test_meets_AttentionLine : (inMode .held).station.mode = .held ∧ (inMode .safe).station.mode.working = true ∧
    (inMode .loading).station.mode = .loading ∧ (inMode .bypass).station.mode = .bypass ∧
    ({ inMode .loading with rep := { ReportUnit.reset with latched := 1 } } : State).attn = true ∧
    ({ inMode .held with rep := { ReportUnit.reset with latched := 1 } } : State).attn = false := by decide

end Sys2Proof.Tests
end

/-! SUPPORT. The arrival of an access on the processor port (R3): what a malformed access meets while RESET_N is negated, and
what every access meets while it is asserted. -/

namespace Sys2Proof.Machine

/-! ## What R3 calls malformed, and the answer record -/

theorem Access.malformed_iff (a : Access) :
    a.malformed = true ↔
      a.words.length ∉ [1, 2, 4, 8] ∨ 32 < a.addr.toNat % 32 + 4 * a.words.length := by
  simp only [Access.malformed, Bool.or_eq_true, Bool.not_eq_true', List.contains_eq_mem, decide_eq_false_iff_not,
    decide_eq_true_eq]

/-- With no access in hand an answer changes the answer record alone. -/
theorem answerAll_of_no_access (l : List WordAnswer) {s : State} (idle : s.bus.inHand = none) :
    answerAll l s = { s with bus := { s.bus with answer := l } } := by
  rw [answerAll, ← idle]

/-! ## An arrival with no access in hand -/

theorem arrive_of_bypass (a : Access) {s : State} (idle : s.bus.inHand = none) (bypass : s.station.mode = .bypass) :
    arrive a s = setHand a .contender [] none s := by
  simp only [arrive, idle, bypass, if_true]

theorem arrive_of_malformed {a : Access} {s : State} (idle : s.bus.inHand = none)
    (negated : s.station.mode ≠ .bypass) (bad : a.malformed = true) :
    arrive a s = { s with bus := { s.bus with answer := a.words.map fun _ => .error } } := by
  rw [← answerAll_of_no_access _ idle]
  simp only [arrive, idle, if_neg negated, bad, if_true]

/-! ## The two commands of the processor port -/

theorem exec_processorWrite (lv : Levels) (addr : Addr) (words : List WordReq) (s : State) :
    exec (.processorWrite lv addr words) s =
      .next (finish s (arrive ⟨true, wordAddr addr, words⟩ (sense lv s))) := rfl

theorem exec_processorRead (addr : Addr) (enables : List (BitVec 4)) (s : State) :
    exec (.processorRead addr enables) s =
      .next (finish s (arrive ⟨false, wordAddr addr, enables.map fun e => ⟨e, 0⟩⟩ s)) := rfl

/-- Settles O17: each command is `arrive` between `sense` and `finish`, and RESET_N and the form of the access choose the
branch of `arrive`. A write is judged after `sense`, which changes the pins only. -/
theorem malformedAccesses : Obligations.MalformedAccesses := by
  intro lv addr words enables s idle bad u
  have idleSensed : u.bus.inHand = none := idle
  refine ⟨fun hbad negated => ?write, fun hbad negated => ?read, fun bypass => ⟨?writeBypass, ?readBypass⟩⟩
  case write =>
    have malformed : (⟨true, wordAddr addr, words⟩ : Access).malformed = true := (Access.malformed_iff _).mpr hbad
    have negatedSensed : u.station.mode ≠ .bypass := negated
    rw [exec_processorWrite, arrive_of_malformed idleSensed negatedSensed malformed, sense_bus]
  case read =>
    have malformed : (⟨false, wordAddr addr, enables.map fun e => ⟨e, 0⟩⟩ : Access).malformed = true :=
      (Access.malformed_iff _).mpr (by simpa only [List.length_map] using hbad)
    rw [exec_processorRead, arrive_of_malformed idle negated malformed, List.map_map]
    rfl
  case writeBypass =>
    have bypassSensed : u.station.mode = .bypass := bypass
    rw [exec_processorWrite, arrive_of_bypass _ idleSensed bypassSensed, setHand, sense_bus]
  case readBypass =>
    rw [exec_processorRead, arrive_of_bypass _ idle bypass, setHand]

end Sys2Proof.Machine

/-! SUPPORT. Tap matching (R62): the words of a burst, the words an access touches, which words a tap entry matches, and which
entry a write fires. -/

namespace Sys2Proof.Machine

/-! ## The words of a burst and the words touched (R1) -/

/-- Word `k` of a burst lies `4 k` bytes past its address. -/
theorem burstWords_getElem? (addr : Addr) (words : List WordReq) (k : Nat) :
    (burstWords addr words)[k]? = words[k]?.map fun w => (addr + BitVec.ofNat 24 (4 * k), w) := by
  induction words generalizing addr k with
  | nil => simp only [burstWords, List.getElem?_nil, Option.map_none]
  | cons w rest ih =>
    cases k with
    | zero => simp only [burstWords, List.getElem?_cons_zero, Option.map_some, Nat.mul_zero, BitVec.add_zero]
    | succ k =>
      have next : addr + 4 + BitVec.ofNat 24 (4 * k) = addr + BitVec.ofNat 24 (4 * (k + 1)) := by
        rw [Nat.mul_succ, Nat.add_comm (4 * k), BitVec.ofNat_add, ← BitVec.add_assoc]; rfl
      simp only [burstWords, List.getElem?_cons_succ, ih, next]

theorem Access.mem_touched_iff (a : Access) (k : Nat) (x : Addr) (w : WordReq) :
    (k, x, w) ∈ a.touched ↔ a.words[k]? = some w ∧ w.en ≠ 0 ∧ x = a.addr + BitVec.ofNat 24 (4 * k) := by
  have indexed : (k, x, w) ∈ a.addressed.zipIdx.map (fun p => (p.2, p.1)) ↔ a.addressed[k]? = some (x, w) := by
    rw [← List.mk_mem_zipIdx_iff_getElem?, List.mem_map]
    constructor
    · rintro ⟨⟨⟨y, v⟩, j⟩, hp, ⟨⟩⟩
      exact hp
    · exact fun h => ⟨((x, w), k), h, rfl⟩
  rw [Access.touched, List.mem_filter, indexed, Access.addressed, burstWords_getElem?, Option.map_eq_some_iff,
    decide_eq_true_eq]
  constructor
  · rintro ⟨⟨v, word, ⟨⟩⟩, enabled⟩
    exact ⟨word, enabled, rfl⟩
  · rintro ⟨word, enabled, rfl⟩
    exact ⟨⟨w, word, rfl⟩, enabled⟩

/-- The words touched are listed in address order: their indices in the burst rise. -/
theorem Access.touched_pairwise (a : Access) : a.touched.Pairwise fun p q => p.1 < q.1 := by
  have rising : a.addressed.zipIdx.Pairwise fun p q => p.2 < q.2 := by
    rw [← List.pairwise_map (f := Prod.snd) (R := (· < ·)), List.zipIdx_map_snd]
    exact List.pairwise_lt_range'
  exact List.Pairwise.filter _ (List.pairwise_map.mpr rising)

/-! ## What a tap entry matches (R62) -/

/-- The mask of R62 that leaves out the two low bits of an address. -/
theorem getLsbD_not_three : ∀ i < 24, (~~~(3#24)).getLsbD i = decide (2 ≤ i) := by decide

/-- Two addresses differ in no bit outside a mask and the two low bits. -/
theorem maskedXor_eq_zero_iff (a b mask : Addr) :
    (a ^^^ b) &&& ~~~mask &&& ~~~(3#24) = 0 ↔
      ∀ i, 2 ≤ i → i < 24 → mask.getLsbD i = false → a.getLsbD i = b.getLsbD i := by
  have bit : ∀ i < 24, ((a ^^^ b) &&& ~~~mask &&& ~~~(3#24)).getLsbD i =
      ((a.getLsbD i ^^ b.getLsbD i) && !mask.getLsbD i && decide (2 ≤ i)) := by
    intro i hi
    rw [BitVec.getLsbD_and, BitVec.getLsbD_and, BitVec.getLsbD_xor, BitVec.getLsbD_not, getLsbD_not_three i hi,
      decide_eq_true hi, Bool.true_and]
  constructor
  · intro zero i low hi unmasked
    have h := bit i hi
    rw [zero, unmasked, decide_eq_true low] at h
    simpa using h
  · intro agree
    refine BitVec.eq_of_getLsbD_eq fun i hi => ?_
    rw [bit i hi]
    by_cases low : 2 ≤ i
    · cases masked : mask.getLsbD i with
      | true => simp
      | false => simp [agree i low hi masked]
    · simp [low]

theorem wordCarries_iff (w : WordReq) (k : Nat) (v : Byte) :
    wordCarries w k v = true ↔ w.en.getLsbD k = true ∧ byteOf w.data k = v := by
  rw [wordCarries, Bool.and_eq_true, beq_iff_eq]

theorem TapEntry.matchesWord_iff (t : TapEntry) (a : Addr) (w : WordReq) :
    t.matchesWord a w = true ↔ t.enabled = true ∧
      (∀ i, 2 ≤ i → i < 24 → t.addrMask.getLsbD i = false → a.getLsbD i = t.wordAddr.getLsbD i) ∧
      ∀ k < 4, t.byteMask.getLsbD k = true → w.en.getLsbD k = true ∧ byteOf w.data k = byteOf t.pattern k := by
  have byte (k : Nat) : (!t.byteMask.getLsbD k || wordCarries w k (byteOf t.pattern k)) = true ↔
      (t.byteMask.getLsbD k = true → w.en.getLsbD k = true ∧ byteOf w.data k = byteOf t.pattern k) := by
    rw [← wordCarries_iff, Bool.or_eq_true, Bool.not_eq_true', ← Bool.not_eq_true, imp_iff_not_or]
  simp only [TapEntry.matchesWord, Bool.and_eq_true, beq_iff_eq, maskedXor_eq_zero_iff, List.all_eq_true,
    List.mem_range, byte, and_assoc]

/-! ## The tap argument (R63) -/

theorem TapEntry.argOf_fixed {t : TapEntry} (fixed : t.fromByte = false) (w : WordReq) : t.argOf w = t.arg := by
  simp only [TapEntry.argOf, fixed, Bool.false_eq_true, if_false]

theorem TapEntry.argOf_byte_toNat {t : TapEntry} (byte : t.fromByte = true) (w : WordReq) :
    (t.argOf w).toNat = if w.en.getLsbD (t.arg.toNat % 4) then (byteOf w.data (t.arg.toNat % 4)).toNat else 0 := by
  simp only [TapEntry.argOf, byte, if_true]
  split
  · exact BitVec.toNat_setWidth_of_le (by decide)
  · rfl

/-! ## The entry a word fires and the word a write fires on (R62) -/

theorem tapOfWord_eq_none {taps : List TapEntry} {a : Addr} {w : WordReq}
    (unmatched : ∀ t ∈ taps, t.matchesWord a w = false) : tapOfWord taps a w = none := by
  rw [tapOfWord, Option.map_eq_none_iff, List.find?_eq_none]
  intro p hp
  exact Bool.eq_false_iff.mp (unmatched p.1 (List.fst_mem_of_mem_zipIdx hp))

/-- The lowest-numbered entry that matches a word fires. -/
theorem tapOfWord_eq_some {taps : List TapEntry} {a : Addr} {w : WordReq} {i : Nat} {t : TapEntry}
    (entry : taps[i]? = some t) (matched : t.matchesWord a w = true)
    (lowest : ∀ j < i, ∀ u, taps[j]? = some u → u.matchesWord a w = false) :
    tapOfWord taps a w = some (t, ⟨i, t.kind, t.lane, t.argOf w⟩) := by
  obtain ⟨inTable, rfl⟩ := List.getElem?_eq_some_iff.mp entry
  have found : (taps.zipIdx.find? fun p => p.1.matchesWord a w) = some (taps[i], i) := by
    refine List.find?_eq_some_iff_getElem.mpr ⟨matched, i, by simpa using inTable, by simp, fun j below => ?_⟩
    have notFired := lowest j below taps[j] (List.getElem?_eq_getElem (below.trans inTable))
    simp [notFired]
  rw [tapOfWord, found, Option.map_some]

theorem tapOfWrite_eq_none {taps : List TapEntry} {l : List (Nat × Addr × WordReq)}
    (unmatched : ∀ p ∈ l, ∀ t ∈ taps, t.matchesWord p.2.1 p.2.2 = false) : tapOfWrite taps l = none :=
  List.findSome?_eq_none_iff.mpr fun p hp => tapOfWord_eq_none (unmatched p hp)

/-- Words that match no entry are passed over: the first word that fires a tap decides for the write. -/
theorem tapOfWrite_append_cons {taps : List TapEntry} {pre post : List (Nat × Addr × WordReq)}
    {p : Nat × Addr × WordReq} {x : TapEntry × TapOrder}
    (unmatched : ∀ q ∈ pre, ∀ u ∈ taps, u.matchesWord q.2.1 q.2.2 = false)
    (fires : tapOfWord taps p.2.1 p.2.2 = some x) : tapOfWrite taps (pre ++ p :: post) = some x := by
  have passedOver := tapOfWrite_eq_none unmatched
  rw [tapOfWrite] at passedOver ⊢
  rw [List.findSome?_append, passedOver, Option.none_or, List.findSome?_cons_of_isSome (by rw [fires]; rfl), fires]

/-! ## The modes in which a tap fires (R19) -/

theorem firedTap_of_configured (a : Access) {s : State} {c : Loaded} (loaded : s.loader.loaded = some c)
    (configured : s.station.mode.configured = true) : firedTap a s = tapOfWrite c.taps a.touched := by
  simp only [firedTap, configured, loaded, if_true]

theorem firedTap_of_not_configured (a : Access) {s : State} (notConfigured : s.station.mode.configured = false) :
    firedTap a s = none := by
  simp only [firedTap, notConfigured, Bool.false_eq_true, if_false]

end Sys2Proof.Machine

/-! SUPPORT. The order a tap makes (R63) and its judgement (R44, R66). -/

namespace Sys2Proof.Machine

/-! ## Order kinds and their codes (11.2) -/

theorem OrderKind.ofCode_code (k : OrderKind) : OrderKind.ofCode k.code = some k := by cases k <;> rfl

theorem OrderKind.ofCode_eq_none {b : Byte} (unknown : b.toNat = 0 ∨ 13 < b.toNat) : OrderKind.ofCode b = none := by
  unfold OrderKind.ofCode
  split
  case h_14 => rfl
  all_goals omega

/-- R44: an order of an unknown kind is refused with no effect, in every mode. -/
theorem judgeOrder_of_unknown_kind {o : Order} (unknown : OrderKind.ofCode o.kind = none) (g : Origin) (s : State) :
    judgeOrder o g s = ⟨.refusedKind, 0, s⟩ := by
  simp only [judgeOrder, unknown, refuse]

/-! ## The arguments a tap order takes by its kind (R63) -/

/-- The SKIP mask of one lane. -/
theorem one_shiftLeft_lane (n : Lane) : 1#16 <<< n.val = BitVec.ofNat 16 (2 ^ n.val) := by
  match n with
  | 0 | 1 | 2 | 3 => rfl

theorem TapOrder.order_of_unknown_kind {t : TapOrder} (unknown : OrderKind.ofCode t.kind = none) :
    t.order = ⟨t.kind, t.lane.val, 0, 0, 0⟩ := by
  simp only [TapOrder.order, unknown]

/-- R66: the judgement of a tap order is the last tap result. -/
theorem applyTap_lastTap (t : TapOrder) (s : State) :
    let r := judgeOrder t.order (.tap t.tap) { s with orders := { s.orders with tapOrders := s.orders.tapOrders + 1 } }
    (applyTap t s).orders.lastTap = some ⟨t.tap, t.kind, r.code, r.value⟩ := rfl

/-- Settles O20: matching and the tap argument entry by entry, then the first word and the lowest entry by `tapOfWrite` and
`tapOfWord`, then the order made, by whether its kind is known. -/
theorem tapMatch : Obligations.TapMatch := by
  refine ⟨fun t a w => ⟨t.matchesWord_iff a w, fun fixed => TapEntry.argOf_fixed fixed w,
      fun byte => TapEntry.argOf_byte_toNat byte w⟩, fun taps l => ⟨tapOfWrite_eq_none, ?fires⟩,
    fun a s => ⟨a.mem_touched_iff, a.touched_pairwise, fun c => firedTap_of_configured a, firedTap_of_not_configured a⟩,
    fun t => ⟨?known, ?unknown, applyTap_lastTap t⟩⟩
  case fires =>
    intro pre p post i t position entry matched unmatched lowest
    rw [position]
    exact tapOfWrite_append_cons unmatched (tapOfWord_eq_some entry matched lowest)
  case known =>
    intro k known
    have decoded : OrderKind.ofCode t.kind = some k := by rw [known, OrderKind.ofCode_code]
    cases k <;> simp only [TapOrder.order, decoded, one_shiftLeft_lane]
  case unknown =>
    intro unknown
    have noKind := OrderKind.ofCode_eq_none unknown
    have made := TapOrder.order_of_unknown_kind noKind
    exact ⟨made, judgeOrder_of_unknown_kind (by rw [made]; exact noKind)⟩

end Sys2Proof.Machine

/-! SUPPORT. The invariants of every step, read off `exec_kept`; the front of the command queue; reset; the port arbiter and
ATTN. -/

namespace Sys2Proof.Machine

/-! ## A step and the command it runs -/

theorem step_cons (c : Instr) (rest : List Instr) (s : State) :
    step { s with pending := c :: rest } = exec c { s with pending := rest } := rfl

theorem step_idle {s : State} (h : s.pending = []) : step s = .next s := by
  unfold step
  rw [h]

/-- Settles O1. -/
theorem stepRunsFrontCommand : Obligations.StepRunsFrontCommand :=
  ⟨step_cons, fun _ => step_idle⟩

/-- Settles O2. -/
theorem everyCommandAnswersAndKeepsTheQueue : Obligations.EveryCommandAnswersAndKeepsTheQueue := by
  intro c s
  obtain ⟨t, answer, kept⟩ := exec_kept c s
  exact ⟨t, answer, kept.pending⟩

/-- A command keeps what `Kept` names. -/
theorem kept_of_exec {c : Instr} {s t : State} (h : exec c s = .next t) : Kept s t := by
  obtain ⟨u, answer, kept⟩ := exec_kept c s
  rw [h] at answer
  cases answer
  exact kept

/-- A property that every command keeps, and that does not look at the queue of commands, is kept by every step. -/
theorem keptByStep_of_exec {p : State → Prop} (blind : ∀ (s : State) (l : List Instr), p s → p { s with pending := l })
    (kept : ∀ (c : Instr) (s t : State), exec c s = .next t → p s → p t) : KeptByStep p := by
  intro s t hp hs
  cases waiting : s.pending with
  | nil =>
    rw [step_idle waiting] at hs
    cases hs
    exact hp
  | cons c rest =>
    rw [step, waiting] at hs
    exact kept c _ t hs (blind s rest hp)

/-! ## The invariants -/

/-- Settles O5. -/
theorem memoryStaysCanonical : Obligations.MemoryStaysCanonical :=
  keptByStep_of_exec (fun _ _ => id) fun _ _ _ h => (kept_of_exec h).mem

/-- Settles O6. -/
theorem queuesAndPassOverCountStayInRange : Obligations.QueuesAndPassOverCountStayInRange :=
  ⟨keptByStep_of_exec (fun _ _ => id) fun _ _ _ h => (kept_of_exec h).passOver,
    keptByStep_of_exec (fun _ _ => id) fun _ _ _ h => (kept_of_exec h).taps,
    keptByStep_of_exec (fun _ _ => id) fun _ _ _ h => (kept_of_exec h).post,
    keptByStep_of_exec (fun _ _ => id) fun _ _ _ h => (kept_of_exec h).rows⟩

/-- Settles O7. -/
theorem qualityIsThirtyTwoExactlyInBlocked : Obligations.QualityIsThirtyTwoExactlyInBlocked :=
  keptByStep_of_exec (fun _ _ => id) fun _ _ _ h => (kept_of_exec h).lanes

/-- Settles O9. -/
theorem trackNamesStayDistinct : Obligations.TrackNamesStayDistinct :=
  keptByStep_of_exec (fun _ _ => id) fun _ _ _ h => (kept_of_exec h).names

/-! ## Reset -/

/-- Settles O3: each value is the constant of its block, on every lane alike. -/
theorem resetGivesTheSpecifiedValues : Obligations.ResetGivesTheSpecifiedValues := by
  dsimp only [Obligations.ResetGivesTheSpecifiedValues]
  refine ⟨by decide, by decide, by decide, by decide, by decide, by decide, by decide, by decide, by decide, by decide,
    by decide, by decide, by decide, by decide, by decide⟩

/-- Settles O4. -/
theorem resetMeetsTheInvariants : Obligations.ResetMeetsTheInvariants :=
  ⟨rfl, Nat.zero_le _, Nat.zero_le _, Nat.zero_le _, Nat.zero_le _, lanes_reset _ rfl, ⟨rfl, rfl⟩, named_reset _⟩

/-! ## The port arbiter (R10) -/

theorem exec_portGrant (s : State) : exec .portGrant s = .next (finish s (grantPort s)) := rfl

/-- Settles O23, by whether the port is free, an access contends, the queue is empty and the count is below 4. -/
theorem portArbiter : Obligations.PortArbiter := by
  intro s forwarded own
  simp only [exec_portGrant, grantPort, List.isEmpty_iff, ← Bool.not_eq_true]
  refine ⟨fun busy => ?_, fun free idle empty => ?_, fun free idle waiting => ?_, fun free contends empty => ?_,
    fun free contends waiting below => ?_, fun free contends waiting atLimit => ?_⟩
  · rw [if_neg busy]
  · rw [if_pos free, if_neg idle, if_pos empty]
  · rw [if_pos free, if_neg idle, if_neg waiting]; rfl
  · rw [if_pos free, if_pos contends, if_pos empty]; rfl
  · rw [if_pos free, if_pos contends, if_neg waiting, if_pos (by exact below)]; rfl
  · rw [if_pos free, if_pos contends, if_neg waiting, if_neg (Nat.not_lt.mpr (by exact atLimit))]; rfl

/-! ## ATTN (R184) -/

/-- Every bit of the latched causes is a cause's. -/
theorem exists_cause_bit : ∀ i < 12, ∃ k : Cause, k.bit = i := by
  intro i hi
  interval_cases i
  exacts [⟨.fault, rfl⟩, ⟨.lane, rfl⟩, ⟨.splice, rfl⟩, ⟨.foilLow, rfl⟩, ⟨.foil, rfl⟩, ⟨.survey, rfl⟩, ⟨.order, rfl⟩,
    ⟨.loss, rfl⟩, ⟨.guard, rfl⟩, ⟨.config, rfl⟩, ⟨.memory, rfl⟩, ⟨.heat, rfl⟩]

theorem Cause.bit_lt (k : Cause) : k.bit < 12 := by cases k <;> decide

/-- Two sets of causes have a cause in common. -/
theorem and_ne_zero_iff (a b : BitVec 12) :
    a &&& b ≠ 0 ↔ ∃ k : Cause, a.getLsbD k.bit = true ∧ b.getLsbD k.bit = true := by
  constructor
  · intro differs
    by_contra none
    refine differs (BitVec.eq_of_getLsbD_eq fun i hi => ?_)
    obtain ⟨k, rfl⟩ := exists_cause_bit i hi
    rw [BitVec.getLsbD_and, show BitVec.getLsbD (0 : BitVec 12) k.bit = false from BitVec.getLsbD_zero, Bool.and_eq_false_iff, ← Bool.not_eq_true, ← Bool.not_eq_true,
      ← not_and_or]
    exact fun both => none ⟨k, both⟩
  · rintro ⟨k, ha, hb⟩ zero
    have bit : (a &&& b).getLsbD k.bit = true := by rw [BitVec.getLsbD_and, ha, hb]; rfl
    rw [zero] at bit
    simp at bit

theorem attn_iff (s : State) :
    s.attn = true ↔ ∃ k : Cause, s.rep.latched.getLsbD k.bit = true ∧ s.maskInForce.getLsbD k.bit = true := by
  rw [State.attn, decide_eq_true_eq, and_ne_zero_iff]

/-- Settles O60: the mask in force by mode. -/
theorem attentionLine : Obligations.AttentionLine := by
  intro s
  refine ⟨fun loaded => ?_, fun unloaded => ?_, fun bypass => ?_⟩
  · have mask : s.maskInForce = s.rep.mask := by
      rw [State.maskInForce]
      cases mode : s.station.mode <;> simp_all [Mode.working]
    rw [attn_iff, mask]
  · have mask : s.maskInForce = BitVec.allOnes 12 := by
      rw [State.maskInForce]
      rcases unloaded with mode | mode <;> rw [mode]
    simp only [attn_iff, mask, BitVec.getLsbD_allOnes, Cause.bit_lt, decide_true, and_true]
  · rw [State.attn, State.maskInForce, bypass]
    simp

end Sys2Proof.Machine

/-! SUPPORT. Which commands leave job memory alone (R2, R9), and what a read of job memory returns after words are written. -/

namespace Sys2Proof.Machine

/-! ## Own accesses that write nothing -/

theorem endOwn_mem_of_read {o : OwnAccess} (read : o.write = false) (k : Nat) (s : State) : (endOwn o k s).mem = s.mem := by
  simp only [endOwn, landOwn, read, Bool.false_eq_true, if_false]

section

variable {s : State} (read : ∀ o, issuedOwn s = some o → o.write = false)

include read

theorem landAtReset_mem (k : Nat) : (landAtReset k s).mem = s.mem := by
  unfold landAtReset
  split
  case h_1 o issued => simp only [landOwn, read o issued, Bool.false_eq_true, if_false]
  case h_2 => rfl

theorem resetAsserted_mem (k : Nat) : (resetAsserted k s).mem = s.mem := by
  unfold resetAsserted
  split
  · rfl
  · exact landAtReset_mem read k

theorem loaderWords_read {o : OwnAccess} {ws : List Word} (h : loaderWords s = some (o, ws)) : o.write = false := by
  unfold loaderWords at h
  split at h
  case h_1 =>
    split at h
    · cases h
      exact read _ ‹_›
    · cases h
  case h_2 => cases h

theorem headerDone_mem : (headerDone s).mem = s.mem := by
  unfold headerDone
  split
  case h_1 o ws issued =>
    split
    · exact (within_headerRead (Within.refl _)).mem.trans (endOwn_mem_of_read (loaderWords_read read issued) _ s)
    · rfl
  case h_2 => rfl

theorem tableDone_mem : (tableDone s).mem = s.mem := by
  unfold tableDone
  split
  case h_1 o ws issued =>
    split
    case h_1 => exact (within_tableRead (Within.refl _)).mem.trans (endOwn_mem_of_read (loaderWords_read read issued) _ s)
    all_goals rfl
  case h_2 => rfl

theorem seedingDone_mem : (seedingDone s).mem = s.mem := by
  unfold seedingDone
  split
  case h_1 o ws issued =>
    split
    · exact (within_serveWaiting (within_seedingRead (Within.refl _))).mem.trans
        (endOwn_mem_of_read (loaderWords_read read issued) _ s)
    · rfl
  case h_2 => rfl

theorem discardedDone_mem : (discardedDone s).mem = s.mem := by
  unfold discardedDone
  split
  case h_1 o issued =>
    split
    · exact (within_discardEnds (Within.refl _)).mem.trans (endOwn_mem_of_read (read o issued) _ s)
    · rfl
  case h_2 => rfl

theorem resultDone_mem : (resultDone s).mem = s.mem := by
  unfold resultDone
  split
  case h_1 o issued =>
    split
    · exact (within_serveWaiting (within_resettle (within_endTake (Within.refl _)))).mem.trans
        (endOwn_mem_of_read (read o issued) _ s)
    · rfl
  case h_2 => rfl

theorem fillDone_mem : (fillDone s).mem = s.mem := by
  unfold fillDone
  split
  case h_1 o issued =>
    split
    · exact (within_resettle (within_endFill (Within.refl _))).mem.trans (endOwn_mem_of_read (read o issued) _ s)
    · rfl
  case h_2 => rfl

theorem statusDone_mem : (statusDone s).mem = s.mem := by
  unfold statusDone
  split
  case h_1 o issued =>
    split
    · exact (within_resettle (within_endStatusWrite (Within.refl _))).mem.trans (endOwn_mem_of_read (read o issued) _ s)
    · rfl
  case h_2 => rfl

theorem ownError_mem (k : Nat) : (ownError k s).mem = s.mem := by
  unfold ownError
  split
  case h_1 o issued =>
    split
    · exact (within_resettle (within_producerError (within_raiseFault (within_latch (Within.refl _))))).mem.trans
        (endOwn_mem_of_read (read o issued) k s)
    · rfl
  case h_2 => rfl

theorem entryReadDone_mem (accepts : Byte → Bool) : (entryReadDone accepts s).mem = s.mem := by
  unfold entryReadDone entryWords
  cases issued : issuedOwn s with
  | none => rfl
  | some o =>
    have ended : (completeOwn o s).mem = s.mem := endOwn_mem_of_read (read o issued) _ s
    dsimp only
    split
    case h_1 own ws found =>
      split at found
      case isTrue =>
        cases found
        split
        · split
          · exact (within_applyEntry (Within.refl _)).mem.trans ended
          · exact ended
        · rfl
      case isFalse => cases found
    case h_2 => rfl

theorem orderRow_mem (kind : Byte) (accepts : Byte → Bool) (src : OrderSource) :
    (orderRow kind accepts src s).mem = s.mem := by
  unfold orderRow
  split
  · exact entryReadDone_mem read accepts
  · split
    · exact (within_deliverTap (Within.refl s)).mem
    · rfl

end

/-! ## The commands that leave job memory alone -/

theorem grantPort_mem (s : State) : (grantPort s).mem = s.mem := by
  unfold grantPort
  repeat' split
  all_goals rfl

theorem resetReleased_mem (straps : BitVec 2) (webA webB : Bool) (s : State) :
    (resetReleased straps webA webB s).mem = s.mem := by
  unfold resetReleased
  split <;> rfl

theorem mem_of_answer {s t u : State} (answer : (.next (finish s u) : Host.Outcome State Fault Refusal) = .next t)
    (kept : u.mem = s.mem) : t.mem = s.mem := by
  cases answer
  exact kept

/-- With no own write issued on the port, the two ends of a forwarded burst alone can change job memory. -/
theorem exec_mem {c : Instr} {s t : State} (noEnd : ∀ lv, c ≠ .forwardedBurstEnd lv)
    (noError : ∀ lv k, c ≠ .forwardedAccessError lv k) (read : ∀ o, issuedOwn s = some o → o.write = false)
    (answer : exec c s = .next t) : t.mem = s.mem := by
  have sensed : ∀ lv o, issuedOwn (sense lv s) = some o → o.write = false := fun _ => read
  cases c with
  | forwardedBurstEnd lv => exact absurd rfl (noEnd lv)
  | forwardedAccessError lv k => exact absurd rfl (noError lv k)
  | processorWrite => exact mem_of_answer answer ((within_arrive (within_sense (Within.refl s))).mem)
  | processorRead => exact mem_of_answer answer ((within_arrive (Within.refl s)).mem)
  | portGrant => exact mem_of_answer answer (grantPort_mem s)
  | resetNAsserted k => exact mem_of_answer answer (resetAsserted_mem read k)
  | resetNReleased straps webA webB => exact mem_of_answer answer (resetReleased_mem straps webA webB s)
  | headerReadComplete => exact mem_of_answer answer (headerDone_mem read)
  | tableReadComplete => exact mem_of_answer answer (tableDone_mem read)
  | seedingReadComplete lv => exact mem_of_answer answer (seedingDone_mem (sensed lv))
  | discardedReadComplete => exact mem_of_answer answer (discardedDone_mem read)
  | ownAccessError lv k => exact mem_of_answer answer (ownError_mem (sensed lv) k)
  | resultWriteComplete lv => exact mem_of_answer answer (resultDone_mem (sensed lv))
  | fillComplete lv => exact mem_of_answer answer (fillDone_mem (sensed lv))
  | statusWriteComplete => exact mem_of_answer answer (statusDone_mem read)
  | orderEntryReadComplete lv => exact mem_of_answer answer (entryReadDone_mem (sensed lv) _)
  | orderTakeBegin => exact mem_of_answer answer ((within_takeBegin (Within.refl s)).mem)
  | stationFaultApplied => exact mem_of_answer answer ((within_faultTaken (Within.refl s)).mem)
  | webForwardCount => exact mem_of_answer answer ((within_forwardCount (Within.refl s)).mem)
  | webBackwardCount => exact mem_of_answer answer ((within_backwardCount (Within.refl s)).mem)
  | encoderDoubleChange => exact mem_of_answer answer ((within_doubleChange (Within.refl s)).mem)
  | markLeadingEdge => exact mem_of_answer answer ((within_leadingEdge (Within.refl s)).mem)
  | markTrailingEdge => exact mem_of_answer answer ((within_trailingEdge (Within.refl s)).mem)
  | windowEndReached => exact mem_of_answer answer ((within_windowEndTaken (Within.refl s)).mem)
  | samplePositionReached => exact mem_of_answer answer ((within_sampleTaken (Within.refl s)).mem)
  | stopSampleReached => exact mem_of_answer answer ((within_stopTaken (Within.refl s)).mem)
  | spliceDetection => exact mem_of_answer answer ((within_spliceDetected (Within.refl s)).mem)
  | readTaken => exact mem_of_answer answer ((within_readTakenBy (Within.refl s)).mem)
  | strayNotice => exact mem_of_answer answer ((within_strayTaken (Within.refl s)).mem)
  | skewDiscardNotice => exact mem_of_answer answer ((within_skewTaken (Within.refl s)).mem)
  | cellPlaced => exact mem_of_answer answer ((within_cellTaken (within_sense (Within.refl s))).mem)
  | spliceDetectionTaken => exact mem_of_answer answer ((within_spliceDetectionTaken (Within.refl s)).mem)
  | lightReturnTaken => exact mem_of_answer answer ((within_lightReturnTaken (Within.refl s)).mem)
  | resumePositionReached => exact mem_of_answer answer ((within_resumeTaken (Within.refl s)).mem)
  | decisionPointReached => exact mem_of_answer answer ((within_decisionTaken (within_sense (Within.refl s))).mem)
  | nipReached => exact mem_of_answer answer ((within_nipTaken (Within.refl s)).mem)
  | releasePointReached => exact mem_of_answer answer ((within_releasePoint (Within.refl s)).mem)
  | throwOkRise => exact mem_of_answer answer ((within_throwRise (Within.refl s)).mem)
  | throwOkFall => exact mem_of_answer answer ((within_throwFall (Within.refl s)).mem)
  | cylIndex => exact mem_of_answer answer ((within_cylIndexTaken (Within.refl s)).mem)
  | heatRdyFall => exact mem_of_answer answer ((within_heatFall (Within.refl s)).mem)
  | foilbrkAsserted => exact mem_of_answer answer ((within_foilbrkAssert (Within.refl s)).mem)
  | pullStartReached => exact mem_of_answer answer ((within_pullStart (Within.refl s)).mem)
  | ownPullEndReached => exact mem_of_answer answer ((within_ownPullEnd (Within.refl s)).mem)
  | pullEndReached => exact mem_of_answer answer ((within_pullEnd (Within.refl s)).mem)
  | pullReport => exact mem_of_answer answer ((within_pullReportTaken (Within.refl s)).mem)
  | rejectPointReached => exact mem_of_answer answer ((within_rejectPointTaken (Within.refl s)).mem)
  | rejectEndReached => exact mem_of_answer answer ((within_rejectEndTaken (Within.refl s)).mem)
  | unknownOrderKind lv src => exact mem_of_answer answer (orderRow_mem (sensed lv) _ _ src)
  | watch lv src | run lv src | stampOff lv src | hold lv src | skip lv src | laneRestart lv src | setPosition lv src
  | trimReset lv src | foilLoad lv src | countTarget lv src | survey lv src | reportPolicy lv src | ack lv src =>
    exact mem_of_answer answer (orderRow_mem (sensed lv) _ _ src)

/-! ## Reading back what was written -/

/-- A byte written where its enable is set. -/
theorem memRead_enabled {m : List Host.Cell} (canonical : Memory.wf m = true) (enabled : Bool) (a x : Nat) (b : Byte) :
    memRead (if enabled then memWrite m a b else m) x = if enabled = true ∧ x = a then b else memRead m x := by
  cases enabled with
  | false => simp
  | true => simp only [if_true, memRead_memWrite m a x b canonical, true_and]

theorem memWrite_enabled_wf {m : List Host.Cell} (canonical : Memory.wf m = true) (enabled : Bool) (a : Addr) (b : Byte) :
    Memory.wf (if enabled then memWrite m a.toNat b else m) = true := by
  cases enabled with
  | false => exact canonical
  | true => exact memWrite_wf m _ b canonical (addr_lt a)

theorem memRead_memWriteWord {m : List Host.Cell} (canonical : Memory.wf m = true) (a : Addr) (w : WordReq) (x : Nat) :
    memRead (memWriteWord m a w) x =
      if w.en.getLsbD 3 = true ∧ x = (a + 3).toNat then byteOf w.data 3
      else if w.en.getLsbD 2 = true ∧ x = (a + 2).toNat then byteOf w.data 2
      else if w.en.getLsbD 1 = true ∧ x = (a + 1).toNat then byteOf w.data 1
      else if w.en.getLsbD 0 = true ∧ x = a.toNat then byteOf w.data 0 else memRead m x := by
  have c0 := memWrite_enabled_wf canonical (w.en.getLsbD 0) a (byteOf w.data 0)
  have c1 := memWrite_enabled_wf c0 (w.en.getLsbD 1) (a + 1) (byteOf w.data 1)
  have c2 := memWrite_enabled_wf c1 (w.en.getLsbD 2) (a + 2) (byteOf w.data 2)
  simp only [memWriteWord, memRead_enabled c2, memRead_enabled c1, memRead_enabled c0, memRead_enabled canonical]

/-- The four bytes of a word lie at four addresses. -/
theorem byteAddr_injective (a : Addr) {j k : Nat} (hj : j < 4) (hk : k < 4)
    (same : (a + BitVec.ofNat 24 j).toNat = (a + BitVec.ofNat 24 k).toNat) : j = k := by
  have := a.isLt
  simp only [BitVec.toNat_add, BitVec.toNat_ofNat] at same
  omega

/-- A byte that nothing enables reads as before, canonical memory or not. -/
theorem memRead_memWrite_ne (m : List Host.Cell) {a x : Nat} (b : Byte) (other : x ≠ a) :
    memRead (memWrite m a b) x = memRead m x := by
  induction m with
  | nil =>
    simp only [memWrite]
    split <;> simp [memRead, other.symm]
  | cons p t ih =>
    obtain ⟨k, v⟩ := p
    simp only [memWrite]
    split
    · split
      · rfl
      · rw [memRead, if_neg other.symm]
    · split
      case isTrue here =>
        subst here
        split <;> simp [memRead, other.symm]
      case isFalse => simp only [memRead, ih]

theorem memRead_memWriteWord_ne (m : List Host.Cell) {a : Addr} {w : WordReq} {x : Nat}
    (other : ∀ k < 4, w.en.getLsbD k = true → x ≠ (a + BitVec.ofNat 24 k).toNat) :
    memRead (memWriteWord m a w) x = memRead m x := by
  have one : ∀ (n : List Host.Cell) (k : Nat) (y : Addr) (b : Byte), k < 4 → y = a + BitVec.ofNat 24 k →
      memRead (if w.en.getLsbD k then memWrite n y.toNat b else n) x = memRead n x := by
    intro n k y b hk hy
    split
    · rename_i enabled
      exact memRead_memWrite_ne n b (hy ▸ other k hk enabled)
    · rfl
  have zero : a = a + BitVec.ofNat 24 0 := (BitVec.add_zero a).symm
  simp only [memWriteWord]
  rw [one _ 3 (a + 3) _ (by decide) rfl, one _ 2 (a + 2) _ (by decide) rfl, one _ 1 (a + 1) _ (by decide) rfl,
    one _ 0 a _ (by decide) zero]

theorem memRead_memWriteWords_ne (ws : List (Addr × WordReq)) (m : List Host.Cell) {x : Nat} (other : ¬ enabledByte ws x) :
    memRead (memWriteWords m ws) x = memRead m x := by
  induction ws generalizing m with
  | nil => rfl
  | cons p rest ih =>
    obtain ⟨a, w⟩ := p
    rw [memWriteWords, ih _ fun ⟨q, hq, h⟩ => other ⟨q, List.mem_cons_of_mem _ hq, h⟩]
    exact memRead_memWriteWord_ne m fun k hk enabled here => other ⟨(a, w), List.mem_cons_self, k, hk, enabled, here⟩

/-- Settles O10: the commands by `exec_mem`, then a byte of a word by its index, then a list of words by induction. -/
theorem jobMemoryWrites : Obligations.JobMemoryWrites := by
  refine ⟨fun c s t => exec_mem, fun m a w canonical => ⟨fun k hk enabled => ?_, fun x => memRead_memWriteWord_ne m⟩,
    fun m ws x => memRead_memWriteWords_ne ws m⟩
  have differs : ∀ j < 4, j ≠ k → (a + BitVec.ofNat 24 k).toNat ≠ (a + BitVec.ofNat 24 j).toNat :=
    fun j hj hne same => hne (byteAddr_injective a hj hk same.symm)
  rw [memRead_memWriteWord canonical]
  interval_cases k
  · rw [if_neg fun h => differs 3 (by decide) (by decide) h.2, if_neg fun h => differs 2 (by decide) (by decide) h.2,
      if_neg fun h => differs 1 (by decide) (by decide) h.2, if_pos ⟨enabled, by rw [BitVec.add_zero]⟩]
  · rw [if_neg fun h => differs 3 (by decide) (by decide) h.2, if_neg fun h => differs 2 (by decide) (by decide) h.2,
      if_pos ⟨enabled, rfl⟩]
  · rw [if_neg fun h => differs 3 (by decide) (by decide) h.2, if_pos ⟨enabled, rfl⟩]
  · rw [if_pos ⟨enabled, rfl⟩]

end Sys2Proof.Machine

/-! SUPPORT. The Report Unit (09): the policy filter, a report taken, and what ends every step. -/

namespace Sys2Proof.Machine

/-! ## The end of a step -/

/-- Settles O11: the Report Unit's own work, as `Reported` says it. -/
theorem endOfStepFrame : Obligations.EndOfStepFrame := by
  intro old s t
  have work := reported_finish old s
  exact ⟨rfl, work.bus, work.released, work.fillIndex, work.policy, work.policyVariant, work.mask, work.latched⟩

/-! ## A report taken (R172, R174, R175) -/

theorem configured_iff (m : Mode) : m.configured = true ↔ m = .held ∨ m = .watch ∨ m = .run ∨ m = .safe := by
  cases m <;> simp [Mode.configured]

theorem canFill_iff {s : State} {b : Bounds} (decoded : s.loader.bounds = some b) :
    canFill s = true ↔ (s.station.mode = .held ∨ s.station.mode = .watch ∨ s.station.mode = .run ∨
      s.station.mode = .safe) ∧ s.loader.phase = .idle ∧ s.rep.fill = none ∧ s.rep.fillIndex ∈ s.rep.released := by
  simp only [canFill, decoded, Bool.and_eq_true, configured_iff, beq_iff_eq, Option.isNone_iff_eq_none,
    List.contains_eq_mem, decide_eq_true_eq, Option.isSome_some, and_true, and_assoc]

/-- The fill of the entry at the fill index is placed with its report (R172). -/
theorem placeFill_eq {s : State} {b : Bounds} (decoded : s.loader.bounds = some b) (r : Report) :
    placeFill r s = { s with
      bus := { s.bus with queue := s.bus.queue ++
        [⟨s.uid, .fill s.rep.fillIndex, true, fillBursts (b.reportBase + 64 * s.rep.fillIndex) r⟩] }
      uid := s.uid + 1
      rep := { s.rep with fill := some ⟨s.rep.fillIndex, s.loader.gen, r⟩ } } := by
  simp only [placeFill, decoded, place]

theorem testFill_of_empty {s : State} (empty : s.rep.post = []) : testFill s = s := by
  rw [testFill, empty]

theorem testFill_of_not_canFill {s : State} (blocked : canFill s = false) : testFill s = s := by
  unfold testFill
  split
  · rfl
  · rw [if_neg (by rw [blocked]; exact Bool.false_ne_true)]

theorem testFill_of_gap {s : State} {x : Report} {rest : List Report} (waiting : s.rep.post = x :: rest)
    (possible : canFill s = true) (lost : 0 < s.rep.gap) :
    testFill s = placeFill (.gap s.rep.gap) { s with rep := { s.rep with gap := 0 } } := by
  rw [testFill, waiting]
  simp only [possible, lost, if_true]

theorem testFill_of_oldest {s : State} {x : Report} {rest : List Report} (waiting : s.rep.post = x :: rest)
    (possible : canFill s = true) (noLoss : s.rep.gap = 0) :
    testFill s = placeFill x { s with rep := { s.rep with post := rest } } := by
  rw [testFill, waiting]
  simp only [possible, noLoss, Nat.lt_irrefl, if_true, if_false]

theorem takeReport_of_direct {s : State} (r : Report) (empty : s.rep.post = []) (noLoss : s.rep.gap = 0)
    (possible : canFill s = true) : takeReport r s = placeFill r s := by
  simp only [takeReport, empty, noLoss, possible, List.isEmpty_nil, beq_self_eq_true, Bool.and_self, if_true]

theorem takeReport_of_queue {s : State} (r : Report)
    (indirect : s.rep.post ≠ [] ∨ 0 < s.rep.gap ∨ canFill s = false) :
    takeReport r s = testFill (enqueueReport r s) := by
  rw [takeReport, if_neg]
  rw [Bool.and_eq_true, Bool.and_eq_true, List.isEmpty_iff, beq_iff_eq]
  rintro ⟨⟨empty, noLoss⟩, possible⟩
  rcases indirect with waiting | lost | blocked
  · exact waiting empty
  · omega
  · rw [blocked] at possible
    cases possible

theorem enqueueReport_of_room {s : State} (r : Report) (room : s.rep.post.length < 8) :
    enqueueReport r s = { s with rep := { s.rep with post := s.rep.post ++ [r] } } := by
  rw [enqueueReport, if_pos (by exact room)]

theorem enqueueReport_of_full {s : State} (r : Report) (full : ¬ s.rep.post.length < 8) :
    enqueueReport r s = { s with rep := { s.rep with
      gap := if s.rep.gap < 4294967295 then s.rep.gap + 1 else s.rep.gap
      latched := s.rep.latched ||| Cause.loss.mask } } := by
  rw [enqueueReport, if_neg (by exact full)]
  rfl

/-- A fill is possible or not whatever waits in the queue, is counted as lost or is latched. -/
theorem canFill_queue (s : State) (post : List Report) (gap : Nat) (latched : BitVec 12) :
    canFill { s with rep := { s.rep with post := post, gap := gap, latched := latched } } = canFill s := rfl

/-- Settles O12: the branches of `takeReport` and `testFill`, by the queue, the gap count and whether a fill is possible. -/
theorem reportQueueing : Obligations.ReportQueueing := by
  intro r s b decoded filled lost entered
  refine ⟨canFill_iff decoded, fun empty noLoss possible => ?direct, fun empty lossCounted possible => ?afterGap,
    fun waiting possible => ?behind, fun room blocked => ?waits, fun full blocked => ?isLost, fun none => ?noFill,
    fun x rest waiting possible lossCounted => ?gapFill, fun x rest waiting possible noLoss => ?oldest⟩
  case direct =>
    rw [takeReport_of_direct r empty noLoss possible, placeFill_eq (by exact decoded)]
    exact ⟨_, rfl, ⟨rfl, rfl⟩, empty⟩
  case afterGap =>
    have room : s.rep.post.length < 8 := by rw [empty]; decide
    rw [takeReport_of_queue r (.inr (.inl lossCounted)), enqueueReport_of_room r room,
      testFill_of_gap (x := r) (rest := []) (by simp only [empty, List.nil_append]) (by exact possible)
        (by exact lossCounted),
      placeFill_eq (by exact decoded)]
    exact ⟨_, rfl, ⟨rfl, rfl⟩, rfl, by simp only [empty, List.nil_append]⟩
  case behind =>
    rw [takeReport_of_queue r (.inl waiting)]
    by_cases room : s.rep.post.length < 8
    · rw [enqueueReport_of_room r room]
      simp only [entered, if_pos room]
    · rw [enqueueReport_of_full r room]
      simp only [entered, if_neg room, lost]
  case waits =>
    rw [takeReport_of_queue r (.inr (.inr blocked)), enqueueReport_of_room r room]
    exact testFill_of_not_canFill blocked
  case isLost =>
    rw [takeReport_of_queue r (.inr (.inr blocked)), enqueueReport_of_full r (Nat.not_lt.mpr full)]
    exact testFill_of_not_canFill blocked
  case noFill => exact none.elim testFill_of_empty testFill_of_not_canFill
  case gapFill =>
    rw [testFill_of_gap waiting possible lossCounted, placeFill_eq (by exact decoded)]
    exact ⟨_, rfl, ⟨rfl, rfl⟩, rfl, rfl⟩
  case oldest =>
    rw [testFill_of_oldest waiting possible noLoss, placeFill_eq (by exact decoded)]
    exact ⟨_, rfl, ⟨rfl, rfl⟩, rfl⟩

/-! ## The status block marked and written (R179 to R181) -/

/-- Taking the offers changes no word of the status block but the latched causes. -/
theorem statusBody_flushOffers {s : State} (quiet : s.rep.latched = (flushOffers s).rep.latched) :
    statusBody (flushOffers s) = statusBody s := by
  have frame := (flushed_flushOffers s).eq
  generalize flushOffers s = f at quiet frame
  rw [frame, ← quiet]
  rfl

/-- The block's mark at the end of a step. -/
theorem markChanges_eq (old s : State) : markChanges old s = { s with rep := { s.rep with
    dirty := s.rep.dirty || decide (markedFields s ≠ markedFields old) } } := by
  unfold markChanges
  split
  case isTrue same => simp only [same, ne_eq, not_true_eq_false, decide_false, Bool.or_false]
  case isFalse differs => simp only [markStatus, ne_eq, Ne.symm differs, not_false_eq_true, decide_true, Bool.or_true]

theorem testStatus_of_failed {s : State} {base : Nat} (failed : s.rep.statusAt = some base)
    (free : s.rep.statusQueued = false) :
    testStatus s = queueStatus base { s with rep := { s.rep with statusAt := none } } := by
  simp only [testStatus, failed, free, Bool.false_eq_true, if_false]

/-- With a status write queued no other is, whether a load has failed or not. -/
theorem testStatus_of_queued {s : State} (queued : s.rep.statusQueued = true) :
    testStatus s = { s with rep := { s.rep with statusAt := none } } := by
  unfold testStatus
  split
  case h_1 => simp only [queued, if_true]
  case h_2 none =>
    have same : { s with rep := { s.rep with statusAt := Option.none } } = s := by rw [← none]
    rw [same]
    simp only [queued, Bool.not_true, Bool.and_false, Bool.false_and, Bool.false_eq_true, if_false]
    split <;> rfl

theorem testStatus_of_barred {s : State} (noFailure : s.rep.statusAt = none)
    (barred : s.station.mode.configured = false ∨ s.loader.phase ≠ .idle) : testStatus s = s := by
  unfold testStatus
  rw [noFailure]
  dsimp only
  split
  · rw [if_neg]
    rw [Bool.and_eq_true, Bool.and_eq_true, beq_iff_eq]
    rintro ⟨⟨-, configured⟩, idle⟩
    rcases barred with other | loading
    · rw [other] at configured
      cases configured
    · exact loading idle
  · rfl

theorem testStatus_of_configured {s : State} {c : Loaded} (noFailure : s.rep.statusAt = none)
    (loaded : s.loader.loaded = some c) (configured : s.station.mode.configured = true) (idle : s.loader.phase = .idle)
    (free : s.rep.statusQueued = false) :
    testStatus s = if s.rep.dirty then queueStatus c.hdr.statusBase s else s := by
  simp only [testStatus, noFailure, loaded, configured, idle, free, Bool.not_false, beq_self_eq_true, Bool.and_true]

/-- Settles O13: the end of a step is `testStatus` on the state that taking the offers leaves and `markChanges` marks. -/
theorem statusWriteQueued : Obligations.StatusWriteQueued := by
  intro old s t f count queued unqueued judged marked
  have offered : Offered s f := offered_flushOffers s
  have reported : Reported s f := reported_flushOffers s
  let d := f.rep.dirty || decide (markedFields f ≠ markedFields old)
  let m : State := { f with rep := { f.rep with dirty := d } }
  have work : reportWork old s = testStatus m := congrArg testStatus (markChanges_eq old f)
  have rep : t.rep = (testStatus m).rep := by rw [← work]; rfl
  have bus : t.bus = (testStatus m).bus := by rw [← work]; rfl
  have dirty : d = true ↔ marked := by
    rw [Bool.or_eq_true, decide_eq_true_eq, offered.dirty]
    rfl
  refine ⟨fun none => ?noOffers, fun quiet => statusBody_flushOffers quiet,
    fun c loaded configured idle free noFailure => ?inForce, fun barred => ?barred, fun base failed free => ?failed⟩
  case noOffers =>
    have taken : f = testFill { s with rep := { s.rep with offers := [] }, choice := s.choice + 0 } := by
      show takeOffers _ _ = _
      rw [none]
      rfl
    rw [taken, ← none]
    rfl
  case inForce =>
    have made : testStatus m = if d then queueStatus c.hdr.statusBase m else m :=
      testStatus_of_configured (offered.failed.trans noFailure) ((congrArg Loader.loaded reported.loader).trans loaded)
        ((congrArg (fun x : Station => x.mode.configured) reported.station).trans configured)
        ((congrArg Loader.phase reported.loader).trans idle) (offered.queued.trans free)
    constructor
    · intro isMarked
      rw [made, if_pos (dirty.mpr isMarked)] at rep bus
      show t.rep.updateCount = _ ∧ t.rep.dirty = _ ∧ t.rep.statusQueued = _ ∧ t.bus.queue = _
      rw [rep, bus]
      exact ⟨rfl, rfl, rfl, rfl⟩
    · intro unmarked
      rw [made, if_neg (mt dirty.mp unmarked)] at rep bus
      show (t.bus.queue = _ ∧ t.rep.updateCount = _ ∧ t.rep.statusQueued = _) ∧ t.rep.dirty = _
      rw [rep, bus]
      exact ⟨⟨rfl, rfl, offered.queued⟩, Bool.eq_false_iff.mpr (mt dirty.mp unmarked)⟩
  case barred =>
    have same : ∃ failure, testStatus m = { m with rep := { m.rep with statusAt := failure } } := by
      rcases barred with isQueued | ⟨other, noFailure⟩ | ⟨loading, noFailure⟩
      · exact ⟨_, testStatus_of_queued (offered.queued.trans isQueued)⟩
      · exact ⟨_, testStatus_of_barred (s := m) (offered.failed.trans noFailure)
          (.inl ((congrArg (fun x : Station => x.mode.configured) reported.station).trans other))⟩
      · exact ⟨_, testStatus_of_barred (s := m) (offered.failed.trans noFailure)
          (.inr fun idle => loading ((congrArg Loader.phase reported.loader).symm.trans idle))⟩
    obtain ⟨failure, made⟩ := same
    rw [made] at rep bus
    show (t.bus.queue = _ ∧ t.rep.updateCount = _ ∧ t.rep.statusQueued = _) ∧ (t.rep.dirty = _ ↔ _)
    rw [rep, bus]
    exact ⟨⟨rfl, rfl, offered.queued⟩, dirty⟩
  case failed =>
    rw [testStatus_of_failed (s := m) (base := base) (offered.failed.trans failed) (offered.queued.trans free)] at rep bus
    show t.rep.updateCount = _ ∧ t.rep.dirty = _ ∧ t.rep.statusQueued = _ ∧ t.bus.queue = _
    rw [rep, bus]
    exact ⟨rfl, rfl, rfl, rfl⟩

/-! ## The policy filter (R176, R177) -/

/-- The cells of a row are those of its lanes. -/
theorem Row.mem_laneCells (r : Row) (n : Lane) (x : Cell) : (n, x) ∈ r.laneCells ↔ r.cells.get n = some x := by
  simp only [Row.laneCells, List.mem_filterMap, mem_allLanes, true_and, Option.map_eq_some_iff, Prod.mk.injEq]
  constructor
  · rintro ⟨m, y, held, rfl, rfl⟩
    exact held
  · exact fun held => ⟨n, x, held, rfl, rfl⟩

theorem Row.any_laneCells_iff (r : Row) (p : Cell → Bool) :
    (r.laneCells.any fun q => p q.2) = true ↔ ∃ n x, r.cells.get n = some x ∧ p x = true := by
  simp only [List.any_eq_true, Prod.exists, Row.mem_laneCells]

theorem Row.anyReject_iff (r : Row) : r.anyReject = true ↔ ∃ n x, r.cells.get n = some x ∧ x.reject = true :=
  r.any_laneCells_iff Cell.reject

theorem find_lane : ∀ n : Lane, (allLanes.find? fun m => m.val == n.val) = some n := by decide

theorem Row.leadCell_eq {c : Loaded} {n : Lane} (lead : n.val = c.hdr.leadLane) (r : Row) :
    r.leadCell c = r.cells.get n := by
  have found : (allLanes.find? fun m => m.val == c.hdr.leadLane) = some n := by
    rw [← lead]
    exact find_lane n
  rw [Row.leadCell, found, Option.bind_some]

theorem carriedVariant_some (x : Cell) :
    carriedVariant (some x) = if x.status = .identified ∨ x.status = .sequence then x.variant else none := by
  unfold carriedVariant
  dsimp only
  cases x.status <;> rfl

theorem takeFollow_of_follow {s : State} {c : Loaded} (loaded : s.loader.loaded = some c) (follow : s.rep.policy = .follow)
    (r : Row) : takeFollow r s = { s with rep := { s.rep with
      followOpen := (match carriedVariant (r.leadCell c) with
        | some v => decide (v = s.rep.policyVariant)
        | none => s.rep.followOpen) } } := by
  simp only [takeFollow, loaded, follow, if_true]
  cases carriedVariant (r.leadCell c) <;> rfl

theorem takeFollow_of_other {s : State} (other : s.rep.policy ≠ .follow) (r : Row) : takeFollow r s = s := by
  unfold takeFollow
  split
  · rw [if_neg other]
  · rfl

/-- Settles O16: the reject flag first, then the policy in force. -/
theorem policyFilter : Obligations.PolicyFilter := by
  refine ⟨fun r s => rfl, fun x s other => ?notRow, fun x => ⟨rfl, carriedVariant_some x⟩, fun r s c loaded =>
    ⟨fun n lead => Row.leadCell_eq lead r, r.anyReject_iff, fun flagged => ?flagged, fun clear all => ?all,
      fun clear exceptions => ?exceptions, fun clear follow => ?follow, fun clear variant => ?variant,
      fun follow => takeFollow_of_follow loaded follow r, fun other => takeFollow_of_other other r⟩⟩
  case notRow =>
    cases x with
    | row r => exact absurd rfl (other r)
    | _ => rfl
  case flagged => rw [policyOffers, flagged, Bool.true_or]
  case all => rw [policyOffers, clear, all, Bool.false_or]
  case exceptions =>
    rw [policyOffers, clear, exceptions, Bool.false_or]
    dsimp only
    rw [r.any_laneCells_iff fun x => !cleanOutcome x.outcome]
    simp only [cleanOutcome, Bool.not_eq_true', Bool.or_eq_false_iff, beq_eq_false_iff_ne, and_assoc]
  case follow =>
    rw [takeFollow_of_follow loaded follow r, policyOffers, clear, Bool.false_or]
    simp only [follow] <;> rfl
  case variant =>
    rw [policyOffers, clear, variant, Bool.false_or]
    simp only [loaded, beq_iff_eq]

end Sys2Proof.Machine

/-! SUPPORT. The layouts the part writes (11.3 to 11.5): codes fit a byte, packed fields read back, and the words of the status
block and of a report entry one by one. -/

namespace Sys2Proof.Machine

/-! ## Codes fit a byte -/

@[simp] theorem Mode.code_mod (m : Mode) : m.code % 256 = m.code := by cases m <;> rfl
@[simp] theorem FaultKind.code_mod (k : FaultKind) : k.code % 256 = k.code := by cases k <;> rfl
@[simp] theorem ModeCause.code_mod (c : ModeCause) : c.code % 256 = c.code := by
  cases c with
  | fault k => cases k <;> rfl
  | _ => rfl
@[simp] theorem ErrorCode.code_mod (e : ErrorCode) : e.code % 256 = e.code := by cases e <;> rfl
@[simp] theorem LaneState.code_mod (l : LaneState) : l.code % 256 = l.code := by cases l <;> rfl
@[simp] theorem ThrowState.code_mod (t : ThrowState) : t.code % 256 = t.code := by cases t <;> rfl
@[simp] theorem ReadStatus.byte_mod (r : ReadStatus) : r.byte % 256 = r.byte := by
  cases r with
  | unread c => cases c <;> rfl
  | _ => rfl
@[simp] theorem ResultCode.code_mod (c : ResultCode) : c.code % 256 = c.code := by cases c <;> rfl
@[simp] theorem SurveyOutcome.code_mod (o : SurveyOutcome) : o.code % 256 = o.code := by cases o <;> rfl
@[simp] theorem Lane.val_mod (n : Lane) : n.val % 256 = n.val := by revert n; decide
@[simp] theorem Byte.toNat_mod (b : Byte) : b.toNat % 256 = b.toNat := Nat.mod_eq_of_lt b.isLt

/-! ## Packed fields -/

/-- A bit of a byte, read off the byte as a number. -/
theorem Byte.getLsbD_eq_testBit (b : Byte) (k : Nat) : b.getLsbD k = b.toNat.testBit k := rfl

/-- A two-byte field written as two bytes. -/
theorem half_of_bytes (x : Nat) : x % 256 + 256 * (x / 256 % 256) = x % 65536 := by omega

/-- Three flags in the low bits of a byte. -/
theorem flags_testBit : ∀ a b c : Bool, let x := (flagBit a 1 + flagBit b 2 + flagBit c 4) % 256
    x.testBit 0 = a ∧ x.testBit 1 = b ∧ x.testBit 2 = c ∧ x < 8 := by decide

theorem twoFlags_testBit : ∀ a b : Bool, let x := (flagBit a 1 + flagBit b 2) % 256
    x.testBit 0 = a ∧ x.testBit 1 = b ∧ x < 4 := by decide

/-- The bits of a presence byte: a lane's pitch below, its skew above. -/
theorem presence_testBit (p q : PerLane Bool) (n : Lane) : let x := (presence p 1 + presence q 16) % 256
    x.testBit n.val = p.get n ∧ x.testBit (4 + n.val) = q.get n := by
  have all : ∀ a0 a1 a2 a3 b0 b1 b2 b3 : Bool,
      let x := (presence ⟨a0, a1, a2, a3⟩ 1 + presence ⟨b0, b1, b2, b3⟩ 16) % 256
      ∀ n : Lane, x.testBit n.val = (⟨a0, a1, a2, a3⟩ : PerLane Bool).get n ∧
        x.testBit (4 + n.val) = (⟨b0, b1, b2, b3⟩ : PerLane Bool).get n := by decide
  exact all p.l0 p.l1 p.l2 p.l3 q.l0 q.l1 q.l2 q.l3 n

theorem orAbsent_map {α : Type} (o : Option α) (f : α → Nat) (k : Nat) :
    orAbsent (o.map f) k = match o with | some x => f x | none => k := by cases o <;> rfl

@[simp] theorem Reason.code_mod (r : Reason) : r.code % 256 = r.code := by cases r <;> rfl

theorem orAbsent_reason (o : Option Reason) :
    orAbsent (o.map Reason.code) 0 % 256 = match o with | some r => r.code | none => 0 := by cases o <;> simp [orAbsent]

theorem signedOrZero_eq (o : Option Int) :
    signedOrZero o = match o with | some e => BitVec.ofInt 32 e | none => 0 := by cases o <;> rfl

theorem offset16_eq (i : Int) : offset16 i = (BitVec.ofInt 16 (max (-32768) (min 32767 i))).toNat := by
  have held : (if i < -32768 then -32768 else if 32767 < i then 32767 else i) = max (-32768) (min 32767 i) := by
    split
    · omega
    · split <;> omega
  rw [offset16, held]

theorem offset16_mod (i : Int) : offset16 i % 65536 = offset16 i := Nat.mod_eq_of_lt (BitVec.isLt _)

/-! ## The words of the status block -/

/-- The 64 words one by one; the words of the fault record and of the last tap result by their place among theirs. -/
theorem statusWords_eq (s : State) (count : Word) : statusWords s count =
    [count,
      packBytes s.station.mode.code s.station.cause.code s.loader.error.code
        (flagBit s.loader.confirmed 1 + flagBit s.imp.slotSync 2 + flagBit s.imp.lastError.isSome 4),
      packBytes (s.loader.edition.toNat % 256) (s.loader.edition.toNat / 256) s.orders.takeIndex s.track.rows.length,
      packBytes (s.rep.fillIndex % 256) (s.rep.fillIndex / 256) s.imp.slotCounter s.imp.throw.code,
      packHalves s.rep.latched.toNat s.rep.mask.toNat, s.web.pos, signedWord s.imp.trim, signedOrZero s.imp.lastError] ++
    (laneWords s 0 ++ laneWords s 1 ++ laneWords s 2 ++ laneWords s 3) ++
    [s.cnt.rowsRetired, s.cnt.strikeRows, s.cnt.rejects.l0, s.cnt.rejects.l1, s.cnt.rejects.l2, s.cnt.rejects.l3,
      s.cnt.strays, s.cnt.misses, s.cnt.unread, s.cnt.skewDiscards, s.cnt.resyncs, s.bus.guardDrops, s.orders.tapOrders,
      s.orders.tapLosses, s.orders.refusals, (recordWords s.station.record).getD 0 0, (recordWords s.station.record).getD 1 0,
      s.station.secondary, (tapWords s.orders.lastTap).getD 0 0, (tapWords s.orders.lastTap).getD 1 0] ++
    (surveyWords s.survey ++ [0, 0, count]) := by
  unfold statusWords statusBody recordWords tapWords
  cases s.station.record <;> cases s.orders.lastTap <;> rfl

/-- The fields of a lane's survey results: words 42 to 49 for the means, halves from 200 on for the violations and from 208 on
for the offsets, byte 240 for the presence of the means. -/
theorem statusWords_surveyLane (s : State) (count : Word) (n : Lane) :
    let w := statusWords s count
    let half := fun i : Nat => (byteOf (w.getD (i / 4) 0) (i % 4)).toNat +
      256 * (byteOf (w.getD ((i + 1) / 4) 0) ((i + 1) % 4)).toNat
    let word := fun i : Nat => w.getD (i / 4) 0
    let l := s.survey.lanes.get n
    (word (168 + 4 * n.val) = match l.meanPitch with | some e => BitVec.ofInt 32 e | none => 0) ∧
      (word (184 + 4 * n.val) = match l.meanSkew with | some e => BitVec.ofInt 32 e | none => 0) ∧
      half (200 + 2 * n.val) = l.violations % 65536 ∧
      (∀ j < 4, half (208 + 8 * n.val + 2 * j) =
        (BitVec.ofInt 16 (max (-32768) (min 32767 (l.offsets.getD j 0)))).toNat) ∧
      (byteOf (word 240) 0).toNat.testBit n.val = l.meanPitch.isSome ∧
      (byteOf (word 240) 0).toNat.testBit (4 + n.val) = l.meanSkew.isSome := by
  intro w half word l
  have wordsEq : w = _ := statusWords_eq s count
  have presences : word 240 = packBytes (presence (s.survey.lanes.map fun x => x.meanPitch.isSome) 1
      + presence (s.survey.lanes.map fun x => x.meanSkew.isSome) 16) 0 0 0 := by
    simp only [word, wordsEq]
    rfl
  obtain ⟨pitch, skew⟩ := presence_testBit (s.survey.lanes.map fun x => x.meanPitch.isSome)
    (s.survey.lanes.map fun x => x.meanSkew.isSome) n
  rw [PerLane.get_map] at pitch skew
  rw [presences, byte0_packBytes]
  refine ⟨?_, ?_, ?_, fun j hj => ?_, pitch, skew⟩
  · rw [← signedOrZero_eq]
    simp only [word, wordsEq, l]
    match n with
    | 0 | 1 | 2 | 3 => rfl
  · rw [← signedOrZero_eq]
    simp only [word, wordsEq, l]
    match n with
    | 0 | 1 | 2 | 3 => rfl
  · simp only [half, wordsEq, l]
    match n with
    | 0 | 2 => exact low_packHalves _ _
    | 1 | 3 => exact high_packHalves _ _
  · rw [← offset16_eq, ← offset16_mod]
    simp only [half, wordsEq, l]
    match n with
    | 0 | 1 | 2 | 3 =>
      interval_cases j
      · exact low_packHalves _ _
      · exact high_packHalves _ _
      · exact low_packHalves _ _
      · exact high_packHalves _ _

/-- The fields of the 64 words (11.5): the words before the lanes, those of the lanes, the counters, the fault record and the
last tap result, the survey. -/
theorem statusWords_fields (s : State) (count : Word) :
    let w := statusWords s count
    let byte := fun i : Nat => (byteOf (w.getD (i / 4) 0) (i % 4)).toNat
    let half := fun i : Nat => byte i + 256 * byte (i + 1)
    let word := fun i : Nat => w.getD (i / 4) 0
    let bit := fun (i k : Nat) => (byteOf (w.getD (i / 4) 0) (i % 4)).getLsbD k
    w.length = 64 ∧ word 0 = count ∧ word 252 = count ∧
    (byte 4 = s.station.mode.code ∧ byte 5 = s.station.cause.code ∧ byte 6 = s.loader.error.code) ∧
    (bit 7 0 = s.loader.confirmed ∧ bit 7 1 = s.imp.slotSync ∧ bit 7 2 = s.imp.lastError.isSome ∧ byte 7 < 8) ∧
    (half 8 = s.loader.edition.toNat ∧ byte 10 = s.orders.takeIndex % 256 ∧ byte 11 = s.track.rows.length % 256) ∧
    (half 12 = s.rep.fillIndex % 65536 ∧ byte 14 = s.imp.slotCounter % 256 ∧ byte 15 = s.imp.throw.code) ∧
    (half 16 = s.rep.latched.toNat ∧ half 18 = s.rep.mask.toNat) ∧
    (word 20 = s.web.pos ∧ word 24 = BitVec.ofInt 32 s.imp.trim ∧
      word 28 = match s.imp.lastError with | some e => BitVec.ofInt 32 e | none => 0) ∧
    (∀ n : Lane, let o := 32 + 12 * n.val
      byte o = (s.lane n).state.code ∧ byte (o + 1) = (s.lane n).setPos % 256 ∧
      byte (o + 2) = (s.lane n).quality % 256 ∧ byte (o + 3) = (s.lane n).skip % 256 ∧
      word (o + 4) = (s.drive n).remaining ∧ bit (o + 8) 0 = (s.drive n).out ∧ bit (o + 8) 1 = (s.drive n).brk ∧
      byte (o + 8) < 4 ∧ byte (o + 10) = 0 ∧ byte (o + 11) = 0 ∧
      byte (o + 9) = match s.track.lastReason.get n with | some r => r.code | none => 0) ∧
    (word 80 = s.cnt.rowsRetired ∧ word 84 = s.cnt.strikeRows ∧
      (∀ n : Lane, word (88 + 4 * n.val) = s.cnt.rejects.get n) ∧ word 104 = s.cnt.strays ∧
      word 108 = s.cnt.misses ∧ word 112 = s.cnt.unread ∧ word 116 = s.cnt.skewDiscards ∧ word 120 = s.cnt.resyncs ∧
      word 124 = s.bus.guardDrops ∧ word 128 = s.orders.tapOrders ∧ word 132 = s.orders.tapLosses ∧
      word 136 = s.orders.refusals) ∧
    (byte 142 = 0 ∧ byte 143 = 0 ∧ word 148 = s.station.secondary ∧ match s.station.record with
      | some x => byte 140 = x.kind.code ∧ word 144 = x.web ∧
        byte 141 = match x.lane with | some n => n.val | none => 255
      | none => byte 140 = 0 ∧ byte 141 = 255 ∧ word 144 = 0) ∧
    (byte 155 = 0 ∧ match s.orders.lastTap with
      | some x => byte 152 = x.tap % 256 ∧ byte 153 = x.kind.toNat ∧ byte 154 = x.code.code ∧ word 156 = x.value
      | none => byte 152 = 255 ∧ byte 153 = 0 ∧ byte 154 = 0 ∧ word 156 = 0) ∧
    (byte 160 = s.survey.outcome.code ∧ byte 161 = s.survey.k % 256 ∧ half 162 = s.survey.q % 65536 ∧
      half 164 = s.survey.counted % 65536 ∧ half 166 = s.survey.retired % 65536) ∧
    (∀ n : Lane, let l := s.survey.lanes.get n
      (word (168 + 4 * n.val) = match l.meanPitch with | some e => BitVec.ofInt 32 e | none => 0) ∧
      (word (184 + 4 * n.val) = match l.meanSkew with | some e => BitVec.ofInt 32 e | none => 0) ∧
      half (200 + 2 * n.val) = l.violations % 65536 ∧
      (∀ j < 4, half (208 + 8 * n.val + 2 * j) =
        (BitVec.ofInt 16 (max (-32768) (min 32767 (l.offsets.getD j 0)))).toNat) ∧
      bit 240 n.val = l.meanPitch.isSome ∧ bit 240 (4 + n.val) = l.meanSkew.isSome) ∧
    byte 241 = 0 ∧ byte 242 = 0 ∧ byte 243 = 0 ∧ word 244 = 0 ∧ word 248 = 0 := by
  intro w byte half word bit
  have surveyLanes := statusWords_surveyLane s count
  have words := statusWords_eq s count
  change w = _ at words
  refine ⟨by rw [words]; rfl, by simp only [word, words]; rfl, by simp only [word, words]; rfl, ?codes, ?flags, ?edition, ?indices, ?causes, ?web, ?lanes, ?counters, ?record, ?tap, ?survey,
    ?surveyLanes, ?unused⟩
  case codes =>
    simp only [byte, half, word, bit, words, Byte.getLsbD_eq_testBit]
    simp [byte0_packBytes, byte1_packBytes, byte2_packBytes]
  case flags =>
    simp only [byte, half, word, bit, words, Byte.getLsbD_eq_testBit]
    obtain ⟨confirmed, slotSync, hasError, small⟩ :=
      flags_testBit s.loader.confirmed s.imp.slotSync s.imp.lastError.isSome
    simp [byte3_packBytes, confirmed, slotSync, hasError, small, -Nat.testBit_zero]
  case edition =>
    simp only [byte, half, word, bit, words, Byte.getLsbD_eq_testBit]
    have whole : s.loader.edition.toNat % 65536 = s.loader.edition.toNat := Nat.mod_eq_of_lt s.loader.edition.isLt
    simp [byte0_packBytes, byte1_packBytes, byte2_packBytes, byte3_packBytes, half_of_bytes, whole]
  case indices =>
    simp only [byte, half, word, bit, words, Byte.getLsbD_eq_testBit]
    simp [byte0_packBytes, byte1_packBytes, byte2_packBytes, byte3_packBytes, half_of_bytes]
  case causes =>
    simp only [byte, half, word, bit, words, Byte.getLsbD_eq_testBit]
    have fits : ∀ x : BitVec 12, x.toNat % 65536 = x.toNat := fun x => Nat.mod_eq_of_lt (x.isLt.trans (by decide))
    simp [low_packHalves, high_packHalves, fits]
  case web =>
    simp only [byte, half, word, bit, words, Byte.getLsbD_eq_testBit]
    exact ⟨rfl, rfl, signedOrZero_eq _⟩
  case lanes =>
    simp only [byte, half, word, bit, words, Byte.getLsbD_eq_testBit]
    intro n
    obtain ⟨out, broken, small⟩ := twoFlags_testBit (s.foil.get n).out (s.foil.get n).brk
    match n with
    | 0 | 1 | 2 | 3 =>
      simp [laneWords, byte0_packBytes, byte1_packBytes, byte2_packBytes, byte3_packBytes, State.lane, State.drive, out,
        broken, small, orAbsent_reason, -Nat.testBit_zero]
  case counters =>
    simp only [byte, half, word, bit, words, Byte.getLsbD_eq_testBit]
    refine ⟨rfl, rfl, fun n => ?_, rfl, rfl, rfl, rfl, rfl, rfl, rfl, rfl, rfl⟩
    match n with
    | 0 | 1 | 2 | 3 => rfl
  case record =>
    simp only [byte, half, word, bit, words, Byte.getLsbD_eq_testBit]
    cases s.station.record with
    | none => simp [laneWords, recordWords, byte0_packBytes, byte1_packBytes, byte2_packBytes, byte3_packBytes]
    | some x =>
      obtain ⟨kind, web, lane⟩ := x
      cases lane <;>
        simp [laneWords, recordWords, orAbsent, byte0_packBytes, byte1_packBytes, byte2_packBytes, byte3_packBytes]
  case tap =>
    simp only [byte, half, word, bit, words, Byte.getLsbD_eq_testBit]
    cases s.orders.lastTap <;>
      simp [laneWords, tapWords, byte0_packBytes, byte1_packBytes, byte2_packBytes, byte3_packBytes]
  case survey =>
    simp only [byte, half, word, bit, words, Byte.getLsbD_eq_testBit]
    simp [laneWords, surveyWords, byte0_packBytes, byte1_packBytes, byte2_packBytes, byte3_packBytes, half_of_bytes, low_packHalves,
      high_packHalves]
  case surveyLanes => exact surveyLanes
  case unused =>
    simp only [byte, half, word, bit, words, Byte.getLsbD_eq_testBit]
    simp [laneWords, surveyWords, byte1_packBytes, byte2_packBytes, byte3_packBytes, offsetWords]

theorem statusBursts_length (base : Nat) (w : List Word) : (statusBursts base w).length = 8 := by
  rw [statusBursts, List.length_map, List.length_range]

/-- Burst `i` writes words `8 i` to `8 i + 7` at byte offset `32 i` (R180). -/
theorem statusBursts_getElem? {w : List Word} (full : w.length = 64) (base : Nat) {i : Nat} (hi : i < 8) :
    (statusBursts base w)[i]? = some ⟨BitVec.ofNat 24 (base + 32 * i),
      [0, 1, 2, 3, 4, 5, 6, 7].map fun j => ⟨15, w.getD (8 * i + j) 0⟩⟩ := by
  have words : (w.drop (8 * i)).take 8 = [0, 1, 2, 3, 4, 5, 6, 7].map fun j => w.getD (8 * i + j) 0 := by
    refine List.ext_getElem (by simp; omega) fun k h _ => ?_
    have hk : k < 8 := by simp at h; omega
    have inRange : 8 * i + k < w.length := by omega
    rw [List.getElem_take, List.getElem_drop, List.getElem_map, ← List.getD_eq_getElem _ 0 inRange]
    interval_cases k <;> rfl
  rw [statusBursts, List.getElem?_map, List.getElem?_range hi, Option.map_some, words, List.map_map]
  rfl

/-- Settles O14: the words of the block, its bursts, and the codes, each list read off. -/
theorem statusBlockLayout : Obligations.StatusBlockLayout := by
  refine ⟨statusWords_fields, fun base w full => ⟨statusBursts_length base w, fun i => statusBursts_getElem? full base⟩,
    rfl, rfl, fun k => rfl, rfl, rfl, rfl, rfl, rfl, rfl, rfl, rfl, rfl⟩

end Sys2Proof.Machine

/-! SUPPORT. The words of a report entry and of an order result (11.2, 11.3, R2, R172). -/

namespace Sys2Proof.Machine

/-! ## The words of an entry -/

theorem Report.words_length (r : Report) : r.words.length = 15 := by
  simp only [Report.words, List.length_take, List.length_append, List.length_replicate]
  omega

/-- A word past those a kind uses is 0. -/
theorem Report.words_getD (r : Report) {i : Nat} (hi : i < 15) : r.words.getD i 0 = r.body.getD i 0 := by
  simp only [Report.words, List.getD_eq_getElem?_getD, List.getElem?_take_of_lt hi]
  by_cases used : i < r.body.length
  · rw [List.getElem?_append_left used]
  · have past : r.body.length ≤ i := Nat.not_lt.mp used
    have zero : i - r.body.length < 15 := by omega
    rw [List.getElem?_append_right past, List.getElem?_replicate_of_lt zero, List.getElem?_eq_none past]
    rfl

/-- The words of an entry from word 1 on. -/
theorem Report.entry_getD (r : Report) {i : Nat} (hi : i < 15) :
    (r.word0 :: r.words).getD (i + 1) 0 = r.body.getD i 0 := by
  rw [List.getD_cons_succ, r.words_getD hi]

/-- The words that a kind does not use are 0 (R195). -/
theorem Report.entry_rest {r : Report} {k : Nat} (used : r.body.length + 1 = k) :
    ∀ i, k ≤ i → i < 16 → (r.word0 :: r.words).getD i 0 = 0 := by
  intro i from_ below
  obtain ⟨j, rfl⟩ : ∃ j, i = j + 1 := ⟨i - 1, by omega⟩
  rw [r.entry_getD (by omega), List.getD_eq_default _ _ (by omega)]

theorem eq_map_getD {l : List Word} {n : Nat} (full : l.length = n) : l = (List.range n).map fun i => l.getD i 0 := by
  refine List.ext_getElem (by simp [full]) fun i h _ => ?_
  simp [h]

/-- R2: the bursts of a fill, word by word. -/
theorem fillBursts_eq (base : Nat) (r : Report) :
    let full := fun i : Nat => (⟨15, r.words.getD (i - 1) 0⟩ : WordReq)
    fillBursts base r = [⟨BitVec.ofNat 24 (base + 4), [full 1]⟩, ⟨BitVec.ofNat 24 (base + 8), [full 2, full 3]⟩,
      ⟨BitVec.ofNat 24 (base + 16), [full 4, full 5, full 6, full 7]⟩,
      ⟨BitVec.ofNat 24 (base + 32), [full 8, full 9, full 10, full 11, full 12, full 13, full 14, full 15]⟩,
      ⟨BitVec.ofNat 24 base, [⟨15, r.word0⟩]⟩] := by
  intro full
  have words : r.words.map writeReq = (List.range 15).map fun i => full (i + 1) := by
    rw [eq_map_getD r.words_length, List.map_map]
    rfl
  rw [fillBursts, words]
  rfl

/-! ## The cells of a row -/

theorem Row.laneCells_pairwise (x : Row) : x.laneCells.Pairwise fun a b => a.1 < b.1 := by
  have rising : allLanes.Pairwise (· < ·) := by decide
  refine List.Pairwise.filterMap _ (fun n m less a ha b hb => ?_) rising
  rw [Option.map_eq_some_iff] at ha hb
  obtain ⟨_, _, rfl⟩ := ha
  obtain ⟨_, _, rfl⟩ := hb
  exact less

/-- Three words for each cell, in the order of the cells. -/
theorem flatMap_cellSlot_getD (l : List (Lane × Cell)) {j : Nat} {n : Lane} {cell : Cell} (cellAt : l[j]? = some (n, cell))
    {k : Nat} (hk : k < 3) : (l.flatMap fun p => cellSlot p.1 p.2).getD (3 * j + k) 0 = (cellSlot n cell).getD k 0 := by
  induction l generalizing j with
  | nil => cases cellAt
  | cons p rest ih =>
    have three : (cellSlot p.1 p.2).length = 3 := rfl
    rw [List.flatMap_cons]
    cases j with
    | zero =>
      cases cellAt
      rw [List.getD_append _ _ _ _ (by omega), Nat.mul_zero, Nat.zero_add]
    | succ j =>
      rw [List.getD_append_right _ _ _ _ (by omega), three, show 3 * (j + 1) + k - 3 = 3 * j + k by omega]
      exact ih cellAt

theorem flatMap_cellSlot_length (l : List (Lane × Cell)) : (l.flatMap fun p => cellSlot p.1 p.2).length = 3 * l.length := by
  induction l with
  | nil => rfl
  | cons p rest ih =>
    rw [List.flatMap_cons, List.length_append, ih, List.length_cons]
    have three : (cellSlot p.1 p.2).length = 3 := rfl
    omega

theorem Row.laneCells_length_le (x : Row) : x.laneCells.length ≤ 4 := List.length_filterMap_le _ _

/-- Word `k` of the slot of cell `j` of a ROW report. -/
theorem Row.entry_cell {x : Row} {j : Nat} {n : Lane} {cell : Cell} (cellAt : x.laneCells[j]? = some (n, cell)) {k : Nat}
    (hk : k < 3) : ((Report.row x).word0 :: (Report.row x).words).getD (4 + 3 * j + k) 0 = (cellSlot n cell).getD k 0 := by
  have inRow : j < x.laneCells.length := (List.getElem?_eq_some_iff.mp cellAt).1
  have four := x.laneCells_length_le
  rw [show 4 + 3 * j + k = 3 + (3 * j + k) + 1 by omega, Report.entry_getD _ (by omega), Report.body,
    List.getD_append_right _ _ _ _ (by simp), ← flatMap_cellSlot_getD _ cellAt hk]
  congr 1
  simp

/-- The row flags: slot, presence of the slot, throw state, splice flag, presence of the registration error. -/
theorem rowFlags_fields : ∀ (slot throw_ : Fin 4) (hasSlot splice hasError : Bool),
    let x := (slot.val + flagBit hasSlot 4 + 16 * throw_.val + flagBit splice 64 + flagBit hasError 128) % 256
    x % 4 = slot.val ∧ x.testBit 2 = hasSlot ∧ x.testBit 3 = false ∧ x / 16 % 4 = throw_.val ∧ x.testBit 6 = splice ∧
      x.testBit 7 = hasError := by decide

/-- The last byte of a cell slot's second word: outcome, reject flag, predicted, pull state. -/
theorem slotFlags_fields : ∀ (outcome pull : Fin 8) (reject predicted : Bool),
    let x := (outcome.val + flagBit reject 8 + flagBit predicted 16 + 32 * pull.val) % 256
    x % 8 = outcome.val ∧ x.testBit 3 = reject ∧ x.testBit 4 = predicted ∧ x / 32 = pull.val := by decide

theorem ThrowState.code_lt (t : ThrowState) : t.code < 4 := by cases t <;> decide

theorem orAbsent_lt {α : Type} (o : Option α) {f : α → Nat} {k : Nat} (pos : 0 < k) (small : ∀ a, f a < k) :
    orAbsent (o.map f) 0 < k := by
  cases o with
  | none => exact pos
  | some a => exact small a

theorem Row.flags_fields (x : Row) : let b := x.flags % 256
    b % 4 = orAbsent x.slot 0 % 4 ∧ b.testBit 2 = x.slot.isSome ∧ b.testBit 3 = false ∧
      b / 16 % 4 = orAbsent (x.throwAtNip.map ThrowState.code) 0 ∧ b.testBit 6 = x.splice ∧
      b.testBit 7 = x.regError.isSome :=
  rowFlags_fields ⟨orAbsent x.slot 0 % 4, Nat.mod_lt _ (by decide)⟩
    ⟨orAbsent (x.throwAtNip.map ThrowState.code) 0, orAbsent_lt _ (by decide) ThrowState.code_lt⟩ _ _ _

/-- The fields of the slot of a cell (11.3), in the bytes of its first two words. -/
theorem cellSlot_fields (n : Lane) (cell : Cell) :
    let byte := fun i : Nat => (byteOf ((cellSlot n cell).getD (i / 4) 0) (i % 4)).toNat
    byte 0 = n.val ∧ byte 1 = (match cell.variant with | some v => v % 256 | none => 255) ∧
      byte 2 = (match cell.setPos with | some k => k % 256 | none => 255) ∧
      byte 3 = (match cell.markKind with | some .accepted => 0 | some .flywheel => 1 | none => 255) ∧
      byte 4 = cell.status.byte ∧
      byte 5 = (match cell.decision with | some .strike => 1 | some .pass => 2 | some .skip => 3 | none => 0) ∧
      byte 6 = (match cell.reason with | some k => k.code | none => 0) ∧
      byte 7 % 8 = (match cell.outcome with
        | some .foiled => 1 | some .embossed => 2 | some .passed => 3 | some .blind => 4 | some .missed => 5
        | some .clear => 6 | none => 0) ∧
      (byte 7).testBit 3 = cell.reject ∧ (byte 7).testBit 4 = cell.predicted ∧
      byte 7 / 32 = (match cell.pull.map fun p => p.state with
        | some .armed => 1 | some .active => 2 | some .completed => 3 | some .stopped => 4 | some .notStarted => 5
        | none => 0) := by
  intro byte
  have outcome : orAbsent (cell.outcome.map CellOutcome.code) 0 < 8 :=
    orAbsent_lt _ (by decide) fun o => by cases o <;> decide
  have pull : orAbsent (cell.pull.map fun p => p.state.code) 0 < 8 :=
    orAbsent_lt _ (by decide) fun p => by cases p.state <;> decide
  obtain ⟨low, reject, predicted, high⟩ := slotFlags_fields ⟨_, outcome⟩ ⟨_, pull⟩ cell.reject cell.predicted
  have last : byte 7 = _ := byte3_packBytes _ _ _ _
  refine ⟨?_, ?_, ?_, ?_, ?_, ?_, ?_, ?_, ?_, ?_, ?_⟩
  · exact (byte0_packBytes _ _ _ _).trans (Lane.val_mod n)
  · refine (byte1_packBytes _ _ _ _).trans ?_
    cases cell.variant <;> rfl
  · refine (byte2_packBytes _ _ _ _).trans ?_
    cases cell.setPos <;> rfl
  · refine (byte3_packBytes _ _ _ _).trans ?_
    rcases cell.markKind with _ | _ | _ <;> rfl
  · exact (byte0_packBytes _ _ _ _).trans (ReadStatus.byte_mod _)
  · refine (byte1_packBytes _ _ _ _).trans ?_
    rcases cell.decision with _ | _ | _ | _ <;> rfl
  · exact (byte2_packBytes _ _ _ _).trans (orAbsent_reason _)
  · rw [last]
    refine low.trans ?_
    dsimp only
    rcases cell.outcome with _ | _ | _ | _ | _ | _ | _ <;> rfl
  · rw [last]
    exact reject
  · rw [last]
    exact predicted
  · rw [last]
    refine high.trans ?_
    dsimp only
    rcases cell.pull with _ | ⟨_, _, _ | _ | _ | _ | _⟩ <;> rfl

/-! ## The fields of each kind of report -/

theorem Report.word0_fields (r : Report) :
    (byteOf r.word0 0).toNat = 1 ∧ (byteOf r.word0 1).toNat = r.kindCode ∧ (byteOf r.word0 2).toNat = r.cellCount % 256 ∧
      (byteOf r.word0 3).toNat = (match r with | .row x => x.flags | _ => 0) % 256 := by
  refine ⟨byte0_packBytes _ _ _ _, (byte1_packBytes _ _ _ _).trans ?_, byte2_packBytes _ _ _ _, byte3_packBytes _ _ _ _⟩
  cases r <;> rfl

/-- An order result (11.2): its result code and value, then its state byte. -/
theorem resultBursts_fields (base : Nat) (code : ResultCode) (value : Word) : ∃ x y : Word,
    resultBursts base code value = [⟨BitVec.ofNat 24 base, [⟨8, x⟩, ⟨0, 0⟩, ⟨0, 0⟩, ⟨15, value⟩]⟩,
      ⟨BitVec.ofNat 24 base, [⟨1, y⟩]⟩] ∧
    (byteOf x 3).toNat = code.code ∧ (byteOf y 0).toNat = if code = .done ∨ code = .accepted then 2 else 3 := by
  refine ⟨_, _, rfl, (byte3_packBytes _ _ _ _).trans (ResultCode.code_mod _), (byte0_packBytes _ _ _ _).trans ?_⟩
  cases code <;> rfl

/-- The fields of an entry (11.3), kind by kind. -/
theorem Report.entry_fields (r : Report) :
    let e := r.word0 :: r.words
    let byte := fun i : Nat => (byteOf (e.getD (i / 4) 0) (i % 4)).toNat
    let half := fun i : Nat => byte i + 256 * byte (i + 1)
    let word := fun i : Nat => e.getD (i / 4) 0
    let bit := fun (i k : Nat) => (byteOf (e.getD (i / 4) 0) (i % 4)).getLsbD k
    let head := fun k : Nat => byte 0 = 1 ∧ byte 1 = k
    let flagless := byte 2 = 0 ∧ byte 3 = 0
    let bytes := fun a b c d : Nat => byte 4 = a % 256 ∧ byte 5 = b % 256 ∧ byte 6 = c % 256 ∧ byte 7 = d % 256
    let restFrom := fun k : Nat => ∀ i, k ≤ i → i < 16 → e.getD i 0 = 0
    let lane := fun o : Option Lane => match o with | some n => n.val | none => 255
    let signed := fun o : Option Int => match o with | some i => BitVec.ofInt 32 i | none => (0 : Word)
    match r with
    | .row x => head 1 ∧ byte 2 = x.laneCells.length ∧
      (byte 3 % 4 = (match x.slot with | some k => k % 4 | none => 0) ∧ bit 3 2 = x.slot.isSome ∧ bit 3 3 = false ∧
        byte 3 / 16 % 4 = (match x.throwAtNip with | some k => k.code | none => 0) ∧ bit 3 6 = x.splice ∧
        bit 3 7 = x.regError.isSome) ∧
      word 4 = x.serial ∧ word 8 = x.nip ∧ word 12 = signed x.regError ∧
      (∀ (j : Nat) (n : Lane) (cell : Cell), x.laneCells[j]? = some (n, cell) →
        let o := 16 + 12 * j
        byte o = n.val ∧ byte (o + 1) = (match cell.variant with | some v => v % 256 | none => 255) ∧
        byte (o + 2) = (match cell.setPos with | some k => k % 256 | none => 255) ∧
        byte (o + 3) = (match cell.markKind with | some .accepted => 0 | some .flywheel => 1 | none => 255) ∧
        byte (o + 4) = cell.status.byte ∧
        byte (o + 5) = (match cell.decision with
          | some .strike => 1 | some .pass => 2 | some .skip => 3 | none => 0) ∧
        byte (o + 6) = (match cell.reason with | some k => k.code | none => 0) ∧
        byte (o + 7) % 8 = (match cell.outcome with
          | some .foiled => 1 | some .embossed => 2 | some .passed => 3 | some .blind => 4 | some .missed => 5
          | some .clear => 6 | none => 0) ∧
        bit (o + 7) 3 = cell.reject ∧ bit (o + 7) 4 = cell.predicted ∧
        byte (o + 7) / 32 = (match cell.pull.map fun p => p.state with
          | some .armed => 1 | some .active => 2 | some .completed => 3 | some .stopped => 4 | some .notStarted => 5
          | none => 0) ∧
        word (o + 8) = cell.foilUsed) ∧
      restFrom (4 + 3 * x.laneCells.length)
    | .splice n dark start => head 2 ∧ flagless ∧ bytes n.val 0 0 0 ∧ word 8 = dark ∧ word 12 = start ∧ restFrom 4
    | .lane n web pos src => head 3 ∧ flagless ∧ word 8 = web ∧ restFrom 3 ∧ (match src with
      | .cell status => bytes n.val pos 0 status.byte
      | .stray => bytes n.val pos 1 0
      | .skew => bytes n.val pos 2 0)
    | .mode old new cause web => head 4 ∧ flagless ∧ bytes old.code new.code cause.code 0 ∧ word 8 = web ∧ restFrom 3
    | .fault k web n => head 5 ∧ flagless ∧ bytes k.code (lane n) 0 0 ∧ word 8 = web ∧ restFrom 3
    | .survey o k q counted retired l => head 6 ∧ flagless ∧ byte 4 = o.code ∧ byte 5 = k % 256 ∧ half 6 = q % 65536 ∧
      half 8 = counted % 65536 ∧ half 10 = retired % 65536 ∧
      (∀ n : Lane, word (12 + 4 * n.val) = signed (l.get n).meanPitch ∧
        word (28 + 4 * n.val) = signed (l.get n).meanSkew ∧ half (44 + 2 * n.val) = (l.get n).violations % 65536 ∧
        bit 52 n.val = (l.get n).meanPitch.isSome ∧ bit 52 (4 + n.val) = (l.get n).meanSkew.isSome) ∧
      byte 53 = 0 ∧ byte 54 = 0 ∧ byte 55 = 0 ∧ restFrom 14
    | .orderDone k origin c => head 7 ∧ flagless ∧ restFrom 2 ∧
      (let done := match c with | .done => 0 | .cancelled => 1
       match origin with
        | .ring i => bytes k.code.toNat 0 i done
        | .tap i => bytes k.code.toNat 1 i done)
    | .abandon c rows serials => head 8 ∧ flagless ∧ restFrom 4 ∧
      (let cause := match c with | .hold => 0 | .webReverse => 1
       match serials with
        | some (oldest, newest) => bytes cause rows 1 0 ∧ word 8 = oldest ∧ word 12 = newest
        | none => bytes cause rows 0 0 ∧ word 8 = 0 ∧ word 12 = 0)
    | .gap lost => head 9 ∧ flagless ∧ word 4 = BitVec.ofNat 32 lost ∧ restFrom 2 := by
  intro e byte half word bit head flagless bytes restFrom lane signed
  obtain ⟨owner, kind, cells, flags⟩ := r.word0_fields
  have packed : ∀ a b c d : Nat, (byteOf (packBytes a b c d) 0).toNat = a % 256 ∧
      (byteOf (packBytes a b c d) 1).toNat = b % 256 ∧ (byteOf (packBytes a b c d) 2).toNat = c % 256 ∧
      (byteOf (packBytes a b c d) 3).toNat = d % 256 := fun a b c d =>
    ⟨byte0_packBytes a b c d, byte1_packBytes a b c d, byte2_packBytes a b c d, byte3_packBytes a b c d⟩
  have absent : ∀ o : Option Int, signedOrZero o = signed o := fun o => by cases o <;> rfl
  cases r with
  | row x =>
    have four := x.laneCells_length_le
    obtain ⟨slot, hasSlot, unused, throwState, splice, hasError⟩ := x.flags_fields
    have byte3 : byte 3 = x.flags % 256 := flags
    refine ⟨⟨owner, kind⟩, ?count, ⟨?slot, ?hasSlot, ?unused, ?throwState, ?spliceFlag, ?hasError⟩, rfl, rfl, absent _,
      fun j n cell cellAt => ?ofCell, Report.entry_rest ?used⟩
    case count => exact cells.trans (Nat.mod_eq_of_lt (by rw [Report.cellCount]; omega))
    case slot =>
      rw [byte3, slot]
      cases x.slot <;> rfl
    case hasSlot => exact (congrArg (Nat.testBit · 2) byte3).trans hasSlot
    case unused => exact (congrArg (Nat.testBit · 3) byte3).trans unused
    case throwState =>
      rw [byte3, throwState]
      cases x.throwAtNip <;> rfl
    case spliceFlag => exact (congrArg (Nat.testBit · 6) byte3).trans splice
    case hasError => exact (congrArg (Nat.testBit · 7) byte3).trans hasError
    case ofCell =>
      intro o
      have slotWord : ∀ i < 12, e.getD ((o + i) / 4) 0 = (cellSlot n cell).getD (i / 4) 0 := by
        intro i hi
        rw [show (o + i) / 4 = 4 + 3 * j + i / 4 by omega]
        exact Row.entry_cell cellAt (by omega)
      have slotByte : ∀ i < 12, byte (o + i) = (byteOf ((cellSlot n cell).getD (i / 4) 0) (i % 4)).toNat := by
        intro i hi
        show (byteOf (e.getD ((o + i) / 4) 0) ((o + i) % 4)).toNat = _
        rw [slotWord i hi, show (o + i) % 4 = i % 4 by omega]
      obtain ⟨b0, b1, b2, b3, b4, b5, b6, outcome, reject, predicted, pull⟩ := cellSlot_fields n cell
      have last := slotByte 7 (by decide)
      exact ⟨(slotByte 0 (by decide)).trans b0, (slotByte 1 (by decide)).trans b1, (slotByte 2 (by decide)).trans b2,
        (slotByte 3 (by decide)).trans b3, (slotByte 4 (by decide)).trans b4, (slotByte 5 (by decide)).trans b5,
        (slotByte 6 (by decide)).trans b6, by rw [last]; exact outcome,
        (congrArg (Nat.testBit · 3) last).trans reject, (congrArg (Nat.testBit · 4) last).trans predicted,
        by rw [last]; exact pull, slotWord 8 (by decide)⟩
    case used =>
      rw [Report.body, List.length_append, flatMap_cellSlot_length, List.length_cons, List.length_cons, List.length_cons,
        List.length_nil]
      omega
  | splice n dark start => exact ⟨⟨owner, kind⟩, ⟨cells, flags⟩, packed _ _ _ _, rfl, rfl, Report.entry_rest rfl⟩
  | lane n web pos src =>
    refine ⟨⟨owner, kind⟩, ⟨cells, flags⟩, rfl, Report.entry_rest rfl, ?_⟩
    cases src <;> exact packed _ _ _ _
  | mode old new cause web => exact ⟨⟨owner, kind⟩, ⟨cells, flags⟩, packed _ _ _ _, rfl, Report.entry_rest rfl⟩
  | fault k web n =>
    refine ⟨⟨owner, kind⟩, ⟨cells, flags⟩, ?_, rfl, Report.entry_rest rfl⟩
    cases n <;> exact packed _ _ _ _
  | survey o k q counted retired l =>
    refine ⟨⟨owner, kind⟩, ⟨cells, flags⟩, (byte0_packBytes _ _ _ _).trans (SurveyOutcome.code_mod _),
      byte1_packBytes _ _ _ _, ?length, low_packHalves _ _, high_packHalves _ _, fun n => ?lanes,
      byte1_packBytes _ _ _ _, byte2_packBytes _ _ _ _, byte3_packBytes _ _ _ _, Report.entry_rest rfl⟩
    case length =>
      have low : byte 6 = q % 256 % 256 := byte2_packBytes _ _ _ _
      have high : byte 7 = q / 256 % 256 := byte3_packBytes _ _ _ _
      show byte 6 + 256 * byte 7 = _
      rw [low, high]
      omega
    case lanes =>
      obtain ⟨pitch, skew⟩ := presence_testBit (l.map fun x => x.meanPitch.isSome) (l.map fun x => x.meanSkew.isSome) n
      rw [PerLane.get_map] at pitch skew
      have presences : byte 52 = _ := byte0_packBytes _ _ _ _
      refine ⟨?_, ?_, ?_, (congrArg (Nat.testBit · n.val) presences).trans pitch,
        (congrArg (Nat.testBit · (4 + n.val)) presences).trans skew⟩
      · match n with
        | 0 | 1 | 2 | 3 => exact absent _
      · match n with
        | 0 | 1 | 2 | 3 => exact absent _
      · match n with
        | 0 | 2 => exact low_packHalves _ _
        | 1 | 3 => exact high_packHalves _ _
  | orderDone k origin c =>
    refine ⟨⟨owner, kind⟩, ⟨cells, flags⟩, Report.entry_rest ?_, ?_⟩
    · cases origin <;> rfl
    · cases origin <;> cases c <;> exact packed _ _ _ _
  | abandon c rows serials =>
    refine ⟨⟨owner, kind⟩, ⟨cells, flags⟩, Report.entry_rest ?_, ?_⟩
    · cases serials <;> rfl
    · rcases serials with _ | ⟨oldest, newest⟩
      · cases c <;> exact ⟨packed _ _ _ _, rfl, rfl⟩
      · cases c <;> exact ⟨packed _ _ _ _, rfl, rfl⟩
  | gap lost => exact ⟨⟨owner, kind⟩, ⟨cells, flags⟩, rfl, Report.entry_rest rfl⟩

/-- Settles O15. -/
theorem entryLayouts : Obligations.EntryLayouts :=
  ⟨fun base r => ⟨r.words_length, fillBursts_eq base r⟩, Report.entry_fields,
    fun x => ⟨x.mem_laneCells, x.laneCells_pairwise⟩, ⟨rfl, rfl⟩, resultBursts_fields⟩

end Sys2Proof.Machine

/-! SUPPORT. What becomes of a word and of an access (R4, R7, R11, R14 to R19), and the tap order queue (R64 to R66). -/

namespace Sys2Proof.Machine

/-! ## The fate of a word (R14 to R18) -/

theorem strapBase_mod (b : BitVec 2) : strapBase b % 4 = 0 := by
  revert b
  decide

theorem inWindow_eq {base : Nat} (aligned : base % 4 = 0) (len a : Nat) :
    inWindow base len a = true ↔ base ≤ a ∧ a < base + len := by
  have whole : base / 4 * 4 = base := by omega
  rw [inWindow, whole, Bool.and_eq_true, decide_eq_true_eq, decide_eq_true_eq]

theorem windowOffset_eq {base : Nat} (aligned : base % 4 = 0) (a : Nat) : windowOffset base a = a - base := by
  rw [windowOffset, show base / 4 * 4 = base by omega]

section

variable {s : State} {a : Nat} {w : WordReq}

theorem inConfig_iff : inWindow s.configBase Config.configWindowBytes a = true ↔
    s.configBase ≤ a ∧ a < s.configBase + 1536 := inWindow_eq (strapBase_mod _) _ _

theorem wordFate_of_config (inCfg : s.configBase ≤ a ∧ a < s.configBase + 1536) : wordFate s a w = configFate s a w := by
  rw [wordFate, if_pos (inConfig_iff.mpr inCfg)]

theorem wordFate_of_unbounded (outside : ¬ (s.configBase ≤ a ∧ a < s.configBase + 1536)) (none : s.loader.bounds = none) :
    wordFate s a w = .pass Option.none := by
  rw [wordFate, if_neg (mt inConfig_iff.mp outside), none]

/-- Outside the configuration window the status block, the order ring and the report ring are tried in this order (R14). -/
theorem wordFate_of_bounds {b : Bounds} (bounds : s.loader.bounds = some b) (status : b.statusBase % 4 = 0)
    (order : b.orderBase % 4 = 0) (report : b.reportBase % 4 = 0)
    (outside : ¬ (s.configBase ≤ a ∧ a < s.configBase + 1536)) :
    wordFate s a w =
      if b.statusBase ≤ a ∧ a < b.statusBase + 256 then .drop .status
      else if b.orderBase ≤ a ∧ a < b.orderBase + 16 * b.orderSize then orderFate s (a - b.orderBase) w
      else if b.reportBase ≤ a ∧ a < b.reportBase + 64 * b.reportSize then reportFate s (a - b.reportBase) w
      else .pass none := by
  rw [wordFate, if_neg (mt inConfig_iff.mp outside), bounds]
  simp only [inWindow_eq status, inWindow_eq order, inWindow_eq report, windowOffset_eq order, windowOffset_eq report]

theorem configFate_of_not_working (negated : s.station.mode ≠ .bypass) (idle : s.station.mode.working = false) :
    configFate s a w = .pass (some (.config (decide (a = s.configBase) && wordCarries w 0 1))) := by
  unfold configFate
  cases mode : s.station.mode <;> simp_all [Mode.working, Bool.beq_eq_decide_eq]

theorem configFate_of_working (working : s.station.mode.working = true) : configFate s a w = .drop .window := by
  unfold configFate
  cases mode : s.station.mode <;> simp_all [Mode.working]

theorem orderFate_of_collision {off : Nat} (taken : off / 16 ∈ s.orders.handed ∨ beingTaken s (off / 16) = true) :
    orderFate s off w = .drop .collision := by
  simp only [orderFate, List.contains_eq_mem, Bool.or_eq_true, decide_eq_true_eq, taken, if_true]

theorem orderFate_of_free {off : Nat} (unmarked : off / 16 ∉ s.orders.handed) (idle : beingTaken s (off / 16) = false) :
    orderFate s off w = .pass (if off % 16 = 0 ∧ wordCarries w 0 1 = true then
      some (.handoff (off / 16) s.loader.gen) else none) := by
  simp only [orderFate, List.contains_eq_mem, unmarked, idle, decide_false, Bool.or_self, Bool.false_eq_true, if_false,
    Bool.and_eq_true, beq_iff_eq]
  split <;> rfl

theorem reportFate_of_filled {off : Nat} (filling : beingFilled s (off / 64) = true) :
    reportFate s off w = .hold (off / 64) := by
  simp only [reportFate, filling, if_true]

theorem reportFate_of_free {off : Nat} (idle : beingFilled s (off / 64) = false) :
    reportFate s off w = .pass (if off % 64 = 0 ∧ wordCarries w 0 0 = true then
      some (.release (off / 64) s.loader.gen) else none) := by
  simp only [reportFate, idle, Bool.false_eq_true, if_false, Bool.and_eq_true, beq_iff_eq]
  split <;> rfl

end

/-- Settles O18: the window that holds the word, then its state. -/
theorem guardTable : Obligations.GuardTable := by
  intro s a w negated base inCfg
  refine ⟨fun held idle => ?_, fun held working => ?_, fun outside => wordFate_of_unbounded outside,
    fun b bounds status order report outside => ?_⟩
  · rw [wordFate_of_config held, configFate_of_not_working negated idle]
  · rw [wordFate_of_config held, configFate_of_working working]
  · intro inStatus inOrder inReport e f
    rw [wordFate_of_bounds bounds status order report outside]
    refine ⟨fun yes => if_pos yes, fun no yes taken => ?_, fun no yes unmarked idle => ?_,
      fun no other yes filling => ?_, fun no other yes idle => ?_, fun no other third => ?_⟩
    · rw [if_neg no, if_pos yes, orderFate_of_collision taken]
    · rw [if_neg no, if_pos yes, orderFate_of_free unmarked idle]
    · rw [if_neg no, if_neg other, if_pos yes, reportFate_of_filled filling]
    · rw [if_neg no, if_neg other, if_pos yes, reportFate_of_free idle]
    · rw [if_neg no, if_neg other, if_neg third]

/-! ## The fate of an access (R4, R7, R11) -/

theorem settleWrite_of_held {a : Access} {s : State} (held : fillConds (a.fates s) ≠ []) :
    settleWrite a s = setHand a (.held (fillConds (a.fates s))) [] none s := by
  unfold settleWrite
  dsimp only
  split
  case h_1 none => exact absurd none held
  case h_2 => rfl

theorem settleWrite_of_dropped {a : Access} {s : State} {why : GuardReason} (free : fillConds (a.fates s) = [])
    (dropped : firstDrop (a.fates s) = some why) : settleWrite a s = guardDrop why a s := by
  simp only [settleWrite, free, dropped]

theorem settleWrite_of_passed {a : Access} {s : State} (free : fillConds (a.fates s) = [])
    (passed : firstDrop (a.fates s) = none) : settleWrite a s = passWrite a (observedEvents (a.fates s)) s := by
  simp only [settleWrite, free, passed]

theorem guardDrop_eq (why : GuardReason) (a : Access) {s : State} (idle : s.bus.inHand = none) :
    guardDrop why a s = { s with
      bus := { s.bus with guardDrops := s.bus.guardDrops + 1, answer := a.words.map fun _ => .ready [] }
      rep := { s.rep with
        latched := if why = .status then s.rep.latched else s.rep.latched ||| Cause.guard.mask } } := by
  unfold guardDrop answerReady
  rw [answerAll_of_no_access _ (by exact idle)]
  cases why <;> rfl

theorem arrive_of_write {a : Access} {s : State} (idle : s.bus.inHand = none) (negated : s.station.mode ≠ .bypass)
    (legal : a.malformed = false) (write : a.write = true) : arrive a s = settleWrite a s := by
  simp only [arrive, idle, if_neg negated, legal, write, Bool.false_eq_true, if_false, if_true]

theorem arrive_of_read {a : Access} {s : State} (idle : s.bus.inHand = none) (negated : s.station.mode ≠ .bypass)
    (legal : a.malformed = false) (read : a.write = false) : arrive a s = settleRead a s := by
  simp only [arrive, idle, if_neg negated, legal, read, Bool.false_eq_true, if_false]

/-- Settles O19: `arrive` settles the write, and the fates of its words, then the tap that fires, choose the branch. -/
theorem fateOfAWrite : Obligations.FateOfAWrite := by
  intro lv addr words s a u ready idle negated legal
  have idleSensed : u.bus.inHand = none := idle
  have settled : exec (.processorWrite lv addr words) s = .next (finish s (settleWrite a u)) := by
    rw [exec_processorWrite, arrive_of_write idleSensed negated legal rfl]
  rw [settled]
  refine ⟨fun held => ?_, fun why free dropped => ?_, fun t o free passed fires consumes => ?_,
    fun t o free passed fires keeps => ?_, fun free passed quiet => ?_⟩
  · rw [settleWrite_of_held (by exact held)]
    rfl
  · rw [settleWrite_of_dropped (by exact free) (by exact dropped), guardDrop_eq _ _ idleSensed]
    rfl
  · rw [settleWrite_of_passed (by exact free) (by exact passed), passWrite, show firedTap a u = some (t, o) from fires]
    dsimp only
    rw [if_pos consumes, answerReady, answerAll_of_no_access _ idleSensed]
    rfl
  · rw [settleWrite_of_passed (by exact free) (by exact passed), passWrite, show firedTap a u = some (t, o) from fires]
    dsimp only
    rw [if_neg (by rw [keeps]; exact Bool.false_ne_true)]
    rfl
  · rw [settleWrite_of_passed (by exact free) (by exact passed), passWrite, show firedTap a u = none from quiet]
    rfl

/-- Settles O22. -/
theorem readOrdering : Obligations.ReadOrdering := by
  intro addr enables s a waits idle negated legal
  have conds : readConds a s = waits.map fun o => .ownWrite o.id := rfl
  have settled : exec (.processorRead addr enables) s = .next (finish s (settleRead a s)) := by
    rw [exec_processorRead, arrive_of_read idle negated legal rfl]
  rw [settled, settleRead, conds]
  constructor
  · intro none
    rw [none]
    rfl
  · intro some
    obtain ⟨o, rest, waiting⟩ := List.exists_cons_of_ne_nil some
    rw [waiting]
    rfl

/-! ## The tap order queue (R64 to R66) -/

theorem unitFree_iff (s : State) : unitFree s = true ↔
    s.station.mode.configured = true ∧ s.loader.phase = .idle ∧ s.orders.inProgress = none := by
  rw [unitFree, Bool.and_eq_true, Bool.and_eq_true, beq_iff_eq, Option.isNone_iff_eq_none, and_assoc]

theorem serveWaiting_of_idle {s : State} (none : unitFree s = false ∨ s.orders.tapQueue = []) : serveWaiting s = s := by
  unfold serveWaiting
  rcases none with busy | empty
  · cases s.orders.tapQueue.length with
    | zero => rfl
    | succ n => rw [serveTaps, if_neg (by rw [busy]; exact Bool.false_ne_true)]
  · rw [empty]
    rfl

theorem deliverTap_of_full (t : TapOrder) {s : State} (full : 4 ≤ s.orders.tapQueue.length) :
    deliverTap t s = { s with orders := { s.orders with tapLosses := s.orders.tapLosses + 1 } } := by
  rw [deliverTap, if_neg (Nat.not_lt.mpr (by exact full))]

theorem deliverTap_of_room (t : TapOrder) {s : State} (room : s.orders.tapQueue.length < 4) :
    deliverTap t s = serveWaiting { s with orders := { s.orders with tapQueue := s.orders.tapQueue ++ [t] } } := by
  rw [deliverTap, if_pos (by exact room)]

theorem serveWaiting_of_free {s : State} {t : TapOrder} {rest : List TapOrder} (free : unitFree s = true)
    (waiting : s.orders.tapQueue = t :: rest) :
    serveWaiting s = serveTaps rest.length (applyTap t { s with orders := { s.orders with tapQueue := rest } }) := by
  simp only [serveWaiting, waiting, List.length_cons, serveTaps, free, if_true]

theorem isRefusal_iff (c : ResultCode) : c.isRefusal = true ↔ ¬ (c = .done ∨ c = .accepted) := by cases c <;> decide

theorem countRefusal_eq (c : ResultCode) (s : State) : countRefusal c s = { s with orders := { s.orders with
    refusals := if c = .done ∨ c = .accepted then s.orders.refusals else s.orders.refusals + 1 } } := by
  unfold countRefusal
  by_cases plain : c = .done ∨ c = .accepted
  · rw [if_neg (by rw [isRefusal_iff]; exact not_not.mpr plain), if_pos plain]
  · rw [if_pos ((isRefusal_iff c).mpr plain), if_neg plain]

/-- An order taken: counted, judged, its result shown as the last tap result (R66). -/
theorem applyTap_eq (t : TapOrder) (s : State) :
    let r := judgeOrder t.order (.tap t.tap) { s with orders := { s.orders with tapOrders := s.orders.tapOrders + 1 } }
    applyTap t s = { r.st with
      orders := { r.st.orders with
        refusals := if r.code = .done ∨ r.code = .accepted then r.st.orders.refusals else r.st.orders.refusals + 1
        lastTap := some ⟨t.tap, t.kind, r.code, r.value⟩ }
      rep := { r.st.rep with dirty := true } } := by
  intro r
  have counted : applyTap t s = markStatus { countRefusal r.code r.st with
      orders := { (countRefusal r.code r.st).orders with lastTap := some ⟨t.tap, t.kind, r.code, r.value⟩ } } := rfl
  rw [counted, countRefusal_eq]
  rfl

/-! ## The orders that wait while another is judged -/

/-- The tap orders that wait. -/
abbrev waiting (s : State) : List TapOrder := s.orders.tapQueue

theorem waiting_setMode (m : Mode) (c : ModeCause) (s : State) : waiting (setMode m c s) = waiting s := by
  unfold setMode
  dsimp only
  split <;> rfl

theorem waiting_completeStanding (k : OrderKind) (e : Completion) (s : State) :
    waiting (completeStanding k e s) = waiting s := by
  rw [completeStanding_eq]

theorem waiting_testWindDown (s : State) : waiting (testWindDown s) = waiting s := by
  rw [(woundDown_testWindDown s).eq]

theorem waiting_runOut (n : Lane) (s : State) : waiting (runOut n s) = waiting s := by
  have stopped : ∀ t, waiting (stopPull n t) = waiting t := by
    intro t
    rw [stopPull_eq]
    split
    · exact waiting_testWindDown _
    · rfl
  unfold runOut
  dsimp only
  split <;> exact stopped _

theorem waiting_foilLoadTaken (c : Loaded) (n : Lane) (k : Word) (s : State) :
    waiting (foilLoadTaken c n k s) = waiting s := by
  have low : ∀ t, waiting (testLow c n t) = waiting t := by
    intro t
    unfold testLow
    dsimp only
    split <;> rfl
  have tested : ∀ old t, waiting (testRunOut old n t) = waiting t := by
    intro old t
    unfold testRunOut
    split <;> rfl
  unfold foilLoadTaken
  dsimp only
  split
  · rw [tested, waiting_runOut, low]
    rfl
  · rw [low]
    rfl

theorem waiting_holdEffects {s : State} {c : Loaded} (loaded : s.loader.loaded = some c) :
    waiting (holdEffects s) = waiting s ∨ waiting (holdEffects s) = [] := by
  rw [holdEffects_eq loaded]
  split
  · exact .inl rfl
  · refine .inr ?_
    rw [editInHeld, loseConfiguration_edited]

/-- Judging an order leaves the tap orders that wait, but for a HOLD that goes on to UNCONFIGURED, which drops them (R41). -/
theorem waiting_apply (k : OrderKind) {s : State} {c : Loaded} (loaded : s.loader.loaded = some c) (o : Order) (g : Origin) :
    waiting (k.apply c o g s).st = waiting s ∨ waiting (k.apply c o g s).st = [] := by
  cases k with
  | hold =>
    show waiting (orderHold s).st = _ ∨ waiting (orderHold s).st = _
    unfold orderHold
    split
    · exact .inl rfl
    · exact waiting_holdEffects loaded
  | watch =>
    refine .inl ?_
    show waiting (orderWatch s).st = _
    unfold orderWatch
    dsimp only
    split
    · exact waiting_setMode _ _ s
    · exact (waiting_completeStanding _ _ _).trans ((waiting_completeStanding _ _ _).trans (waiting_setMode _ _ s))
  | run =>
    refine .inl ?_
    show waiting (orderRun c s).st = _
    unfold orderRun
    repeat' split
    · rfl
    · rfl
    · rfl
    · exact waiting_setMode _ _ s
  | stampOff =>
    refine .inl ?_
    show waiting (orderStampOff g s).st = _
    unfold orderStampOff
    split
    · rfl
    · exact waiting_testWindDown _
  | skip =>
    refine .inl ?_
    show waiting (orderSkip c o s).st = _
    unfold orderSkip
    split <;> rfl
  | laneRestart =>
    refine .inl ?_
    show waiting (orderLaneRestart c o s).st = _
    unfold orderLaneRestart
    split <;> rfl
  | setPosition =>
    refine .inl ?_
    show waiting (orderSetPosition c o s).st = _
    unfold orderSetPosition
    repeat' split
    all_goals rfl
  | trimReset =>
    refine .inl ?_
    show waiting (orderTrimReset s).st = _
    unfold orderTrimReset
    split <;> rfl
  | foilLoad =>
    refine .inl ?_
    show waiting (orderFoilLoad c o s).st = _
    unfold orderFoilLoad
    split
    · exact waiting_foilLoadTaken _ _ _ _
    · rfl
  | countTarget =>
    refine .inl ?_
    show waiting (orderCountTarget o g s).st = _
    unfold orderCountTarget
    repeat' split
    · exact waiting_completeStanding _ _ _
    · rfl
    · exact waiting_completeStanding _ _ _
  | survey =>
    refine .inl ?_
    show waiting (orderSurvey o g s).st = _
    unfold orderSurvey
    repeat' split
    all_goals rfl
  | reportPolicy =>
    refine .inl ?_
    show waiting (orderReportPolicy c o s).st = _
    unfold orderReportPolicy
    repeat' split
    all_goals rfl
  | ack =>
    refine .inl ?_
    show waiting (orderAck o s).st = _
    unfold orderAck
    dsimp only
    split <;> rfl

theorem waiting_judgeOrder (o : Order) (g : Origin) (s : State) :
    waiting (judgeOrder o g s).st = waiting s ∨ waiting (judgeOrder o g s).st = [] := by
  unfold judgeOrder
  split
  · exact .inl rfl
  · split
    · split
      case h_1 c loaded => exact waiting_apply _ loaded o g
      case h_2 => exact .inl rfl
    · exact .inl rfl

theorem waiting_applyTap_le (t : TapOrder) (s : State) : (waiting (applyTap t s)).length ≤ (waiting s).length := by
  rw [applyTap_eq]
  show (waiting (judgeOrder _ _ _).st).length ≤ _
  rcases waiting_judgeOrder t.order (.tap t.tap) { s with orders := { s.orders with tapOrders := s.orders.tapOrders + 1 } }
    with same | none
  · rw [same]
  · rw [none]
    exact Nat.zero_le _

/-- The length of the queue is fuel enough: more serves no more. -/
theorem serveTaps_of_enough (n m : Nat) {s : State} (hn : (waiting s).length ≤ n) (hm : (waiting s).length ≤ m) :
    serveTaps n s = serveTaps m s := by
  have empty : ∀ {u : State} (k : Nat), waiting u = [] → serveTaps k u = u := by
    intro u k none
    cases k with
    | zero => rfl
    | succ k =>
      rw [serveTaps, show u.orders.tapQueue = [] from none]
      exact ite_self _
  induction n generalizing m s with
  | zero =>
    have none : waiting s = [] := List.length_eq_zero_iff.mp (Nat.le_zero.mp hn)
    rw [empty _ none, empty _ none]
  | succ n ih =>
    cases m with
    | zero =>
      have none : waiting s = [] := List.length_eq_zero_iff.mp (Nat.le_zero.mp hm)
      rw [empty _ none, empty _ none]
    | succ m =>
      rw [serveTaps, serveTaps]
      split
      · cases queue : s.orders.tapQueue with
        | nil => rfl
        | cons t rest =>
          have shorter := waiting_applyTap_le t { s with orders := { s.orders with tapQueue := rest } }
          rw [show waiting s = t :: rest from queue, List.length_cons] at hn hm
          exact ih m (shorter.trans (Nat.le_of_succ_le_succ hn)) (shorter.trans (Nat.le_of_succ_le_succ hm))
      · rfl

/-- The oldest order that waits is taken and the unit serves on (R65). -/
theorem serveWaiting_of_waiting {s : State} {t : TapOrder} {rest : List TapOrder} (free : unitFree s = true)
    (queue : s.orders.tapQueue = t :: rest) :
    serveWaiting s = serveWaiting (applyTap t { s with orders := { s.orders with tapQueue := rest } }) := by
  rw [serveWaiting_of_free free queue]
  exact serveTaps_of_enough _ _ (waiting_applyTap_le t _) le_rfl

/-- An order row of a tap delivers its order in every mode but BYPASS. -/
theorem orderRow_tap {kind : Byte} {accepts : Byte → Bool} (accepted : accepts kind = true) (n : Fin 16) (lane : Lane)
    (arg : BitVec 16) (s : State) : orderRow kind accepts (.tap n lane arg) s =
      if s.station.mode = .bypass then s else deliverTap ⟨n.val, kind, lane, arg⟩ s := by
  simp only [orderRow, accepted, Bool.and_true, ne_eq, decide_not, Bool.not_eq_true', decide_eq_false_iff_not, ite_not]

theorem exec_command (k : OrderKind) (lv : Levels) (src : OrderSource) (s : State) :
    exec (k.command lv src) s = .next (finish s (knownRow k src (sense lv s))) := by cases k <;> rfl

theorem exec_unknownOrderKind (lv : Levels) (src : OrderSource) (kind : Byte) (s : State) :
    exec (.unknownOrderKind lv src kind) s = .next (finish s
      (orderRow kind (fun b => b == kind && (OrderKind.ofCode b).isNone) src (sense lv s))) := rfl

/-- Settles O21: the rows by their source, then delivery, service and the order taken. -/
theorem tapOrderQueue : Obligations.TapOrderQueue := by
  constructor
  · intro lv n kind lane arg s t u
    constructor
    · intro k known
      rw [exec_command, knownRow, ← known, orderRow_tap (by rw [beq_self_eq_true])]
      rfl
    · intro unknown
      rw [exec_unknownOrderKind, orderRow_tap (by rw [OrderKind.ofCode_eq_none unknown, beq_self_eq_true]; rfl)]
      rfl
  intro t s free
  refine ⟨fun full => deliverTap_of_full t full, fun room busy => ?joins, fun empty isFree => ?atOnce, fun none => ?idle,
    fun rest isFree queue => serveWaiting_of_waiting ((unitFree_iff s).mpr isFree) queue, applyTap_eq t s⟩
  case joins =>
    rw [deliverTap_of_room t room]
    exact serveWaiting_of_idle (.inl (Bool.eq_false_iff.mpr (mt (unitFree_iff s).mp busy)))
  case atOnce =>
    have unitIsFree := (unitFree_iff s).mpr isFree
    rw [deliverTap_of_room t (by rw [empty]; decide), serveWaiting_of_free (t := t) (rest := []) (by exact unitIsFree)
      (by rw [empty]; rfl), ← empty]
    exact congrArg (fun k => serveTaps k _) (congrArg List.length empty)
  case idle =>
    exact serveWaiting_of_idle (none.imp_left fun busy => Bool.eq_false_iff.mpr (mt (unitFree_iff s).mp busy))

end Sys2Proof.Machine

/-! SUPPORT. How a forwarded burst and an own access end (R1, R5, R6, R9, R12), the window events (R22 to R32) and RESET_N
(R8). -/

namespace Sys2Proof.Machine

/-! ## The end of a forwarded burst -/

theorem burstWords_length (addr : Addr) (words : List WordReq) : (burstWords addr words).length = words.length := by
  induction words generalizing addr with
  | nil => rfl
  | cons w rest ih => rw [burstWords, List.length_cons, ih, List.length_cons]

theorem Access.addressed_length (a : Access) : a.addressed.length = a.words.length := burstWords_length _ _

/-- The first `k` words reach memory and are answered ready, the others with an error; the port falls free. -/
theorem endForwarded_eq (a : Access) (k : Nat) (s : State) : endForwarded a k s = { s with
    mem := if a.write then memWriteWords s.mem (a.addressed.take k) else s.mem
    bus := { s.bus with
      port := .free
      inHand := none
      answer := (a.addressed.take k).map (fun p => .ready (if a.write then [] else readBytes s.mem p.1 p.2)) ++
        List.replicate (a.words.length - k) .error } } := by
  have errors : ((a.words.drop k).map fun _ => WordAnswer.error) = List.replicate (a.words.length - k) .error := by
    rw [List.map_const', List.length_drop]
  unfold endForwarded readyAnswers
  rw [errors]
  cases a.write <;> rfl

theorem issuedForwarded_eq {s : State} {a : Access} {events : List Observed} {tap : Option TapOrder}
    (busy : s.bus.port = .forwarded) (hand : s.bus.inHand = some ⟨a, .issued, events, tap⟩) :
    issuedForwarded s = some ⟨a, .issued, events, tap⟩ := by
  simp only [issuedForwarded, hand, busy, decide_true, Bool.and_self, if_true]

/-- A burst writes no byte but those it enables. -/
theorem memRead_burst (m : List Host.Cell) (write : Bool) (ws : List (Addr × WordReq)) {x : Nat}
    (other : ¬ (write = true ∧ enabledByte ws x)) :
    memRead (if write then memWriteWords m ws else m) x = memRead m x := by
  cases write with
  | false => rfl
  | true => exact memRead_memWriteWords_ne ws m fun enabled => other ⟨rfl, enabled⟩

/-- Settles O24. -/
theorem forwardedAccessEnds : Obligations.ForwardedAccessEnds := by
  intro lv s a events tap busy hand
  have issued : issuedForwarded (sense lv s) = some ⟨a, .issued, events, tap⟩ :=
    issuedForwarded_eq (s := sense lv s) busy hand
  have all : a.addressed.take a.words.length = a.addressed := by rw [← a.addressed_length, List.take_length]
  constructor
  · intro m answer u
    refine ⟨?_, fun x => memRead_burst s.mem a.write a.addressed⟩
    show Host.Outcome.next (finish s (forwardedEnd (sense lv s))) = _
    rw [forwardedEnd, issued]
    dsimp only
    rw [endForwarded_eq, all, Nat.sub_self, List.replicate_zero, List.append_nil]
    rfl
  · intro k inBurst m answer u
    refine ⟨?_, fun x => memRead_burst s.mem a.write (a.addressed.take k)⟩
    show Host.Outcome.next (finish s (forwardedError k (sense lv s))) = _
    rw [forwardedError, issued]
    dsimp only
    rw [if_pos inBurst, endForwarded_eq]
    rfl

/-! ## The end of an own access -/

theorem endOwn_write (o : OwnAccess) (k : Nat) (s : State) : endOwn o k s = { s with
    mem := if o.write then memWriteWords s.mem (o.addressed.take k) else s.mem
    bus := { s.bus with
      port := .free
      queue := s.bus.queue.drop 1
      inHand := s.bus.inHand.map fun h => { h with phase := h.phase.without o } } } := by
  unfold endOwn landOwn
  cases o.write <;> rfl

theorem OwnAccess.ends_iff (o : OwnAccess) (c : HoldCond) :
    (!o.ends c) = true ↔ c ≠ .ownWrite o.id ∧ ∀ e, o.purpose = .fill e → c ≠ .fill e := by
  cases c with
  | ownWrite id => simp [OwnAccess.ends]
  | fill e =>
    simp only [OwnAccess.ends, Bool.not_eq_true', beq_eq_false_iff_ne, ne_eq, reduceCtorEq, not_false_eq_true, true_and,
      HoldCond.fill.injEq]
    exact ⟨fun differs f purpose same => differs (same ▸ purpose), fun differs purpose => differs e purpose rfl⟩

theorem issuedOwn_of_head {s : State} {o : OwnAccess} {rest : List OwnAccess} (port : s.bus.port = .own)
    (queue : s.bus.queue = o :: rest) : issuedOwn s = some o := by
  rw [issuedOwn, if_pos port, queue, List.head?_cons]

/-- Settles O27. -/
theorem ownAccessLeavesTheQueue : Obligations.OwnAccessLeavesTheQueue := by
  intro s o rest k port queue
  refine ⟨issuedOwn_of_head port queue, rfl, if o.write then memWriteWords s.mem (o.addressed.take k) else s.mem,
    s.bus.inHand.map fun h => { h with phase := h.phase.without o }, ?_, fun read => if_neg (by rw [read]; exact Bool.false_ne_true),
    fun write => if_pos write, fun x => memRead_burst s.mem o.write (o.addressed.take k), fun none => ?_,
    fun h hand free => ?_, fun h l hand held => ⟨l.filter fun c => !o.ends c, ?_, fun c => ?_⟩⟩
  · rw [endOwn_write, queue]
    rfl
  · rw [none]
    rfl
  · obtain ⟨acc, phase, events, tap⟩ := h
    rw [hand]
    cases phase with
    | held l => exact absurd rfl (free l)
    | contender => rfl
    | issued => rfl
  · obtain ⟨acc, phase, events, tap⟩ := h
    rw [hand]
    cases held
    rfl
  · rw [List.mem_filter, o.ends_iff]

/-! ## The window events -/

theorem mem_insertIndex (n : Nat) (l : List Nat) (x : Nat) : x ∈ insertIndex n l ↔ x = n ∨ x ∈ l := by
  induction l with
  | nil => simp [insertIndex]
  | cons k rest ih =>
    rw [insertIndex]
    split
    · rw [List.mem_cons]
    · split
      case isTrue same =>
        rw [List.mem_cons, same]
        exact ⟨.inr, fun h => h.elim .inl id⟩
      case isFalse =>
        rw [List.mem_cons, ih, List.mem_cons]
        exact or_left_comm

theorem mapInForce_of_current {s : State} (decoded : s.loader.bounds.isSome = true) : mapInForce s.loader.gen s = true := by
  rw [mapInForce, decoded, beq_self_eq_true]
  rfl

theorem configEvent_edit {s : State} : configEvent false s = editEvent s := by
  unfold configEvent
  split <;> rfl

theorem configEvent_of_working {s : State} (p : Bool) (working : s.station.mode.working = true) :
    configEvent p s = { s with loader := { s.loader with confirmed := false } } := by
  unfold configEvent editEvent
  cases mode : s.station.mode with
  | watch | run | safe => rfl
  | bypass | unconfigured | loading | held =>
    rw [mode] at working
    cases working

theorem configEvent_commit {s : State} (idle : s.station.mode = .unconfigured ∨ s.station.mode = .held) :
    configEvent true s = beginLoad s := by
  unfold configEvent commitEvent
  rcases idle with mode | mode <;> rw [mode] <;> rfl

theorem configEvent_restart {s : State} (loading : s.station.mode = .loading) : configEvent true s = restartLoad s := by
  unfold configEvent commitEvent
  rw [loading]
  rfl

/-- The throw of a configuration lost is not asserted (R136, R141). -/
theorem negated_throwOn {s t : State} (released : t.imp.throw =
    if s.throwOn then (if s.pins.throwOk then .releasing else .off) else s.imp.throw) : t.throwOn = false := by
  rw [State.throwOn, released]
  by_cases on : s.throwOn = true
  · rw [if_pos on]
    cases s.pins.throwOk <;> rfl
  · rw [if_neg on]
    simpa [State.throwOn] using on

/-- Settles O25: the event's owner and the mode choose the operation; an edit in HELD takes the reports offered and then loses
the configuration. -/
theorem windowEvents : Obligations.WindowEvents := by
  intro s header lost
  refine ⟨fun e decoded => ⟨insertIndex e s.orders.handed, ?_, mem_insertIndex e _⟩,
    fun e decoded => ⟨insertIndex e s.rep.released, ?_, mem_insertIndex e _⟩, fun idle => ?commit, fun loading => ?edited,
    fun p => configEvent_of_working p, fun unconfigured => ?nothing, fun held => ?edit, fun loading => ?restart⟩
  · exact if_pos (mapInForce_of_current decoded)
  · exact if_pos (mapInForce_of_current decoded)
  case commit => exact configEvent_commit idle
  case edited =>
    show configEvent false s = _
    rw [configEvent_edit, editEvent, loading]
  case nothing =>
    show configEvent false s = _
    rw [configEvent_edit, editEvent, unconfigured]
  case edit =>
    let c := clearConfirmed s
    have edited : deliverEvent (.config false) s = loseConfiguration .edited .edit (flushOffers c) := by
      show configEvent false s = _
      rw [configEvent_edit, editEvent, held]
      rfl
    have frame := (flushed_flushOffers c).eq
    have latched := (reported_flushOffers c).latched
    obtain ⟨fills, none⟩ := flushOffers_fills c
    have quiet : s.rep.offers = [] → _ := fun noOffers => flushOffers_quiet (s := c) noOffers
    rw [edited, loseConfiguration_edited]
    generalize flushOffers c = f at *
    have imp : f.imp = s.imp := by rw [frame]; rfl
    have pins : f.pins = s.pins := by rw [frame]; rfl
    refine ⟨_, rfl, ?_, negated_throwOn (s := f) rfl, fun off => ?_, fills, ?_, fun noOffers => ?_⟩
    · rw [frame] at none ⊢
      simp only at none ⊢
      rw [none]
      rfl
    · rw [if_neg (by rw [State.throwOn, imp]; simpa [State.throwOn] using off), imp]
    · exact latched.imp (congrArg (· ||| Cause.config.mask)) (congrArg (· ||| Cause.config.mask))
    · exact ⟨congrArg (· ||| Cause.config.mask) (quiet noOffers).1, (quiet noOffers).2⟩
  case restart =>
    have restarted : deliverEvent (.config true) s = restartLoad s := configEvent_restart loading
    rw [restarted, restartLoad]
    intro begun t
    constructor
    · intro reading
      rw [if_pos reading]
    · intro free
      rw [if_neg (by rw [free]; exact Bool.false_ne_true)]
      rfl

/-! ## RESET_N (R8, R34) -/

theorem resetAsserted_of_negated (k : Nat) {s : State} (negated : s.station.mode ≠ .bypass) : resetAsserted k s =
    { State.reset with
      pending := s.pending
      mem := (landAtReset k s).mem
      pins := s.pins
      bus := { Bus.reset with
        port := s.bus.port.bypassed, inHand := s.bus.inHand.map InHand.bypassed, answer := s.bus.answer }
      station := { Station.reset with mode := .bypass }
      uid := s.uid
      choice := s.choice } := if_neg negated

theorem landAtReset_of_write (k : Nat) {s : State} {o : OwnAccess} (issued : issuedOwn s = some o) (write : o.write = true) :
    (landAtReset k s).mem = memWriteWords s.mem (o.addressed.take k) := by
  simp only [landAtReset, issued, landOwn, write, if_true]

theorem strapBase_eq : ∀ b : BitVec 2, strapBase b =
    if b = 0 then 0x001000 else if b = 1 then 0x040000 else if b = 2 then 0x7F0000 else 0xFF0000 := by decide

/-- Settles O26. -/
theorem resetLine : Obligations.ResetLine := by
  refine ⟨fun k s negated => ⟨_, congrArg (fun u => Host.Outcome.next (finish s u)) (resetAsserted_of_negated k negated), rfl,
    rfl, rfl, rfl, rfl, fun h hand unissued => ?_, rfl, rfl, rfl, rfl, rfl, rfl, rfl, fun n => ?_,
    fun read => landAtReset_mem read k, fun o => landAtReset_of_write k⟩, fun straps a b s bypass => ⟨_,
    congrArg (fun u => Host.Outcome.next (finish s u)) (if_pos bypass), rfl, rfl, rfl, strapBase_eq straps⟩⟩
  · obtain ⟨acc, phase, events, tap⟩ := h
    rw [hand]
    cases phase with
    | held l => exact ⟨_, rfl, rfl, rfl⟩
    | contender => exact ⟨_, rfl, rfl, rfl⟩
    | issued => exact absurd rfl unissued
  · match n with
    | 0 | 1 | 2 | 3 => exact ⟨rfl, rfl, rfl⟩

end Sys2Proof.Machine

/-! SUPPORT. The layouts software writes (11.1, 11.2): a field of the header, of a table entry or of an order entry as the
bytes of its whole stored size. -/

namespace Sys2Proof.Machine

/-- The number in byte `i` of the configuration window: the header's words up to byte 255, the tables' from there. -/
def windowByte (ws tbl : List Word) (i : Nat) : Nat :=
  (byteOf (if i < 256 then ws.getD (i / 4) 0 else tbl.getD ((i - 256) / 4) 0) (i % 4)).toNat

theorem windowByte_of_header {ws tbl : List Word} {i : Nat} (header : i < 256) : windowByte ws tbl i = natAt ws i := by
  rw [windowByte, if_pos header]
  rfl

theorem windowByte_of_table {ws tbl : List Word} {i j : Nat} (place : i = 256 + j) :
    windowByte ws tbl i = natAt tbl j := by
  subst place
  rw [windowByte, if_neg (Nat.not_lt.2 (Nat.le_add_right ..)), Nat.add_sub_cancel_left, Nat.add_mod]
  simp only [Nat.reduceMod, Nat.zero_add, Nat.mod_mod]
  rfl

section
variable {ws tbl : List Word} {i j k : Nat}

theorem windowHalf_of_table (place : i = 256 + j) :
    windowByte ws tbl i + 256 * windowByte ws tbl (i + 1) = (halfAt tbl j).toNat := by
  rw [halfAt_toNat, windowByte_of_table place, windowByte_of_table (i := i + 1) (j := j + 1) (by omega)]

theorem windowWord_of_table (place : i = 256 + 4 * k) :
    windowByte ws tbl i + 256 * windowByte ws tbl (i + 1) +
      65536 * (windowByte ws tbl (i + 2) + 256 * windowByte ws tbl (i + 2 + 1)) = (wordAt tbl (4 * k)).toNat := by
  rw [wordAt_toNat, windowByte_of_table place, windowByte_of_table (i := i + 1) (j := 4 * k + 1) (by omega),
    windowByte_of_table (i := i + 2) (j := 4 * k + 2) (by omega),
    windowByte_of_table (i := i + 2 + 1) (j := 4 * k + 3) (by omega)]

theorem windowAddr_of_table (place : i = 256 + 4 * k) :
    windowByte ws tbl i + 256 * windowByte ws tbl (i + 1) + 65536 * windowByte ws tbl (i + 2) =
      (addrAt tbl (4 * k)).toNat := by
  rw [addrAt_toNat, windowByte_of_table place, windowByte_of_table (i := i + 1) (j := 4 * k + 1) (by omega),
    windowByte_of_table (i := i + 2) (j := 4 * k + 2) (by omega)]

end

/-! ## The parts of a byte or of a halfword -/

theorem Byte.getLsbD_eq (b : Byte) (k : Nat) : b.getLsbD k = decide (b.toNat / 2 ^ k % 2 = 1) :=
  Nat.testBit_eq_decide_div_mod_eq

theorem highNibble_toNat (b : Byte) : (BitVec.setWidth 4 (b >>> 4)).toNat = b.toNat / 16 := by
  have small := b.isLt
  rw [BitVec.toNat_setWidth, BitVec.toNat_ushiftRight, Nat.shiftRight_eq_div_pow]
  omega

theorem and_three_toNat (x : BitVec 16) : (x &&& 3).toNat = x.toNat % 4 :=
  Nat.and_two_pow_sub_one_eq_mod x.toNat 2

theorem setWidth_twelve_toNat (x : BitVec 16) : (BitVec.setWidth 12 x).toNat = x.toNat % 4096 :=
  BitVec.toNat_setWidth ..

/-! ## The loaded classes -/

theorem getElem?_takeWhile_of_all {α : Type} {p : α → Bool} {l : List α} {i : Nat}
    (all : ∀ j ≤ i, ∀ x, l[j]? = some x → p x = true) : (l.takeWhile p)[i]? = l[i]? := by
  induction l generalizing i with
  | nil => rfl
  | cons x t ih =>
    rw [List.takeWhile_cons_of_pos (all 0 (Nat.zero_le i) x rfl)]
    cases i with
    | zero => rfl
    | succ i => exact ih fun j le y found => all (j + 1) (Nat.succ_le_succ le) y found

theorem getElem?_takeWhile_of_stop {α : Type} {p : α → Bool} {l : List α} {i j : Nat} {x : α} (le : j ≤ i)
    (found : l[j]? = some x) (stop : p x = false) : (l.takeWhile p)[i]? = none := by
  induction l generalizing i j with
  | nil => rfl
  | cons y t ih =>
    by_cases pass : p y = true
    · cases j with
      | zero =>
        obtain rfl : y = x := Option.some.inj found
        exact absurd pass (by rw [stop]; decide)
      | succ j =>
        obtain ⟨i, rfl⟩ : ∃ m, i = m + 1 := ⟨i - 1, by omega⟩
        rw [List.takeWhile_cons_of_pos pass]
        exact ih (Nat.le_of_succ_le_succ le) found
    · rw [List.takeWhile_cons_of_neg pass]
      rfl

theorem getElem?_readClass {tbl : List Word} {i : Nat} (lt : i < 8) :
    ((List.range 8).map (readClass tbl))[i]? = some (readClass tbl i) := by
  rw [List.getElem?_map, List.getElem?_range lt]
  rfl

theorem readClasses_loaded {tbl : List Word} {i : Nat} (lt : i < 8) (all : ∀ j ≤ i, (readClass tbl j).maxWidth ≠ 0) :
    (readClasses tbl)[i]? = some (readClass tbl i) := by
  rw [readClasses, getElem?_takeWhile_of_all, getElem?_readClass lt]
  intro j le x found
  rw [getElem?_readClass (Nat.lt_of_le_of_lt le lt)] at found
  obtain rfl := Option.some.inj found
  exact decide_eq_true (all j le)

theorem readClasses_stopped {tbl : List Word} {i j : Nat} (lt : i < 8) (le : j ≤ i) (zero : (readClass tbl j).maxWidth = 0) :
    (readClasses tbl)[i]? = none :=
  getElem?_takeWhile_of_stop le (getElem?_readClass (Nat.lt_of_le_of_lt le lt)) (by simp [zero])

theorem readClass_fields (ws tbl : List Word) (i : Nat) :
    readClass tbl i = ⟨windowByte ws tbl (256 + 4 * i) + 256 * windowByte ws tbl (256 + 4 * i + 1),
      windowByte ws tbl (256 + 4 * i + 2) + 256 * windowByte ws tbl (256 + 4 * i + 2 + 1)⟩ := by
  rw [windowHalf_of_table (i := 256 + 4 * i) rfl, windowHalf_of_table (i := 256 + 4 * i + 2) (j := 4 * i + 2) (by omega)]
  rfl

theorem readClasses_length_le (tbl : List Word) : (readClasses tbl).length ≤ 8 :=
  le_trans (List.takeWhile_prefix _).length_le (by rw [List.length_map, List.length_range])

/-! ## The set lists, the taps and the variants -/

theorem setAt_readHeader (ws tbl : List Word) (n : Lane) {p : Nat} (lt : p < 16) :
    (readHeader ws).setAt n p = some (windowByte ws tbl (128 + 16 * n.val + p)) := by
  have lane := n.isLt
  have list : (readHeader ws).setList.get n = setListAt ws n.val := by fin_cases n <;> rfl
  rw [Header.setAt, list, setListAt, List.getElem?_map, List.getElem?_range lt, windowByte_of_header (by omega)]
  rfl

theorem setAt_readHeader_of_ge (ws : List Word) (n : Lane) {p : Nat} (ge : 16 ≤ p) :
    (readHeader ws).setAt n p = none := by
  have list : (readHeader ws).setList.get n = setListAt ws n.val := by fin_cases n <;> rfl
  rw [Header.setAt, list, List.getElem?_eq_none]
  simpa [setListAt] using ge

theorem readTap_fields (ws tbl : List Word) (t : Nat) :
    let byte := windowByte ws tbl
    let half := fun i => byte i + 256 * byte (i + 1)
    let addr := fun i => half i + 65536 * byte (i + 2)
    let word := fun i => half i + 65536 * half (i + 2)
    let e := readTap tbl t
    let o := 288 + 16 * t
    e.wordAddr.toNat = addr o ∧ e.lane.val = byte (o + 3) % 4 ∧ e.addrMask.toNat = addr (o + 4) ∧
    e.pattern.toNat = word (o + 8) ∧ e.enabled = decide (byte (o + 12) % 2 = 1) ∧
    e.consume = decide (byte (o + 12) / 2 % 2 = 1) ∧ e.fromByte = decide (byte (o + 12) / 4 % 2 = 1) ∧
    e.byteMask.toNat = byte (o + 12) / 16 ∧ e.kind.toNat = byte (o + 13) ∧
    e.arg.toNat = if e.fromByte = true then half (o + 14) % 4 else half (o + 14) := by
  intro byte half addr word e o
  have flags : byte (o + 12) = (byteAt tbl (32 + 16 * t + 12)).toNat := windowByte_of_table (by omega)
  have bit : ∀ k, (byteAt tbl (32 + 16 * t + 12)).getLsbD k = decide (byte (o + 12) / 2 ^ k % 2 = 1) := by
    rw [flags]
    exact Byte.getLsbD_eq _
  have arg : half (o + 14) = (halfAt tbl (32 + 16 * t + 14)).toNat := windowHalf_of_table (by omega)
  have four : 32 + 16 * t = 4 * (8 + 4 * t) := by omega
  refine ⟨?wordAddr, ?lane, ?addrMask, ?pattern, ?enabled, bit 1, bit 2, ?byteMask, ?kind, ?arg⟩
  case wordAddr =>
    change (addrAt tbl (32 + 16 * t)).toNat = _
    rw [four]
    exact (windowAddr_of_table (by omega)).symm
  case lane =>
    change natAt tbl (32 + 16 * t + 3) % 4 % 4 = _
    rw [Nat.mod_mod]
    exact congrArg (· % 4) (windowByte_of_table (by omega)).symm
  case addrMask =>
    change (addrAt tbl (32 + 16 * t + 4)).toNat = _
    rw [show 32 + 16 * t + 4 = 4 * (9 + 4 * t) by omega]
    exact (windowAddr_of_table (by omega)).symm
  case pattern =>
    change (wordAt tbl (32 + 16 * t + 8)).toNat = _
    rw [show 32 + 16 * t + 8 = 4 * (10 + 4 * t) by omega]
    exact (windowWord_of_table (by omega)).symm
  case enabled => exact (bit 0).trans (by rw [Nat.pow_zero, Nat.div_one])
  case byteMask =>
    rw [flags]
    exact highNibble_toNat _
  case kind => exact (windowByte_of_table (by omega)).symm
  case arg =>
    rw [arg, show e.arg = if e.fromByte = true then halfAt tbl (32 + 16 * t + 14) &&& 3 else
      halfAt tbl (32 + 16 * t + 14) from rfl]
    split
    · exact and_three_toNat _
    · rfl

theorem readVariant_fields (ws tbl : List Word) (v : Nat) :
    let byte := windowByte ws tbl
    let half := fun i => byte i + 256 * byte (i + 1)
    let e := readVariant tbl v
    let o := 544 + 16 * v
    e.code.toNat = half o % 4096 ∧ e.codeMask.toNat = half (o + 2) % 4096 ∧
    e.valid = decide (byte (o + 4) % 2 = 1) ∧ e.strike = decide (byte (o + 4) / 2 % 2 = 1) ∧
    e.cls = byte (o + 5) ∧ e.plate = byte (o + 6) ∧ e.imageOffset.toNat = half (o + 8) ∧
    e.imageLength.toNat = half (o + 10) := by
  intro byte half e o
  have bit : ∀ k, (byteAt tbl (288 + 16 * v + 4)).getLsbD k = decide (byte (o + 4) / 2 ^ k % 2 = 1) := by
    rw [show byte (o + 4) = (byteAt tbl (288 + 16 * v + 4)).toNat from windowByte_of_table (by omega)]
    exact Byte.getLsbD_eq _
  refine ⟨?code, ?codeMask, ?valid, bit 1, (windowByte_of_table (by omega)).symm, (windowByte_of_table (by omega)).symm,
    (windowHalf_of_table (by omega)).symm, (windowHalf_of_table (by omega)).symm⟩
  case code =>
    rw [show half o = (halfAt tbl (288 + 16 * v)).toNat from windowHalf_of_table (by omega)]
    exact setWidth_twelve_toNat _
  case codeMask =>
    rw [show half (o + 2) = (halfAt tbl (288 + 16 * v + 2)).toNat from windowHalf_of_table (by omega)]
    exact setWidth_twelve_toNat _
  case valid => exact (bit 0).trans (by rw [Nat.pow_zero, Nat.div_one])

/-- Settles O29: every field of the header, of the tables and of an order entry is its bytes at their offset. -/
theorem windowLayout : Obligations.WindowLayout := by
  refine ⟨?window, fun ws => ⟨rfl, rfl, halfAt_toNat ws 4, halfAt_toNat ws 6, wordAt_toNat ws 2⟩⟩
  case window =>
    intro ws tbl h byte half addr word
    have bit65 : (byteAt ws 65).getLsbD 0 = decide (byte 65 % 2 = 1) :=
      (Byte.getLsbD_eq _ 0).trans (by rw [Nat.pow_zero, Nat.div_one]; rfl)
    refine ⟨rfl, ⟨halfAt_toNat ws 2, rfl, rfl, rfl, rfl⟩,
      ⟨wordAt_toNat ws 2, wordAt_toNat ws 3, wordAt_toNat ws 4, wordAt_toNat ws 5, ?sensors, wordAt_toNat ws 10,
        wordAt_toNat ws 11, wordAt_toNat ws 12, wordAt_toNat ws 13, wordAt_toNat ws 14, wordAt_toNat ws 15⟩,
      ⟨rfl, bit65, rfl, rfl, wordAt_toNat ws 17, wordAt_toNat ws 18, wordAt_toNat ws 19, halfAt_toNat ws 80,
        halfAt_toNat ws 82, halfAt_toNat ws 84, halfAt_toNat ws 86, wordAt_toNat ws 22, wordAt_toNat ws 23,
        wordAt_toNat ws 24, wordAt_toNat ws 25⟩,
      ⟨addrAt_toNat ws 26, halfAt_toNat ws 108, halfAt_toNat ws 110, addrAt_toNat ws 28, addrAt_toNat ws 29, ?mask, rfl,
        rfl⟩,
      fun n => ⟨fun p lt => setAt_readHeader ws tbl n lt, fun p => setAt_readHeader_of_ge ws n⟩,
      fun i lt => ⟨fun all => ?loaded, fun ⟨j, le, zero⟩ => ?stopped⟩, readClasses_length_le tbl, rfl,
      fun k lt => ⟨readTap tbl k, ?tapAt, readTap_fields ws tbl k⟩, rfl,
      fun v lt => ⟨readVariant tbl v, ?variantAt, readVariant_fields ws tbl v⟩⟩
    case sensors =>
      intro n
      fin_cases n
      exacts [wordAt_toNat ws 6, wordAt_toNat ws 7, wordAt_toNat ws 8, wordAt_toNat ws 9]
    case mask =>
      exact (setWidth_twelve_toNat _).trans (congrArg (· % 4096) (halfAt_toNat ws 120))
    case loaded =>
      rw [show (readCopy ws tbl).classes = readClasses tbl from rfl, readClasses_loaded lt, readClass_fields ws]
      · rfl
      · intro j le
        rw [readClass_fields ws]
        exact all j le
    case stopped =>
      refine readClasses_stopped lt le ?_
      rw [readClass_fields ws]
      exact zero
    case tapAt =>
      rw [show (readCopy ws tbl).taps = (List.range 16).map (readTap tbl) from rfl, List.getElem?_map,
        List.getElem?_range lt]
      rfl
    case variantAt =>
      rw [show (readCopy ws tbl).variants = (List.range 32).map (readVariant tbl) from rfl, List.getElem?_map,
        List.getElem?_range lt]
      rfl

end Sys2Proof.Machine

/-! SUPPORT. The thirteen checks of a load (R29): what each compares, as a statement about the fields it reads. -/

namespace Sys2Proof.Machine

theorem overlaps_iff {a la b lb : Nat} :
    overlaps a la b lb = true ↔ ∃ x, a ≤ x ∧ x < a + la ∧ b ≤ x ∧ x < b + lb := by
  rw [overlaps, decide_eq_true_iff]
  constructor
  · exact fun lt => ⟨max a b, by omega⟩
  · rintro ⟨x, shared⟩
    omega

theorem checkStatusAddress_iff {base : Nat} {h : Header} :
    checkStatusAddress base h = true ↔ h.statusBase % 32 = 0 ∧ h.statusBase + 255 ≤ 0xFFFFFF ∧
      ¬ ∃ x, h.statusBase ≤ x ∧ x < h.statusBase + 256 ∧ base ≤ x ∧ x < base + 1536 := by
  rw [checkStatusAddress, ← overlaps_iff]
  simp only [Bool.and_eq_true, beq_iff_eq, decide_eq_true_eq, Bool.not_eq_true', Bool.not_eq_true, and_assoc,
    show Config.configWindowBytes = 1536 from rfl, show Config.memoryBytes = 16777216 from rfl]
  exact and_congr_right fun _ => and_congr_left fun _ => by omega

theorem checkWindows_iff {base : Nat} {h : Header} :
    let shares := fun a la b lb : Nat => ∃ x, a ≤ x ∧ x < a + la ∧ b ≤ x ∧ x < b + lb
    let orders := 16 * h.orderSize
    let reports := 64 * h.reportSize
    checkWindows base h = true ↔ h.orderBase % 16 = 0 ∧ h.reportBase % 32 = 0 ∧ h.orderBase + orders ≤ 0x1000000 ∧
      h.reportBase + reports ≤ 0x1000000 ∧ ¬ shares base 1536 h.orderBase orders ∧
      ¬ shares base 1536 h.reportBase reports ∧ ¬ shares base 1536 h.statusBase 256 ∧
      ¬ shares h.orderBase orders h.reportBase reports ∧ ¬ shares h.orderBase orders h.statusBase 256 ∧
      ¬ shares h.reportBase reports h.statusBase 256 := by
  intro shares orders reports
  have apart : ∀ a la b lb, ¬ shares a la b lb ↔ overlaps a la b lb = false := fun a la b lb => by
    rw [← Bool.not_eq_true, overlaps_iff]
  simp only [apart, checkWindows, Bool.and_eq_true, beq_iff_eq, decide_eq_true_eq, Bool.not_eq_true', and_assoc,
    show Config.configWindowBytes = 1536 from rfl, show Config.memoryBytes = 16777216 from rfl, orders, reports]

theorem checkRingSize_iff {h : Header} :
    checkRingSize h = true ↔ h.orderSize ∈ [4, 8, 16, 32, 64] ∧
      h.reportSize ∈ [8, 16, 32, 64, 128, 256, 512, 1024] := by
  rw [checkRingSize, Bool.and_eq_true, List.contains_iff_mem, List.contains_iff_mem]

theorem checkLanes_iff {h : Header} :
    checkLanes h = true ↔ h.laneMask ≠ 0 ∧ h.laneMask.toNat < 16 ∧
      ∃ n : Lane, n.val = h.leadLane ∧ h.active n = true := by
  simp only [checkLanes, Bool.and_eq_true, decide_eq_true_eq, and_assoc, Header.active]
  refine and_congr_right fun _ => and_congr_right fun _ => ⟨fun ⟨lt, set⟩ => ⟨⟨h.leadLane, lt⟩, rfl, set⟩, ?_⟩
  rintro ⟨n, lead, set⟩
  rw [← lead]
  exact ⟨n.isLt, set⟩

theorem classesRise_iff {l : List ClassEntry} :
    classesRise l = true ↔ l.Pairwise (fun x y => x.maxWidth < y.maxWidth) ∧ ∀ x ∈ l, 1 ≤ x.unitWidth := by
  induction l with
  | nil => simp [classesRise]
  | cons x t ih =>
    cases t with
    | nil => simp [classesRise]
    | cons y t =>
      rw [classesRise, Bool.and_eq_true, Bool.and_eq_true, decide_eq_true_iff, decide_eq_true_iff, ih,
        List.pairwise_cons (a := x), List.forall_mem_cons (a := x)]
      constructor
      · rintro ⟨⟨unit, lt⟩, rise, units⟩
        refine ⟨⟨fun z mem => ?_, rise⟩, unit, units⟩
        rcases List.mem_cons.1 mem with rfl | later
        · exact lt
        · exact lt_trans lt ((List.pairwise_cons.1 rise).1 z later)
      · rintro ⟨⟨below, rise⟩, unit, units⟩
        exact ⟨⟨unit, below y List.mem_cons_self⟩, rise, units⟩

theorem checkClassTable_iff {c : Loaded} :
    checkClassTable c = true ↔ c.classes ≠ [] ∧ c.classes.Pairwise (fun x y => x.maxWidth < y.maxWidth) ∧
      ∀ x ∈ c.classes, 1 ≤ x.unitWidth := by
  rw [checkClassTable, Bool.and_eq_true, classesRise_iff, Bool.not_eq_true', List.isEmpty_eq_false_iff]

theorem validVariant_iff {c : Loaded} {v : Nat} :
    c.validVariant v = true ↔ ∃ e, c.variants[v]? = some e ∧ e.valid = true := by
  unfold Loaded.validVariant
  cases c.variants[v]? with
  | none => simp
  | some e => simp

/-- The policy half of check 8: the code is one of the four, and a policy that uses the policy variant names a valid one. -/
theorem policyCheck_iff (n : Nat) (valid : Bool) :
    (match Policy.ofCode n with
      | some p => !p.usesVariant || valid
      | none => false) = true ↔ n ≤ 3 ∧ (2 ≤ n → valid = true) := by
  match n with
  | 0 | 1 | 2 | 3 => simp [Policy.ofCode, Policy.usesVariant]
  | n + 4 =>
    simp only [Policy.ofCode, Bool.false_eq_true, false_iff, not_and]
    omega

theorem checkVariants_iff {c : Loaded} :
    checkVariants c = true ↔
      (∀ v ∈ c.variants, v.valid = true → v.plate < c.hdr.plates ∧ v.cls < c.classes.length) ∧ c.hdr.policy ≤ 3 ∧
      (2 ≤ c.hdr.policy → ∃ e, c.variants[c.hdr.policyVariant]? = some e ∧ e.valid = true) := by
  have policy := policyCheck_iff c.hdr.policy (c.validVariant c.hdr.policyVariant)
  rw [validVariant_iff] at policy
  rw [checkVariants, Bool.and_eq_true, List.all_eq_true]
  refine and_congr (forall₂_congr fun v _ => ?_) policy
  rw [Bool.or_eq_true, Bool.not_eq_true', Bool.and_eq_true, decide_eq_true_iff, decide_eq_true_iff,
    ← Bool.not_eq_true, imp_iff_not_or]

theorem allLanes_all_iff {p : Lane → Bool} : allLanes.all p = true ↔ ∀ n, p n = true := by
  rw [List.all_eq_true]
  exact ⟨fun all n => all n (mem_allLanes n), fun all n _ => all n⟩

theorem active_imp_iff {a b : Bool} : (!a || b) = true ↔ (a = true → b = true) := by
  rw [Bool.or_eq_true, Bool.not_eq_true', ← Bool.not_eq_true, imp_iff_not_or]

theorem checkSetList_iff {c : Loaded} :
    checkSetList c = true ↔ 1 ≤ c.hdr.setLength ∧ c.hdr.setLength ≤ 16 ∧
      ∀ n, c.hdr.active n = true → ∀ p < c.hdr.setLength, ∃ v, c.hdr.setAt n p = some v ∧
        ∃ e, c.variants[v]? = some e ∧ e.valid = true := by
  rw [checkSetList, Bool.and_eq_true, Bool.and_eq_true, decide_eq_true_iff, decide_eq_true_iff, and_assoc,
    allLanes_all_iff]
  refine and_congr_right fun _ => and_congr_right fun _ => forall_congr' fun n => ?_
  rw [active_imp_iff, List.all_eq_true]
  refine imp_congr_right fun _ => forall_congr' fun p => imp_congr List.mem_range ?_
  cases c.hdr.setAt n p with
  | none => simp
  | some v => simpa using validVariant_iff

theorem below28_iff {w : Word} : below28 w = true ↔ w.toNat < 2 ^ 28 := decide_eq_true_iff

theorem positive28_iff {w : Word} : positive28 w = true ↔ 1 ≤ w.toNat ∧ w.toNat < 2 ^ 28 := by
  rw [positive28, Bool.and_eq_true, decide_eq_true_iff, below28_iff]

theorem distancesInRange_iff {h : Header} :
    let below := fun w : Word => w.toNat < 2 ^ 28
    distancesInRange h = true ↔ 1 ≤ h.nominalPitch.toNat ∧ below h.nominalPitch ∧ 1 ≤ h.minMarkWidth.toNat ∧
      (∀ n, h.active n = true → below (h.sensorToNip.get n)) ∧ below h.nipToReject ∧ 1 ≤ h.rejectWidth.toNat ∧
      below h.rejectWidth ∧ 1 ≤ h.spliceDarkLength.toNat ∧ below h.spliceDarkLength ∧
      below h.spliceMarginBefore ∧ below h.spliceMarginAfter ∧ below h.indexOffset ∧ below h.throwLead ∧
      below h.releaseClearance ∧ below h.foilLead ∧ below h.foilTrail ∧ below h.reverseTolerance := by
  simp only [distancesInRange, Bool.and_eq_true, decide_eq_true_eq, positive28_iff, below28_iff, allLanes_all_iff,
    active_imp_iff, and_assoc]

/-- The least width of an accepted mark lies in the first loaded class. -/
theorem firstClass_iff {l : List ClassEntry} {w : Nat} :
    (match l.head? with
      | some e => decide (w ≤ e.maxWidth)
      | none => false) = true ↔ ∃ e, l[0]? = some e ∧ w ≤ e.maxWidth := by
  cases l with
  | nil => simp
  | cons x t => simp

theorem checkGeometry_iff {c : Loaded} :
    checkGeometry c = true ↔ distancesInRange c.hdr = true ∧
      c.hdr.windowEarly.toNat + c.hdr.windowLate.toNat < c.hdr.nominalPitch.toNat ∧
      (∃ e, c.classes[0]? = some e ∧ c.hdr.minMarkWidth.toNat ≤ e.maxWidth) ∧
      (∀ e ∈ c.classes,
        e.maxWidth + e.unitWidth * (c.hdr.codeLength + 1) + c.hdr.windowEarly.toNat < c.hdr.nominalPitch.toNat) ∧
      2 * c.hdr.skewTolerance.toNat < c.hdr.nominalPitch.toNat ∧ c.hdr.foilLead.toNat ≤ c.hdr.throwLead.toNat ∧
      1 ≤ c.hdr.flywheelLimit ∧ c.hdr.flywheelLimit ≤ 8 := by
  rw [← firstClass_iff]
  simp only [checkGeometry, Bool.and_eq_true, decide_eq_true_eq, List.all_eq_true, and_assoc] <;> rfl

/-- A maximum over the active lanes, begun at `m`, is at most `x` when `m` and every active lane's distance are. -/
theorem foldl_max_le_iff {h : Header} {x : Nat} (l : List Lane) (m : Nat) :
    l.foldl (fun m n => if h.active n then max m (h.sensorToNip.get n).toNat else m) m ≤ x ↔
      m ≤ x ∧ ∀ n ∈ l, h.active n = true → (h.sensorToNip.get n).toNat ≤ x := by
  induction l generalizing m with
  | nil => simp
  | cons n t ih =>
    rw [List.foldl_cons, ih, List.forall_mem_cons, ← and_assoc]
    refine and_congr_left fun _ => ?_
    split
    next active => simp [active, max_le_iff]
    next idle => simp [idle]

theorem largestSensor_le_iff {h : Header} {x : Nat} :
    largestSensor h ≤ x ↔ ∀ n, h.active n = true → (h.sensorToNip.get n).toNat ≤ x := by
  rw [largestSensor, foldl_max_le_iff]
  exact ⟨fun all n => all.2 n (mem_allLanes n), fun all => ⟨Nat.zero_le x, fun n _ => all n⟩⟩

theorem ceilDiv_le_thirty_iff {x d : Nat} (pos : 0 < d) : (x + d - 1) / d + 2 ≤ 32 ↔ x ≤ 30 * d := by
  have lt : (x + d - 1) / d < 31 ↔ x + d - 1 < 31 * d := Nat.div_lt_iff_lt_mul pos
  omega

theorem checkTrackCapacity_iff {h : Header} (pos : 0 < h.nominalPitch.toNat - h.windowEarly.toNat) :
    let gap := h.nominalPitch.toNat - h.windowEarly.toNat
    checkTrackCapacity h = true ↔ h.nipToReject.toNat + h.windowLate.toNat ≤ 30 * gap ∧ ∀ n, h.active n = true →
      (h.sensorToNip.get n).toNat + h.nipToReject.toNat + h.windowLate.toNat ≤ 30 * gap := by
  intro gap
  have each : ∀ y, h.nipToReject.toNat + h.windowLate.toNat ≤ 30 * gap →
      (y ≤ 30 * gap - (h.nipToReject.toNat + h.windowLate.toNat) ↔
        y + h.nipToReject.toNat + h.windowLate.toNat ≤ 30 * gap) := fun y fits => by omega
  rw [checkTrackCapacity, decide_eq_true_iff, ceilDiv_le_thirty_iff pos]
  constructor
  · intro sum
    have fits : h.nipToReject.toNat + h.windowLate.toNat ≤ 30 * gap := by omega
    have largest := (each (largestSensor h) fits).2 sum
    exact ⟨fits, fun n active => (each _ fits).1 (largestSensor_le_iff.1 largest n active)⟩
  · rintro ⟨fits, lanes⟩
    exact (each _ fits).1 (largestSensor_le_iff.2 fun n active => (each _ fits).2 (lanes n active))

/-- A load has one check for each code. -/
theorem passes_iff {base : Nat} {c : Loaded} {code : ErrorCode} {ok : Bool} (mem : (code, ok) ∈ loadChecks base c) :
    (code, true) ∈ loadChecks base c ↔ ok = true := by
  have codes : ((loadChecks base c).map Prod.fst).Nodup :=
    show ([.statusAddress, .windows, .ringSize, .lanes, .classTable, .codeLength, .plates, .variants, .setList,
      .geometry, .trackCapacity, .foilRatio, .trim] : List ErrorCode).Nodup by decide
  constructor
  · exact fun passed => (Prod.ext_iff.1 (List.inj_on_of_nodup_map codes mem passed rfl)).2
  · rintro rfl
    exact mem

theorem seedable_iff {base : Nat} {h : Header} :
    seedable base h = true ↔
      checkStatusAddress base h = true ∧ checkWindows base h = true ∧ checkRingSize h = true := by
  rw [seedable, Bool.and_eq_true, Bool.and_eq_true, and_assoc]

/-- Settles O30, check by check. -/
theorem loadChecks_compare : Obligations.LoadChecks := by
  intro base c h shares passes below orders reports valid gap
  have statusAddress : passes .statusAddress ↔ checkStatusAddress base h = true := passes_iff (by simp [loadChecks, h])
  have windows : passes .windows ↔ checkWindows base h = true := passes_iff (by simp [loadChecks, h])
  have ringSize : passes .ringSize ↔ checkRingSize h = true := passes_iff (by simp [loadChecks, h])
  have codeLength : passes .codeLength ↔ checkCodeLength h = true := passes_iff (by simp [loadChecks, h])
  have plates : passes .plates ↔ checkPlates h = true := passes_iff (by simp [loadChecks, h])
  have geometry : passes .geometry ↔ checkGeometry c = true := passes_iff (by simp [loadChecks])
  have foilRatio : passes .foilRatio ↔ checkFoilRatio h = true := passes_iff (by simp [loadChecks, h])
  have trim : passes .trim ↔ checkTrim h = true := passes_iff (by simp [loadChecks, h])
  refine ⟨rfl, seedable_iff.trans (and_congr statusAddress (and_congr windows ringSize)).symm,
    statusAddress.trans checkStatusAddress_iff, windows.trans checkWindows_iff, ringSize.trans checkRingSize_iff,
    (passes_iff (by simp [loadChecks, h])).trans checkLanes_iff,
    (passes_iff (by simp [loadChecks])).trans checkClassTable_iff, codeLength.trans ?codeLength,
    plates.trans ?plates, (passes_iff (by simp [loadChecks])).trans checkVariants_iff,
    (passes_iff (by simp [loadChecks])).trans checkSetList_iff,
    geometry.trans (checkGeometry_iff.trans (and_congr_left fun _ => distancesInRange_iff)),
    fun pos => (passes_iff (by simp [loadChecks, h])).trans (checkTrackCapacity_iff pos), foilRatio.trans ?foilRatio,
    trim.trans ?trim⟩
  case codeLength => rw [checkCodeLength, Bool.and_eq_true, decide_eq_true_iff, decide_eq_true_iff]
  case plates => rw [checkPlates, Bool.and_eq_true, decide_eq_true_iff, decide_eq_true_iff]
  case foilRatio => rw [checkFoilRatio, Bool.and_eq_true, decide_eq_true_iff, decide_eq_true_iff]
  case trim => simp only [checkTrim, Bool.and_eq_true, decide_eq_true_iff, and_assoc]

end Sys2Proof.Machine

/-! SUPPORT. The reads of a load, how a load ends, and own accesses that end in an error (R22 to R31, R13). -/

namespace Sys2Proof.Machine

/-! ## Seeding -/

theorem filter_lt_map_add (first size n : Nat) :
    ((List.range n).map (first + ·)).filter (· < size) = (List.range (min n (size - first))).map (first + ·) := by
  induction n with
  | zero => rw [Nat.zero_min]; rfl
  | succ n ih =>
    rw [List.range_succ, List.map_append, List.filter_append, ih]
    by_cases below : first + n < size
    · rw [show min (n + 1) (size - first) = min n (size - first) + 1 by omega, List.range_succ,
        show min n (size - first) = n by omega]
      simp [below]
    · rw [show min (n + 1) (size - first) = min n (size - first) by omega]
      simp [below]

theorem seedEntries_getElem? (first size i e : Nat) :
    (seedEntries first size)[i]? = some e ↔ i < 8 ∧ first + i < size ∧ e = first + i := by
  rw [seedEntries, filter_lt_map_add, List.getElem?_map, Option.map_eq_some_iff]
  constructor
  · rintro ⟨j, found, rfl⟩
    obtain ⟨lt, rfl⟩ := List.getElem?_eq_some_iff.1 found
    rw [List.length_range] at lt
    rw [List.getElem_range]
    omega
  · rintro ⟨small, below, rfl⟩
    exact ⟨i, List.getElem?_range (by omega), rfl⟩

/-- A seeding read records the entries of its words whose byte 0 has the value. -/
theorem mem_seedMarks {value x : Nat} {entries : List Nat} {ws : List Word} {marks : List Nat} :
    x ∈ seedMarks value entries ws marks ↔ x ∈ marks ∨
      ∃ (i : Nat) (w : Word), entries[i]? = some x ∧ ws[i]? = some w ∧ (byteOf w 0).toNat = value := by
  induction entries generalizing ws marks with
  | nil => simp [seedMarks]
  | cons e es ih =>
    cases ws with
    | nil => simp [seedMarks]
    | cons w t =>
      have head : x ∈ (if (byteOf w 0).toNat = value then insertIndex e marks else marks) ↔
          x ∈ marks ∨ (e = x ∧ (byteOf w 0).toNat = value) := by
        split
        next same => rw [mem_insertIndex]; simp [same, or_comm, eq_comm]
        next differs => simp [differs]
      rw [seedMarks, ih, head, or_assoc]
      refine or_congr_right ⟨?_, ?_⟩
      · rintro (⟨rfl, same⟩ | ⟨i, v, entry, word, same⟩)
        · exact ⟨0, w, rfl, rfl, same⟩
        · exact ⟨i + 1, v, entry, word, same⟩
      · rintro ⟨i, v, entry, word, same⟩
        cases i with
        | zero =>
          obtain rfl := Option.some.inj word
          exact .inl ⟨Option.some.inj entry, same⟩
        | succ i => exact .inr ⟨i, v, entry, word, same⟩

/-- The entries from `first` on that a seeding read of `ws` records: those whose byte 0 has the value. -/
def Recorded (ws : List Word) (first value size x : Nat) : Prop :=
  ∃ (i : Nat) (w : Word), i < 8 ∧ first + i < size ∧ ws[i]? = some w ∧ (byteOf w 0).toNat = value ∧ x = first + i

theorem mem_seeded {value x first size : Nat} {ws : List Word} {marks : List Nat} :
    x ∈ seedMarks value (seedEntries first size) ws marks ↔ x ∈ marks ∨ Recorded ws first value size x := by
  rw [mem_seedMarks]
  refine or_congr_right (exists_congr fun i => exists_congr fun w => ?_)
  rw [seedEntries_getElem?]
  exact ⟨fun ⟨⟨small, below, same⟩, word, byte⟩ => ⟨small, below, word, byte, same⟩,
    fun ⟨small, below, word, byte, same⟩ => ⟨⟨small, below, same⟩, word, byte⟩⟩

/-! ## How a load ends -/

theorem firstFailure_of_failed {pre post : List (ErrorCode × Bool)} {code : ErrorCode} (passed : ∀ p ∈ pre, p.2 = true) :
    firstFailure (pre ++ (code, false) :: post) = some code := by
  induction pre with
  | nil => rfl
  | cons p t ih =>
    obtain ⟨head, rest⟩ := List.forall_mem_cons.1 passed
    rw [List.cons_append, firstFailure, if_pos head, ih rest]

theorem firstFailure_of_passed {l : List (ErrorCode × Bool)} (passed : ∀ p ∈ l, p.2 = true) : firstFailure l = none := by
  induction l with
  | nil => rfl
  | cons p t ih =>
    obtain ⟨head, rest⟩ := List.forall_mem_cons.1 passed
    rw [firstFailure, if_pos head, ih rest]

theorem runChecks_of_edited {s : State} (edited : s.loader.edited = true) : runChecks s = failLoad .edited s := by
  rw [runChecks, if_pos edited]

section
variable {s : State} {ws : List Word} (edited : s.loader.edited = false) (header : s.loader.header = some ws)
include edited header

theorem runChecks_of_failure {code : ErrorCode}
    (failure : firstFailure (loadChecks s.configBase (readCopy ws s.loader.tables)) = some code) :
    runChecks s = failLoad code s := by
  simp only [runChecks, edited, Bool.false_eq_true, if_false, header, failure]

theorem runChecks_of_passed (passed : ∀ p ∈ loadChecks s.configBase (readCopy ws s.loader.tables), p.2 = true) :
    runChecks s = loadSucceeds (readCopy ws s.loader.tables) s := by
  simp only [runChecks, edited, Bool.false_eq_true, if_false, header, firstFailure_of_passed passed]

end

/-- The code of a load whose header does not pass checks 1 to 3. -/
def unseedableCode (edited : Bool) (base : Nat) (h : Header) : ErrorCode :=
  if edited then .edited
  else if checkStatusAddress base h = false then .statusAddress
  else if checkWindows base h = false then .windows else .ringSize

theorem runChecks_of_unseedable {s : State} {ws : List Word} (header : s.loader.header = some ws)
    (unseedable : seedable s.configBase (readHeader ws) = false) :
    runChecks s = failLoad (unseedableCode s.loader.edited s.configBase (readHeader ws)) s := by
  cases edited : s.loader.edited with
  | true => exact runChecks_of_edited edited
  | false =>
    refine runChecks_of_failure edited header ?_
    change firstFailure ((_, checkStatusAddress s.configBase (readHeader ws)) ::
      (_, checkWindows s.configBase (readHeader ws)) :: (_, checkRingSize (readHeader ws)) :: _) = _
    rw [seedable] at unseedable
    rw [unseedableCode, firstFailure]
    cases address : checkStatusAddress s.configBase (readHeader ws) with
    | false => rfl
    | true =>
      rw [firstFailure]
      cases windows : checkWindows s.configBase (readHeader ws) with
      | false => rfl
      | true =>
        rw [address, windows, Bool.and_self, Bool.true_and] at unseedable
        rw [firstFailure, unseedable]
        rfl

theorem failLoad_eq (code : ErrorCode) (s : State) : failLoad code s = { s with
    station := { s.station with mode := .unconfigured, cause := .loadFailed }
    loader := { s.loader with
      phase := .idle, header := none, tables := [], loaded := none, confirmed := false, error := code, bounds := none }
    orders := { s.orders with
      tapQueue := [], tapLosses := s.orders.tapLosses + BitVec.ofNat 32 s.orders.tapQueue.length
      handed := [], takeIndex := 0 }
    track := { s.track with rows := [], splices := [], resumes := [], rejectEnd := PerLane.const none }
    imp := { s.imp with
      throw := if s.throwOn then (if s.pins.throwOk then .releasing else .off) else s.imp.throw
      horizon := none, release := none, nips := [], slotCounter := 0, slotSync := false, lastIndex := none }
    foil := s.foil.map Foil.cleared
    lanes := PerLane.const Tracker.reset
    readers := PerLane.const Reader.reset
    rep := { s.rep with
      released := [], fillIndex := 0, post := [], gap := 0, dirty := true
      latched := s.rep.latched ||| Cause.config.mask, statusAt := failedStatusBase s } } := rfl

/-- A cause is latched for each of two conditions, or once for either. -/
theorem or_ite_or (x m : BitVec 12) (a b : Bool) :
    ((x ||| if a then m else 0) ||| if b then m else 0) = x ||| if a || b then m else 0 := by
  cases a <;> cases b <;> simp [BitVec.or_assoc]

theorem exists_lane_iff {p : Lane → Bool} : (p 0 || p 1 || p 2 || p 3) = true ↔ ∃ n, p n = true := by
  simp only [Bool.or_eq_true, or_assoc]
  constructor
  · rintro (h | h | h | h)
    exacts [⟨_, h⟩, ⟨_, h⟩, ⟨_, h⟩, ⟨_, h⟩]
  · rintro ⟨n, h⟩
    match n, h with
    | 0, h => exact .inl h
    | 1, h => exact .inr (.inl h)
    | 2, h => exact .inr (.inr (.inl h))
    | 3, h => exact .inr (.inr (.inr h))

theorem forLanes_foilAtLoad (s : State) :
    let broken := fun n => s.laneActive n && s.pins.foilbrk.get n
    forLanes foilAtLoad s = { s with
      foil := s.foil.mapLane fun n f => { f.cleared with brk := f.brk || broken n }
      rep := { s.rep with latched := s.rep.latched ||| if ∃ n, broken n = true then Cause.foil.mask else 0 } } := by
  intro broken
  have active : ∀ (f : PerLane Foil) (r : ReportUnit) (n : Lane),
      ({ s with foil := f, rep := r } : State).laneActive n = s.laneActive n := fun _ _ _ => rfl
  simp only [← exists_lane_iff, ← or_ite_or]
  unfold forLanes
  simp only [foilAtLoad_eq, active]
  rfl

/-- The load succeeds: every block in one expression. -/
theorem loadSucceeds_eq (c : Loaded) (s : State) :
    let broken := fun n => c.hdr.active n && s.pins.foilbrk.get n
    loadSucceeds c s = { s with
      station := { s.station with mode := .held, cause := .loaded }
      loader := { s.loader with
        phase := .idle, edited := false, header := none, tables := [], loaded := some c, confirmed := true
        error := .none }
      bus := { s.bus with guardDrops := 0 }
      orders := { OrderUnit.reset with handed := s.orders.handed, tapQueue := s.orders.tapQueue }
      track := Track.reset
      imp := { s.imp with
        throw := if s.throwOn then (if s.pins.throwOk then .releasing else .off) else s.imp.throw
        horizon := none, release := none, nips := [], slotCounter := 0, slotSync := false
        lastIndex := none, trim := 0, trimStopped := false, lastError := none }
      survey := Survey.reset
      cnt := Counters.reset
      lanes := s.lanes.mapLane fun n _ => if c.hdr.active n then { Tracker.reset with state := .idle } else Tracker.reset
      readers := PerLane.const Reader.reset
      foil := s.foil.mapLane fun n f => { f.cleared with brk := f.brk || broken n }
      rep := { s.rep with
        fillIndex := 0, fill := none, post := [], gap := 0
        policy := (Policy.ofCode c.hdr.policy).getD .all, policyVariant := c.hdr.policyVariant
        followOpen := false, mask := c.hdr.attentionMask, dirty := true
        offers := s.rep.offers ++ [(.station, .mode s.station.mode .held .loaded s.web.pos)]
        latched := (s.rep.latched &&& ~~~Cause.config.mask) |||
          if ∃ n, broken n = true then Cause.foil.mask else 0 } } := by
  intro broken
  unfold loadSucceeds
  rw [forLanes_foilAtLoad]
  rfl

/-- What clearing CONFIG and latching FOIL leave of a cause. -/
theorem latched_at_load (x f : BitVec 12) (k : Cause) (foil : f = Cause.foil.mask ∨ f = 0) :
    (k = .config → (x &&& ~~~Cause.config.mask ||| f) &&& k.mask = 0) ∧
    (k ≠ .config → k ≠ .foil → (x &&& ~~~Cause.config.mask ||| f) &&& k.mask = x &&& k.mask) := by
  have apart : k ≠ .foil → f &&& k.mask = 0 := by
    rcases foil with rfl | rfl
    · revert k
      intro k
      cases k <;> decide
    · exact fun _ => BitVec.zero_and
  have split : (x &&& ~~~Cause.config.mask ||| f) &&& k.mask =
      (x &&& (~~~Cause.config.mask &&& k.mask)) ||| (f &&& k.mask) := by
    ext i
    simp [Bool.and_or_distrib_right, Bool.and_assoc]
  rw [split]
  constructor
  · rintro rfl
    rw [apart (by decide), show ~~~Cause.config.mask &&& Cause.config.mask = 0 by decide]
    simp
  · intro notConfig notFoil
    have same : ~~~Cause.config.mask &&& k.mask = k.mask := by
      revert notConfig
      cases k <;> decide
    rw [apart notFoil, same]
    simp

/-- Settles O31. -/
theorem loadOutcome : Obligations.LoadOutcome := by
  intro s ws header c checks released emptied
  refine ⟨runChecks_of_edited, fun code pre post clean split passed => ?fails,
    fun clean passed => runChecks_of_passed clean header passed, fun code => ?failed, ?succeeded⟩
  case fails =>
    refine runChecks_of_failure clean header ?_
    change firstFailure checks = _
    rw [split, firstFailure_of_failed passed]
  case failed =>
    have status : failedStatusBase s =
        if checkStatusAddress s.configBase c.hdr then some c.hdr.statusBase else none := by
      rw [failedStatusBase, header] <;> rfl
    refine ⟨_, failLoad_eq code s, rfl, rfl, rfl, rfl, rfl, rfl, rfl, rfl, rfl, rfl, rfl, rfl, rfl, rfl, rfl, rfl, rfl,
      rfl, rfl, fun n => ⟨PerLane.get_const _ n, PerLane.get_const _ n⟩, rfl, rfl, status, rfl, rfl, rfl, rfl, rfl, rfl,
      rfl, fun n => PerLane.get_map _ _ n⟩
  case succeeded =>
    simp only [← Bool.and_eq_true]
    have foil : (if ∃ n, (c.hdr.active n && s.pins.foilbrk.get n) = true then Cause.foil.mask else 0) = Cause.foil.mask ∨
        (if ∃ n, (c.hdr.active n && s.pins.foilbrk.get n) = true then Cause.foil.mask else 0) = 0 :=
      ite_eq_or_eq ..
    exact ⟨_, loadSucceeds_eq c s, rfl, rfl, rfl, rfl, rfl, rfl, rfl, rfl, rfl, rfl, rfl, rfl, rfl, rfl, rfl, rfl,
      (latched_at_load _ _ .config foil).1 rfl, fun k => (latched_at_load _ _ k foil).2, rfl, rfl, rfl, rfl,
      fun n => PerLane.get_mapLane _ _ n, fun n => PerLane.get_const _ n, fun n => PerLane.get_mapLane _ _ n, rfl, rfl,
      rfl, rfl⟩

end Sys2Proof.Machine

/-! SUPPORT. What the producers of own accesses do when one completes or ends in an error (R13, R22 to R28). -/

namespace Sys2Proof.Machine

theorem loaderWords_of_issued {s : State} {o : OwnAccess} (issued : issuedOwn s = some o)
    (loader : o.purpose.ofLoader = true) (kept : s.loader.discard = false) :
    loaderWords s = some (o, ownReadWords s.mem o) := by
  simp [loaderWords, issued, loader, kept]

section
variable {s : State} {o : OwnAccess} (issued : issuedOwn s = some o) (kept : s.loader.discard = false)
include issued kept

theorem headerDone_of_issued (purpose : o.purpose = .header) :
    headerDone s = headerRead (ownReadWords s.mem o) (completeOwn o s) := by
  simp only [headerDone, loaderWords_of_issued issued (by rw [purpose]; rfl) kept, purpose, if_true]

theorem tableDone_of_issued {k : Nat} (purpose : o.purpose = .table k) :
    tableDone s = tableRead k (ownReadWords s.mem o) (completeOwn o s) := by
  simp only [tableDone, loaderWords_of_issued issued (by rw [purpose]; rfl) kept, purpose]

theorem seedingDone_of_issued (seeding : o.purpose.isSeeding = true) (loader : o.purpose.ofLoader = true) :
    seedingDone s = serveWaiting (seedingRead o.purpose (ownReadWords s.mem o) (completeOwn o s)) := by
  simp only [seedingDone, loaderWords_of_issued issued loader kept, seeding, if_true]

end

theorem tableRead_of_last {s : State} {ws hw : List Word} {b : Bounds} (header : s.loader.header = some hw)
    (bounds : s.loader.bounds = some b) :
    let t := { s with loader := { s.loader with tables := s.loader.tables ++ ws } }
    tableRead 4 ws s = if seedable s.configBase (readHeader hw) then
      placeSeedOrder b 0 { t with loader := { t.loader with phase := .seeding } }
    else runChecks { t with loader := { t.loader with phase := .checking } } := by
  intro t
  rw [tableRead, if_neg (Nat.lt_irrefl 4)]
  simp only [t, header, bounds] <;> rfl

theorem serveWaiting_of_loading {s : State} (loading : s.station.mode = .loading) : serveWaiting s = s :=
  serveWaiting_of_idle (.inl (by simp [unitFree, loading, Mode.configured]))

/-- Settles O28. -/
theorem loadReads : Obligations.LoadReads := by
  refine ⟨?reads, ?seeding⟩
  case reads =>
    intro s o issued ws h v queued
    obtain ⟨m, b, shape⟩ := completeOwn_shape o s
    refine ⟨fun purpose kept => ?header, fun k lt purpose kept => ?table, fun hw bd purpose kept header bounds seeds => ?seeds,
      fun hw bd purpose kept header bounds fails => ?unseedable, fun loader discarded => ?discarded⟩
    case header =>
      change Host.Outcome.next (finish s (headerDone s)) = _
      rw [headerDone_of_issued issued kept purpose]
      simp only [queued, v, shape]
      rfl
    case table =>
      change Host.Outcome.next (finish s (tableDone s)) = _
      rw [tableDone_of_issued issued kept purpose, tableRead, if_pos lt]
      simp only [queued, v, shape]
      rfl
    case seeds =>
      change Host.Outcome.next (finish s (tableDone s)) = _
      simp only [v]
      rw [tableDone_of_issued issued kept purpose, shape, tableRead_of_last (by exact header) (by exact bounds),
        if_pos (by exact seeds)]
      rfl
    case unseedable =>
      refine ⟨unseedableCode s.loader.edited s.configBase (readHeader hw), ?_, rfl⟩
      change Host.Outcome.next (finish s (tableDone s)) = _
      simp only [v]
      rw [tableDone_of_issued issued kept purpose, shape, tableRead_of_last (by exact header) (by exact bounds),
        if_neg (Bool.not_eq_true _ ▸ by exact fails),
        runChecks_of_unseedable (by exact header) (by exact fails)]
      rfl
    case discarded =>
      change Host.Outcome.next (finish s (discardedDone s)) = _
      simp only [discardedDone, issued, loader, discarded, Bool.and_self, if_true, queued, v, shape]
      rfl
  case seeding =>
    intro lv s o b first issued kept bounds loading phase ws v recorded read
    obtain ⟨m, bus, shape⟩ := completeOwn_shape o (sense lv s)
    refine ⟨fun purpose => ⟨seedMarks 1 (seedEntries first b.orderSize) ws s.orders.handed, fun x => mem_seeded, ?_⟩,
      fun purpose => ⟨seedMarks 0 (seedEntries first b.reportSize) ws s.rep.released, fun x => mem_seeded, fun more => ?_,
        fun last => ?_⟩⟩
    all_goals
      change Host.Outcome.next (finish s (seedingDone (sense lv s))) = _
      rw [seedingDone_of_issued (by exact issued) (by exact kept) (by rw [purpose]; rfl) (by rw [purpose]; rfl), purpose]
      simp only [read, v, shape]
    · rw [show seedingRead (.seedOrder first) _ { sense lv s with mem := m, bus := bus } = seedOrderRead b first _ _ by
        simp only [seedingRead]; rw [show (sense lv s).loader.bounds = some b from bounds], seedOrderRead]
      split
      all_goals
        rw [serveWaiting_of_loading (by exact loading)]
        rfl
    · rw [show seedingRead (.seedReport first) _ { sense lv s with mem := m, bus := bus } = seedReportRead b first _ _ by
        simp only [seedingRead]; rw [show (sense lv s).loader.bounds = some b from bounds], seedReportRead, if_pos more,
        serveWaiting_of_loading (by exact loading)]
      rfl
    · rw [show seedingRead (.seedReport first) _ { sense lv s with mem := m, bus := bus } = seedReportRead b first _ _ by
        simp only [seedingRead]; rw [show (sense lv s).loader.bounds = some b from bounds], seedReportRead,
        if_neg (Nat.not_lt.2 last)]
      rfl

/-! ## Errors -/

theorem producerError_of_loader {p : Purpose} (loader : p.ofLoader = true) (s : State) :
    producerError p s = loaderError s := by
  cases p with
  | header | table | seedOrder | seedReport => rfl
  | entryRead | resultWrite | fill | statusWrite => exact absurd loader Bool.false_ne_true

theorem fillError_of_filling {s : State} {f : FillInProgress} (filling : s.rep.fill = some f) :
    fillError s = { s with rep := { s.rep with gap := min 4294967295 (s.rep.gap + f.report.lossOf), fill := none } } := by
  rw [fillError, filling]
  rfl

theorem endOwn_shape (o : OwnAccess) (k : Nat) (s : State) : ∃ m b, endOwn o k s = { s with mem := m, bus := b } :=
  ⟨_, _, endOwn_eq o k s⟩

/-- Settles O32, producer by producer. -/
theorem ownAccessErrors : Obligations.OwnAccessErrors := by
  intro lv s o k issued lt v w answers
  obtain ⟨m, b, shape⟩ := endOwn_shape o k (sense lv s)
  have reach : ∀ u, producerError o.purpose w = u → answers u := by
    rintro u rfl
    change Host.Outcome.next (finish s (ownError k (sense lv s))) = _
    rw [ownError, show issuedOwn (sense lv s) = some o from issued]
    dsimp only
    rw [if_pos lt]
    simp only [w, v, shape]
    rfl
  refine ⟨fun loader kept => reach _ ?failed, fun loader discarded => reach _ ?discarded,
    fun t purpose taken => reach _ ?entryRead, fun t purpose taken => reach _ ?resultWrite,
    fun e f purpose filling => reach _ ?fill, fun purpose => reach _ ?statusWrite⟩
  all_goals simp only [w, v, shape]
  case failed => rw [producerError_of_loader loader, loaderError, if_neg (Bool.not_eq_true _ ▸ by exact kept)]
  case discarded =>
    rw [producerError_of_loader loader, loaderError, if_pos (by exact discarded)]
    rfl
  case entryRead =>
    rw [purpose]
    show takeError _ = _
    rw [takeError, show (sense lv s).orders.inProgress = some t from taken]
    rfl
  case resultWrite =>
    rw [purpose]
    show serveWaiting (endTake _) = _
    rw [endTake, show (sense lv s).orders.inProgress = some t from taken]
    rfl
  case fill =>
    rw [purpose]
    show fillError _ = _
    rw [fillError_of_filling (f := f) (by exact filling)]
    cases f.report <;> rfl
  case statusWrite =>
    rw [purpose]
    rfl

end Sys2Proof.Machine

/-! SUPPORT. The orders (03): what a source that presents one makes of the state, and WATCH, RUN and the standing orders. -/

namespace Sys2Proof.Machine

/-- An order row whose order is judged to a result shows that result. -/
theorem exec_command_of_apply {k : OrderKind} {lv : Levels} {src : OrderSource} {s : State} {o : Order} {g : Origin}
    {c : Loaded} {r : OrderResult} (presents : Presents k.code src (sense lv s) o g) (loaded : s.loader.loaded = some c)
    (accepted : k.acceptedIn s.station.mode = true) (applied : k.apply c o g (judgedAt src (sense lv s)) = r) :
    exec (k.command lv src) s = .next (finish s (shown k.code src r)) := by
  rw [accepted_row presents loaded accepted, applied]

theorem judgeOrder_of_refused_mode {k : OrderKind} {o : Order} {s : State} (kind : o.kind = k.code)
    (refused : k.acceptedIn s.station.mode = false) (g : Origin) : judgeOrder o g s = ⟨.refusedMode, 0, s⟩ := by
  simp only [judgeOrder, kind, OrderKind.ofCode_code, refused, Bool.false_eq_true, if_false, refuse]

theorem judgedAt_mode (src : OrderSource) (lv : Levels) (s : State) :
    (judgedAt src (sense lv s)).station.mode = s.station.mode := by
  obtain ⟨m, b, n, shape⟩ := judgedAt_shape src (sense lv s)
  rw [shape]
  rfl

theorem takeBegin_of_free {s : State} {b : Bounds} (free : unitFree s = true) (none : s.orders.tapQueue = [])
    (handed : s.orders.takeIndex ∈ s.orders.handed) (bounds : s.loader.bounds = some b) :
    let addr := b.orderBase + 16 * s.orders.takeIndex
    takeBegin s = place .entryRead false (entryBurst addr) { s with orders := { s.orders with
      inProgress := some ⟨s.orders.takeIndex, addr, s.loader.gen, false⟩ } } := by
  have take : canTake s = true := by
    rw [canTake, free, none, List.contains_iff_mem.2 handed]
    rfl
  simp only [takeBegin, take, if_true, bounds]

theorem configured_of_mem {m : Mode} (listed : m ∈ [.held, .watch, .run, .safe]) : m.configured = true := by
  revert listed
  cases m <;> decide

/-- Settles O33: the take, the three refusals, and the table of modes. -/
theorem orderTakeAndJudgement : Obligations.OrderTakeAndJudgement := by
  refine ⟨fun s b mode idle free empty handed bounds => ?take, fun lv src s o g kind presents => ⟨fun unknown => ?kind,
    fun k code refused => ?mode, fun entry => ?entry⟩, fun k => ⟨OrderKind.ofCode_code k, fun m => ?table⟩⟩
  case take =>
    change Host.Outcome.next (finish s (takeBegin s)) = _
    rw [takeBegin_of_free ((unitFree_iff s).2 ⟨configured_of_mem mode, idle, free⟩) empty handed bounds]
    rfl
  case kind =>
    have noKind := OrderKind.ofCode_eq_none unknown
    rw [exec_unknownOrderKind, orderRow_presents presents (by rw [noKind, beq_self_eq_true]; rfl),
      judgeOrder_of_unknown_kind (by rw [presents.kind_eq]; exact noKind)]
  case mode =>
    subst code
    rw [exec_command, knownRow, orderRow_presents presents (by rw [beq_self_eq_true]),
      judgeOrder_of_refused_mode presents.kind_eq (by rw [judgedAt_mode]; exact refused)]
  case entry =>
    subst entry
    change Host.Outcome.next (finish s (orderRow kind (fun _ => true) .entry (sense lv s))) = _
    rw [orderRow_presents presents rfl]
  case table => cases k <;> cases m <;> rfl

/-! ## WATCH and RUN -/

theorem lanesToHunt_eq {s : State} {c : Loaded} (loaded : s.loader.loaded = some c) :
    lanesToHunt s = { s with
      lanes := s.lanes.mapLane fun n t =>
        if c.hdr.active n then { t with state := .hunt, quality := 0, misses := 0, skip := 0 } else t } := by
  simp only [lanesToHunt, State.laneActive, loaded, Tracker.hunt]

theorem readersSeek_eq {s : State} {c : Loaded} (loaded : s.loader.loaded = some c) :
    readersSeek s = { s with
      readers := s.readers.mapLane fun n r =>
        if c.hdr.active n then { Reader.reset with state := .seek } else r } := by
  simp only [readersSeek, State.laneActive, loaded]

theorem watchFromHeld_eq {s : State} {c : Loaded} (loaded : s.loader.loaded = some c) : watchFromHeld s = { s with
    station := { s.station with mode := .watch, cause := .watchOrder }
    rep := { s.rep with
      dirty := true
      offers := s.rep.offers ++ [(.station, .mode s.station.mode .watch .watchOrder s.web.pos)] }
    lanes := s.lanes.mapLane fun n t =>
      if c.hdr.active n then { t with state := .hunt, quality := 0, misses := 0, skip := 0 } else t
    readers := s.readers.mapLane fun n r => if c.hdr.active n then { Reader.reset with state := .seek } else r
    track := { s.track with rows := [], splices := [], resumes := [], serial := 0 }
    imp := { s.imp with trim := 0, trimStopped := false, slotSync := false, slotCounter := 0 }
    web := { pos := s.web.pos, high := s.web.pos, behind := false } } := by
  unfold watchFromHeld
  rw [lanesToHunt_eq (by exact loaded), readersSeek_eq (by exact loaded)]
  rfl

theorem watchFromSafe_eq {s : State} {c : Loaded} (loaded : s.loader.loaded = some c) : watchFromSafe s = { s with
    station := { s.station with mode := .watch, cause := .watchOrder, windDown := false, countTarget := none }
    lanes := s.lanes.mapLane fun n t =>
      if c.hdr.active n then { t with state := .hunt, quality := 0, misses := 0, skip := 0 } else t
    orders := { s.orders with slots := { s.orders.slots with stampOff := none, countTarget := none } }
    rep := { s.rep with
      dirty := true
      offers := s.rep.offers ++ [(.station, .mode s.station.mode .watch .watchOrder s.web.pos)] ++
        (match s.orders.slots.stampOff with
          | some x => [(.orderUnit, .orderDone .stampOff x .cancelled)]
          | none => []) ++
        (match s.orders.slots.countTarget with
          | some x => [(.orderUnit, .orderDone .countTarget x .cancelled)]
          | none => [])
      latched := s.rep.latched ||| (if s.orders.slots.stampOff.isSome || s.orders.slots.countTarget.isSome
        then Cause.order.mask else 0) } } := by
  unfold watchFromSafe removeTarget
  rw [← or_ite_or, lanesToHunt_eq (by exact loaded), completeStanding_eq, completeStanding_eq]
  rfl

theorem someLocked_iff {c : Loaded} {s : State} :
    someLocked c s = true ↔ ∃ n, c.hdr.active n = true ∧ (s.lane n).state = .locked := by
  rw [someLocked, List.any_eq_true]
  simp only [Bool.and_eq_true, beq_iff_eq]
  exact exists_congr fun n => ⟨fun ⟨_, both⟩ => both, fun both => ⟨mem_allLanes n, both⟩⟩

/-- Settles O34. -/
theorem watchAndRunOrders : Obligations.WatchAndRunOrders := by
  intro lv src s o g c loaded j entered hunting
  obtain ⟨m, b, taps, shape⟩ := judgedAt_shape src (sense lv s)
  have jLoaded : j.loader.loaded = some c := by
    simp only [j, shape]
    exact loaded
  have jMode : j.station.mode = s.station.mode := judgedAt_mode src lv s
  refine ⟨fun presents held => ?watchHeld, fun presents safe => ?watchSafe, fun presents watch => ?run⟩
  case watchHeld =>
    refine exec_command_of_apply (k := .watch) presents loaded (by rw [held]; rfl) ?_
    change orderWatch j = _
    rw [orderWatch, if_pos (jMode.trans held), watchFromHeld_eq jLoaded, jMode, held]
    simp only [j, entered, hunting, shape, held]
    rfl
  case watchSafe =>
    refine ⟨watchFromSafe j, exec_command_of_apply (k := .watch) presents loaded (by rw [safe]; rfl) ?_, ?_⟩
    · change orderWatch j = _
      rw [orderWatch, if_neg (by rw [jMode, safe]; decide), jMode, safe]
      rfl
    · rw [watchFromSafe_eq jLoaded]
      refine ⟨?_, ?_, ?_, ?_, ?_⟩
      all_goals simp only [j, entered, hunting, shape] <;> rfl
  case run =>
    intro heat locked surveying refusedWith
    have accepted : OrderKind.run.acceptedIn s.station.mode = true := by rw [watch]; rfl
    have answers : ∀ r, orderRun c j = r → exec (.run lv src) s = .next (finish s (shown 2 src r)) :=
      fun r applied => exec_command_of_apply (k := .run) presents loaded accepted applied
    have jHeat : j.pins.heatRdy = heat := by simp only [j, shape]; rfl
    have jLocked : someLocked c j = true ↔ locked := by
      rw [someLocked_iff]
      simp only [j, shape]
      rfl
    have jSurvey : (j.survey.running || j.orders.slots.survey.isSome) = true ↔ surveying := by
      rw [Bool.or_eq_true]
      simp only [j, shape]
      rfl
    refine ⟨fun cold => answers _ ?_, fun hot none => answers _ ?_, fun hot some busy => answers _ ?_,
      fun hot some free => answers _ ?_⟩
    · rw [orderRun, jHeat, cold]
      rfl
    · rw [orderRun, jHeat, hot, Bool.eq_false_iff.2 fun yes => none (jLocked.1 yes)]
      rfl
    · rw [orderRun, jHeat, hot, jLocked.2 some, if_pos (jSurvey.2 busy)]
      rfl
    · rw [orderRun, jHeat, hot, jLocked.2 some, if_neg fun yes => free (jSurvey.1 yes)]
      simp only [j, entered, shape]
      rfl

end Sys2Proof.Machine

/-! SUPPORT. The standing orders, the end of a wind-down, and HOLD (R37, R38, R48, R51, R52, R58, R59). -/

namespace Sys2Proof.Machine

theorem or_no_cause (x : BitVec 12) : x ||| 0 = x := BitVec.or_zero

theorem Foil.activePull_eq_false_iff (f : Foil) : f.activePull = false ↔ ∀ r ∈ f.records, r.served = false := by
  rw [Foil.activePull, List.any_eq_false]
  simp only [Bool.not_eq_true]

theorem windDownDone_iff (s : State) : windDownDone s = true ↔
    s.station.mode = .run ∧ s.station.windDown = true ∧ s.imp.throw = .off ∧
      ∀ n, ∀ r ∈ (s.drive n).records, r.served = false := by
  rw [windDownDone, Bool.and_eq_true, Bool.and_eq_true, Bool.and_eq_true, beq_iff_eq, beq_iff_eq, and_assoc, and_assoc,
    noActivePull, allLanes_all_iff]
  refine and_congr_right fun _ => and_congr_right fun _ => and_congr_right fun _ => forall_congr' fun n => ?_
  rw [Bool.not_eq_true', Foil.activePull_eq_false_iff]
  rfl

/-- A wind-down that completes: WATCH, the STAMP_OFF done, and a count target still present cancelled (R37). -/
theorem testWindDown_of_done {s : State} (done : windDownDone s = true) :
    testWindDown s = { s with
      station := { s.station with mode := .watch, cause := .windDown, windDown := false, countTarget := none }
      orders := { s.orders with slots := { s.orders.slots with
        stampOff := none
        countTarget := if s.station.countTarget.isSome then none else s.orders.slots.countTarget } }
      rep := { s.rep with
        dirty := true
        latched := s.rep.latched ||| (if s.orders.slots.stampOff.isSome ||
          (s.station.countTarget.isSome && s.orders.slots.countTarget.isSome) then Cause.order.mask else 0)
        offers := s.rep.offers ++ [(.station, .mode s.station.mode .watch .windDown s.web.pos)] ++
          (match s.orders.slots.stampOff with
            | some x => [(.orderUnit, .orderDone .stampOff x .done)]
            | none => []) ++
          (match s.station.countTarget, s.orders.slots.countTarget with
            | some _, some x => [(.orderUnit, .orderDone .countTarget x .cancelled)]
            | _, _ => []) } } := by
  unfold testWindDown removeTarget
  rw [if_pos done]
  dsimp only
  rw [completeStanding_eq, ← or_ite_or]
  have slot : (s.orders.slots.put .stampOff none).get .countTarget = s.orders.slots.countTarget := rfl
  cases target : s.station.countTarget with
  | none =>
    simp only [setMode, markStatus, Mode.configured, if_true, offer, target, Option.isSome_none, Bool.false_and,
      Bool.false_eq_true, if_false, or_no_cause, List.append_nil]
    rfl
  | some k =>
    simp only [setMode, markStatus, Mode.configured, if_true, offer, target, completeStanding_eq, slot]
    cases s.orders.slots.countTarget <;> rfl

theorem testWindDown_of_not_done {s : State} (running : ¬ windDownDone s = true) : testWindDown s = s := by
  rw [testWindDown, if_neg running]

theorem removeTarget_eq (e : Completion) (s : State) : removeTarget e s = { s with
    station := { s.station with countTarget := none }
    orders := { s.orders with slots := { s.orders.slots with countTarget := none } }
    rep := match s.orders.slots.countTarget with
      | some x => { s.rep with
          latched := s.rep.latched ||| Cause.order.mask
          offers := s.rep.offers ++ [(.orderUnit, .orderDone .countTarget x e)] }
      | none => s.rep } := by
  have slot : ({ s with station := { s.station with countTarget := none } } : State).orders.slots.get .countTarget =
    s.orders.slots.countTarget := rfl
  rw [removeTarget, completeStanding_eq, slot]
  cases s.orders.slots.countTarget with
  | none =>
    simp only [Option.isSome_none, Bool.false_eq_true, if_false, or_no_cause, List.append_nil]
    rfl
  | some x => rfl

/-- Settles O35. -/
theorem standingOrders : Obligations.StandingOrders := by
  refine ⟨?orders, fun s => ?windDown⟩
  case windDown =>
    intro complete
    refine ⟨fun running => testWindDown_of_not_done fun yes => running ((windDownDone_iff s).1 yes), fun done => ?_⟩
    refine ⟨_, testWindDown_of_done ((windDownDone_iff s).2 done), rfl, rfl, rfl, rfl, ?_⟩
    obtain ⟨run, _, _⟩ := done
    rw [run] <;> rfl
  case orders =>
    intro lv src s o g c loaded j left cancelled
    obtain ⟨m, b, taps, shape⟩ := judgedAt_shape src (sense lv s)
    have jStation : j.station = s.station := by
      simp only [j, shape]
      rfl
    have jSurvey : j.survey = s.survey := by
      simp only [j, shape]
      rfl
    have jTarget : targetValue j = left := by
      rw [targetValue, jStation]
      rfl
    refine ⟨fun presents run => ?stampOff, fun presents watching => ?countTarget, fun presents watch => ?survey⟩
    case stampOff =>
      have answers : ∀ r, orderStampOff g j = r → exec (.stampOff lv src) s = .next (finish s (shown 3 src r)) :=
        fun r => exec_command_of_apply (k := .stampOff) presents loaded (by rw [run]; rfl)
      refine ⟨fun winding => answers _ ?_, fun open_ => answers _ ?_⟩
      · rw [orderStampOff, jStation, if_pos winding]
        rfl
      · rw [orderStampOff, jStation, if_neg (by rw [open_]; exact Bool.false_ne_true)]
        simp only [j, shape]
        rfl
    case countTarget =>
      have answers : ∀ r, orderCountTarget o g j = r → exec (.countTarget lv src) s = .next (finish s (shown 10 src r)) :=
        fun r => exec_command_of_apply (k := .countTarget) presents loaded
          (by rcases watching with h | h <;> rw [h] <;> rfl)
      refine ⟨fun zero => answers _ ?_, fun some winding => answers _ ?_, fun some open_ => answers _ ?_⟩
      · rw [orderCountTarget, if_pos zero, jTarget, removeTarget_eq]
        simp only [cancelled, j, shape]
        rfl
      · rw [orderCountTarget, if_neg some, jStation, if_pos winding]
        rfl
      · rw [orderCountTarget, if_neg some, jStation, if_neg (by rw [open_]; exact Bool.false_ne_true), jTarget,
          removeTarget_eq]
        simp only [cancelled, j, shape]
        rfl
    case survey =>
      have answers : ∀ r, orderSurvey o g j = r → exec (.survey lv src) s = .next (finish s (shown 11 src r)) :=
        fun r => exec_command_of_apply (k := .survey) presents loaded (by rw [watch]; rfl)
      refine ⟨fun tooLarge => answers _ ?_, fun fits busy => answers _ ?_, fun fits free => answers _ ?_⟩
      · rw [orderSurvey, if_pos tooLarge]
        rfl
      · rw [orderSurvey, if_neg (Nat.not_lt.2 fits), jSurvey, if_pos busy]
        rfl
      · rw [orderSurvey, if_neg (Nat.not_lt.2 fits), jSurvey, if_neg (by rw [free]; exact Bool.false_ne_true)]
        simp only [j, shape]
        rfl

/-! ## HOLD -/

theorem throwOn_heldImpression (s t : State) (impression : t.imp = heldImpression s) : t.throwOn = false := by
  rw [State.throwOn, impression, heldImpression]
  cases throw : s.imp.throw with
  | engaging | on =>
    rw [if_pos (by rw [State.throwOn, throw])]
    cases s.pins.throwOk <;> rfl
  | off | releasing =>
    rw [if_neg (by rw [State.throwOn, throw]; exact Bool.false_ne_true)]
    simp only [throw]

/-- A throw that keeps R136 has no horizon and no release point once HOLD has released it. -/
theorem heldImpression_released {s : State} (table : ThrowTable s) :
    (heldImpression s).horizon = none ∧ (heldImpression s).release = none := by
  unfold heldImpression State.throwOn
  rw [ThrowTable] at table
  cases throw : s.imp.throw with
  | off =>
    rw [throw] at table
    exact table
  | engaging | on => exact ⟨rfl, rfl⟩
  | releasing =>
    rw [throw] at table
    obtain ⟨_, _, horizon, release⟩ := table
    exact ⟨horizon, release⟩

/-- Settles O36. -/
theorem holdOrder : Obligations.HoldOrder := by
  intro lv src s o g c loaded presents j
  obtain ⟨m, b, taps, shape⟩ := judgedAt_shape src (sense lv s)
  have jMode : j.station.mode = s.station.mode := judgedAt_mode src lv s
  have jLoaded : j.loader.loaded = some c := by
    simp only [j, shape]
    exact loaded
  refine ⟨fun held => exec_command_of_apply (k := .hold) presents loaded (by rw [held]; rfl) ?_, ?working⟩
  · change orderHold j = _
    rw [orderHold, if_pos (jMode.trans held)]
  case working =>
    intro working slots cancelled surveyed held answers
    have isHeld : heldState c j = held := by
      simp only [held, heldState, holdReports, cancelled, surveyed, slots, j, shape]
      simp only [List.append_assoc, List.cons_append, List.nil_append]
      rfl
    have orderResult : ∀ u, holdEffects j = u → answers u := by
      rintro u rfl
      refine exec_command_of_apply (k := .hold) presents loaded ?_ ?_
      · revert working
        cases s.station.mode <;> decide
      · change orderHold j = _
        rw [orderHold, if_neg (by rw [jMode]; rintro held; rw [held] at working; exact absurd working (by decide))]
        simp only [j, shape]
        rfl
    have impression : held.imp = heldImpression s := rfl
    refine ⟨throwOn_heldImpression s held impression, fun table => heldImpression_released table, fun confirmed =>
      orderResult _ ?_, fun edited => ?_⟩
    · rw [holdEffects_eq jLoaded, isHeld, if_pos]
      simp only [j, shape]
      exact confirmed
    · have quiet := (reported_flushOffers held).latched
      have fills := flushOffers_fills held
      have frame := (flushed_flushOffers held).eq
      refine ⟨loseConfiguration .edited .edit (flushOffers held), orderResult _ ?_, rfl, ?_⟩
      · rw [holdEffects_eq jLoaded, isHeld, if_neg]
        · rfl
        · simp only [j, shape]
          rw [show (sense lv s).loader.confirmed = false from edited]
          exact Bool.false_ne_true
      · generalize flushOffers held = f at *
        have throwOff : f.throwOn = false := throwOn_heldImpression s f (by rw [frame]; rfl)
        have throw : (if f.throwOn then (if f.pins.throwOk then ThrowState.releasing else .off) else f.imp.throw) =
            held.imp.throw := by
          rw [throwOff, if_neg Bool.false_ne_true, frame]
        have cleared : f.foil.map Foil.cleared = held.foil := by rw [frame]; rfl
        rw [loseConfiguration_edited]
        rw [throw, cleared]
        obtain ⟨queue, empty⟩ := fills
        refine ⟨?station, rfl, rfl, rfl, ?track, fun n => congrArg Option.isSome (PerLane.get_const none n), rfl, rfl, rfl,
          throwOn_heldImpression s held impression, ?trim, rfl, ?web, ?survey, ?slots, ?cnt, ?pins, ?mem, ?msgs, ?latched,
          empty, ?statusQueued, ?statusAt, queue, fun n => PerLane.get_const _ n⟩
        case latched => exact quiet.imp (fun same => by rw [same]) (fun lost => by rw [lost])
        case trim =>
          rw [frame]
          show (heldImpression s).trim = s.imp.trim
          rw [heldImpression]
          split <;> rfl
        case cnt =>
          rw [frame]
          simp only [held, j, shape]
          rfl
        all_goals rw [frame] <;> rfl

end Sys2Proof.Machine

/-! SUPPORT. The orders on lanes, trim, foil, policy and causes (R53 to R57, R60, R61), and own writes that complete. -/

namespace Sys2Proof.Machine

/-! ## The lane an order names -/

theorem Order.activeLane_of_active {o : Order} {c : Loaded} {n : Lane} (named : o.lane = n.val)
    (active : c.hdr.active n = true) : o.activeLane c = some n := by
  have found : (allLanes.find? fun m => m.val == o.lane && c.hdr.active m) = some n := by
    rw [named]
    match n, active with
    | 0, active => simp [allLanes, List.find?, active]
    | 1, active => simp [allLanes, List.find?, active]
    | 2, active => simp [allLanes, List.find?, active]
    | 3, active => simp [allLanes, List.find?, active]
  exact found

theorem Order.activeLane_of_none {o : Order} {c : Loaded}
    (idle : ∀ n : Lane, o.lane = n.val → c.hdr.active n = false) : o.activeLane c = none := by
  rw [Order.activeLane, List.find?_eq_none]
  intro n _ both
  rw [Bool.and_eq_true, beq_iff_eq] at both
  obtain ⟨named, active⟩ := both
  rw [idle n named.symm] at active
  exact Bool.false_ne_true active

theorem namesActive_iff {c : Loaded} {a : BitVec 16} : namesActive c a = true ↔
    a ≠ 0 ∧ ∀ i < 16, a.getLsbD i = true → ∃ n : Lane, n.val = i ∧ c.hdr.active n = true := by
  rw [namesActive, Bool.and_eq_true, Bool.and_eq_true, decide_eq_true_iff, decide_eq_true_iff, decide_eq_true_iff, and_assoc]
  refine and_congr_right fun _ => ⟨?_, fun lanes => ⟨?_, ?_⟩⟩
  · rintro ⟨within, small⟩ i lt set
    have lane : i < 4 := by
      by_contra ge
      rw [BitVec.getLsbD, Nat.testBit_lt_two_pow (lt_of_lt_of_le small (Nat.pow_le_pow_right (n := 2) (by decide)
        (Nat.not_lt.1 ge)))] at set
      exact Bool.false_ne_true set
    rw [← within, BitVec.getLsbD_and, Bool.and_eq_true, BitVec.getLsbD_setWidth, Bool.and_eq_true] at set
    obtain ⟨_, _, active⟩ := set
    exact ⟨⟨i, lane⟩, rfl, active⟩
  · apply BitVec.eq_of_getLsbD_eq
    intro i lt
    rw [BitVec.getLsbD_and, BitVec.getLsbD_setWidth]
    cases set : a.getLsbD i with
    | false => rfl
    | true =>
      obtain ⟨n, rfl, active⟩ := lanes i lt set
      rw [Header.active] at active
      simp [lt, active]
  · refine Nat.lt_pow_two_of_testBit (n := 4) a.toNat fun i ge => ?_
    rw [← Bool.not_eq_true]
    intro set
    have lt : i < 16 := by
      by_contra high
      rw [Nat.testBit_lt_two_pow (lt_of_lt_of_le a.isLt (Nat.pow_le_pow_right (by decide) (Nat.not_lt.1 high)))] at set
      exact Bool.false_ne_true set
    obtain ⟨n, rfl, _⟩ := lanes i lt set
    exact absurd n.isLt (Nat.not_lt.2 ge)

theorem Tracker.setAt_eq (p : Nat) (t : Tracker) : t.setAt p = match t.state with
    | .hunt => { t with setPos := p, state := .locked }
    | .blocked => { t with setPos := p, state := .locked, quality := 0 }
    | _ => { t with setPos := p } := by
  unfold Tracker.setAt
  cases t.state <;> rfl

/-- Settles O37. -/
theorem laneOrders : Obligations.LaneOrders := by
  intro lv src s o g c loaded j
  obtain ⟨m, b, taps, shape⟩ := judgedAt_shape src (sense lv s)
  have jLanes : j.lanes = s.lanes := by
    simp only [j, shape]
    rfl
  refine ⟨fun presents watching => ?skip, fun presents working => ?restart, fun presents working => ?setPosition⟩
  case skip =>
    intro legal
    have answers : ∀ r, orderSkip c o j = r → exec (.skip lv src) s = .next (finish s (shown 5 src r)) :=
      fun r => exec_command_of_apply (k := .skip) presents loaded (by rcases watching with h | h <;> rw [h] <;> rfl)
    have test : (namesActive c o.a && decide (1 ≤ o.b.toNat) && decide (o.b.toNat ≤ 255)) = true ↔ legal := by
      rw [Bool.and_eq_true, Bool.and_eq_true, namesActive_iff, decide_eq_true_iff, decide_eq_true_iff, and_assoc, and_assoc]
    refine ⟨fun yes => answers _ ?_, fun no => answers _ ?_⟩
    · rw [orderSkip, if_pos (test.2 yes), addSkips, jLanes]
      rfl
    · rw [orderSkip, if_neg fun yes => no (test.1 yes)]
      rfl
  case restart =>
    have answers : ∀ r, orderLaneRestart c o j = r → exec (.laneRestart lv src) s = .next (finish s (shown 6 src r)) :=
      fun r => exec_command_of_apply (k := .laneRestart) presents loaded working
    refine ⟨fun n named active => answers _ ?_, fun idle => answers _ ?_⟩
    · rw [orderLaneRestart, Order.activeLane_of_active named active]
      simp only [setLane, jLanes]
      rfl
    · rw [orderLaneRestart, Order.activeLane_of_none idle]
      rfl
  case setPosition =>
    have answers : ∀ r, orderSetPosition c o j = r → exec (.setPosition lv src) s = .next (finish s (shown 7 src r)) :=
      fun r => exec_command_of_apply (k := .setPosition) presents loaded working
    refine ⟨fun n named active fits => answers _ ?_, fun refused => answers _ ?_⟩
    · rw [orderSetPosition, Order.activeLane_of_active named active]
      simp only [if_pos fits, setLane, jLanes, Tracker.setAt_eq]
      rfl
    · rw [orderSetPosition]
      cases lane : o.activeLane c with
      | none => rfl
      | some n =>
        rcases refused with idle | tooLarge
        · rw [Order.activeLane_of_none idle] at lane
          exact absurd lane (by simp)
        · exact if_neg (Nat.not_lt.2 tooLarge)

/-! ## TRIM_RESET and FOIL_LOAD -/

/-- A drive that takes a FOIL_LOAD of a count: OUT goes, and BREAK with FOILBRK negated; the low threshold is tested. -/
def Foil.loaded (f : Foil) (count : Word) (low asserted : Bool) : Foil :=
  { f with remaining := count, lowArmed := !low, out := false, brk := f.brk && asserted }

/-- The state in which lane `n` has taken a FOIL_LOAD, before a count of 0 runs the lane out. -/
def foilLoaded (c : Loaded) (n : Lane) (count : Word) (s : State) : State :=
  let low := decide (count.toNat < c.hdr.foilLow.toNat)
  { s with
    foil := s.foil.set n ((s.foil.get n).loaded count low (s.pins.foilbrk.get n))
    rep := { s.rep with
      dirty := true
      latched := if low then s.rep.latched ||| Cause.foilLow.mask else s.rep.latched } }

theorem foilLoadTaken_eq (c : Loaded) (n : Lane) (count : Word) (s : State) :
    foilLoadTaken c n count s =
      if (s.foil.get n).activePull && count = 0 then
        testRunOut (foilLoaded c n count s) n (runOut n (foilLoaded c n count s))
      else foilLoaded c n count s := by
  have tested : testLow c n (markStatus (setFoil n { s.foil.get n with
      remaining := count, lowArmed := true, out := false
      brk := if s.pins.foilbrk.get n then (s.foil.get n).brk else false } s)) = foilLoaded c n count s := by
    unfold testLow foilLoaded Foil.loaded
    simp only [markStatus, setFoil, PerLane.get_set_same, Bool.true_and]
    have kept : (if s.pins.foilbrk.get n then (s.foil.get n).brk else false) = ((s.foil.get n).brk && s.pins.foilbrk.get n) := by
      cases s.pins.foilbrk.get n <;> simp
    rw [kept]
    split
    next low => simp only [low, latch, PerLane.set_set]; rfl
    next enough => simp only [enough]; rfl
  unfold foilLoadTaken
  dsimp only
  rw [tested]

/-- A lane that runs out leaves the loaded copy, the lanes and the faults raised; its drive stops with OUT. -/
theorem runOut_frame {n : Lane} {s : State} (active : (s.foil.get n).activePull = true) :
    let u := runOut n s
    u.loader = s.loader ∧ u.lanes = s.lanes ∧ u.msgs.faults = s.msgs.faults ∧
      u.foil = s.foil.set n { (s.foil.get n).stopped with out := true } := by
  intro u
  have shape := runOut_eq n active
  have frame := (woundDown_testWindDown (pullLeft n (setFoil n { s.foil.get n with out := true } s))).eq
  simp only [u]
  rw [shape]
  generalize testWindDown (pullLeft n (setFoil n { s.foil.get n with out := true } s)) = w at *
  rw [frame]
  refine ⟨rfl, rfl, rfl, ?_⟩
  simp only [pullLeft, setFoil, PerLane.set_set, PerLane.get_set_same]
  rfl

/-- The lanes-down test of a lane that just ran out: the lane itself is down. -/
theorem testRunOut_runOut {c : Loaded} {n : Lane} {s : State} (loaded : s.loader.loaded = some c)
    (active : (s.foil.get n).activePull = true) (dry : (s.foil.get n).out = false) :
    let u := runOut n s
    let down := s.station.mode = .run ∧ ∀ m, c.hdr.active m = true →
      m = n ∨ (s.lanes.get m).state = .blocked ∨ (s.foil.get m).faulty = true
    testRunOut s n u = { u with msgs := { u.msgs with
      faults := s.msgs.faults ++ if down then [⟨.allLanesDown, none⟩] else [] } } := by
  intro u down
  obtain ⟨loader, lanes, faults, foil⟩ := runOut_frame active
  have isOut : (u.foil.get n).out = true := by
    rw [foil, PerLane.get_set_same]
  have lane : ∀ m, (u.lanes.get m).state = .blocked ∨ (u.foil.get m).faulty = true ↔
      m = n ∨ (s.lanes.get m).state = .blocked ∨ (s.foil.get m).faulty = true := by
    intro m
    rw [lanes, foil, PerLane.get_set]
    split
    next same => simp [same, Foil.faulty]
    next other => simp [other]
  have test : (s.station.mode = .run && !(s.foil.get n).out && (u.foil.get n).out && lanesDown u) = true ↔ down := by
    rw [dry, isOut, Bool.not_false, Bool.and_true, Bool.and_true, Bool.and_eq_true, decide_eq_true_iff,
      lanesDown_iff (c := c) (by rw [loader]; exact loaded)]
    simp only [lane, down]
  rw [testRunOut]
  by_cases isDown : down
  · rw [if_pos (test.2 isDown), if_pos isDown, ← faults]
    rfl
  · rw [if_neg fun yes => isDown (test.1 yes), if_neg isDown, List.append_nil, ← faults]

/-- Settles O38. -/
theorem trimResetAndFoilLoad : Obligations.TrimResetAndFoilLoad := by
  intro lv src s o g c loaded j
  obtain ⟨m, b, taps, shape⟩ := judgedAt_shape src (sense lv s)
  have jLoaded : j.loader.loaded = some c := by
    simp only [j, shape]
    exact loaded
  refine ⟨fun presents working => ?trimReset, fun presents configured => ?foilLoad⟩
  case trimReset =>
    have answers : ∀ r, orderTrimReset j = r → exec (.trimReset lv src) s = .next (finish s (shown 8 src r)) :=
      fun r => exec_command_of_apply (k := .trimReset) presents loaded working
    have jMode : j.station.mode = s.station.mode := judgedAt_mode src lv s
    have jImp : j.imp = s.imp := by
      simp only [j, shape]
      rfl
    refine ⟨fun run engaged => answers _ ?_, fun free => answers _ ?_⟩
    · rw [orderTrimReset, jMode, jImp, if_pos (by simp [run, engaged])]
      rfl
    · rw [orderTrimReset, jMode, jImp, if_neg]
      · rfl
      · rw [Bool.and_eq_true, decide_eq_true_iff, decide_eq_true_iff]
        rintro ⟨run, engaged⟩
        exact free.elim (· run) engaged
  case foilLoad =>
    have answers : ∀ r, orderFoilLoad c o j = r → exec (.foilLoad lv src) s = .next (finish s (shown 9 src r)) :=
      fun r => exec_command_of_apply (k := .foilLoad) presents loaded configured
    refine ⟨fun idle => answers _ ?_, fun n named active => ?_⟩
    · rw [orderFoilLoad, Order.activeLane_of_none idle]
      rfl
    · intro low v
      have taken : foilLoaded c n o.c j = v := by
        simp only [foilLoaded, Foil.loaded, v, low, j, shape, sense, PerLane.get_mapLane]
        rfl
      have drive : j.foil.get n = s.drive n := by
        simp only [j, shape]
        rfl
      refine ⟨fun running => answers _ ?_, fun pulling zero => ?_⟩
      · rw [orderFoilLoad, Order.activeLane_of_active named active]
        dsimp only
        rw [foilLoadTaken_eq, taken, drive, if_neg]
        rw [Bool.and_eq_true, decide_eq_true_iff]
        rintro ⟨pulling, zero⟩
        rcases running with idle | some
        · rw [idle] at pulling
          exact Bool.false_ne_true pulling
        · exact some zero
      · intro u down
        refine answers _ ?_
        have vDrive : v.foil.get n = (s.drive n).loaded o.c low (s.pins.foilbrk.get n && lv.brk.get n) :=
          PerLane.get_set_same ..
        rw [orderFoilLoad, Order.activeLane_of_active named active]
        dsimp only
        rw [foilLoadTaken_eq, taken, drive, if_pos (by rw [pulling, decide_eq_true zero]; rfl),
          testRunOut_runOut (c := c) (by exact jLoaded) (by rw [vDrive]; exact pulling) (by rw [vDrive]; rfl)]
        have lanes : v.lanes = s.lanes := by
          simp only [v, j, shape]
          rfl
        have mode : v.station.mode = s.station.mode := judgedAt_mode src lv s
        have faults : v.msgs.faults = s.msgs.faults := by
          simp only [v, j, shape]
          rfl
        have others : ∀ k, k ≠ n → v.foil.get k = s.drive k := fun k other => PerLane.get_set_ne _ _ _ _ other
        have same : (v.station.mode = .run ∧ ∀ m, c.hdr.active m = true →
            m = n ∨ (v.lanes.get m).state = .blocked ∨ (v.foil.get m).faulty = true) ↔ down := by
          rw [mode, lanes]
          refine and_congr_right fun _ => forall₂_congr fun k _ => ?_
          by_cases other : k = n
          · simp only [other, true_or]
          · simp only [other, false_or, others k other]
            rfl
        simp only [same, faults]
        rfl

/-! ## REPORT_POLICY and ACK -/

theorem Policy.ofCode_code (p : Policy) : Policy.ofCode p.code = some p := by cases p <;> rfl

theorem Policy.usesVariant_iff (p : Policy) : p.usesVariant = true ↔ p = .follow ∨ p = .variant := by cases p <;> decide

theorem Policy.exists_code {n : Nat} (le : n ≤ 3) : ∃ p : Policy, n = p.code := by
  interval_cases n
  exacts [⟨.all, rfl⟩, ⟨.exceptions, rfl⟩, ⟨.follow, rfl⟩, ⟨.variant, rfl⟩]

theorem Policy.ofCode_eq_none {n : Nat} (lt : 3 < n) : Policy.ofCode n = none := by
  unfold Policy.ofCode
  split
  case h_5 => rfl
  all_goals omega

/-- Settles O39. -/
theorem reportPolicyAndAck : Obligations.ReportPolicyAndAck := by
  intro lv src s o g c loaded configured j
  obtain ⟨m, b, taps, shape⟩ := judgedAt_shape src (sense lv s)
  have jRep : j.rep = s.rep := by
    simp only [j, shape]
    rfl
  refine ⟨fun presents => ?policy, fun presents => ?ack⟩
  case policy =>
    intro valid
    have answers : ∀ r, orderReportPolicy c o j = r → exec (.reportPolicy lv src) s = .next (finish s (shown 12 src r)) :=
      fun r => exec_command_of_apply (k := .reportPolicy) presents loaded configured
    refine ⟨fun refused => answers _ ?_, fun p code allowed => answers _ ?_⟩
    · by_cases known : o.a.toNat ≤ 3
      · obtain ⟨p, code⟩ := Policy.exists_code known
        obtain ⟨uses, invalid⟩ := refused.resolve_left (Nat.not_lt.2 known)
        have follows : p.usesVariant = true := by
          rw [code] at uses
          revert uses
          cases p <;> decide
        have noVariant : c.validVariant o.b.toNat = false := by
          rw [← Bool.not_eq_true, validVariant_iff]
          exact invalid
        simp only [orderReportPolicy, code, Policy.ofCode_code, follows, noVariant, Bool.not_false, Bool.and_self, if_true,
          refuse]
      · simp only [orderReportPolicy, Policy.ofCode_eq_none (Nat.not_le.1 known), refuse]
    · have passes : (p.usesVariant && !c.validVariant o.b.toNat) = false := by
        rcases allowed with rfl | rfl | yes
        · rfl
        · rfl
        · rw [validVariant_iff.2 yes, Bool.not_true, Bool.and_false]
      simp only [orderReportPolicy, code, Policy.ofCode_code, passes, Bool.false_eq_true, if_false, jRep,
        Policy.usesVariant_iff]
      rfl
  case ack =>
    refine exec_command_of_apply (k := .ack) presents loaded configured ?_
    have named : (BitVec.setWidth 12 o.a).getLsbD Cause.fault.bit = o.a.getLsbD 0 := by
      rw [BitVec.getLsbD_setWidth]
      rfl
    change orderAck o j = _
    simp only [orderAck, named, jRep, clearRecord]
    split
    all_goals
      simp only [j, shape]
      rfl

/-! ## Own writes that complete -/

theorem endFill_of_filling {s : State} {f : FillInProgress} (filling : s.rep.fill = some f) :
    endFill s = { s with rep := { s.rep with
      released := if f.gen = s.loader.gen then s.rep.released.erase f.entry else s.rep.released
      fillIndex := nextFill s
      fill := none } } := by
  rw [endFill, filling]

theorem resettle_of_other {s : State} (other : ∀ h, s.bus.inHand = some h → h.phase ≠ .held []) : resettle s = s := by
  unfold resettle
  split
  next h hand => rw [if_neg (other h hand)]
  next => rfl

theorem resettle_of_freed {s : State} {a : Access} {ev : List Observed} {tap : Option TapOrder}
    (hand : s.bus.inHand = some ⟨a, .held [], ev, tap⟩) :
    resettle s = if a.write then settleWrite a s else setHand a .contender [] none s := by
  simp only [resettle, hand, if_true]

/-- Settles O40. -/
theorem ownWritesComplete : Obligations.OwnWritesComplete := by
  refine ⟨fun lv s o issued => ?completes, fun s => ⟨resettle_of_other, fun a ev tap hand read => ?read,
    fun a ev tap hand write => ?write⟩⟩
  case read =>
    rw [resettle_of_freed hand, if_neg (by rw [read]; exact Bool.false_ne_true)]
    rfl
  case write =>
    have settled : resettle s = settleWrite a s := by rw [resettle_of_freed hand, if_pos write]
    intro answered forwarded
    rw [settled]
    refine ⟨fun held => settleWrite_of_held held, fun why free dropped => ?_, fun t o free passed fired => ?_,
      fun free passed none => ?_⟩
    · rw [settleWrite_of_dropped free dropped]
      cases why <;> rfl
    · rw [settleWrite_of_passed free passed, passWrite, fired]
      rfl
    · rw [settleWrite_of_passed free passed, passWrite, none]
      rfl
  case completes =>
    intro v w after
    obtain ⟨m, b, shape⟩ := completeOwn_shape o (sense lv s)
    refine ⟨fun t purpose taken => ?result, fun e f purpose filling => ?fill, fun purpose => ?status⟩
    case result =>
      change Host.Outcome.next (finish s (resultDone (sense lv s))) = _
      simp only [resultDone, show issuedOwn (sense lv s) = some o from issued, purpose, if_true, v, shape]
      rw [endTake, show (sense lv s).orders.inProgress = some t from taken]
      rfl
    case fill =>
      change Host.Outcome.next (finish s (fillDone (sense lv s))) = _
      simp only [fillDone, show issuedOwn (sense lv s) = some o from issued, purpose, Purpose.isFill, if_true, v, shape]
      rw [endFill_of_filling (f := f) (by exact filling)]
      rfl
    case status =>
      change Host.Outcome.next (finish s (statusDone s)) = _
      simp only [statusDone, issued, purpose, if_true, w]
      obtain ⟨m, b, shape⟩ := completeOwn_shape o s
      rw [shape]
      rfl

end Sys2Proof.Machine

/-! SUPPORT. Station faults applied, and what WEB_REVERSE does besides (R39, R40, R71). -/

namespace Sys2Proof.Machine

theorem exec_stationFault (which : Nat) (s : State) :
    exec (.stationFaultApplied which) s = .next (finish s (faultTaken which s)) := rfl

theorem faultTaken_of_raised {which : Nat} {s : State} {f : RaisedFault} (raised : s.msgs.faults[which]? = some f) :
    faultTaken which s = applyFault f { s with msgs := { s.msgs with faults := s.msgs.faults.eraseIdx which } } := by
  simp only [faultTaken, raised]

theorem noteFault_eq (f : RaisedFault) (s : State) : noteFault f s = { s with
    station := match s.station.record with
      | none => { s.station with record := some ⟨f.kind, s.web.pos, f.lane⟩ }
      | some _ => { s.station with secondary := s.station.secondary + 1 }
    rep := { s.rep with
      latched := s.rep.latched ||| Cause.fault.mask
      offers := if s.station.mode.configured
        then s.rep.offers ++ [(.station, .fault f.kind s.web.pos f.lane)] else s.rep.offers } } := by
  unfold noteFault recordFault
  cases s.station.record <;> cases s.station.mode.configured <;> rfl

theorem noteFault_mode (f : RaisedFault) (s : State) : (noteFault f s).station.mode = s.station.mode := by
  rw [noteFault_eq]
  cases s.station.record <;> rfl

/-! ## What WEB_REVERSE does -/

theorem Foil.stopReports_stopped (f : Foil) : f.stopped.stopReports = [] := by
  simp [Foil.stopReports, Foil.stopped]

theorem Foil.activePull_stopped (f : Foil) : f.stopped.activePull = false := by
  rw [Foil.activePull_eq_false_iff, Foil.stopped]
  intro r mem
  simpa using (List.mem_filter.1 mem).2

theorem Foil.cleared_stopped (f : Foil) : f.stopped.cleared = f.cleared := rfl

/-- A state reversed, before a running survey ends: the track abandoned, the pulls cleared, the slot count begun anew, the
active lanes in HUNT. -/
def reversedState (dirty : Bool) (s : State) : State :=
  { s with
    track := { s.track with rows := [], splices := [], resumes := [] }
    foil := s.foil.map Foil.cleared
    msgs := { s.msgs with pulls := s.msgs.pulls.mapLane fun n l => l ++ (s.foil.get n).stopReports }
    imp := { s.imp with nips := [], slotCounter := 0, slotSync := false }
    lanes := s.lanes.mapLane fun n t => if s.laneActive n then t.hunt else t
    rep := { s.rep with
      dirty := dirty
      offers := s.rep.offers ++ [(.rowTrack, .abandon .webReverse s.track.rows.length (endSerials s.track.rows))] } }

theorem reverseEffects_eq {s : State} (stopped : s.station.mode ≠ .run) :
    ∃ d, reverseEffects s = endRunningSurvey .failIncomplete (reversedState d s) := by
  obtain ⟨d, cleared, _⟩ := clearAllPulls_eq (s := abandonTrack .webReverse s) stopped
  refine ⟨d, ?_⟩
  unfold reverseEffects
  rw [cleared]
  rfl

/-- The end of a running survey, with or without a loaded copy. -/
theorem endRunningSurvey_shape (o : SurveyOutcome) (s : State) :
    ∃ v slots l x, endRunningSurvey o s = { s with
      survey := v
      orders := { s.orders with slots := slots }
      rep := { s.rep with offers := s.rep.offers ++ l, latched := s.rep.latched ||| x } } := by
  cases loaded : s.loader.loaded with
  | some c =>
    obtain ⟨v, slots, l, ends, _⟩ := endRunningSurvey_eq o loaded
    exact ⟨v, slots, l, _, ends⟩
  | none =>
    refine ⟨s.survey, s.orders.slots, [], 0, ?_⟩
    rw [or_no_cause, List.append_nil, endRunningSurvey, endSurvey, withLoaded, loaded]
    exact ite_self ..

/-- What WEB_REVERSE leaves of a state in which every pull has stopped: `u` comes from `t` by it, or is `t`. -/
structure KeptByReverse (t u : State) : Prop where
  station : u.station = t.station
  faults : u.msgs.faults = t.msgs.faults
  latched : ∃ x, u.rep.latched = t.rep.latched ||| x
  offers : ∃ l, u.rep.offers = t.rep.offers ++ l
  throws : u.imp.throw = t.imp.throw ∧ u.imp.horizon = t.imp.horizon ∧ u.imp.release = t.imp.release
  drives : ∀ n, u.msgs.pulls.get n = t.msgs.pulls.get n ++ (t.foil.get n).stopReports ∧
    ((u.foil.get n).records = [] ∨ (u.foil.get n).records = (t.foil.get n).records) ∧
    ((u.foil.get n).pullEnd = none ∨ (u.foil.get n).pullEnd = (t.foil.get n).pullEnd) ∧
    ((u.foil.get n).acc = 0 ∨ (u.foil.get n).acc = (t.foil.get n).acc) ∧
    (u.foil.get n).remaining = (t.foil.get n).remaining
  others : u.mem = t.mem ∧ u.pins = t.pins ∧ u.bus = t.bus ∧ u.loader = t.loader ∧ u.web = t.web ∧
    u.readers = t.readers ∧ u.cnt = t.cnt

theorem KeptByReverse.refl {t : State} (stopped : ∀ n, (t.foil.get n).stopReports = []) : KeptByReverse t t :=
  ⟨rfl, rfl, ⟨0, (or_no_cause _).symm⟩, ⟨[], (List.append_nil _).symm⟩, ⟨rfl, rfl, rfl⟩,
    fun n => ⟨by rw [stopped, List.append_nil], .inr rfl, .inr rfl, .inr rfl, rfl⟩, rfl, rfl, rfl, rfl, rfl, rfl, rfl⟩

theorem keptByReverse_reverseEffects {t : State} (stopped : t.station.mode ≠ .run) :
    KeptByReverse t (reverseEffects t) := by
  obtain ⟨d, reversed⟩ := reverseEffects_eq stopped
  obtain ⟨v, slots, l, x, ended⟩ := endRunningSurvey_shape .failIncomplete (reversedState d t)
  rw [reversed, ended]
  have drive : ∀ n, (t.foil.map Foil.cleared).get n = (t.foil.get n).cleared := fun n => PerLane.get_map _ _ n
  refine ⟨rfl, rfl, ⟨x, rfl⟩, ⟨_, List.append_assoc ..⟩, ⟨rfl, rfl, rfl⟩, fun n => ?_, rfl, rfl, rfl, rfl, rfl, rfl, rfl⟩
  exact ⟨PerLane.get_mapLane _ _ n, .inl ((congrArg Foil.records (drive n)).trans rfl),
    .inl ((congrArg Foil.pullEnd (drive n)).trans rfl), .inl ((congrArg Foil.acc (drive n)).trans rfl),
    (congrArg Foil.remaining (drive n)).trans rfl⟩

/-- A cause latched stays latched whatever is latched with it. -/
theorem latched_and (x y m : BitVec 12) : (x ||| m ||| y) &&& m = m := by
  ext i
  simp only [BitVec.getElem_and, BitVec.getElem_or]
  cases x[i] <;> cases y[i] <;> cases m[i] <;> rfl

/-- Settles O41, mode by mode. -/
theorem stationFaults : Obligations.StationFaults := by
  intro which s f raised rest noted safe entry stopped answers
  have isNoted : noteFault f { s with msgs := rest } = noted := noteFault_eq f { s with msgs := rest }
  have mode : noted.station.mode = s.station.mode := by rw [← isNoted, noteFault_mode]
  have reach : ∀ u, applyFault f { s with msgs := rest } = u → answers u := by
    rintro u rfl
    simp only [answers]
    rw [exec_stationFault, faultTaken_of_raised raised]
  refine ⟨fun quiet => reach _ ?quiet, fun watch trim => reach _ ?trim, fun watch noTrim noReverse => reach _ ?watch,
    fun isSafe noReverse => reach _ ?safe, fun run => ?run, fun c loaded working reverse => ?reverse⟩
  case quiet =>
    rcases quiet with mode | mode | mode <;> simp only [applyFault, mode, isNoted]
  case trim =>
    simp only [applyFault, watch, trim, isNoted, reduceCtorEq, if_false, if_true]
    rfl
  case watch => simp only [applyFault, watch, noTrim, noReverse, isNoted, if_false]
  case safe => simp only [applyFault, isSafe, noReverse, isNoted, if_false]
  case run =>
    have entered := enterSafe_of_run f.kind (s := noted) (mode.trans run)
    have applied : applyFault f { s with msgs := rest } =
        if f.kind = .webReverse then reverseEffects (enterSafe f.kind noted) else enterSafe f.kind noted := by
      simp only [applyFault, run, isNoted]
    have offers : noted.rep.offers = s.rep.offers ++ [(.station, .fault f.kind s.web.pos f.lane)] := by
      simp only [noted, run, Mode.configured, if_true]
    have isSafe : (enterSafe f.kind noted).station.mode ≠ .run := by
      rw [entered.1]
      exact (by decide : Mode.safe ≠ .run)
    generalize enterSafe f.kind noted = t at *
    obtain ⟨frame, off, drives⟩ := entered
    have isStopped : ∀ n, (t.foil.get n).stopReports = [] := fun n => by rw [(drives n).1, Foil.stopReports_stopped]
    obtain ⟨u, reached, kept, same⟩ : ∃ u, answers u ∧ KeptByReverse t u ∧ (f.kind ≠ .webReverse → u = t) := by
      by_cases reverse : f.kind = .webReverse
      · exact ⟨_, reach _ (by rw [applied, if_pos reverse]), keptByReverse_reverseEffects isSafe,
          fun other => absurd reverse other⟩
      · exact ⟨t, reach _ (by rw [applied, if_neg reverse]), .refl isStopped, fun _ => rfl⟩
    obtain ⟨station, faults, ⟨x, latched⟩, ⟨l, offered⟩, ⟨throw, horizon, release⟩, uDrives, mem, pins, bus, loader, web,
      readers, cnt⟩ := kept
    have imp : t.imp = if s.throwOn then { s.imp with
        throw := if s.pins.throwOk then .releasing else .off, horizon := none, release := none } else s.imp := by
      rw [frame] <;> rfl
    refine ⟨u, reached, ?_, ?_, ?_, ⟨l, ?_⟩, ?_, ?_, ?_, ?_, fun n => ?_, fun n => ?_, ?_, ?_, ?_, ?_, ?_, ?_, ?_,
      fun noReverse => ?_⟩
    · rw [station, frame]
    · rw [faults, frame]
    · rw [latched, frame]
      exact latched_and ..
    · rw [offered, frame, offers, List.append_assoc, List.append_assoc]
      rfl
    · unfold State.throwOn at off ⊢
      rw [throw]
      exact off
    · rw [throw, imp]
      split <;> rfl
    · rw [horizon, imp]
      split <;> rfl
    · rw [release, imp]
      split <;> rfl
    · rw [(uDrives n).1, isStopped, List.append_nil, (drives n).2]
      rfl
    · obtain ⟨_, records, pullEnd, acc, remaining⟩ := uDrives n
      rw [(drives n).1] at records pullEnd acc remaining
      refine ⟨?_, pullEnd.elim id id, acc.elim id id, remaining⟩
      rw [Foil.activePull_eq_false_iff]
      show ∀ r ∈ (u.foil.get n).records, _
      rcases records with none | armed
      · rw [none]
        exact fun r mem => absurd mem List.not_mem_nil
      · rw [armed, ← Foil.activePull_eq_false_iff]
        exact Foil.activePull_stopped _
    · rw [mem, frame]
    · rw [pins, frame]
    · rw [bus, frame]
    · rw [loader, frame]
    · rw [web, frame]
    · rw [readers, frame]
    · rw [cnt, frame]
    · rw [same noReverse]
      refine ⟨by rw [frame], by rw [frame], by rw [frame], by rw [frame], ?_, by rw [frame],
        fun n => congrArg Foil.records (drives n).1⟩
      rw [imp]
      split <;> rfl
  case reverse =>
    obtain ⟨t, applied, notRun, tLoaded, tStation, tOffers, tLatched, tTrack, tImp, tOthers, tLanes, tDrives⟩ :
        ∃ t, applyFault f { s with msgs := rest } = reverseEffects t ∧ t.station.mode ≠ .run ∧
          t.loader.loaded = some c ∧
          (t.station = if s.station.mode = .run then safe else noted.station) ∧
          (t.rep.offers = s.rep.offers ++ [(.station, .fault f.kind s.web.pos f.lane)] ++
            if s.station.mode = .run then [entry] else []) ∧
          t.rep.latched = noted.rep.latched ∧ t.track = s.track ∧
          (s.station.mode ≠ .run → t.imp = s.imp) ∧
          (t.msgs.faults = rest.faults ∧ t.survey = s.survey ∧ t.orders = s.orders ∧ t.mem = s.mem ∧ t.pins = s.pins ∧
            t.bus = s.bus ∧ t.loader = s.loader ∧ t.web = s.web ∧ t.readers = s.readers ∧ t.cnt = s.cnt) ∧
          t.lanes = s.lanes ∧
          ∀ n, (t.foil.get n).remaining = (s.drive n).remaining ∧
            t.msgs.pulls.get n ++ (t.foil.get n).stopReports = stopped n := by
      have offers : noted.rep.offers = s.rep.offers ++ [(.station, .fault f.kind s.web.pos f.lane)] := by
        have configured : s.station.mode.configured = true := by
          revert working
          cases s.station.mode <;> decide
        simp only [noted, configured, if_true]
      by_cases run : s.station.mode = .run
      · have entered := enterSafe_of_run f.kind (s := noted) (mode.trans run)
        refine ⟨enterSafe f.kind noted, by simp only [applyFault, run, isNoted, reverse, if_true], ?_⟩
        generalize enterSafe f.kind noted = t at *
        obtain ⟨frame, _, drives⟩ := entered
        refine ⟨by rw [frame]; exact (by decide : Mode.safe ≠ .run), by rw [frame]; exact loaded,
          by rw [frame, if_pos run], ?_, by rw [frame], by rw [frame], fun other => absurd run other,
          ⟨by rw [frame], by rw [frame], by rw [frame], by rw [frame], by rw [frame], by rw [frame], by rw [frame],
            by rw [frame], by rw [frame], by rw [frame]⟩, by rw [frame], fun n => ⟨by rw [(drives n).1]; rfl, ?_⟩⟩
        · rw [frame, if_pos run, ← offers]
        · rw [(drives n).1, (drives n).2, Foil.stopReports_stopped, List.append_nil]
          rfl
      · refine ⟨noted, ?_, by rw [mode]; exact run, loaded, by rw [if_neg run], by rw [if_neg run, List.append_nil, offers],
          rfl, rfl, fun _ => rfl, ⟨rfl, rfl, rfl, rfl, rfl, rfl, rfl, rfl, rfl, rfl⟩, rfl, fun n => ⟨rfl, rfl⟩⟩
        revert working run
        cases mode : s.station.mode with
        | watch | safe =>
          intro _ _
          simp only [applyFault, mode, isNoted, reverse, if_true]
        | run => exact fun _ other => absurd rfl other
        | bypass | unconfigured | loading | held => exact fun working => absurd working Bool.false_ne_true
    obtain ⟨d, reversed⟩ := reverseEffects_eq notRun
    obtain ⟨v, slots, l, ended, idle, notRunning, surveyed⟩ :=
      endRunningSurvey_eq .failIncomplete (s := reversedState d t) (c := c) tLoaded
    obtain ⟨faults, survey, orders, mem, pins, bus, loader, web, readers, cnt⟩ := tOthers
    have tSurvey : (reversedState d t).survey = s.survey := survey
    have tOrders : (reversedState d t).orders = s.orders := orders
    simp only [tSurvey, tOrders] at ended idle surveyed
    have drive : ∀ n, (t.foil.map Foil.cleared).get n = (t.foil.get n).cleared := fun n => PerLane.get_map _ _ n
    refine ⟨_, reach _ (applied.trans (reversed.trans ended)), tStation, faults, ⟨l, ?_, fun none => (idle none).1⟩, ?_, rfl,
      rfl, rfl, (congrArg Track.serial tTrack : t.track.serial = s.track.serial),
      fun n => ⟨(congrArg Foil.records (drive n)).trans rfl, (congrArg Foil.remaining (drive n)).trans (tDrives n).1,
        (PerLane.get_mapLane _ _ n).trans (tDrives n).2⟩, rfl, rfl, rfl, fun other => ?_, notRunning, surveyed,
      fun none => ⟨(idle none).2.1, ?_⟩, mem, pins, bus, loader, web, readers, cnt, fun n => ?_⟩
    · show t.rep.offers ++ [(.rowTrack, .abandon .webReverse t.track.rows.length (endSerials t.track.rows))] ++ l = _
      rw [tOffers, tTrack, List.append_assoc, List.singleton_append]
    · show t.rep.latched ||| _ = _
      rw [tLatched]
    · rw [← tImp other]
      exact ⟨rfl, rfl, rfl⟩
    · obtain ⟨_, _, kept⟩ := idle none
      rw [kept]
    · refine (PerLane.get_mapLane _ _ n).trans ?_
      rw [tLanes]
      simp only [State.laneActive, tLoaded]
      rfl

end Sys2Proof.Machine

/-! SUPPORT. The Foil Drives and the Web Counter: what an advance of the web and its reverse do (R67 to R70, R158, R165). -/

namespace Sys2Proof.Machine

/-! ## What stepping a drive leaves alone -/

/-- `t` comes from `s` by stepping and stopping pulls: the mode, the standing orders, the drives, the pull reports, the
reports offered and the causes latched alone move. -/
structure Drove (s t : State) : Prop where
  eq : t = { s with
    station := t.station
    orders := { s.orders with slots := t.orders.slots }
    foil := t.foil
    msgs := { s.msgs with pulls := t.msgs.pulls }
    rep := { s.rep with offers := t.rep.offers, latched := t.rep.latched, dirty := t.rep.dirty } }

theorem Drove.refl (s : State) : Drove s s := ⟨rfl⟩

theorem Drove.trans {s t u : State} (h : Drove s t) (k : Drove t u) : Drove s u := by
  have e := k.eq
  rw [h.eq] at e
  exact ⟨e⟩

theorem WoundDown.drove {s t : State} (h : WoundDown s t) : Drove s t := by
  have foil : t.foil = s.foil := by rw [h.eq]
  have msgs : t.msgs = s.msgs := by rw [h.eq]
  constructor
  rw [foil, msgs]
  exact h.eq

theorem drove_runOut (n : Lane) (s : State) : Drove s (runOut n s) := by
  have stops : Drove s (stopPull n (setFoil n { s.foil.get n with out := true } s)) := by
    refine Drove.trans (t := setFoil n { s.foil.get n with out := true } s) ⟨rfl⟩ ?_
    rw [stopPull_eq]
    split
    · exact Drove.trans (t := pullLeft n (setFoil n { s.foil.get n with out := true } s)) ⟨rfl⟩
        (woundDown_testWindDown _).drove
    · exact .refl _
  unfold runOut
  dsimp only
  split
  · exact stops
  · exact stops.trans ⟨rfl⟩

theorem drove_testLow (c : Loaded) (n : Lane) (s : State) : Drove s (testLow c n s) := by
  unfold testLow
  dsimp only
  split
  · exact ⟨rfl⟩
  · exact .refl s

theorem drove_stepLoop (c : Loaded) (n : Lane) (fuel : Nat) (s : State) : Drove s (stepLoop c n fuel s) := by
  induction fuel generalizing s with
  | zero => exact .refl s
  | succ fuel ih =>
    have once : Drove s (testLow c n (setFoil n ((s.foil.get n).stepOnce c.hdr.ratioDen) s)) :=
      .trans (t := setFoil n ((s.foil.get n).stepOnce c.hdr.ratioDen) s) ⟨rfl⟩ (drove_testLow ..)
    unfold stepLoop
    dsimp only
    split
    · split
      · exact once.trans (drove_runOut ..)
      · exact once.trans (ih _)
    · exact .refl s

theorem drove_foilAdvance (c : Loaded) (n : Lane) (s : State) : Drove s (foilAdvance c n s) := by
  unfold foilAdvance
  dsimp only
  split
  · exact .trans (t := setFoil n { s.foil.get n with acc := (s.foil.get n).acc + c.hdr.ratioNum } s) ⟨rfl⟩
      (drove_stepLoop ..)
  · exact .refl s

theorem drove_advances (c : Loaded) (s : State) : Drove s (forLanes (foilAdvance c) s) :=
  (((drove_foilAdvance c 0 s).trans (drove_foilAdvance c 1 _)).trans (drove_foilAdvance c 2 _)).trans
    (drove_foilAdvance c 3 _)

theorem foilAdvance_of_idle {c : Loaded} {n : Lane} {s : State} (idle : (s.foil.get n).activePull = false) :
    foilAdvance c n s = s := by
  simp only [foilAdvance, idle, Bool.false_and, Bool.false_eq_true, if_false]

/-! ## The lanes-down tests after an advance (R165) -/

/-- The fault of a lane that ran out since `old`, with the lanes down. -/
def ranOutFault (c : Loaded) (old s : State) (n : Lane) : List RaisedFault :=
  if old.station.mode = .run ∧ (old.drive n).out = false ∧ (s.drive n).out = true ∧
      ∀ m : Lane, c.hdr.active m = true → (s.lane m).state = .blocked ∨ (s.drive m).faulty = true
    then [⟨.allLanesDown, none⟩] else []

theorem testRunOut_eq {c : Loaded} (old : State) (n : Lane) {s : State} (loaded : s.loader.loaded = some c) :
    testRunOut old n s = { s with msgs := { s.msgs with faults := s.msgs.faults ++ ranOutFault c old s n } } := by
  have test : (old.station.mode = .run && !(old.foil.get n).out && (s.foil.get n).out && lanesDown s) = true ↔
      old.station.mode = .run ∧ (old.drive n).out = false ∧ (s.drive n).out = true ∧
      ∀ m : Lane, c.hdr.active m = true → (s.lane m).state = .blocked ∨ (s.drive m).faulty = true := by
    rw [Bool.and_eq_true, Bool.and_eq_true, Bool.and_eq_true, decide_eq_true_iff, Bool.not_eq_true', lanesDown_iff loaded,
      and_assoc, and_assoc]
    rfl
  rw [testRunOut, ranOutFault]
  by_cases raised : old.station.mode = .run ∧ (old.drive n).out = false ∧ (s.drive n).out = true ∧
      ∀ m : Lane, c.hdr.active m = true → (s.lane m).state = .blocked ∨ (s.drive m).faulty = true
  · rw [if_pos (test.2 raised), if_pos raised]
    rfl
  · rw [if_neg fun yes => raised (test.1 yes), if_neg raised, List.append_nil]

theorem forLanes_testRunOut {c : Loaded} (old : State) {s : State} (loaded : s.loader.loaded = some c) :
    forLanes (testRunOut old) s = { s with msgs := { s.msgs with
      faults := s.msgs.faults ++ ranOutFault c old s 0 ++ ranOutFault c old s 1 ++ ranOutFault c old s 2 ++
        ranOutFault c old s 3 } } := by
  unfold forLanes
  rw [testRunOut_eq old 0 loaded, testRunOut_eq old 1 (by exact loaded), testRunOut_eq old 2 (by exact loaded),
    testRunOut_eq old 3 (by exact loaded)]
  rfl

theorem testRunOut_same (n : Lane) (s : State) : testRunOut s n s = s := by
  rw [testRunOut, if_neg]
  cases (s.foil.get n).out <;> simp

/-! ## Counts -/

theorem forwardCount_of_ahead {s : State} (working : s.station.mode.working = true)
    (ahead : 0 < (s.web.pos + 1 - s.web.high).toInt) :
    forwardCount s = advanceWeb { s with pins := s.pins.forward, web := { s.web with pos := s.web.pos + 1 } } := by
  have notBypass : s.station.mode ≠ .bypass := by
    intro bypass
    rw [bypass] at working
    exact Bool.false_ne_true working
  rw [forwardCount, if_neg notBypass]
  dsimp only
  rw [if_pos working, isAfter, if_pos (by exact decide_eq_true ahead)]

theorem toInt_sub_eq_zero_iff (a b : Pos) : (a - b).toInt = 0 ↔ a = b := by
  rw [← BitVec.toInt_zero (w := 32), BitVec.toInt_inj]
  exact sub_eq_zero

/-- Settles O42. -/
theorem webForwardCount : Obligations.WebForwardCount := by
  refine ⟨fun s => ?_, fun p h => ?_⟩
  · intro p ahead turned answers
    have reach : ∀ u, forwardCount s = u → answers u := by
      rintro u rfl
      rfl
    have notBypass : s.station.mode.working = true → s.station.mode ≠ .bypass := by
      intro working bypass
      rw [bypass] at working
      exact Bool.false_ne_true working
    refine ⟨fun bypass => reach _ ?bypass, fun active idle => reach _ ?idle, fun working after still => reach _ ?still,
      fun c loaded working after => ?advance, fun working level => reach _ ?level, fun working behind => reach _ ?behind⟩
    case bypass => rw [forwardCount, if_pos bypass]
    case idle =>
      rw [forwardCount, if_neg active]
      dsimp only
      rw [if_neg (by rw [idle]; exact Bool.false_ne_true)]
      rfl
    case still =>
      rw [forwardCount_of_ahead working after, advanceWeb]
      dsimp only
      split
      next c loaded =>
        have same : ∀ t : State, (∀ n, (t.foil.get n).activePull = false) →
            forLanes (testRunOut t) (forLanes (foilAdvance c) t) = t := by
          intro t idle
          unfold forLanes
          rw [foilAdvance_of_idle (idle 0), foilAdvance_of_idle (idle 1), foilAdvance_of_idle (idle 2),
            foilAdvance_of_idle (idle 3), testRunOut_same, testRunOut_same, testRunOut_same, testRunOut_same]
        rw [same _ (by exact still)]
        rfl
      next => rfl
    case advance =>
      intro v raised
      refine reach _ ?_
      rw [forwardCount_of_ahead working after, advanceWeb]
      have frame := (drove_advances c { s with pins := turned, web := { pos := p, high := p, behind := false } }).eq
      change v = _ at frame
      change reachPositions (match s.loader.loaded with
        | some c => forLanes (testRunOut { s with pins := turned, web := { pos := p, high := p, behind := false } })
            (forLanes (foilAdvance c) { s with pins := turned, web := { pos := p, high := p, behind := false } })
        | none => _) = _
      rw [loaded]
      change reachPositions (forLanes (testRunOut _) v) = _
      have lanes : v.lanes = s.lanes := by rw [frame]
      have web : v.web = { pos := p, high := p, behind := false } := by rw [frame]
      rw [forLanes_testRunOut _ (by rw [frame]; exact loaded)]
      have faults : ∀ n, ranOutFault c { s with pins := turned, web := { pos := p, high := p, behind := false } } v n =
          raised n := fun n => by
        unfold ranOutFault State.lane
        rw [lanes]
        rfl
      rw [faults, faults, faults, faults, reachPositions]
      dsimp only
      rw [web]
    case level =>
      have notAfter : ¬ 0 < delta (s.web.pos + 1) s.web.high := fun after => (ne_of_gt after) level
      rw [forwardCount, if_neg (notBypass working)]
      dsimp only
      rw [if_pos working, isAfter, if_neg (by rw [decide_eq_true_iff]; exact notAfter),
        if_pos ((toInt_sub_eq_zero_iff _ _).1 level)]
      rfl
    case behind =>
      have notAfter : ¬ 0 < delta (s.web.pos + 1) s.web.high := fun after => lt_asymm after behind
      rw [forwardCount, if_neg (notBypass working)]
      dsimp only
      rw [if_pos working, isAfter, if_neg (by rw [decide_eq_true_iff]; exact notAfter), if_neg]
      · rfl
      · intro level
        exact ne_of_lt behind ((toInt_sub_eq_zero_iff _ _).2 level)
  · unfold Held.advance
    split
    next at_ => simp [at_]
    next other => simp [other]

end Sys2Proof.Machine

/-! SUPPORT. Backward counts, and the steps of a drive (R68, R70, R78, R83, R158, R163, R167). -/

namespace Sys2Proof.Machine

/-- The read in hand that a backward count to `p` gives up: its trailing edge lies after `p` (R83). -/
def Reader.leftBehind (p : Pos) (r : Reader) : Option ReadInHand :=
  if r.state = .code then r.read.filter fun x => decide (0 < (x.trailing - p).toInt) else none

/-- The state in which the reader of a lane has given up a read, if any: it is handed UNREAD with ABORT and counted. -/
def abortRead (n : Lane) (left : Option ReadInHand) (s : State) : State :=
  { s with
    readers := s.readers.set n
      (if left.isSome then { s.readers.get n with state := .seek, read := none } else s.readers.get n)
    msgs := { s.msgs with reads := s.msgs.reads.set n (match left with
      | some x => s.msgs.reads.get n ++ [⟨.accepted, x.markPos, some x.width, x.cls, .unread .abort⟩]
      | none => s.msgs.reads.get n) }
    cnt := { s.cnt with unread := s.cnt.unread + BitVec.ofNat 32 (if left.isSome then 1 else 0) } }

theorem abortRead_none (n : Lane) (s : State) : abortRead n none s = s := by
  have same : s.cnt.unread + BitVec.ofNat 32 0 = s.cnt.unread := BitVec.add_zero _
  simp only [abortRead, Option.isSome_none, Bool.false_eq_true, if_false, PerLane.set_get, same]

theorem backwardReader_eq (n : Lane) (s : State) :
    backwardReader n s = abortRead n ((s.readers.get n).leftBehind s.web.pos) s := by
  unfold backwardReader
  dsimp only
  cases read : (s.readers.get n).read with
  | none =>
    have kept : (s.readers.get n).leftBehind s.web.pos = none := by simp [Reader.leftBehind, read]
    rw [kept, abortRead_none]
    cases (s.readers.get n).state <;> rfl
  | some x =>
    by_cases coding : (s.readers.get n).state = .code
    · have filtered : (s.readers.get n).leftBehind s.web.pos =
          if 0 < (x.trailing - s.web.pos).toInt then some x else none := by
        simp only [Reader.leftBehind, coding, if_true, read, Option.filter_some, decide_eq_true_eq]
      have test : isAfter x.trailing s.web.pos = true ↔ 0 < (x.trailing - s.web.pos).toInt := decide_eq_true_iff
      simp only [coding, filtered]
      by_cases after : 0 < (x.trailing - s.web.pos).toInt
      · rw [if_pos (test.2 after), if_pos after]
        rfl
      · rw [if_neg fun yes => after (test.1 yes), if_neg after, abortRead_none]
    · have kept : (s.readers.get n).leftBehind s.web.pos = none := by simp [Reader.leftBehind, coding]
      rw [kept, abortRead_none]
      revert coding
      cases (s.readers.get n).state with
      | code => exact fun other => absurd rfl other
      | idle | seek | pulse => exact fun _ => rfl

theorem count_lanes (p : Lane → Bool) (x : Word) :
    x + BitVec.ofNat 32 (if p 0 then 1 else 0) + BitVec.ofNat 32 (if p 1 then 1 else 0) +
      BitVec.ofNat 32 (if p 2 then 1 else 0) + BitVec.ofNat 32 (if p 3 then 1 else 0) =
      x + BitVec.ofNat 32 (([0, 1, 2, 3] : List Lane).filter p).length := by
  rw [← List.countP_eq_length_filter]
  simp only [List.countP_cons, List.countP_nil, BitVec.add_assoc, ← BitVec.ofNat_add]
  congr 2
  omega

theorem forLanes_backwardReader (s : State) :
    let left := fun n : Lane => (s.readers.get n).leftBehind s.web.pos
    forLanes backwardReader s = { s with
      readers := s.readers.mapLane fun n r => if (left n).isSome then { r with state := .seek, read := none } else r
      msgs := { s.msgs with
        reads := s.msgs.reads.mapLane fun n l => match left n with
          | some x => l ++ [⟨.accepted, x.markPos, some x.width, x.cls, .unread .abort⟩]
          | none => l }
      cnt := { s.cnt with unread :=
        s.cnt.unread + BitVec.ofNat 32 (([0, 1, 2, 3] : List Lane).filter fun n => (left n).isSome).length } } := by
  intro left
  rw [← count_lanes]
  unfold forLanes
  rw [backwardReader_eq 0, backwardReader_eq 1, backwardReader_eq 2, backwardReader_eq 3]
  rfl

/-- Settles O43. -/
theorem webBackwardCount : Obligations.WebBackwardCount := by
  intro s p turned answers
  have reach : ∀ u, backwardCount s = u → answers u := by
    rintro u rfl
    rfl
  have notBypass : s.station.mode.working = true → s.station.mode ≠ .bypass := by
    intro working bypass
    rw [bypass] at working
    exact Bool.false_ne_true working
  have counted : ∀ c, s.loader.loaded = some c → s.station.mode.working = true →
      let u := { s with pins := turned, web := { s.web with pos := p, behind := true } }
      backwardCount s = if (c.hdr.reverseTolerance.toNat : Int) < (s.web.high - p).toInt then reverseBeyond u
        else forLanes backwardReader u := by
    intro c loaded working u
    rw [backwardCount, if_neg (notBypass working)]
    dsimp only
    rw [if_pos working, withLoaded, loaded]
    rfl
  refine ⟨fun bypass => ⟨reach _ ?bypass, ?stays⟩, fun active => ?double, fun active idle => reach _ ?idle,
    fun c loaded working within => ?within, fun c loaded working beyond => reach _ ?beyond⟩
  case bypass => rw [backwardCount, if_pos bypass]
  case stays =>
    change Host.Outcome.next (finish s (doubleChange s)) = _
    rw [doubleChange, if_pos bypass]
  case double =>
    change Host.Outcome.next (finish s (doubleChange s)) = _
    rw [doubleChange, if_neg active]
  case idle =>
    rw [backwardCount, if_neg active]
    dsimp only
    rw [if_neg (by rw [idle]; exact Bool.false_ne_true)]
    rfl
  case within =>
    intro left
    refine reach _ ?_
    rw [counted c loaded working, if_neg (not_lt.2 within), forLanes_backwardReader]
    rfl
  case beyond =>
    rw [counted c loaded working, if_pos beyond]
    have reverse : ∀ r : Reader, r.reverse =
        if r.state = .idle then r else { Reader.reset with state := .seek } := by
      intro r
      rw [Reader.reverse]
      cases r.state <;> rfl
    simp only [reverseBeyond, raiseFault, setHighWater, funext reverse]

end Sys2Proof.Machine

/-! SUPPORT. Geared stepping on one advance: the steps due are issued, or the lane runs out (R158, R162, R163, R167). -/

namespace Sys2Proof.Machine

/-- The low threshold is met by the `k`-th step of a drive, the last of them. -/
def Foil.lowAfter (c : Loaded) (k : Nat) (f : Foil) : Bool :=
  f.lowArmed && decide (0 < k ∧ f.remaining.toNat - k < c.hdr.foilLow.toNat)

/-- A drive after an advance and `k` steps. -/
def Foil.advanced (c : Loaded) (k : Nat) (f : Foil) : Foil :=
  { f with
    records := creditSteps k f.records, acc := f.acc + c.hdr.ratioNum - k * c.hdr.ratioDen
    remaining := f.remaining - BitVec.ofNat 32 k, fstep := f.fstep + k, lowArmed := f.lowArmed && !f.lowAfter c k }

/-- The state in which lane `n` has advanced by `k` steps. -/
def advanced (c : Loaded) (n : Lane) (k : Nat) (s : State) : State :=
  { s with
    foil := s.foil.set n ((s.foil.get n).advanced c k)
    rep := { s.rep with latched := s.rep.latched ||| if (s.foil.get n).lowAfter c k then Cause.foilLow.mask else 0 } }

theorem stepped_setFoil (c : Loaded) (n : Lane) (k : Nat) (s : State) :
    stepped c n k (setFoil n { s.foil.get n with acc := (s.foil.get n).acc + c.hdr.ratioNum } s) = advanced c n k s := by
  simp only [stepped, setFoil, PerLane.set_set, PerLane.get_set_same]
  rfl

section
variable {c : Loaded} {n : Lane} {s : State}

theorem foilAdvance_of_active (den : 0 < c.hdr.ratioDen) (active : (s.foil.get n).activePull = true)
    (running : ∀ h, (s.foil.get n).pullEnd = some h → h.reached = false) (some : (s.foil.get n).remaining ≠ 0) :
    let due := ((s.foil.get n).acc + c.hdr.ratioNum) / c.hdr.ratioDen
    let left := (s.foil.get n).remaining.toNat
    foilAdvance c n s = if due < left then advanced c n due s else runOut n (advanced c n left s) := by
  intro due left
  have notReached : isReached (s.foil.get n).pullEnd = false := by
    unfold isReached
    split
    next h held => exact running h held
    next => rfl
  have drive : (setFoil n { s.foil.get n with acc := (s.foil.get n).acc + c.hdr.ratioNum } s).foil.get n =
      { s.foil.get n with acc := (s.foil.get n).acc + c.hdr.ratioNum } := PerLane.get_set_same ..
  have loop := stepLoop_eq c n den due (by rw [drive]; exact some)
  simp only [drive, stepped_setFoil] at loop
  simp only [foilAdvance, active, notReached, Bool.not_false, Bool.and_self, if_true]
  exact loop le_rfl

theorem foilAdvance_of_reached {h : Held} (pullEnd : (s.foil.get n).pullEnd = some h) (reached : h.reached = true) :
    foilAdvance c n s = s := by
  simp only [foilAdvance, pullEnd, isReached, reached, Bool.not_true, Bool.and_false, Bool.false_eq_true, if_false]

theorem Foil.activePull_advanced (k : Nat) (f : Foil) : (f.advanced c k).activePull = f.activePull :=
  creditSteps_any k f.records

theorem Foil.remaining_advanced {k : Nat} {f : Foil} (le : k ≤ f.remaining.toNat) :
    (f.advanced c k).remaining.toNat = f.remaining.toNat - k := by
  have small : (BitVec.ofNat 32 k).toNat = k := Nat.mod_eq_of_lt (lt_of_le_of_lt le f.remaining.isLt)
  show (f.remaining - BitVec.ofNat 32 k).toNat = _
  rw [BitVec.toNat_sub_of_le (by rw [BitVec.le_def, small]; exact le), small]

/-- The records of a drive with the credit of `steps` steps given to the SERVED record latest in the list (R158). -/
def Foil.Credited (f : Foil) (steps : Nat) (l : List PullRec) : Prop :=
  (∀ pre r post, f.records = pre ++ r :: post → r.served = true → r.ownEnd.reached = false →
    (∀ y ∈ post, ¬ (y.served = true ∧ y.ownEnd.reached = false)) →
    l = pre ++ { r with credit := r.credit + BitVec.ofNat 32 steps } :: post) ∧
  ((∀ y ∈ f.records, ¬ (y.served = true ∧ y.ownEnd.reached = false)) → l = f.records)

theorem Foil.credited_creditSteps (f : Foil) (k : Nat) : f.Credited k (creditSteps k f.records) := by
  refine ⟨fun pre r post records served running later => ?_, creditSteps_none k⟩
  rw [records]
  exact creditSteps_split k served running later

end

/-- A drive that ran out: OUT is added, and no SERVED record is left. -/
def Foil.ranOut (f : Foil) : Foil := { f.stopped with out := true }

/-- The state in which a lane has run out, before the wind-down is tested. -/
def ranOutState (n : Lane) (s : State) : State :=
  { s with
    foil := s.foil.set n (s.foil.get n).ranOut
    msgs := { s.msgs with pulls := s.msgs.pulls.set n (s.msgs.pulls.get n ++ (s.foil.get n).stopReports) }
    rep := { s.rep with dirty := true } }

theorem runOut_of_active {n : Lane} {s : State} (active : (s.foil.get n).activePull = true) :
    let v := testWindDown (ranOutState n s)
    runOut n s = { v with rep := { v.rep with
      latched := v.rep.latched ||| (if (s.foil.get n).out then 0 else Cause.foil.mask) } } := by
  intro v
  rw [runOut_eq n active]
  simp only [pullLeft, setFoil, PerLane.set_set, PerLane.get_set_same]
  rfl

/-- The state in which lane `n` has advanced by `k` steps and run out at the last, before the wind-down is tested. -/
def advancedOut (c : Loaded) (n : Lane) (k : Nat) (s : State) : State :=
  let f := (s.foil.get n).advanced c k
  { s with
    foil := s.foil.set n f.ranOut
    msgs := { s.msgs with
      pulls := s.msgs.pulls.set n (s.msgs.pulls.get n ++ f.stopReports) }
    rep := { s.rep with
      dirty := true
      latched := s.rep.latched ||| if (s.foil.get n).lowAfter c k then Cause.foilLow.mask else 0 } }

theorem ranOutState_advanced (c : Loaded) (n : Lane) (k : Nat) (s : State) :
    ranOutState n (advanced c n k s) = advancedOut c n k s := by
  simp only [ranOutState, advanced, advancedOut, PerLane.set_set, PerLane.get_set_same]

theorem runOut_advanced (c : Loaded) {n : Lane} (k : Nat) {s : State} (active : (s.foil.get n).activePull = true) :
    let v := testWindDown (advancedOut c n k s)
    runOut n (advanced c n k s) = { v with rep := { v.rep with
      latched := v.rep.latched ||| (if (s.foil.get n).out then 0 else Cause.foil.mask) } } := by
  intro v
  have drive : (advanced c n k s).foil.get n = (s.foil.get n).advanced c k := PerLane.get_set_same ..
  rw [runOut_of_active (by rw [drive, Foil.activePull_advanced]; exact active), drive, ranOutState_advanced]
  rfl

/-- Latched causes hold a mask that was added to them. -/
theorem or_mask_and (x m : BitVec 12) : (x ||| m) &&& m = m := by
  have := latched_and x 0 m
  rwa [or_no_cause] at this

theorem testWindDown_drive (s : State) :
    (testWindDown s).foil = s.foil ∧ (testWindDown s).msgs = s.msgs := by
  rw [(woundDown_testWindDown s).eq]
  exact ⟨rfl, rfl⟩

theorem testWindDown_latched (s : State) : ∃ x, (testWindDown s).rep.latched = s.rep.latched ||| x := by
  rcases (woundDown_testWindDown s).latched with same | order
  · exact ⟨0, by rw [same, or_no_cause]⟩
  · exact ⟨_, order⟩

/-- Settles O44. -/
theorem foilStepping : Obligations.FoilStepping := by
  intro c n s den
  refine ⟨?idle, fun active running some => ?steps, fun active => runOut_of_active active⟩
  case idle =>
    rintro (idle | ⟨h, pullEnd, reached⟩)
    · exact foilAdvance_of_idle idle
    · exact foilAdvance_of_reached pullEnd reached
  case steps =>
    refine ⟨_, rfl, ?_⟩
    intro acc due left steps credited
    have positive : 0 < left := Nat.pos_of_ne_zero fun zero => some (BitVec.eq_of_toNat_eq zero)
    have advance := foilAdvance_of_active den active running some
    change foilAdvance c n s = if due < left then advanced c n due s else runOut n (advanced c n left s) at advance
    have lowMet : ∀ k, 0 < k → (s.drive n).lowArmed = true → (s.drive n).remaining.toNat - k < c.hdr.foilLow.toNat →
        (s.drive n).lowAfter c k = true := fun k some armed below => by
      simp only [Foil.lowAfter, armed, some, below, and_self, decide_true, Bool.and_self]
    by_cases enough : due < left
    · have fewer : steps = due := Nat.min_eq_left enough.le
      rw [if_pos enough] at advance
      have drive : (advanced c n due s).drive n = (s.drive n).advanced c due := PerLane.get_set_same ..
      rw [advance, fewer, drive]
      refine ⟨fun m other => PerLane.get_set_ne _ _ _ _ other, rfl, Foil.remaining_advanced enough.le, rfl,
        fun _ => ⟨?_, ?_, rfl, (Foil.activePull_advanced due _).trans active, rfl, rfl⟩,
        fun few => absurd few (not_le.2 enough), fun armed any below => ?_⟩
      · exact (Nat.mod_eq_sub_div_mul).symm
      · rw [show credited = (s.drive n).Credited due by rw [← fewer]; rfl]
        exact Foil.credited_creditSteps _ due
      · rw [Foil.remaining_advanced enough.le] at below
        have low := lowMet due any armed below
        refine ⟨?_, ?_⟩
        · show ((s.drive n).lowArmed && !(s.drive n).lowAfter c due) = false
          rw [low, Bool.not_true, Bool.and_false]
        · show (s.rep.latched ||| if (s.drive n).lowAfter c due then Cause.foilLow.mask else 0) &&& _ = _
          rw [low]
          exact or_mask_and ..
    · have all : steps = left := Nat.min_eq_right (not_lt.1 enough)
      rw [if_neg enough] at advance
      rw [runOut_advanced c left active] at advance
      have low : (s.drive n).lowAfter c left = ((s.drive n).lowArmed && decide (0 < c.hdr.foilLow.toNat)) := by
        rw [Foil.lowAfter, show (s.drive n).remaining.toNat = left from rfl, Nat.sub_self]
        simp only [positive, true_and]
      obtain ⟨foil, msgs⟩ := testWindDown_drive (advancedOut c n left s)
      obtain ⟨x, latched⟩ := testWindDown_latched (advancedOut c n left s)
      have drive : (foilAdvance c n s).drive n = ((s.drive n).advanced c left).ranOut := by
        rw [advance]
        exact (congrArg (PerLane.get · n) foil).trans (PerLane.get_set_same ..)
      have uMsgs : (foilAdvance c n s).msgs = (advancedOut c n left s).msgs := by
        rw [advance]
        exact msgs
      have remaining : (((s.drive n).advanced c left).ranOut).remaining.toNat = 0 :=
        (Foil.remaining_advanced (c := c) le_rfl).trans (Nat.sub_self _)
      have uLatched : (foilAdvance c n s).rep.latched = s.rep.latched |||
          (if (s.drive n).lowAfter c left then Cause.foilLow.mask else 0) ||| x |||
          (if (s.drive n).out then 0 else Cause.foil.mask) := by
        rw [advance]
        show (testWindDown (advancedOut c n left s)).rep.latched ||| _ = _
        rw [latched]
        rfl
      rw [drive, all]
      refine ⟨fun m other => ?_, by rw [uMsgs]; rfl, by rw [remaining, Nat.sub_self], rfl,
        fun few => absurd few enough, fun _ => ⟨BitVec.eq_of_toNat_eq remaining, rfl, Foil.activePull_stopped _, rfl, rfl,
          fun dry => ?_, ⟨creditSteps left (s.drive n).records, ?_, rfl, by rw [uMsgs]; rfl⟩, ?_⟩, fun armed any below => ?_⟩
      · rw [advance]
        exact (congrArg (PerLane.get · m) foil).trans (PerLane.get_set_ne _ _ _ _ other)
      · rw [uLatched, dry]
        exact or_mask_and ..
      · rw [show credited = (s.drive n).Credited left by rw [← all]; rfl]
        exact Foil.credited_creditSteps _ left
      · have same : { s with
            foil := (foilAdvance c n s).foil, msgs := (foilAdvance c n s).msgs
            rep := { s.rep with
              dirty := true
              latched := s.rep.latched |||
                (if (s.drive n).lowArmed && decide (0 < c.hdr.foilLow.toNat) then Cause.foilLow.mask else 0) } } =
            advancedOut c n left s := by
          rw [uMsgs, ← low, advance]
          show { s with foil := (testWindDown (advancedOut c n left s)).foil, msgs := _, rep := _ } = _
          rw [foil]
          rfl
        rw [same]
        exact advance
      · rw [remaining] at below
        have met : (s.drive n).lowAfter c left = true := by rw [low, armed, decide_eq_true below, Bool.and_self]
        refine ⟨?_, ?_⟩
        · show ((s.drive n).lowArmed && !(s.drive n).lowAfter c left) = false
          rw [met, Bool.not_true, Bool.and_false]
        · rw [uLatched, met, BitVec.or_assoc (x := s.rep.latched ||| _)]
          exact latched_and ..

end Sys2Proof.Machine

/-! SUPPORT. The Mark Readers: edges, windows, the code, and splice detection (R73 to R85). -/

namespace Sys2Proof.Machine

theorem withLoaded_of_loaded {s : State} {c : Loaded} (loaded : s.loader.loaded = some c) (f : Loaded → State) :
    withLoaded s f = f c := by
  rw [withLoaded, loaded]

theorem withLoaded_of_same {s : State} {f : Loaded → State} (same : ∀ c, f c = s) : withLoaded s f = s := by
  unfold withLoaded
  split
  · exact same _
  · rfl

theorem isAfter_eq_false_iff (a b : Pos) : isAfter a b = false ↔ (a - b).toInt ≤ 0 := by
  rw [isAfter, delta, decide_eq_false_iff_not, not_lt]

/-! ## Leading edges -/

theorem candidateAt_iff (c : Loaded) (lane : LaneState) (expected : Option Pos) (x : Pos) :
    candidateAt c lane expected x = true ↔ expected = none ∨ lane = .hunt ∨ ∃ e, expected = some e ∧
      (e - c.hdr.windowEarly - x).toInt ≤ 0 ∧ (x - (e + c.hdr.windowLate)).toInt ≤ 0 := by
  cases expected with
  | none => simp [candidateAt]
  | some e =>
    rw [candidateAt, Bool.or_eq_true, beq_iff_eq, insideWindow, Bool.and_eq_true, Bool.not_eq_true', Bool.not_eq_true',
      isAfter_eq_false_iff, isAfter_eq_false_iff]
    simp

/-- Settles O45, state by state. -/
theorem markLeadingEdge : Obligations.MarkLeadingEdge := by
  intro n s r x dark run answers
  have reach : ∀ u, leadingEdge n s = u → answers u := by
    rintro u rfl
    rfl
  refine ⟨fun stays => reach _ ?_, fun light => ⟨fun quiet => reach _ ?_, fun c loaded clear code => reach _ ?_,
    fun c loaded clear seek => ⟨_, reach _ ?_, candidateAt_iff c (s.lane n).state r.expected x⟩⟩⟩
  · rw [leadingEdge, if_pos stays]
  all_goals
    rw [leadingEdge, if_neg (by rw [light]; exact Bool.false_ne_true)]
    dsimp only
  · refine withLoaded_of_same fun c => ?_
    rcases quiet with behind | idle | pulse
    · rw [if_pos behind]
    · split
      · rfl
      · rw [show (s.readers.get n).state = .idle from idle]
    · split
      · rfl
      · rw [show (s.readers.get n).state = .pulse from pulse]
  · rw [withLoaded_of_loaded (by exact loaded), if_neg (by rw [clear]; exact Bool.false_ne_true),
      show (s.readers.get n).state = .code from code]
    rfl
  · rw [withLoaded_of_loaded (by exact loaded), if_neg (by rw [clear]; exact Bool.false_ne_true),
      show (s.readers.get n).state = .seek from seek]
    rfl

/-! ## Trailing edges -/

theorem lightReturn_eq (n : Lane) (s : State) :
    let r := s.readers.get n
    lightReturn n s = { s with
      readers := s.readers.set n { r with spliceOpen := r.spliceOpen && s.web.behind }
      msgs := { s.msgs with
        splices := if r.spliceOpen && !s.web.behind then
            s.msgs.splices.set n (s.msgs.splices.get n ++ [.lightReturn s.web.pos])
          else s.msgs.splices } } := by
  intro r
  unfold lightReturn
  dsimp only
  split
  next returns =>
    obtain ⟨isOpen, clear⟩ := Bool.and_eq_true_iff.1 returns
    rw [Bool.not_eq_true'] at clear
    simp only [handSplice, setReader, clear, Bool.and_false]
    rfl
  next stays =>
    have same : (r.spliceOpen && s.web.behind) = r.spliceOpen := by
      revert stays
      show ¬ (r.spliceOpen && !s.web.behind) = true → _
      cases r.spliceOpen <;> cases s.web.behind <;> decide
    rw [same]
    show s = { s with readers := s.readers.set n (s.readers.get n) }
    rw [PerLane.set_get]

/-- A mark missed at the expected position `e` (R76). -/
theorem missMark_of_expected (c : Loaded) {n : Lane} {s : State} {e : Pos} (expected : (s.readers.get n).expected = some e) :
    missMark c n s = { s with
      readers := s.readers.set n (expectAt c s.web.high (e + c.hdr.nominalPitch) (s.readers.get n))
      msgs := { s.msgs with
        reads := s.msgs.reads.set n (s.msgs.reads.get n ++ [⟨.flywheel, e, none, none, .absent⟩]) }
      cnt := { s.cnt with misses := s.cnt.misses + 1 } } := by
  simp only [missMark, expected]
  rfl

theorem endPulse_of_unmissed (c : Loaded) (n : Lane) {p : Pulse} (unmissed : p.candidate = false ∨ p.endPassed = false)
    (s : State) : endPulse c n p s = setReader n { s.readers.get n with state := .seek, pulse := none } s := by
  rw [endPulse, if_neg]
  rcases unmissed with h | h <;> simp [h]

theorem endPulse_of_missed {c : Loaded} {n : Lane} {p : Pulse} {s : State} {e : Pos} (candidate : p.candidate = true)
    (passed : p.endPassed = true) (expected : (s.readers.get n).expected = some e) :
    endPulse c n p s = { s with
      readers := s.readers.set n
        (expectAt c s.web.high (e + c.hdr.nominalPitch) { s.readers.get n with state := .seek, pulse := none })
      msgs := { s.msgs with
        reads := s.msgs.reads.set n (s.msgs.reads.get n ++ [⟨.flywheel, e, none, none, .absent⟩]) }
      cnt := { s.cnt with misses := s.cnt.misses + 1 } } := by
  rw [endPulse, candidate, passed, Bool.and_self, if_pos rfl,
    missMark_of_expected c (by simp only [setReader, PerLane.get_set_same]; exact expected)]
  simp only [setReader, PerLane.set_set, PerLane.get_set_same]

theorem surveyPulse_eq (n : Lane) (e : Pos) (s : State) : surveyPulse n e s = { s with
    survey := if s.survey.running && decide (0 < s.survey.q) then { s.survey with
        lanes := s.survey.lanes.set n ((s.survey.lanes.get n).pulse s.survey.q e) }
      else s.survey } := by
  unfold surveyPulse
  split <;> rfl

theorem pulseTrailing_of_discarded (c : Loaded) (n : Lane) {p : Pulse} {s : State}
    (discarded : s.web.behind = true ∨ (s.web.pos - p.lead).toNat < c.hdr.minMarkWidth.toNat) :
    pulseTrailing c n p s = endPulse c n p s := by
  unfold pulseTrailing
  dsimp only
  split
  · rfl
  next clear => rw [if_pos (discarded.resolve_left clear)]

theorem pulseTrailing_of_long (c : Loaded) (n : Lane) {p : Pulse} {s : State} (clear : s.web.behind = false)
    (long : c.hdr.minMarkWidth.toNat ≤ (s.web.pos - p.lead).toNat) :
    pulseTrailing c n p s = if p.candidate then acceptMark c n p (s.web.pos - p.lead).toNat (surveyPulse n p.lead s)
      else endPulse c n p (strayMark n (surveyPulse n p.lead s)) := by
  unfold pulseTrailing
  dsimp only
  rw [if_neg (by rw [clear]; exact Bool.false_ne_true), if_neg (not_lt.2 long)]

theorem classWalk_eq_some_iff (c : Loaded) (w i : Nat) : classWalk c w = some i ↔
    (∃ e, c.classes[i]? = some e ∧ w ≤ e.maxWidth) ∧ ∀ j < i, ∀ e, c.classes[j]? = some e → e.maxWidth < w := by
  rw [classWalk, List.findIdx?_eq_some_iff_getElem]
  simp only [decide_eq_true_eq, not_le]
  constructor
  · rintro ⟨lt, fits, before⟩
    refine ⟨⟨_, List.getElem?_eq_getElem lt, fits⟩, fun j less e found => ?_⟩
    obtain ⟨_, rfl⟩ := List.getElem?_eq_some_iff.1 found
    exact before j less
  · rintro ⟨⟨e, found, fits⟩, before⟩
    obtain ⟨lt, rfl⟩ := List.getElem?_eq_some_iff.1 found
    exact ⟨lt, fits, fun j less => before j less _ (List.getElem?_eq_getElem (less.trans lt))⟩

/-- Settles O46. -/
theorem markTrailingEdge : Obligations.MarkTrailingEdge := by
  refine ⟨?edge, fun c w => ⟨classWalk_eq_some_iff c w, fun i e found => ?found, fun e last => ?last⟩⟩
  case found => simp only [unitWidthOf, Option.bind_some, found]
  case last => simp only [unitWidthOf, Option.bind_none, last]
  case edge =>
    intro n s r x surveyed light ended msgs answers holding
    have reach : ∀ u, trailingEdge n s = u → answers u := by
      rintro u rfl
      rfl
    refine ⟨fun stays => reach _ ?_, fun mark idle => reach _ ?_, fun loaded mark waiting => reach _ ?_,
      fun c p loaded mark pulsing pulse => ?inPulse⟩
    · rw [trailingEdge, if_neg (by rw [stays]; exact Bool.false_ne_true)]
    · rw [trailingEdge, if_pos mark]
      refine withLoaded_of_same fun c => ?_
      dsimp only
      rw [show (s.readers.get n).state = .idle from idle]
    · obtain ⟨c, loaded⟩ := Option.isSome_iff_exists.1 loaded
      rw [trailingEdge, if_pos mark]
      dsimp only
      rw [withLoaded_of_loaded (by exact loaded)]
      rcases waiting with state | state
      all_goals
        rw [show (s.readers.get n).state = _ from state]
        dsimp only
        rw [lightReturn_eq]
        simp only [setReader, PerLane.set_set, PerLane.get_set_same]
        rfl
    case inPulse =>
      intro w done
      have taken : trailingEdge n s = lightReturn n (pulseTrailing c n p (setReader n r.endDark light)) := by
        rw [trailingEdge, if_pos mark]
        dsimp only
        rw [withLoaded_of_loaded (by exact loaded), show (s.readers.get n).state = .pulse from pulsing,
          show (s.readers.get n).pulse = some p from pulse]
        rfl
      refine ⟨fun discarded unmissed => reach _ ?_, fun e discarded candidate passed expected => reach _ ?_,
        fun clear long stray => reach _ ?_, fun clear long candidate => ?_⟩
      · rw [taken, pulseTrailing_of_discarded c n (by exact discarded), endPulse_of_unmissed c n unmissed, lightReturn_eq]
        simp only [setReader, PerLane.set_set, PerLane.get_set_same]
        rfl
      · rw [taken, pulseTrailing_of_discarded c n (by exact discarded), endPulse_of_missed candidate passed
          (e := e) (by simp only [setReader, PerLane.get_set_same]; exact expected), lightReturn_eq]
        simp only [setReader, PerLane.set_set, PerLane.get_set_same]
        rfl
      · rw [taken, pulseTrailing_of_long c n (by exact clear) (by exact long), if_neg (by rw [stray]; exact Bool.false_ne_true),
          surveyPulse_eq, endPulse_of_unmissed c n (.inl stray), lightReturn_eq]
        simp only [setReader, strayMark, giveStray, PerLane.set_set, PerLane.get_set_same]
        rfl
      · intro cls u
        refine reach _ ?_
        rw [taken, pulseTrailing_of_long c n (by exact clear) (by exact long), if_pos candidate, surveyPulse_eq, acceptMark,
          lightReturn_eq]
        simp only [setReader, PerLane.set_set, PerLane.get_set_same]
        rfl

end Sys2Proof.Machine

/-! SUPPORT. The positions a reader holds (R76, R80 to R82, R84, R85), and the Survey Unit (R188 to R191). -/

namespace Sys2Proof.Machine

section
variable {n : Lane} {s : State} {c : Loaded} {h : Held}

theorem windowEndTaken_of_reached (loaded : s.loader.loaded = some c) (held : (s.readers.get n).windowEnd = some h)
    (reached : h.reached = true) : windowEndTaken n s =
      if (s.lanes.get n).state = .hunt then setReader n (s.readers.get n).expectNothing s
      else match (s.readers.get n).pulse with
        | some p =>
          if (s.readers.get n).state == .pulse && p.candidate then
            setReader n { s.readers.get n with windowEnd := none, pulse := some { p with endPassed := true } } s
          else missMark c n s
        | none => missMark c n s := by
  rw [windowEndTaken, withLoaded_of_loaded loaded]
  dsimp only
  rw [held, isReached, if_pos reached] <;> rfl

theorem windowEndTaken_of_missed (loaded : s.loader.loaded = some c) (held : (s.readers.get n).windowEnd = some h)
    (reached : h.reached = true) (notHunt : (s.lanes.get n).state ≠ .hunt)
    (noCandidate : ∀ p, (s.readers.get n).state = .pulse → (s.readers.get n).pulse = some p → p.candidate = false) :
    windowEndTaken n s = missMark c n s := by
  rw [windowEndTaken_of_reached loaded held reached, if_neg notHunt]
  split
  next p pulse =>
    rw [if_neg]
    rw [Bool.and_eq_true, beq_iff_eq]
    rintro ⟨state, candidate⟩
    rw [noCandidate p state pulse] at candidate
    exact Bool.false_ne_true candidate
  next => rfl

theorem sampleTaken_of_reached {x : ReadInHand} (loaded : s.loader.loaded = some c)
    (reading : (s.readers.get n).read = some x) (next : x.nextSample = some h) (reached : h.reached = true) :
    sampleTaken n s = setReader n { s.readers.get n with
      read := some (sampleCell c.hdr.codeLength s.web.high (s.pins.mark.get n) h.pos x) } s := by
  rw [sampleTaken, withLoaded_of_loaded loaded]
  simp only [reading, next, if_pos reached]

theorem stopTaken_of_reached {x : ReadInHand} (reading : (s.readers.get n).read = some x)
    (reached : x.stop.reached = true) (sampled : x.nextSample = none) :
    stopTaken n s = handResult n x (stopResult (s.pins.mark.get n) x)
      (setReader n { s.readers.get n with state := .seek, read := none } s) := by
  simp only [stopTaken, reading, reached, sampled, Option.isNone_none, Bool.and_self, if_true]

theorem spliceDetected_of_reached {d : Pos} (dark : (s.readers.get n).darkStart = some d)
    (held : (s.readers.get n).spliceAt = some h) (reached : h.reached = true) :
    spliceDetected n s = handSplice n (.detection d) (setReader n { (s.readers.get n).expectNothing with
      state := .seek, pulse := none, read := none, spliceAt := none, spliceOpen := true }
      (abortForSplice n (s.readers.get n) s)) := by
  simp only [spliceDetected, dark, held, isReached, reached, if_true]

end

theorem surveyRead_eq (n : Lane) (mark stop : Pos) (s : State) : surveyRead n mark stop s = { s with
    survey := if s.survey.running && decide (0 < s.survey.q) then { s.survey with
        lanes := s.survey.lanes.set n ((s.survey.lanes.get n).complete s.survey.q mark stop) }
      else s.survey } := by
  unfold surveyRead
  split <;> rfl

/-- Settles O47, position by position. -/
theorem readerPositions : Obligations.ReaderPositions := by
  intro n s c loaded r holding handed unreadOne
  refine ⟨fun h held reached => ?windowEnd, fun x h reading next reached => ?sample,
    fun x reading reached sampled => ?stop, fun d h dark held reached => ?splice⟩
  case windowEnd =>
    intro answers
    have reach : ∀ u, windowEndTaken n s = u → answers u := by
      rintro u rfl
      rfl
    refine ⟨fun hunt => reach _ ?_, fun p notHunt state pulse candidate => reach _ ?_,
      fun e notHunt expected noCandidate => reach _ ?_⟩
    · rw [windowEndTaken_of_reached loaded held reached, if_pos (by exact hunt)]
      rfl
    · rw [windowEndTaken_of_reached loaded held reached, if_neg (by exact notHunt),
        show (s.readers.get n).pulse = some p from pulse, show (s.readers.get n).state = .pulse from state]
      dsimp only
      rw [candidate]
      rfl
    · rw [windowEndTaken_of_missed loaded held reached notHunt noCandidate, missMark_of_expected c expected]
      rfl
  case sample =>
    change Host.Outcome.next (finish s (sampleTaken n s)) = _
    rw [sampleTaken_of_reached loaded reading next reached]
    rfl
  case stop =>
    intro result
    change Host.Outcome.next (finish s (stopTaken n s)) = _
    rw [stopTaken_of_reached reading reached sampled]
    simp only [result, stopResult]
    cases cls : x.cls with
    | none =>
      simp only [if_true, true_or, Option.isSome_none, Bool.false_and, Bool.false_eq_true, if_false, handResult]
      rw [← cls]
      rfl
    | some i =>
      cases dark : s.pins.mark.get n with
      | true =>
        simp only [reduceCtorEq, if_true, if_false, or_true, Bool.not_true, Bool.and_false, Bool.false_and,
          Bool.false_eq_true, handResult]
        rw [← cls]
        rfl
      | false =>
        simp only [reduceCtorEq, if_false, or_false, Bool.not_false, Option.isSome_some, Bool.and_self, Bool.true_and,
          Bool.false_eq_true, handResult]
        rw [surveyRead_eq, ← cls]
        rfl
  case splice =>
    intro open_ seen answers
    have taken := spliceDetected_of_reached dark held reached
    have reach : ∀ u, spliceDetected n s = u → answers u := by
      rintro u rfl
      rfl
    refine ⟨fun quiet => reach _ ?_, fun p state pulse candidate => reach _ ?_, fun x state reading => reach _ ?_⟩
    · rcases quiet with state | ⟨p, state, pulse, noCandidate⟩
      · rw [taken, abortForSplice, show (s.readers.get n).state = .seek from state]
        rfl
      · rw [taken, abortForSplice, show (s.readers.get n).state = .pulse from state,
          show (s.readers.get n).pulse = some p from pulse]
        dsimp only
        rw [if_neg (by rw [noCandidate]; exact Bool.false_ne_true)]
        rfl
    · rw [taken, abortForSplice, show (s.readers.get n).state = .pulse from state,
        show (s.readers.get n).pulse = some p from pulse]
      dsimp only
      rw [if_pos candidate]
      rfl
    · rw [taken, abortForSplice, show (s.readers.get n).state = .code from state,
        show (s.readers.get n).read = some x from reading]
      rfl

/-! ## The Survey Unit -/

theorem rowCounted_iff (c : Loaded) (v : Survey) (r : Row) : rowCounted c v r = true ↔ ∀ n, c.hdr.active n = true →
    (∃ x, r.cells.get n = some x ∧ x.markKind = some .accepted ∧ x.status = .identified) ∧
      (v.lanes.get n).prevMark.isSome = true := by
  rw [rowCounted, allLanes_all_iff]
  refine forall_congr' fun n => active_imp_iff.trans (imp_congr_right fun _ => ?_)
  rw [Bool.and_eq_true]
  refine and_congr_left fun _ => ?_
  cases r.cells.get n with
  | none => simp [cellGood]
  | some x => simp [cellGood]

theorem noViolation_iff (c : Loaded) (v : Survey) :
    noViolation c v = true ↔ ∀ n, c.hdr.active n = true → (v.lanes.get n).violations = 0 := by
  rw [noViolation, allLanes_all_iff]
  exact forall_congr' fun n => active_imp_iff.trans (imp_congr_right fun _ => beq_iff_eq)

theorem inTrailingZone_iff (q : Nat) (stop e : Pos) :
    inTrailingZone q stop e = true ↔ 0 < (e - stop).toInt ∧ (e - stop).toInt ≤ q := by
  rw [inTrailingZone, Bool.and_eq_true, decide_eq_true_iff, decide_eq_true_iff]
  rfl

theorem inLeadingZone_iff (q : Nat) (mark e : Pos) :
    inLeadingZone q mark e = true ↔ 0 < (mark - e).toInt ∧ (mark - e).toInt ≤ q := by
  rw [inLeadingZone, Bool.and_eq_true, decide_eq_true_iff, decide_eq_true_iff]
  rfl

theorem pulse_of_watched {q : Nat} {e m stop : Pos} {l : SurveyLane} (watch : l.watch = some (m, stop))
    (zone : inTrailingZone q stop e = true) : l.pulse q e = l.violate (delta e m) := by
  simp only [SurveyLane.pulse, watch, zone, if_true]

theorem pulse_of_unwatched {q : Nat} {e : Pos} {l : SurveyLane}
    (outside : ∀ m stop, l.watch = some (m, stop) → ¬ inTrailingZone q stop e = true) :
    l.pulse q e = { l with recent := keepRecent e l.recent } := by
  unfold SurveyLane.pulse
  split
  next m stop watch => rw [if_neg (outside m stop watch)]
  next => rfl

/-- The edges of a mark's leading zone, oldest first, are violations (R189). -/
theorem leading_eq (q : Nat) (mark : Pos) (es : List Pos) (l : SurveyLane) :
    let inZone := es.filter fun e => decide (0 < (mark - e).toInt ∧ (mark - e).toInt ≤ q)
    (l.violations ≤ 65535 → (SurveyLane.leading q mark es l).violations = min 65535 (l.violations + inZone.length)) ∧
    (l.offsets.length ≤ 4 → (SurveyLane.leading q mark es l).offsets =
      (l.offsets ++ inZone.map fun e => (e - mark).toInt).take 4) := by
  induction es generalizing l with
  | nil =>
    refine ⟨fun small => ?_, fun few => ?_⟩
    · exact (Nat.min_eq_right small).symm
    · rw [List.filter_nil, List.map_nil, List.append_nil, List.take_of_length_le few]
      rfl
  | cons e t ih =>
    rw [SurveyLane.leading]
    by_cases zone : 0 < (mark - e).toInt ∧ (mark - e).toInt ≤ q
    · rw [if_pos ((inLeadingZone_iff q mark e).2 zone), List.filter_cons_of_pos (by exact decide_eq_true zone)]
      obtain ⟨violations, offsets⟩ := ih (l.violate (delta e mark))
      refine ⟨fun small => ?_, fun few => ?_⟩
      · have counted : (l.violate (delta e mark)).violations = min 65535 (l.violations + 1) := by
          show (if l.violations < 65535 then l.violations + 1 else l.violations) = _
          split <;> omega
        rw [violations (by omega), counted, List.length_cons]
        omega
      · by_cases room : l.offsets.length < 4
        · have kept : (l.violate (delta e mark)).offsets = l.offsets ++ [delta e mark] := if_pos room
          rw [offsets (by rw [kept, List.length_append]; exact room), kept, List.map_cons, List.append_assoc]
          rfl
        · have kept : (l.violate (delta e mark)).offsets = l.offsets := if_neg room
          have four : l.offsets.length = 4 := by omega
          rw [offsets (by rw [kept]; exact few), kept, List.take_append_of_le_length four.ge,
            List.take_append_of_le_length four.ge]
    · rw [if_neg fun yes => zone ((inLeadingZone_iff q mark e).1 yes),
        List.filter_cons_of_neg (by simpa using zone)]
      exact ih l

theorem endSurvey_eq (o : SurveyOutcome) {s : State} {c : Loaded} (loaded : s.loader.loaded = some c) :
    let lanes := s.survey.lanes.mapLane (endLane c (o == .pass) (2 ^ s.survey.k))
    endSurvey o s = { s with
      survey := { s.survey with running := false, outcome := o, lanes := lanes }
      orders := { s.orders with slots := { s.orders.slots with survey := none } }
      rep := { s.rep with
        offers := s.rep.offers ++ [(.survey, .survey o s.survey.k s.survey.q s.survey.counted s.survey.retired
          (lanes.map SurveyLane.figures))] ++
          (match s.orders.slots.survey with
            | some x => [(.orderUnit, .orderDone .survey x o.completion)]
            | none => [])
        latched := s.rep.latched ||| Cause.survey.mask |||
          if s.orders.slots.survey.isSome then Cause.order.mask else 0 } } := by
  intro lanes
  rw [endSurvey, withLoaded_of_loaded loaded]
  dsimp only
  rw [completeStanding_eq]
  rfl

theorem SurveyOutcome.completion_eq (o : SurveyOutcome) :
    o.completion = if o = .cancelled then .cancelled else .done := by cases o <;> rfl

/-- The lane of a survey at its end: the means of a PASS by floor (R191). -/
theorem endLane_eq (c : Loaded) (o : SurveyOutcome) (k : Nat) (n : Lane) (l : SurveyLane) :
    endLane c (o == .pass) (2 ^ k) n l = { l with
      recent := [], watch := none
      meanPitch := if o = .pass ∧ c.hdr.active n = true then some (l.pitchSum / 2 ^ k) else none
      meanSkew := if o = .pass ∧ c.hdr.active n = true ∧ n.val ≠ c.hdr.leadLane
        then some (l.skewSum / 2 ^ k) else none } := by
  have floor : ∀ x : Int, Int.fdiv x ((2 ^ k : Nat) : Int) = x / 2 ^ k := fun x => by
    rw [Int.fdiv_eq_ediv_of_nonneg x (Int.natCast_nonneg _)]
    norm_cast
  simp only [endLane, floor, Bool.and_eq_true, beq_iff_eq, bne_iff_ne, and_assoc]

/-- Settles O59. -/
theorem surveyUnit : Obligations.SurveyUnit := by
  refine ⟨fun c r v => ?takeRow, fun c s => ?test, fun q e l => ?pulse, fun q mark stop l => ?complete,
    fun r o s c loaded => ?running, fun o s c loaded => ?ends⟩
  case takeRow =>
    intro counted w
    have test := rowCounted_iff c v r
    refine ⟨rfl, fun yes => if_pos (test.2 yes), fun no => if_neg fun yes => no (test.1 yes), fun n x active cell => ?_⟩
    have lane : w.lanes.get n = nextPrev r n (if rowCounted c v r then addSums c r n (v.lanes.get n) else v.lanes.get n) := by
      show (v.lanes.mapLane _).get n = _
      rw [PerLane.get_mapLane, if_pos active]
    simp only [nextPrev, cell] at lane
    rw [lane]
    refine ⟨by simp only [beq_iff_eq], fun no => ?_, fun m p q yes mark nip prev => ?_⟩
    · rw [if_neg fun yes => no (test.1 yes)]
      exact ⟨rfl, rfl⟩
    · rw [if_pos (test.2 yes)]
      simp only [addSums, cell, mark, nip, prev, beq_iff_eq]
      refine ⟨rfl, ?_⟩
      split
      · rw [Int.add_zero]
      · rfl
  case test =>
    intro clean
    have quiet := noViolation_iff c s.survey
    refine ⟨fun full yes => ?_, fun full no => ?_, fun few limit => ?_, fun few more => ?_⟩
    · rw [testSurvey, if_pos full, if_pos (quiet.2 yes)]
    · rw [testSurvey, if_pos full, if_neg fun yes => no (quiet.1 yes)]
    · rw [testSurvey, if_neg few, if_pos limit]
    · rw [testSurvey, if_neg few, if_neg more]
  case pulse =>
    intro trailing
    refine ⟨?_, fun m stop watch after within => ?_, fun outside => ?_⟩
    · rintro ⟨m, stop, watch, zone⟩
      rw [pulse_of_watched watch ((inTrailingZone_iff q stop e).2 zone)]
      exact ⟨rfl, rfl, rfl⟩
    · rw [pulse_of_watched watch ((inTrailingZone_iff q stop e).2 ⟨after, within⟩)]
      rfl
    · rw [pulse_of_unwatched fun m stop watch zone => outside ⟨m, stop, watch, (inTrailingZone_iff q stop e).1 zone⟩]
      rfl
  case complete =>
    intro m inZone
    exact ⟨rfl, rfl, (leading_eq q mark l.recent l).1, (leading_eq q mark l.recent l).2⟩
  case running =>
    refine ⟨fun idle => ⟨?_, ?_⟩, fun running => ⟨?_, ?_⟩⟩
    · rw [surveyRow, withLoaded_of_loaded loaded, if_neg (by rw [idle]; exact Bool.false_ne_true)]
    · rw [endRunningSurvey, if_neg (by rw [idle]; exact Bool.false_ne_true)]
    · rw [endRunningSurvey, if_pos running]
    · rw [surveyRow, withLoaded_of_loaded loaded, if_pos running]
  case ends =>
    refine ⟨_, endSurvey_eq o loaded, rfl, rfl, rfl, ?_, fun n => ?_⟩
    · rw [← SurveyOutcome.completion_eq]
      rfl
    · exact (PerLane.get_mapLane _ _ n).trans (endLane_eq c o s.survey.k n _)

end Sys2Proof.Machine

/-! SUPPORT. The Lane Trackers: identification, reads taken, notices, and the splice resume (R89, R92 to R105). -/

namespace Sys2Proof.Machine

/-! ## Identification -/

theorem matchesCode_iff (v : VariantEntry) (code : BitVec 12) : v.matchesCode code = true ↔ v.valid = true ∧
    ∀ i < 12, v.codeMask.getLsbD i = true → code.getLsbD i = v.code.getLsbD i := by
  rw [VariantEntry.matchesCode, Bool.and_eq_true, beq_iff_eq]
  refine and_congr_right fun _ => ⟨fun zero i lt masked => ?_, fun agree => ?_⟩
  · have bit := congrArg (BitVec.getLsbD · i) zero
    simp only [BitVec.getLsbD_and, BitVec.getLsbD_xor, masked, Bool.and_true] at bit
    rw [show BitVec.getLsbD (0 : BitVec 12) i = false from BitVec.getLsbD_zero] at bit
    simpa using bit
  · apply BitVec.eq_of_getLsbD_eq
    intro i lt
    rw [BitVec.getLsbD_and, BitVec.getLsbD_xor, show BitVec.getLsbD (0 : BitVec 12) i = false from BitVec.getLsbD_zero]
    cases masked : v.codeMask.getLsbD i with
    | false => rw [Bool.and_false]
    | true => rw [agree i lt masked, Bool.xor_self, Bool.false_and]

theorem classConfirmed_iff (c : Loaded) (v : Nat) (measured : Option Nat) :
    classConfirmed c v measured = true ↔ ∃ e, c.variants[v]? = some e ∧ measured = some e.cls := by
  unfold classConfirmed Loaded.variant?
  cases c.variants[v]? with
  | none => simp
  | some e => simp

/-- A variant of the table that matches a code. -/
def Hits (c : Loaded) (code : BitVec 12) (v : Nat) : Prop := ∃ e, c.variants[v]? = some e ∧ e.matchesCode code = true

theorem firstMatch_eq_some {c : Loaded} {code : BitVec 12} {v : Nat} (hit : Hits c code v)
    (first : ∀ w < v, ¬ Hits c code w) : firstMatch c code = some v := by
  obtain ⟨e, found, hit⟩ := hit
  obtain ⟨lt, rfl⟩ := List.getElem?_eq_some_iff.1 found
  rw [firstMatch, List.findIdx?_eq_some_iff_getElem]
  exact ⟨lt, hit, fun j less yes => first j less ⟨_, List.getElem?_eq_getElem (less.trans lt), yes⟩⟩

theorem firstMatch_eq_none {c : Loaded} {code : BitVec 12} (miss : ∀ v, ¬ Hits c code v) : firstMatch c code = none := by
  rw [firstMatch, List.findIdx?_eq_none_iff]
  intro e mem
  obtain ⟨i, lt, rfl⟩ := List.getElem_of_mem mem
  rw [← Bool.not_eq_true]
  exact fun hit => miss i ⟨_, List.getElem?_eq_getElem lt, hit⟩

theorem identify_of_expected {c : Loaded} {code : BitVec 12} {v : Nat} (hit : Hits c code v) (measured : Option Nat) :
    identify c (some v) code measured = if classConfirmed c v measured then .expected else .cls := by
  obtain ⟨e, found, hit⟩ := hit
  simp only [identify, Loaded.variant?, found, hit, if_true]

theorem identify_of_unexpected {c : Loaded} {code : BitVec 12} {expected : Option Nat}
    (miss : ∀ v, expected = some v → ¬ Hits c code v) (measured : Option Nat) :
    identify c expected code measured = match firstMatch c code with
      | some v => if classConfirmed c v measured then .other v else .cls
      | none => .unknown := by
  unfold identify
  dsimp only
  rw [if_neg] <;> try rfl
  cases expected with
  | none => exact Bool.false_ne_true
  | some v =>
    dsimp only
    unfold Loaded.variant?
    cases found : c.variants[v]? with
    | none => exact Bool.false_ne_true
    | some e => exact fun hit => miss v rfl ⟨e, found, hit⟩

/-- Settles O48. -/
theorem identification : Obligations.Identification := by
  refine ⟨matchesCode_iff, fun c code measured expected => ?_⟩
  intro hits classed
  have confirmed : ∀ v, classConfirmed c v measured = true ↔ classed v := fun v => classConfirmed_iff c v measured
  refine ⟨fun v isExpected hit => ⟨fun yes => ?_, fun no => ?_⟩, fun miss => ⟨fun v hit first => ⟨fun yes => ?_, fun no => ?_⟩,
    fun nowhere => ?_⟩⟩
  · rw [isExpected, identify_of_expected hit, if_pos ((confirmed v).2 yes)]
  · rw [isExpected, identify_of_expected hit, if_neg fun yes => no ((confirmed v).1 yes)]
  · rw [identify_of_unexpected miss, firstMatch_eq_some hit first]
    exact if_pos ((confirmed v).2 yes)
  · rw [identify_of_unexpected miss, firstMatch_eq_some hit first]
    exact if_neg fun yes => no ((confirmed v).1 yes)
  · rw [identify_of_unexpected miss, firstMatch_eq_none nowhere]

/-! ## Entering BLOCKED -/

theorem enterBlocked_eq {c : Loaded} {s : State} (loaded : s.loader.loaded = some c) (n : Lane) (src : LaneSource) :
    let down := s.station.mode = .run ∧ ∀ m, c.hdr.active m = true →
      (s.lanes.get m).state = .blocked ∨ (s.foil.get m).faulty = true
    enterBlocked n src s = { s with
      msgs := { s.msgs with faults := s.msgs.faults ++ if down then [⟨.allLanesDown, none⟩] else [] }
      rep := { s.rep with
        latched := s.rep.latched ||| Cause.lane.mask
        offers := s.rep.offers ++ [(.tracker n, .lane n s.web.pos (s.lanes.get n).setPos src)] } } := by
  intro down
  exact testLanesDown_eq (s := offer (.tracker n) (.lane n s.web.pos (s.lanes.get n).setPos src) (latch .lane s)) loaded

/-- What taking a judged read makes of the counters. -/
def Judged.counts (j : Judged) (k : Counters) : Counters :=
  { k with
    unread := if j.cell.status.countedHere then k.unread + 1 else k.unread
    resyncs := if j.resync then k.resyncs + 1 else k.resyncs }

theorem applyJudged_eq (n : Lane) (j : Judged) (s : State) :
    let t := { s with
      lanes := s.lanes.set n j.tracker, cnt := j.counts s.cnt
      msgs := { s.msgs with cells := s.msgs.cells.set n (s.msgs.cells.get n ++ [j.cell]) } }
    applyJudged n j s = if j.tracker.state = .blocked then enterBlocked n (.cell j.cell.status) t else t := by
  unfold applyJudged Judged.counts
  dsimp only
  cases j.cell.status.countedHere <;> cases j.resync <;> rfl

theorem raiseQuality_of_low {q : Nat} (low : q < 31) (misses : Nat) (t : Tracker) :
    raiseQuality q misses t = { t with quality := q + 1 } :=
  if_pos (show q + 1 < 32 by omega)

theorem raiseQuality_of_high {q : Nat} (high : 31 ≤ q) (misses : Nat) (t : Tracker) :
    raiseQuality q misses t = { t with state := .blocked, quality := 32, misses := misses } :=
  if_neg (show ¬ q + 1 < 32 by omega)

/-! ## Reads taken -/

theorem exec_readTaken (n : Lane) (s : State) : exec (.readTaken n) s = .next (finish s (readTakenBy n s)) := rfl

/-- A read taken by a lane that judges it. -/
theorem readTakenBy_of_judged {n : Lane} {s : State} {c : Loaded} {r : ReadMsg} {later : List ReadMsg} {j : Judged}
    (loaded : s.loader.loaded = some c) (queue : s.msgs.reads.get n = r :: later)
    (judged : ((s.lanes.get n).state = .hunt ∧ judgeHunt c n (s.lanes.get n) r = j) ∨
      (((s.lanes.get n).state = .locked ∨ (s.lanes.get n).state = .flywheel) ∧ judgeTracked c n (s.lanes.get n) r = j)) :
    readTakenBy n s = applyJudged n j { s with msgs := { s.msgs with reads := s.msgs.reads.set n later } } := by
  rw [readTakenBy, queue]
  dsimp only
  rw [withLoaded_of_loaded (by exact loaded)]
  rcases judged with ⟨state, rfl⟩ | ⟨state | state, rfl⟩ <;> rw [state]

/-- The single place of a variant in a set list, or none (R97). -/
theorem positionsOf_eq_singleton_iff (c : Loaded) (n : Lane) (v k : Nat) : positionsOf c n v = [k] ↔
    k < c.hdr.setLength ∧ c.hdr.setAt n k = some v ∧ ∀ m < c.hdr.setLength, c.hdr.setAt n m = some v → m = k := by
  have mem : ∀ m, m ∈ positionsOf c n v ↔ m < c.hdr.setLength ∧ c.hdr.setAt n m = some v := fun m => by
    rw [positionsOf, List.mem_filter, List.mem_range, beq_iff_eq]
  have nodup : (positionsOf c n v).Nodup := List.nodup_range.filter _
  constructor
  · intro single
    rw [single] at mem
    obtain ⟨lt, place⟩ := (mem k).1 (List.mem_singleton_self k)
    exact ⟨lt, place, fun m less found => List.mem_singleton.1 ((mem m).2 ⟨less, found⟩)⟩
  · rintro ⟨lt, place, only⟩
    have perm : (positionsOf c n v).Perm [k] := (List.perm_ext_iff_of_nodup nodup (List.nodup_singleton k)).2 fun m => by
      rw [mem, List.mem_singleton]
      exact ⟨fun ⟨less, found⟩ => only m less found, fun same => same ▸ ⟨lt, place⟩⟩
    exact List.perm_singleton.1 perm

/-- The state in which a lane has taken its oldest read, judged: the cell handed, the counts made. -/
def takenState (n : Lane) (later : List ReadMsg) (t : Tracker) (cell : Cell) (k : Counters) (s : State) : State :=
  { s with
    lanes := s.lanes.set n t, cnt := k
    msgs := { s.msgs with
      reads := s.msgs.reads.set n later, cells := s.msgs.cells.set n (s.msgs.cells.get n ++ [cell]) } }

section
variable {n : Lane} {s : State} {later : List ReadMsg}

theorem applyJudged_taken (j : Judged) :
    applyJudged n j { s with msgs := { s.msgs with reads := s.msgs.reads.set n later } } =
      if j.tracker.state = .blocked then
        enterBlocked n (.cell j.cell.status) (takenState n later j.tracker j.cell (j.counts s.cnt) s)
      else takenState n later j.tracker j.cell (j.counts s.cnt) s :=
  applyJudged_eq n j _

variable {t : Tracker} {q kept : Nat} {cell : Cell} {resync : Bool}

theorem applyJudged_of_low (low : q < 31) (free : t.state ≠ .blocked) :
    applyJudged n ⟨raiseQuality q kept t, cell, resync⟩
      { s with msgs := { s.msgs with reads := s.msgs.reads.set n later } } =
      takenState n later { t with quality := q + 1 } cell (Judged.counts ⟨t, cell, resync⟩ s.cnt) s := by
  rw [raiseQuality_of_low low, applyJudged_taken]
  exact if_neg free

theorem applyJudged_of_high {c : Loaded} (loaded : s.loader.loaded = some c) (high : 31 ≤ q) :
    let down := s.station.mode = .run ∧ ∀ m, c.hdr.active m = true →
      m = n ∨ (s.lanes.get m).state = .blocked ∨ (s.foil.get m).faulty = true
    let u := takenState n later { t with state := .blocked, quality := 32, misses := kept } cell
      (Judged.counts ⟨t, cell, resync⟩ s.cnt) s
    applyJudged n ⟨raiseQuality q kept t, cell, resync⟩
      { s with msgs := { s.msgs with reads := s.msgs.reads.set n later } } = { u with
        msgs := { u.msgs with faults := s.msgs.faults ++ if down then [⟨.allLanesDown, none⟩] else [] }
        rep := { s.rep with
          latched := s.rep.latched ||| Cause.lane.mask
          offers := s.rep.offers ++ [(.tracker n, .lane n s.web.pos t.setPos (.cell cell.status))] } } := by
  intro down u
  rw [raiseQuality_of_high high, applyJudged_taken, if_pos rfl]
  refine (enterBlocked_eq (c := c) (s := u) loaded n (.cell cell.status)).trans ?_
  have isDown : (u.station.mode = .run ∧ ∀ m, c.hdr.active m = true →
      (u.lanes.get m).state = .blocked ∨ (u.foil.get m).faulty = true) ↔ down := by
    refine and_congr_right fun _ => forall₂_congr fun m _ => ?_
    show ((s.lanes.set n _).get m).state = .blocked ∨ _ ↔ _
    rw [PerLane.get_set]
    split
    next same => simp [same]
    next other =>
      simp only [other, false_or]
      rfl
  have place : (u.lanes.get n).setPos = t.setPos := (congrArg Tracker.setPos (PerLane.get_set_same ..)).trans rfl
  simp only [isDown, place]
  rfl

end

/-- A read taken leaves the tracker `t'`, hands a cell and makes the counters `k`. -/
def ReadGives (n : Lane) (later : List ReadMsg) (s : State) (t' : Tracker) (cell : Cell) (k : Counters) : Prop :=
  exec (.readTaken n) s = .next (finish s (takenState n later t' cell k s))

/-- A read taken raises the quality counter: below 31 the lane is left as `t'`, and from there it is BLOCKED. -/
def ReadRaises (c : Loaded) (n : Lane) (later : List ReadMsg) (s : State) (t' : Tracker) (kept : Nat) (cell : Cell)
    (k : Counters) : Prop :=
  let q := (s.lane n).quality
  let down := s.station.mode = .run ∧ ∀ m, c.hdr.active m = true →
    m = n ∨ (s.lane m).state = .blocked ∨ (s.drive m).faulty = true
  (q < 31 → ReadGives n later s { t' with quality := q + 1 } cell k) ∧
  (31 ≤ q → exec (.readTaken n) s = .next (finish s { s with
    lanes := s.lanes.set n { t' with state := .blocked, quality := 32, misses := kept }, cnt := k
    msgs := { s.msgs with
      reads := s.msgs.reads.set n later, cells := s.msgs.cells.set n (s.msgs.cells.get n ++ [cell])
      faults := s.msgs.faults ++ if down then [⟨.allLanesDown, none⟩] else [] }
    rep := { s.rep with
      latched := s.rep.latched ||| Cause.lane.mask
      offers := s.rep.offers ++ [(.tracker n, .lane n s.web.pos t'.setPos (.cell cell.status))] } }))

theorem readRaises_of_judged {n : Lane} {s : State} {c : Loaded} {later : List ReadMsg} {t' : Tracker} {kept : Nat}
    {cell : Cell} {resync : Bool} {k : Counters} (loaded : s.loader.loaded = some c) (free : t'.state ≠ .blocked)
    (taken : readTakenBy n s = applyJudged n ⟨raiseQuality (s.lane n).quality kept t', cell, resync⟩
      { s with msgs := { s.msgs with reads := s.msgs.reads.set n later } })
    (counts : Judged.counts ⟨t', cell, resync⟩ s.cnt = k) : ReadRaises c n later s t' kept cell k := by
  subst counts
  refine ⟨fun low => ?_, fun high => ?_⟩
  · rw [ReadGives, exec_readTaken, taken, applyJudged_of_low low free]
  · rw [exec_readTaken, taken, applyJudged_of_high loaded high]
    rfl

theorem readGives_of_judged {n : Lane} {s : State} {later : List ReadMsg} {j : Judged} {k : Counters}
    (free : j.tracker.state ≠ .blocked)
    (taken : readTakenBy n s = applyJudged n j { s with msgs := { s.msgs with reads := s.msgs.reads.set n later } })
    (counts : j.counts s.cnt = k) : ReadGives n later s j.tracker j.cell k := by
  subst counts
  rw [ReadGives, exec_readTaken, taken, applyJudged_taken, if_neg free]

theorem judgeHunt_of_other {c : Loaded} {n : Lane} {t : Tracker} {r : ReadMsg}
    (other : ∀ code, r.result = .complete code → identify c (c.hdr.setAt n 0) code r.cls ≠ .expected) :
    judgeHunt c n t r = ⟨t, makeCell c n r .hunting none none false, false⟩ := by
  unfold judgeHunt
  cases result : r.result with
  | unread | absent => rfl
  | complete code =>
    dsimp only
    cases found : identify c (c.hdr.setAt n 0) code r.cls with
    | expected => exact absurd found (other code result)
    | other | cls | unknown => rfl

theorem judgeTracked_of_flywheel {c : Loaded} {n : Lane} {t : Tracker} {r : ReadMsg} (kind : r.markKind = .flywheel) :
    judgeTracked c n t r = judgeMissed c n t r ((t.setPos + 1) % c.hdr.setLength) := by
  simp only [judgeTracked, kind]

theorem judgeOther_of_single {c : Loaded} {n : Lane} {t : Tracker} {r : ReadMsg} {p v k : Nat}
    (single : positionsOf c n v = [k]) : judgeOther c n t r p v = ⟨raiseQuality t.quality t.misses (lockedAt t k),
      makeCell c n r .sequence (some v) (some k) false, true⟩ := by
  simp only [judgeOther, single]

theorem judgeOther_of_not_single {c : Loaded} {n : Lane} {t : Tracker} {r : ReadMsg} {p v : Nat}
    (many : ∀ k, positionsOf c n v ≠ [k]) : judgeOther c n t r p v =
      ⟨raiseQuality t.quality t.misses { lockedAt t p with state := .hunt },
        makeCell c n r .sequence (some v) (some p) false, false⟩ := by
  unfold judgeOther
  split
  next k single => exact absurd single (many k)
  next => rfl

section
variable {n : Lane} {s : State} {c : Loaded} {r : ReadMsg} {later : List ReadMsg}

theorem read_in_hunt (loaded : s.loader.loaded = some c) (queue : s.msgs.reads.get n = r :: later)
    (hunt : (s.lane n).state = .hunt) :
    (∀ code, r.result = .complete code → identify c (c.hdr.setAt n 0) code r.cls = .expected →
      ReadGives n later s { s.lane n with state := .locked, setPos := 0, misses := 0 }
        (makeCell c n r .identified (c.hdr.setAt n 0) (some 0) false) s.cnt) ∧
    ((∀ code, r.result = .complete code → identify c (c.hdr.setAt n 0) code r.cls ≠ .expected) →
      ReadGives n later s (s.lane n) (makeCell c n r .hunting none none false) s.cnt) := by
  refine ⟨fun code complete anchor => ?_, fun other => ?_⟩
  · refine readGives_of_judged (j := ⟨{ s.lane n with state := .locked, setPos := 0, misses := 0 },
      makeCell c n r .identified (c.hdr.setAt n 0) (some 0) false, false⟩) (by exact LaneState.noConfusion)
      (readTakenBy_of_judged loaded queue (.inl ⟨hunt, ?_⟩)) rfl
    simp only [judgeHunt, complete, anchor]
    rfl
  · exact readGives_of_judged (j := ⟨s.lane n, makeCell c n r .hunting none none false, false⟩)
      (by rw [hunt]; exact LaneState.noConfusion)
      (readTakenBy_of_judged loaded queue (.inl ⟨hunt, judgeHunt_of_other other⟩)) rfl

variable (loaded : s.loader.loaded = some c) (queue : s.msgs.reads.get n = r :: later)
  (tracked : (s.lane n).state = .locked ∨ (s.lane n).state = .flywheel)
include loaded queue tracked

theorem readRaises_of_tracked {t' : Tracker} {kept : Nat} {cell : Cell} {resync : Bool} {k : Counters}
    (judged : judgeTracked c n (s.lane n) r = ⟨raiseQuality (s.lane n).quality kept t', cell, resync⟩)
    (free : t'.state ≠ .blocked) (counts : Judged.counts ⟨t', cell, resync⟩ s.cnt = k) :
    ReadRaises c n later s t' kept cell k :=
  readRaises_of_judged loaded free (readTakenBy_of_judged loaded queue (.inr ⟨tracked, judged⟩)) counts

theorem read_expected {code : BitVec 12} (kind : r.markKind = .accepted) (complete : r.result = .complete code)
    (expected : identify c (c.hdr.setAt n (((s.lane n).setPos + 1) % c.hdr.setLength)) code r.cls = .expected) :
    let p := ((s.lane n).setPos + 1) % c.hdr.setLength
    ReadGives n later s { lockedAt (s.lane n) p with quality := (s.lane n).quality - 1 }
      (makeCell c n r .identified (c.hdr.setAt n p) (some p) false) s.cnt := by
  intro p
  refine readGives_of_judged (j := ⟨{ lockedAt (s.lane n) p with quality := (s.lane n).quality - 1 },
    makeCell c n r .identified (c.hdr.setAt n p) (some p) false, false⟩) (by exact LaneState.noConfusion)
    (readTakenBy_of_judged loaded queue (.inr ⟨tracked, ?_⟩)) rfl
  simp only [judgeTracked, kind, complete, show identify c (c.hdr.setAt n (((s.lanes.get n).setPos + 1) % c.hdr.setLength))
    code r.cls = _ from expected]
  rfl

theorem read_unread {u : UnreadCause} (kind : r.markKind = .accepted) (unread : r.result = .unread u)
    (notCls : u ≠ .cls) (notUnknown : u ≠ .unknown) :
    let p := ((s.lane n).setPos + 1) % c.hdr.setLength
    ReadRaises c n later s (lockedAt (s.lane n) p) (s.lane n).misses (makeCell c n r (.unread u) none (some p) false)
      s.cnt := by
  intro p
  refine readRaises_of_tracked loaded queue tracked (resync := false) ?_ (by exact LaneState.noConfusion) ?_
  · simp only [judgeTracked, kind, unread]
    rfl
  · cases u with
    | cls => exact absurd rfl notCls
    | unknown => exact absurd rfl notUnknown
    | classOverflow | framing | abort => rfl

theorem read_unmatched {code : BitVec 12} {u : UnreadCause} (kind : r.markKind = .accepted)
    (complete : r.result = .complete code)
    (cause : let p := ((s.lane n).setPos + 1) % c.hdr.setLength
      (identify c (c.hdr.setAt n p) code r.cls = .cls ∧ u = .cls) ∨
        (identify c (c.hdr.setAt n p) code r.cls = .unknown ∧ u = .unknown)) :
    let p := ((s.lane n).setPos + 1) % c.hdr.setLength
    ReadRaises c n later s (lockedAt (s.lane n) p) (s.lane n).misses (makeCell c n r (.unread u) none (some p) false)
      { s.cnt with unread := s.cnt.unread + 1 } := by
  intro p
  refine readRaises_of_tracked loaded queue tracked (resync := false) ?_ (by exact LaneState.noConfusion) ?_
  · rcases cause with ⟨found, rfl⟩ | ⟨found, rfl⟩
    all_goals
      simp only [judgeTracked, kind, complete, found]
      rfl
  · rcases cause with ⟨_, rfl⟩ | ⟨_, rfl⟩ <;> rfl

theorem read_other {code : BitVec 12} {v : Nat} (kind : r.markKind = .accepted) (complete : r.result = .complete code)
    (other : identify c (c.hdr.setAt n (((s.lane n).setPos + 1) % c.hdr.setLength)) code r.cls = .other v) :
    let p := ((s.lane n).setPos + 1) % c.hdr.setLength
    (∀ k, positionsOf c n v = [k] →
      ReadRaises c n later s (lockedAt (s.lane n) k) (s.lane n).misses
        (makeCell c n r .sequence (some v) (some k) false) { s.cnt with resyncs := s.cnt.resyncs + 1 }) ∧
    ((∀ k, positionsOf c n v ≠ [k]) →
      ReadRaises c n later s { lockedAt (s.lane n) p with state := .hunt } (s.lane n).misses
        (makeCell c n r .sequence (some v) (some p) false) s.cnt) := by
  intro p
  have judged : judgeTracked c n (s.lane n) r = judgeOther c n (s.lane n) r p v := by
    simp only [judgeTracked, kind, complete, other]
    rfl
  refine ⟨fun k single => ?_, fun many => ?_⟩
  · exact readRaises_of_tracked loaded queue tracked (judged.trans (judgeOther_of_single single))
      (by exact LaneState.noConfusion) rfl
  · exact readRaises_of_tracked loaded queue tracked (judged.trans (judgeOther_of_not_single many))
      (by exact LaneState.noConfusion) rfl

theorem read_missed (kind : r.markKind = .flywheel) :
    let p := ((s.lane n).setPos + 1) % c.hdr.setLength
    let m := (s.lane n).misses + 1
    (m ≤ c.hdr.flywheelLimit →
      ReadRaises c n later s { s.lane n with state := .flywheel, setPos := p, misses := m } m
        (makeCell c n r .identified (c.hdr.setAt n p) (some p) true) s.cnt) ∧
    (c.hdr.flywheelLimit < m →
      ReadRaises c n later s { s.lane n with state := .hunt, setPos := p, misses := 0 } m
        (makeCell c n r .hunting none (some p) false) s.cnt) := by
  intro p m
  refine ⟨fun within => ?_, fun beyond => ?_⟩
  · refine readRaises_of_tracked loaded queue tracked (resync := false)
      ((judgeTracked_of_flywheel kind).trans ?_) (by exact LaneState.noConfusion) rfl
    exact if_pos within
  · refine readRaises_of_tracked loaded queue tracked (resync := false)
      ((judgeTracked_of_flywheel kind).trans ?_) (by exact LaneState.noConfusion) rfl
    exact if_neg (not_le.2 beyond)

end

/-- Settles O49: one lemma for each outcome of the tables. -/
theorem readTaken : Obligations.ReadTaken := by
  refine ⟨fun n s r later queue quiet => ?absorbed, fun n s c r later loaded queue => ?judged⟩
  case absorbed =>
    rw [exec_readTaken, readTakenBy, queue]
    dsimp only
    rw [withLoaded_of_same]
    intro c
    rcases quiet with state | state | state <;> rw [show (s.lanes.get n).state = _ from state]
  case judged =>
    intro t p at_ gives down raises cellOf locked
    refine ⟨fun hunt => read_in_hunt loaded queue hunt, fun tracked => ?_⟩
    refine ⟨fun code => read_expected loaded queue tracked, fun u => read_unread loaded queue tracked,
      fun code u => read_unmatched loaded queue tracked, fun code v kind complete other => ?_,
      fun kind => (read_missed loaded queue tracked kind).1, fun kind => (read_missed loaded queue tracked kind).2⟩
    obtain ⟨single, many⟩ := read_other loaded queue tracked kind complete other
    refine ⟨fun k lt place only => single k ((positionsOf_eq_singleton_iff c n v k).2 ⟨lt, place, only⟩), fun nowhere =>
      many fun k one => nowhere ?_⟩
    obtain ⟨lt, place, only⟩ := (positionsOf_eq_singleton_iff c n v k).1 one
    exact ⟨k, lt, place, only⟩

end Sys2Proof.Machine

/-! SUPPORT. The notices of a lane and its splice resume (R89, R101, R102, R104, R105). -/

namespace Sys2Proof.Machine

/-- The states in which a lane counts a notice (R102). -/
def LaneState.counts (t : LaneState) : Prop := t = .hunt ∨ t = .locked ∨ t = .flywheel

theorem noticeTaken_of_counts {n : Lane} {s : State} (counts : (s.lanes.get n).state.counts) (src : LaneSource) :
    let t := s.lanes.get n
    let t' := raiseQuality t.quality t.misses t
    noticeTaken n src s = if t'.state = .blocked then enterBlocked n src (setLane n t' s) else setLane n t' s := by
  intro t t'
  unfold noticeTaken
  dsimp only
  rcases counts with state | state | state <;> rw [state]

theorem noticeTaken_of_quiet {n : Lane} {s : State} (quiet : ¬ (s.lanes.get n).state.counts) (src : LaneSource) :
    noticeTaken n src s = s := by
  unfold noticeTaken
  dsimp only
  cases state : (s.lanes.get n).state with
  | hunt => exact absurd (.inl state) quiet
  | locked => exact absurd (.inr (.inl state)) quiet
  | flywheel => exact absurd (.inr (.inr state)) quiet
  | blocked | idle | off => rfl

theorem noticeTaken_of_low {n : Lane} {s : State} (counts : (s.lanes.get n).state.counts)
    (low : (s.lanes.get n).quality < 31) (src : LaneSource) :
    noticeTaken n src s = setLane n { s.lanes.get n with quality := (s.lanes.get n).quality + 1 } s := by
  rw [noticeTaken_of_counts counts]
  dsimp only
  rw [raiseQuality_of_low low, if_neg]
  rcases counts with state | state | state
  all_goals
    show (s.lanes.get n).state ≠ _
    rw [state]
    exact LaneState.noConfusion

theorem noticeTaken_of_high {n : Lane} {s : State} {c : Loaded} (loaded : s.loader.loaded = some c)
    (counts : (s.lanes.get n).state.counts) (high : 31 ≤ (s.lanes.get n).quality) (src : LaneSource) :
    let blocked := s.lanes.set n { s.lanes.get n with state := .blocked, quality := 32 }
    let down := s.station.mode = .run ∧ ∀ m, c.hdr.active m = true →
      (blocked.get m).state = .blocked ∨ (s.foil.get m).faulty = true
    noticeTaken n src s = { s with
      lanes := blocked
      msgs := { s.msgs with faults := s.msgs.faults ++ if down then [⟨.allLanesDown, none⟩] else [] }
      rep := { s.rep with
        latched := s.rep.latched ||| Cause.lane.mask
        offers := s.rep.offers ++ [(.tracker n, .lane n s.web.pos (s.lanes.get n).setPos src)] } } := by
  intro blocked down
  rw [noticeTaken_of_counts counts]
  dsimp only
  rw [raiseQuality_of_high high, if_pos rfl]
  refine (enterBlocked_eq (c := c) (by exact loaded) n src).trans ?_
  simp only [setLane, PerLane.get_set_same]
  rfl

theorem takeResume_of_split {n : Lane} {pre post : List Resume} {x : Resume} (lane : x.lane = n)
    (reached : x.at_.reached = true) (first : ∀ y ∈ pre, ¬ (y.lane = n ∧ y.at_.reached = true)) :
    takeResume n (pre ++ x :: post) = some (pre ++ post) := by
  induction pre with
  | nil => simp [takeResume, lane, reached]
  | cons y t ih =>
    obtain ⟨head, rest⟩ := List.forall_mem_cons.1 first
    rw [List.cons_append, takeResume, if_neg (by rw [Bool.and_eq_true, decide_eq_true_iff]; exact head), ih rest]
    rfl

theorem resumeTaken_of_taken {n : Lane} {s : State} {rest : List Resume}
    (taken : takeResume n s.track.resumes = some rest) : resumeTaken n s =
      let t := { s with track := { s.track with resumes := rest } }
      match (s.lanes.get n).state with
      | .hunt | .locked | .flywheel | .blocked => setLane n (s.lanes.get n).hunt t
      | .idle | .off => t := by
  rw [resumeTaken, taken] <;> rfl

/-- Settles O50. -/
theorem noticesAndResume : Obligations.NoticesAndResume := by
  intro n s t
  refine ⟨fun skew k waiting => ?notice, fun pre x post resumes lane reached first => ?resume⟩
  case notice =>
    intro rest command answers counts
    have reach : ∀ u, noticeTaken n (if skew then .skew else .stray) { s with msgs := rest } = u → answers u := by
      rintro u rfl
      cases skew with
      | false =>
        change Host.Outcome.next (finish s (strayTaken n s)) = _
        rw [strayTaken, show s.msgs.strays.get n = k + 1 from waiting]
        rfl
      | true =>
        change Host.Outcome.next (finish s (skewTaken n s)) = _
        rw [skewTaken, show s.msgs.skews.get n = k + 1 from waiting]
        rfl
    have faults : rest.faults = s.msgs.faults := by
      simp only [rest]
      split <;> rfl
    refine ⟨fun quiet => reach _ (noticeTaken_of_quiet (s := { s with msgs := rest }) quiet _), fun counting low => reach _ (noticeTaken_of_low (s := { s with msgs := rest }) counting low _),
      fun c loaded counting high => ?_⟩
    intro blocked down
    refine reach _ ((noticeTaken_of_high (s := { s with msgs := rest }) (c := c) loaded counting high _).trans ?_)
    rw [← faults]
    cases skew <;> rfl
  case resume =>
    intro rest
    have taken := resumeTaken_of_taken (s := s) (n := n) (by rw [resumes]; exact takeResume_of_split lane reached first)
    refine ⟨fun away => ?_, fun notIdle notOff => ?_⟩
    all_goals
      change Host.Outcome.next (finish s (resumeTaken n s)) = _
      rw [taken]
      dsimp only
    · rcases away with state | state
      all_goals rw [show (s.lanes.get n).state = _ from state]
    · cases state : (s.lanes.get n).state with
      | idle => exact absurd state notIdle
      | off => exact absurd state notOff
      | hunt | locked | flywheel | blocked => rfl

end Sys2Proof.Machine

/-! SUPPORT. The reason table of a decision (R120), and the throw away from the nip (R138 to R140, R145, R147). -/

namespace Sys2Proof.Machine

/-! ## The reason table -/

/-- The reasons in the order of their codes. -/
def everyReason : List Reason :=
  [.absent, .watching, .safe, .stopped, .splice, .hunting, .unread, .predicted, .sequence, .noStrike, .plate, .heat,
    .foil, .ordered, .strike]

/-- A read status is one of the UNREAD ones. -/
def ReadStatus.isUnread : ReadStatus → Bool
  | .unread _ => true
  | .identified | .sequence | .hunting | .absent => false

/-- A cell meets a reason of the table, whether or not an earlier one applies. -/
def applies (c : Loaded) (d : RowView) (f : Foil) (skip : Nat) (cell : Cell) : Reason → Bool
  | .absent => cell.status = .absent
  | .watching => d.mode = .watch
  | .safe => d.mode = .safe
  | .stopped => d.windDown
  | .splice => d.splice
  | .hunting => cell.status = .hunting
  | .unread => cell.status.isUnread
  | .predicted => cell.predicted && !c.hdr.flywheelStrike
  | .sequence => cell.status = .sequence
  | .noStrike => noStrikeVariant (cellVariant c cell)
  | .plate => plateMismatch d.slot (cellVariant c cell)
  | .heat => !d.heat
  | .foil => foilShort c f (cellVariant c cell)
  | .ordered => 0 < skip
  | .strike => true

theorem mem_everyReason (k : Reason) : k ∈ everyReason := by
  cases k <;> decide

theorem everyReason_rising : everyReason.Pairwise fun a b => a.code < b.code := by
  decide

/-- A status past the tests for ABSENT and HUNTING is IDENTIFIED, SEQUENCE or UNREAD. -/
theorem unread_test {status : ReadStatus} (present : status ≠ .absent) (sighted : status ≠ .hunting) :
    (status ≠ .identified && status ≠ .sequence) = status.isUnread := by
  cases status with
  | absent => exact absurd rfl present
  | hunting => exact absurd rfl sighted
  | identified | sequence | unread => rfl

theorem find?_cons_ite {α : Type} (p : α → Bool) (x : α) (l : List α) :
    (x :: l).find? p = if p x = true then some x else l.find? p := by
  rw [List.find?_cons]
  cases p x <;> rfl

theorem reasonOf_eq_find (c : Loaded) (d : RowView) (f : Foil) (skip : Nat) (cell : Cell) :
    everyReason.find? (applies c d f skip cell) = some (reasonOf c d f skip cell) := by
  unfold reasonOf everyReason
  simp only [find?_cons_ite, applies, apply_ite some, decide_eq_true_eq, if_true]
  refine ite_congr rfl (fun _ => rfl) fun present => ite_congr rfl (fun _ => rfl) fun _ => ite_congr rfl (fun _ => rfl)
    fun _ => ite_congr rfl (fun _ => rfl) fun _ => ite_congr rfl (fun _ => rfl) fun _ => ite_congr rfl (fun _ => rfl)
    fun sighted => ?_
  rw [unread_test present sighted]

/-- The first element that a rising list has meeting a test: none with a lower key meets it. -/
theorem not_of_find?_of_rising {α : Type} {p : α → Bool} {key : α → Nat} {l : List α} {x : α}
    (rising : l.Pairwise fun a b => key a < key b) (found : l.find? p = some x) {y : α} (mem : y ∈ l)
    (lower : key y < key x) : p y = false := by
  obtain ⟨_, pre, post, rfl, before⟩ := List.find?_eq_some_iff_append.1 found
  rcases List.mem_append.1 mem with early | late
  · exact Bool.not_eq_true' _ ▸ before y early
  · obtain ⟨_, tail, _⟩ := List.pairwise_append.1 rising
    rcases List.mem_cons.1 late with rfl | later
    · exact absurd lower (Nat.lt_irrefl _)
    · exact absurd (List.rel_of_pairwise_cons tail later) (Nat.not_lt.2 lower.le)

theorem plateMismatch_iff (slot : Option Nat) (v : Option VariantEntry) :
    plateMismatch slot v = true ↔ ¬ ∃ k e, slot = some k ∧ v = some e ∧ e.plate = k := by
  cases slot with
  | none => simp [plateMismatch]
  | some k =>
    cases v with
    | none => simp [plateMismatch]
    | some e => simp [plateMismatch, eq_comm (a := k)]

theorem noStrikeVariant_iff (v : Option VariantEntry) :
    noStrikeVariant v = true ↔ ∃ e, v = some e ∧ e.strike = false := by
  cases v <;> simp [noStrikeVariant]

theorem foilShort_iff (c : Loaded) (f : Foil) (v : Option VariantEntry) :
    foilShort c f v = true ↔ f.faulty = true ∨
      ∃ e, v = some e ∧ 0 < e.imageLength.toNat ∧ f.remaining.toNat < foilNeed c e := by
  cases v <;> simp [foilShort]

/-- Settles O53, by the table as the first reason met in the order of the codes. -/
theorem decisionReasons : Obligations.DecisionReasons := by
  refine ⟨fun c d f skip cell => ?_, fun k => by cases k <;> rfl, fun k => by cases k <;> rfl, fun _ _ => rfl⟩
  intro image meets reason
  have meets_iff : ∀ k, applies c d f skip cell k = true ↔ meets k := by
    intro k
    cases k with
    | absent | watching | safe | hunting | sequence | ordered => exact decide_eq_true_iff
    | stopped | splice => exact Iff.rfl
    | unread =>
      dsimp only [applies, meets]
      cases cell.status <;> simp [ReadStatus.isUnread]
    | predicted => simp [applies, meets]
    | noStrike => exact noStrikeVariant_iff _
    | plate => exact plateMismatch_iff _ _
    | heat => simp [applies, meets]
    | foil => exact foilShort_iff c f _
    | strike => exact iff_of_true rfl trivial
  have found := reasonOf_eq_find c d f skip cell
  refine ⟨(meets_iff _).1 (List.find?_some found), fun k lower meet => ?_⟩
  have unmet := not_of_find?_of_rising everyReason_rising found (mem_everyReason k) lower
  rw [(meets_iff k).2 meet] at unmet
  cases unmet

/-! ## The throw away from the nip -/

theorem releasePoint_of_quiet {s : State}
    (quiet : s.imp.release = none ∨ ∃ h ∈ s.imp.nips, h.nip.reached = true) : releasePoint s = s := by
  rw [releasePoint, if_neg]
  rcases quiet with absent | ⟨h, held, reached⟩
  · rw [absent]
    exact Bool.false_ne_true
  · rw [List.any_eq_true.2 ⟨h, held, reached⟩, Bool.not_true, Bool.and_false]
    exact Bool.false_ne_true

theorem releasePoint_of_due {s : State} {h : Held} (release : s.imp.release = some h) (reached : h.reached = true)
    (asserted : s.throwOn = true) (nips : ∀ x ∈ s.imp.nips, x.nip.reached = false) :
    releasePoint s = negateThrow s := by
  have clear : (s.imp.nips.any fun x => x.nip.reached) = false :=
    List.any_eq_false.2 fun x held => by rw [nips x held]; exact Bool.false_ne_true
  rw [releasePoint, if_pos (by rw [release, isReached, reached, asserted, clear]; rfl)]

theorem throwTable_idle {s : State} (table : ThrowTable s) (idle : s.imp.throw = .off ∨ s.imp.throw = .releasing) :
    s.imp.release = none := by
  rcases idle with off | releasing
  · rw [ThrowTable, off] at table
    exact table.2
  · rw [ThrowTable, releasing] at table
    obtain ⟨_, _, _, release⟩ := table
    exact release

theorem throwRise_of_low {s : State} (low : s.pins.throwOk = false) :
    throwRise s =
      let t := { s with pins := { s.pins with throwOk := true } }
      if s.station.mode = .bypass then t
      else
        match s.imp.throw with
        | .engaging => { t with imp := { t.imp with throw := .on } }
        | .off => raiseFault .throwUncommanded none t
        | .on | .releasing => t := by
  rw [throwRise, if_neg (by rw [low]; exact Bool.false_ne_true)] <;> rfl

theorem throwFall_of_high {s : State} (high : s.pins.throwOk = true) :
    throwFall s =
      let t := { s with pins := { s.pins with throwOk := false } }
      if s.station.mode = .bypass then t
      else
        match s.imp.throw with
        | .releasing => testWindDown { t with imp := { t.imp with throw := .off } }
        | .on => raiseFault .throwLost none { t with imp := { t.imp with throw := .engaging } }
        | .off | .engaging => t := by
  rw [throwFall, if_pos high] <;> rfl

/-- Settles O56, command by command. -/
theorem throwReleaseIndexAndHeat : Obligations.ThrowReleaseIndexAndHeat := by
  refine ⟨fun s table => ?_, fun s => ?_⟩
  · intro gone answers
    have reach : ∀ u, releasePoint s = u → answers u := by
      rintro u rfl
      rfl
    refine ⟨⟨rfl, rfl⟩, fun idle => ?_, fun nip => reach _ (releasePoint_of_quiet (.inr nip)),
      fun h release reached nips => ⟨fun on => reach _ ?_, fun engaging => reach _ ?_⟩⟩
    · have release := throwTable_idle table idle
      exact ⟨release, reach _ (releasePoint_of_quiet (.inl release))⟩
    · rw [ThrowTable, on] at table
      obtain ⟨confirmed, _⟩ := table
      rw [releasePoint_of_due release reached (by rw [State.throwOn, on]) nips, negateThrow, if_pos confirmed,
        if_pos confirmed]
    · rw [ThrowTable, engaging] at table
      obtain ⟨unconfirmed, _⟩ := table
      have low : ¬ s.pins.throwOk = true := by rw [unconfirmed]; exact Bool.false_ne_true
      rw [releasePoint_of_due release reached (by rw [State.throwOn, engaging]) nips, negateThrow, if_neg low,
        if_neg low]
  · intro ok raised rise fall index
    have rises : ∀ u, throwRise s = u → rise u := by
      rintro u rfl
      rfl
    have falls : ∀ u, throwFall s = u → fall u := by
      rintro u rfl
      rfl
    have indexes : ∀ u, cylIndexTaken s = u → index u := by
      rintro u rfl
      rfl
    refine ⟨fun high => rises _ (by rw [throwRise, if_pos high]),
      fun low => ⟨fun quiet => rises _ ?_, fun mode engaging => rises _ ?_, fun mode off => rises _ ?_⟩,
      fun low => falls _ (by rw [throwFall, if_neg (by rw [low]; exact Bool.false_ne_true)]),
      fun high => ⟨fun quiet => falls _ ?_, fun mode releasing => falls _ ?_, fun mode on => falls _ ?_⟩,
      fun ignored => indexes _ ?_, fun working clear => indexes _ ?_, ?_⟩
    · rw [throwRise_of_low low]
      dsimp only
      rcases quiet with bypass | on | releasing
      · rw [if_pos bypass]
      · rw [on, ite_self]
      · rw [releasing, ite_self]
    · rw [throwRise_of_low low]
      dsimp only
      rw [if_neg mode, engaging]
    · rw [throwRise_of_low low]
      dsimp only
      rw [if_neg mode, off, raiseFault]
    · rw [throwFall_of_high high]
      dsimp only
      rcases quiet with bypass | off | engaging
      · rw [if_pos bypass]
      · rw [off, ite_self]
      · rw [engaging, ite_self]
    · rw [throwFall_of_high high]
      dsimp only
      rw [if_neg mode, releasing]
    · rw [throwFall_of_high high]
      dsimp only
      rw [if_neg mode, on, raiseFault]
    · rw [cylIndexTaken, if_neg]
      rcases ignored with idle | behind
      · rw [idle, Bool.false_and]
        exact Bool.false_ne_true
      · rw [behind, Bool.not_true, Bool.and_false]
        exact Bool.false_ne_true
    · rw [cylIndexTaken, if_pos (by rw [working, clear]; rfl)]
      dsimp only
      by_cases slipped : s.imp.slotSync = true ∧ s.imp.slotCounter ≠ 0
      · rw [if_pos (by simpa using slipped), if_pos slipped, raiseFault]
      · rw [if_neg (by simpa using slipped), if_neg slipped]
    · rw [show exec .heatRdyFall s = .next (finish s (heatFall s)) from rfl, heatFall]
      dsimp only
      by_cases run : s.station.mode = .run
      · rw [if_pos run, if_pos run, latch]
      · rw [if_neg run, if_neg run]

end Sys2Proof.Machine

/-! SUPPORT. A row of the track found and replaced by its name, and the nip (R127, R142 to R144, R150 to R153). -/

namespace Sys2Proof.Machine

/-! ## A row among rows of other names -/

/-- The rows around `r` bear other names. -/
def Apart (pre : List Row) (r : Row) (post : List Row) : Prop :=
  (∀ y ∈ pre, y.uid ≠ r.uid) ∧ ∀ y ∈ post, y.uid ≠ r.uid

theorem apart_of_names {s : State} {pre post : List Row} {r : Row} (names : TrackNames s)
    (split : s.track.rows = pre ++ r :: post) : Apart pre r post := by
  obtain ⟨rows, _, _, _⟩ := names
  rw [split] at rows
  obtain ⟨_, tail, across⟩ := List.pairwise_append.1 rows
  exact ⟨fun y mem => across y mem r (by simp), fun y mem => (List.rel_of_pairwise_cons tail mem).symm⟩

theorem findRow_of_apart {s : State} {pre post : List Row} {r : Row} (apart : Apart pre r post)
    (split : s.track.rows = pre ++ r :: post) : findRow r.uid s = some r := by
  rw [findRow, split, List.find?_append, List.find?_eq_none.2 fun y mem => by simpa using apart.1 y mem]
  simp

theorem updateRow_of_apart {s : State} {pre post : List Row} {r : Row} (apart : Apart pre r post)
    (split : s.track.rows = pre ++ r :: post) (f : Row → Row) :
    updateRow r.uid f s = { s with track := { s.track with rows := pre ++ f r :: post } } := by
  have others : ∀ l : List Row, (∀ y ∈ l, y.uid ≠ r.uid) → (l.map fun y => if y.uid = r.uid then f y else y) = l :=
    fun l other => (List.map_congr_left fun y mem => if_neg (other y mem)).trans (List.map_id' l)
  rw [updateRow, split, List.map_append, List.map_cons, if_pos rfl, others pre apart.1, others post apart.2]

/-! ## Rows and cells -/

theorem isStrike_iff (r : Row) :
    r.isStrike = true ↔ ∃ n x, r.cells.get n = some x ∧ x.decision = some .strike := by
  simp only [Row.isStrike, Row.laneCells, List.any_eq_true, List.mem_filterMap, Option.map_eq_some_iff, Prod.exists,
    Prod.mk.injEq, Cell.strikes, beq_iff_eq]
  constructor
  · rintro ⟨_, _, ⟨n, _, x, cell, rfl, rfl⟩, strike⟩
    exact ⟨n, x, cell, strike⟩
  · rintro ⟨n, x, cell, strike⟩
    exact ⟨n, x, ⟨n, mem_allLanes n, x, cell, rfl, rfl⟩, strike⟩

theorem leadCell_eq_some_iff (c : Loaded) (r : Row) (x : Cell) :
    r.leadCell c = some x ↔ ∃ n : Lane, n.val = c.hdr.leadLane ∧ r.cells.get n = some x := by
  rw [Row.leadCell, Option.bind_eq_some_iff]
  constructor
  · rintro ⟨n, found, cell⟩
    exact ⟨n, beq_iff_eq.1 (List.find?_some (p := fun n : Lane => n.val == c.hdr.leadLane) found), cell⟩
  · rintro ⟨n, lead, cell⟩
    obtain ⟨m, found⟩ := Option.isSome_iff_exists.1 (List.find?_isSome (p := fun n : Lane => n.val == c.hdr.leadLane) |>.2
        ⟨n, mem_allLanes n, beq_iff_eq.2 lead⟩)
    have same : m = n := Fin.ext
      ((beq_iff_eq.1 (List.find?_some (p := fun n : Lane => n.val == c.hdr.leadLane) found)).trans lead.symm)
    exact ⟨m, found, same ▸ cell⟩

theorem rejects_eq (m : Mode) : m.rejects = (m == .run || m == .safe) := by
  cases m <;> rfl

/-! ## The nip -/

theorem measuredNip_eq_some_iff (lead : Option Cell) (p : Pos) :
    measuredNip lead = some p ↔ ∃ x, lead = some x ∧ x.markKind = some .accepted ∧ x.status = .identified ∧
      x.predicted = false ∧ x.nipPos = some p := by
  cases lead with
  | none => simp [measuredNip]
  | some x => simp [measuredNip, and_assoc]

theorem registrationError_of_measured {c : Loaded} {s : State} {slot : Option Nat} {lead : Option Cell} {k : Nat}
    {i p : Pos} (working : s.station.mode.working = true) (met : slot = some k) (index : s.imp.lastIndex = some i)
    (measured : measuredNip lead = some p) :
    registrationError c s slot lead =
      some (p - (i + c.hdr.indexOffset + BitVec.ofNat 32 k * c.hdr.nominalPitch)).toInt := by
  subst met
  unfold registrationError
  rw [if_pos working, index, measured]
  rfl

theorem registrationError_eq_none {c : Loaded} {s : State} {slot : Option Nat} {lead : Option Cell}
    (unmeasured : ∀ k i p, ¬ (s.station.mode.working = true ∧ slot = some k ∧ s.imp.lastIndex = some i ∧
      measuredNip lead = some p)) : registrationError c s slot lead = none := by
  unfold registrationError
  split
  · rename_i working
    split
    · rename_i k i p index measured
      exact absurd ⟨working, rfl, index, measured⟩ (unmeasured k i p)
    · rfl
  · rfl

/-- The Impression Controller once a nip is taken: the nips left, and the slot counter advanced. -/
def nipPassed (c : Loaded) (s : State) (rest : List HeldNip) : Impression :=
  { s.imp with
    nips := rest
    slotCounter := if s.imp.slotSync then (s.imp.slotCounter + 1) % c.hdr.plates else s.imp.slotCounter }

/-- What a nip raises: THROW_LATE for a strike row in ENGAGING (R144). -/
def nipFaults (s : State) (r : Row) : List RaisedFault :=
  if r.isStrike && s.imp.throw == .engaging then [⟨.throwLate, none⟩] else []

theorem takeNip_of_row {s : State} {c : Loaded} {h : HeldNip} {rest : List HeldNip} {r : Row}
    (loaded : s.loader.loaded = some c) (nips : s.imp.nips = h :: rest) (row : findRow h.row s = some r) :
    takeNip s =
      let slot := if s.imp.slotSync then some s.imp.slotCounter else none
      let err := registrationError c s slot (r.leadCell c)
      updateRow h.row (recordNip c s.web.high s.inImpression s.station.mode.rejects slot s.imp.throw err)
        (trimAt c err { s with
          imp := nipPassed c s rest
          msgs := { s.msgs with faults := s.msgs.faults ++ nipFaults s r } }) := by
  rw [takeNip, withLoaded_of_loaded loaded, nips]
  dsimp only
  rw [row]
  dsimp only
  rw [nipFaults]
  by_cases late : (r.isStrike && s.imp.throw == .engaging) = true
  · rw [if_pos late, if_pos late]
    rfl
  · rw [if_neg late, if_neg late, List.append_nil]
    rfl

theorem trimAt_of_still {c : Loaded} {s : State}
    (still : ¬ ((s.station.mode = .watch ∨ s.station.mode = .run) ∧ s.imp.trimStopped = false)) (e : Int) :
    trimAt c (some e) s = { s with imp := { s.imp with lastError := some e } } := by
  rw [trimAt]
  dsimp only
  rw [if_neg (by simpa using still)]

theorem trimAt_of_correcting {c : Loaded} {s : State}
    (corrects : (s.station.mode = .watch ∨ s.station.mode = .run) ∧ s.imp.trimStopped = false) (e : Int) :
    trimAt c (some e) s =
      applyCorrection c (correction c.hdr e) { s with imp := { s.imp with lastError := some e } } := by
  rw [trimAt]
  dsimp only
  rw [if_pos (by simpa using corrects)]

theorem toNat_eq_ite (x : Int) : x.toNat = if 0 < x then x.natAbs else 0 := by
  split <;> omega

theorem toNat_neg_eq_ite (x : Int) : (-x).toNat = if x < 0 then x.natAbs else 0 := by
  split <;> omega

theorem applyCorrection_of_within {c : Loaded} {x : Int} {s : State}
    (fits : (s.imp.trim + x).natAbs ≤ c.hdr.trimLimit) :
    applyCorrection c x s = { s with imp := { s.imp with
      trim := s.imp.trim + x, trimUp := s.imp.trimUp + x.toNat, trimDn := s.imp.trimDn + (-x).toNat } } := by
  rw [applyCorrection]
  dsimp only
  rw [if_neg (by omega), toNat_eq_ite, toNat_neg_eq_ite]

theorem applyCorrection_of_beyond {c : Loaded} {x : Int} {s : State}
    (beyond : c.hdr.trimLimit < (s.imp.trim + x).natAbs) :
    applyCorrection c x s = raiseFault .trimLimit none s := by
  rw [applyCorrection]
  dsimp only
  rw [if_pos (by omega)]

theorem correction_eq_clamp (h : Header) (e : Int) :
    correction h e = max (-(h.trimStepMax : Int)) (min (h.trimStepMax : Int) ((e * h.trimGain).tdiv 8)) := by
  rw [correction]
  generalize (e * (h.trimGain : Int)).tdiv 8 = x
  split_ifs <;> omega

theorem outcomeOf_eq (cell : Cell) (hit : Bool) : outcomeOf hit cell =
    if hit then
      match cell.decision, cell.pull.map fun p => p.state with
      | some .strike, some .stopped => .blind
      | some .strike, some .notStarted => .blind
      | some .strike, some _ => .foiled
      | some .strike, none => .embossed
      | some .pass, _ => .passed
      | _, _ => .blind
    else if cell.decision = some .strike then .missed else .clear := by
  obtain ⟨markPos, nipPos, kind, status, variant, setPos, predicted, decision, reason, pull, outcome, reject, used⟩ := cell
  cases hit with
  | false =>
    cases decision with
    | none => rfl
    | some d => cases d <;> rfl
  | true =>
    cases decision with
    | none => rfl
    | some d =>
      cases d with
      | pass | skip => rfl
      | strike =>
        cases pull with
        | none => rfl
        | some p =>
          obtain ⟨start, stop, state⟩ := p
          cases state <;> rfl

theorem inImpression_iff (s : State) :
    s.inImpression = true ↔ s.imp.throw = .on ∨ (s.imp.throw = .releasing ∧ s.pins.throwOk = true) := by
  rw [State.inImpression]
  cases s.imp.throw <;> simp

/-- Settles O55: the row is found by its name, and the trim follows the registration error that it gives. -/
theorem nipReachedTakesRow : Obligations.NipTaken := by
  refine ⟨fun s c h rest pre post r loaded nips reached split named names => ?_, outcomeOf_eq, inImpression_iff,
    correction_eq_clamp⟩
  intro slot late faults point struck imp track measured answers
  have reach : ∀ u, takeNip s = u → answers u := by
    intro u took
    refine ⟨?_, took⟩
    rw [← took, show exec .nipReached s = .next (finish s (nipTaken s)) from rfl, nipTaken, nips]
    dsimp only
    rw [if_pos reached]
  have apart := apart_of_names names split
  have raised : s.msgs.faults ++ nipFaults s r = faults := by
    have same : (r.isStrike && s.imp.throw == .engaging) = true ↔ late := by
      rw [Bool.and_eq_true, isStrike_iff, beq_iff_eq]
    rw [nipFaults]
    by_cases lateness : late
    · rw [if_pos (same.2 lateness)]
      exact congrArg (s.msgs.faults ++ ·) (if_pos lateness).symm
    · rw [if_neg (mt same.1 lateness)]
      exact congrArg (s.msgs.faults ++ ·) (if_neg lateness).symm
  have recorded : ∀ err, recordNip c s.web.high s.inImpression s.station.mode.rejects slot s.imp.throw err r =
      struck err := by
    intro err
    rw [rejects_eq]
    rfl
  have takes := takeNip_of_row loaded nips (by rw [named]; exact findRow_of_apart apart split)
  rw [raised, named] at takes
  have measured_iff : ∀ k i p, measured k i p ↔ s.station.mode.working = true ∧ slot = some k ∧
      s.imp.lastIndex = some i ∧ measuredNip (r.leadCell c) = some p := by
    intro k i p
    simp only [measured, measuredNip_eq_some_iff, leadCell_eq_some_iff]
    constructor
    · rintro ⟨working, met, index, n, x, lead, cell, rest⟩
      exact ⟨working, met, index, x, ⟨n, lead, cell⟩, rest⟩
    · rintro ⟨working, met, index, x, ⟨n, lead, cell⟩, rest⟩
      exact ⟨working, met, index, n, x, lead, cell, rest⟩
  refine ⟨fun unmeasured => reach _ ?_, fun k i p measure => ?_⟩
  · have err : registrationError c s slot (r.leadCell c) = none :=
      registrationError_eq_none fun k i p => (unmeasured k i p) ∘ (measured_iff k i p).2
    rw [takes]
    dsimp only
    rw [err, trimAt, updateRow_of_apart apart (by exact split), recorded] <;> rfl
  · intro e x corrects t
    obtain ⟨working, met, index, nipPos⟩ := (measured_iff k i p).1 measure
    have err : registrationError c s slot (r.leadCell c) = some e :=
      registrationError_of_measured working met index nipPos
    refine ⟨fun still => reach _ ?_, fun trims fits => reach _ ?_, fun trims beyond => reach _ ?_⟩
    all_goals
      rw [takes]
      dsimp only
      rw [err]
    · rw [trimAt_of_still (by exact still), updateRow_of_apart apart (by exact split), recorded] <;> rfl
    · rw [trimAt_of_correcting (by exact trims), applyCorrection_of_within (by exact fits),
        updateRow_of_apart apart (by exact split), recorded] <;> rfl
    · rw [trimAt_of_correcting (by exact trims), applyCorrection_of_beyond (by exact beyond), raiseFault,
        updateRow_of_apart apart (by exact split), recorded] <;> rfl

end Sys2Proof.Machine

/-! SUPPORT. Pull reports at the Row Track, reject pulses and retirement (R128 to R131, R168). -/

namespace Sys2Proof.Machine

/-! ## Pull reports -/

theorem updateRow_of_absent {s : State} {uid : Nat} (absent : ∀ r ∈ s.track.rows, r.uid ≠ uid) (f : Row → Row) :
    updateRow uid f s = s := by
  rw [updateRow, (List.map_congr_left fun r mem => if_neg (absent r mem)).trans (List.map_id' _)]

/-- A pull report in the terms of O58: the event decides pull state and foil used, and a pull stopped or not begun turns the
FOILED cell of a struck row BLIND. -/
theorem recordPull_of_pull (rejects struck : Bool) (m : PullMsg) {cell : Cell} {p : Pull} (pull : cell.pull = some p) :
    recordPull rejects struck m cell =
      let blind := struck && cell.outcome == some .foiled && (m.event == .stopped || m.event == .notBegun)
      { cell with
        pull := some { p with state := match m.event with
          | .begun => .active
          | .ended => .completed
          | .stopped => .stopped
          | .notBegun => .notStarted }
        foilUsed := match m.event with
          | .begun => cell.foilUsed
          | .notBegun => 0
          | _ => m.credit
        outcome := if blind then some .blind else cell.outcome
        reject := cell.reject || (blind && rejects) } := by
  obtain ⟨row, event, credit⟩ := m
  rw [recordPull, pull]
  cases event with
  | begun | ended => simp
  | stopped | notBegun => simp

theorem pullReportTaken_of_msg {n : Lane} {s : State} {m : PullMsg} {later : List PullMsg}
    (msg : s.msgs.pulls.get n = m :: later) :
    pullReportTaken n s = updateRow m.row (recordPullRow s.station.mode.rejects n m)
      { s with msgs := { s.msgs with pulls := s.msgs.pulls.set n later } } := by
  rw [pullReportTaken, msg]

/-! ## Reject pulses -/

theorem applySplice_eq (rejects : Bool) (r : Row) :
    applySplice rejects r = { r with
      cells := r.cells.map fun o => o.map fun x => { x with reject := x.reject || (r.splice && rejects) } } := by
  rw [applySplice]
  split
  · rename_i flagged
    simp [flagged]
  · rename_i clear
    simp only [Bool.not_eq_true] at clear
    have same : (r.cells.map fun o => o.map fun x : Cell => { x with reject := x.reject || (r.splice && rejects) }) =
        r.cells := PerLane.ext_get fun n => by simp [clear]
    rw [same]

/-- The reject end of a lane once a pulse ending at `pulse` begins there. -/
def pulsedEnd (pulse : Held) (o : Option Held) : Option Held :=
  match o with
  | some y => some (if 0 < (pulse.pos - y.pos).toInt then pulse else y)
  | none => some pulse

/-- The lane's cell carries the reject flag. -/
def Row.flagged (r : Row) (n : Lane) : Bool :=
  match r.cells.get n with
  | some x => x.reject
  | none => false

theorem pulseLane_eq (c : Loaded) (point : Pos) (r : Row) (n : Lane) (s : State) :
    pulseLane c point r n s =
      let pulse := hold s.web.high (point + c.hdr.rejectWidth)
      let ends := s.track.rejectEnd.get n
      let count := s.cnt.rejects.get n
      { s with
        track := { s.track with
          rejectEnd := s.track.rejectEnd.set n (if r.flagged n then pulsedEnd pulse ends else ends) }
        cnt := { s.cnt with rejects := s.cnt.rejects.set n (if r.flagged n then count + 1 else count) } } := by
  rw [pulseLane, Row.flagged]
  cases r.cells.get n with
  | none => simp
  | some x =>
    dsimp only
    by_cases flag : x.reject = true
    · rw [if_pos flag, if_pos flag, if_pos flag, beginPulse]
      cases s.track.rejectEnd.get n with
      | none => rfl
      | some y => simp [pulsedEnd, isAfter, delta, hold, apply_ite some]
    · rw [if_neg flag, if_neg flag, if_neg flag, PerLane.set_get, PerLane.set_get]

theorem forLanes_pulseLane (c : Loaded) (point : Pos) (r : Row) (s : State) :
    forLanes (pulseLane c point r) s =
      let pulse := hold s.web.high (point + c.hdr.rejectWidth)
      { s with
        track := { s.track with
          rejectEnd := s.track.rejectEnd.mapLane fun n o => if r.flagged n then pulsedEnd pulse o else o }
        cnt := { s.cnt with rejects := s.cnt.rejects.mapLane fun n k => if r.flagged n then k + 1 else k } } := by
  unfold forLanes
  simp only [pulseLane_eq]
  rfl

/-! ## Retirement -/

theorem decisionDue_eq_true_iff (s : State) :
    decisionDue s = true ↔ ∃ y ∈ s.track.rows, y.stage = .opened ∧ y.decisionPoint.reached = true := by
  simp [decisionDue]

theorem decisionDue_eq_false {s : State}
    (none : ∀ y ∈ s.track.rows, ¬ (y.stage = .opened ∧ y.decisionPoint.reached = true)) : decisionDue s = false :=
  Bool.eq_false_iff.2 fun due =>
    let ⟨y, mem, reached⟩ := (decisionDue_eq_true_iff s).1 due
    none y mem reached

theorem rejectDue_of_due {s : State} {r : Row} {x : Held} (oldest : s.track.rows.head? = some r)
    (struck : r.stage = .struck) (point : r.rejectPoint = some x) (reached : x.reached = true) :
    rejectDue s = some (r, x.pos) := by
  obtain ⟨rest, rows⟩ := List.head?_eq_some_iff.1 oldest
  rw [rejectDue, rows]
  dsimp only
  rw [point]
  dsimp only
  rw [if_pos (by rw [struck, reached]; rfl)]

theorem rejectDue_eq_none {s : State} (quiet : ∀ r x, s.track.rows.head? = some r → r.rejectPoint = some x →
    ¬ (r.stage = .struck ∧ x.reached = true)) : rejectDue s = none := by
  unfold rejectDue
  split
  · rename_i r rest rows
    split
    · rename_i x point
      exact if_neg (by simpa using quiet r x (by rw [rows]; rfl) point)
    · rfl
  · rfl

theorem filter_others_of_apart {r : Row} {rest : List Row} (apart : Apart [] r rest) :
    ((r :: rest).filter fun x => x.uid != r.uid) = rest := by
  rw [List.filter_cons_of_neg (by simp), List.filter_eq_self.2 fun y mem => by simpa using apart.2 y mem]

theorem withCredits_eq (s : State) (r : Row) :
    withCredits s r = { r with cells := r.cells.mapLane fun n o => o.map fun x => { x with
      foilUsed := match (s.drive n).records.find? fun q => q.served && q.row == r.uid with
        | some q => q.credit
        | none => x.foilUsed } } := by
  have cells : (r.cells.mapLane fun n o => o.map fun cell =>
        match servedCredit (s.foil.get n) r.uid with
        | some w => { cell with foilUsed := w }
        | none => cell) =
      r.cells.mapLane fun n o => o.map fun x => { x with
        foilUsed := match (s.drive n).records.find? fun q => q.served && q.row == r.uid with
          | some q => q.credit
          | none => x.foilUsed } := by
    refine PerLane.ext_get fun n => ?_
    rw [PerLane.get_mapLane, PerLane.get_mapLane]
    refine congrArg (Option.map · _) (funext fun x => ?_)
    rw [servedCredit, State.drive]
    cases (s.foil.get n).records.find? fun q => q.served && q.row == r.uid <;> rfl
  rw [withCredits, ← cells] <;> rfl

theorem rejectPointTaken_of_due {s : State} {c : Loaded} (loaded : s.loader.loaded = some c) (open_ : decisionDue s = false)
    {r : Row} {point : Pos} (due : rejectDue s = some (r, point)) :
    rejectPointTaken s =
      let r' := applySplice s.station.mode.rejects r
      retireRow r' (forLanes (pulseLane c point r') s) := by
  rw [rejectPointTaken, withLoaded_of_loaded loaded, if_neg (by rw [open_]; exact Bool.false_ne_true), due]

/-- Settles O58: the row of a report by its name, the pulses lane by lane, and the order of the commands due. -/
theorem pullReportsAndRejects : Obligations.PullReportsAndRejects := by
  refine ⟨fun n s m later msg => ?_, fun s c r rest h loaded split struck point reached names others => ?_,
    fun s due => ?_, fun s r x oldest struck point reached n => ?_, fun n s h held reached decisions rejects => ?_⟩
  · intro msgs answers
    have reach : ∀ u, pullReportTaken n s = u → answers u := by
      rintro u rfl
      rfl
    refine ⟨fun gone => reach _ ?_, fun pre r post cell p split named names cells pull => ?_⟩
    · rw [pullReportTaken_of_msg msg]
      rw [updateRow_of_absent (by exact gone)]
    · intro blind
      refine reach _ ?_
      rw [pullReportTaken_of_msg msg, ← named, updateRow_of_apart (apart_of_names names split) (by exact split),
        recordPullRow, cells, Option.map_some, recordPull_of_pull _ _ m pull, rejects_eq]
      have same : (r.stage == .struck && cell.outcome == some .foiled && (m.event == .stopped || m.event == .notBegun)) =
          decide blind := by
        simp [blind, and_assoc, Bool.and_assoc, beq_eq_decide]
      dsimp only
      rw [same]
      simp only [decide_eq_true_eq]
      rfl
  · intro all flag stop pulse row
    rw [show exec .rejectPointReached s = .next (finish s (rejectPointTaken s)) from rfl]
    have apart : Apart [] r rest := apart_of_names names split
    have open_ : decisionDue s = false := by
      refine decisionDue_eq_false fun y mem => ?_
      rw [split] at mem
      rcases List.mem_cons.1 mem with rfl | later
      · rintro ⟨opened, _⟩
        rw [struck] at opened
        cases opened
      · exact others y later
    have flags : ∀ n, (applySplice s.station.mode.rejects r).flagged n = flag n := by
      intro n
      rw [applySplice_eq, Row.flagged, rejects_eq]
      dsimp only
      rw [PerLane.get_map]
      dsimp only [flag]
      cases r.cells.get n <;> rfl
    have credited : ∀ t : State, t.foil = s.foil → withCredits t (applySplice s.station.mode.rejects r) = row := by
      intro t foil
      rw [applySplice_eq, withCredits_eq, rejects_eq]
      dsimp only [row, State.drive]
      rw [foil]
      refine congrArg (fun cells => { r with cells := cells }) (PerLane.ext_get fun n => ?_)
      rw [PerLane.get_mapLane, PerLane.get_mapLane, PerLane.get_map, Option.map_map]
      rfl
    have named : (applySplice s.station.mode.rejects r).uid = r.uid := by rw [applySplice_eq]
    rw [rejectPointTaken_of_due loaded open_ (rejectDue_of_due (by rw [split]; rfl) struck point reached)]
    dsimp only
    rw [forLanes_pulseLane, retireRow]
    dsimp only
    rw [credited _ (by rfl), named, split, filter_others_of_apart apart]
    simp only [flags]
    rfl
  · have waits : decisionDue s = true := (decisionDue_eq_true_iff s).2 due
    refine ⟨?_, fun n => ?_⟩
    · rw [show exec .rejectPointReached s = .next (finish s (rejectPointTaken s)) from rfl, rejectPointTaken,
        withLoaded_of_same fun c => if_pos waits]
    · rw [show exec (.rejectEndReached n) s = .next (finish s (rejectEndTaken n s)) from rfl, rejectEndTaken,
        if_neg (by simp [waits])]
  · rw [show exec (.rejectEndReached n) s = .next (finish s (rejectEndTaken n s)) from rfl, rejectEndTaken,
      if_neg (by simp [rejectDue_of_due oldest struck point reached])]
  · rw [show exec (.rejectEndReached n) s = .next (finish s (rejectEndTaken n s)) from rfl, rejectEndTaken,
      if_pos (by simp [held, isReached, reached, decisionDue_eq_false decisions, rejectDue_eq_none rejects])]

end Sys2Proof.Machine

/-! SUPPORT. A break of the foil, and the starts and ends of a pull (R157, R159 to R165). -/

namespace Sys2Proof.Machine

/-! ## A break -/

/-- What a foil fault of lane `n` raises in RUN: ALL_LANES_DOWN when every other active lane is BLOCKED or has a foil fault. -/
def lanesDownFault (c : Loaded) (n : Lane) (s : State) : List RaisedFault :=
  if s.station.mode = .run ∧ ∀ m, c.hdr.active m = true →
      m = n ∨ (s.lane m).state = .blocked ∨ (s.drive m).faulty = true
    then [⟨.allLanesDown, none⟩] else []

/-- A lane with BREAK added and the lanes tested, before its pull is stopped. -/
def broken (c : Loaded) (n : Lane) (s : State) : State :=
  { s with
    foil := s.foil.set n { s.drive n with brk := true }
    msgs := { s.msgs with
      faults := s.msgs.faults ++ if (s.drive n).brk = false then lanesDownFault c n s else [] } }

theorem addBreak_eq_broken (n : Lane) {s : State} {c : Loaded} (loaded : s.loader.loaded = some c) :
    addBreak n s = latch .foil (stopPull n (broken c n s)) := by
  rw [addBreak_eq n loaded, broken, lanesDownFault, State.drive, ite_and]
  rfl

theorem addBreak_of_active {n : Lane} {s : State} {c : Loaded} (loaded : s.loader.loaded = some c)
    (active : (s.drive n).activePull = true) :
    addBreak n s = latch .foil (testWindDown (pullLeft n (broken c n s))) := by
  rw [addBreak_eq_broken n loaded, stopPull_eq, if_pos]
  rw [broken]
  dsimp only
  rw [PerLane.get_set_same]
  exact active

theorem addBreak_of_inactive {n : Lane} {s : State} {c : Loaded} (loaded : s.loader.loaded = some c)
    (inactive : (s.drive n).activePull = false) : addBreak n s = latch .foil (broken c n s) := by
  rw [addBreak_eq_broken n loaded, stopPull_eq, if_neg]
  rw [broken]
  dsimp only
  rw [PerLane.get_set_same]
  exact Bool.eq_false_iff.1 inactive

theorem foilbrkWatched_iff (n : Lane) (s : State) :
    foilbrkWatched n s = true ↔ (s.station.mode = .loading ∨ s.station.mode.configured = true) ∧
      ∃ c, s.loader.loaded = some c ∧ c.hdr.active n = true := by
  rw [foilbrkWatched, State.laneActive]
  cases s.loader.loaded with
  | none => simp
  | some c => simp [and_comm, or_comm]

theorem drive_set_same (s : State) (n : Lane) (f : Foil) : (s.foil.set n f).get n = f := PerLane.get_set_same ..

/-- FOILBRK_ASSERTED where the line is watched, in the terms of O57. -/
theorem foilbrkAssert_of_watched {n : Lane} {s : State} {c : Loaded}
    (covered : s.station.mode = .loading ∨ s.station.mode.configured = true) (loaded : s.loader.loaded = some c)
    (active : c.hdr.active n = true) :
    foilbrkAssert n s = addBreak n { s with pins := { s.pins with foilbrk := s.pins.foilbrk.set n true } } := by
  rw [foilbrkAssert, if_pos (by exact (foilbrkWatched_iff n _).2 ⟨covered, c, loaded, active⟩)]

/-- A lane with BREAK added and its pull gone, before the wind-down is tested. -/
def brokenLeft (c : Loaded) (n : Lane) (s : State) : State :=
  { s with
    foil := s.foil.set n { s.drive n with brk := true }.stopped
    msgs := { s.msgs with
      faults := s.msgs.faults ++ if (s.drive n).brk = false then lanesDownFault c n s else []
      pulls := s.msgs.pulls.set n (s.msgs.pulls.get n ++ (s.drive n).stopReports) }
    rep := { s.rep with dirty := true } }

theorem pullLeft_broken (c : Loaded) (n : Lane) (s : State) : pullLeft n (broken c n s) = brokenLeft c n s := by
  rw [pullLeft, broken, brokenLeft]
  dsimp only
  rw [PerLane.set_set, PerLane.get_set_same]
  rfl

/-! ## A start reached -/

/-- An ARMED record whose row no other record names. -/
structure ArmedAt (l pre : List PullRec) (r : PullRec) (post : List PullRec) : Prop where
  split : l = pre ++ r :: post
  armed : r.served = false
  others : ∀ y ∈ pre ++ post, y.row ≠ r.row

section
variable {l pre post : List PullRec} {r : PullRec}

theorem ArmedAt.find (at_ : ArmedAt l pre r post) : (l.find? fun x => !x.served && x.row == r.row) = some r := by
  rw [at_.split, List.find?_append, List.find?_eq_none.2 fun y mem => by
    simp [at_.others y (List.mem_append_left _ mem)]]
  simp [at_.armed]

theorem ArmedAt.drop (at_ : ArmedAt l pre r post) : dropArmed r.row l = pre ++ post := by
  have kept : ∀ y ∈ pre ++ post, (y.served || y.row != r.row) = true := fun y mem => by simp [at_.others y mem]
  rw [dropArmed, at_.split, List.filter_append, List.filter_cons_of_neg (by simp [at_.armed]), ← List.filter_append,
    List.filter_eq_self.2 kept]

theorem ArmedAt.serve (at_ : ArmedAt l pre r post) (high : Pos) :
    serve high r.row l = pre ++ { r with served := true, ownEnd := hold high r.ownEnd.pos } :: post := by
  have others : ∀ m : List PullRec, (∀ y ∈ m, y ∈ pre ++ post) →
      (m.map fun x => if !x.served && x.row == r.row then
        { x with served := true, ownEnd := hold high x.ownEnd.pos } else x) = m := fun m sub =>
    (List.map_congr_left fun y mem => if_neg (by simp [at_.others y (sub y mem)])).trans (List.map_id' m)
  rw [Machine.serve, at_.split, List.map_append, List.map_cons, if_pos (by simp [at_.armed]),
    others pre fun _ => List.mem_append_left _, others post fun _ => List.mem_append_right _]

end

theorem hold_of_ahead {high p : Pos} (ahead : 0 < (p - high).toInt) : hold high p = ⟨p, false⟩ := by
  rw [hold, isAfter, delta, decide_eq_true ahead, Bool.not_true]

/-- A pull can begin: in RUN, without a foil fault, its own end ahead (R157, first three cases). -/
def Beginnable (n : Lane) (own : Pos) (s : State) : Prop :=
  s.station.mode = .run ∧ (s.drive n).faulty = false ∧ 0 < (own - s.web.high).toInt

section
variable {n : Lane} {s : State} {c : Loaded} {pre post : List PullRec} {r : PullRec}

theorem refusePull_eq (at_ : ArmedAt (s.drive n).records pre r post) :
    refusePull n r.row s = { s with
      foil := s.foil.set n { s.drive n with records := pre ++ post }
      msgs := { s.msgs with pulls := s.msgs.pulls.set n (s.msgs.pulls.get n ++ [⟨r.row, .notBegun, 0⟩]) } } := by
  have drop := at_.drop
  rw [State.drive] at drop ⊢
  rw [refusePull, drop] <;> rfl

theorem beginPull_of_refused (loaded : s.loader.loaded = some c) (at_ : ArmedAt (s.drive n).records pre r post)
    (refused : ¬ Beginnable n r.ownEnd.pos s) : beginPull n r.row s = refusePull n r.row s := by
  have found := at_.find
  rw [State.drive] at found
  rw [beginPull, withLoaded_of_loaded loaded]
  dsimp only
  rw [found]
  dsimp only
  by_cases run : s.station.mode = .run
  · rw [if_neg (not_not.2 run)]
    by_cases faulty : (s.foil.get n).faulty = true
    · rw [if_pos faulty]
    · rw [if_neg faulty, if_pos]
      exact Bool.not_eq_true' _ ▸ decide_eq_false fun ahead => refused ⟨run, Bool.eq_false_iff.2 faulty, ahead⟩
  · rw [if_pos run]

theorem beginPull_of_beginnable (loaded : s.loader.loaded = some c) (at_ : ArmedAt (s.drive n).records pre r post)
    (can : Beginnable n r.ownEnd.pos s) :
    beginPull n r.row s =
      let f := s.foil.get n
      if f.remaining = 0 then refusePull n r.row (addOut n s)
      else if f.activePull then
        handPull n ⟨r.row, .begun, 0⟩ (setFoil n { f with
          records := serve s.web.high r.row f.records
          pullEnd := some (mergedEnd s.web.high f.pullEnd r.ownEnd.pos) } s)
      else
        handPull n ⟨r.row, .begun, 0⟩ (setFoil n { f with
          records := serve s.web.high r.row f.records
          pullEnd := some (hold s.web.high r.ownEnd.pos)
          acc := c.hdr.ratioDen - 1 } s) := by
  obtain ⟨run, sound, ahead⟩ := can
  have found := at_.find
  rw [State.drive] at found sound
  rw [beginPull, withLoaded_of_loaded loaded]
  dsimp only
  rw [found]
  dsimp only
  rw [if_neg (not_not.2 run), if_neg (by rw [sound]; exact Bool.false_ne_true),
    if_neg (by simpa [isAfter, delta] using ahead)]

theorem addOut_of_sound (loaded : s.loader.loaded = some c) (sound : (s.drive n).faulty = false) :
    addOut n s = { s with
      foil := s.foil.set n { s.drive n with out := true }
      msgs := { s.msgs with faults := s.msgs.faults ++ lanesDownFault c n s }
      rep := { s.rep with latched := s.rep.latched ||| Cause.foil.mask } } := by
  have lanes : (∀ m, c.hdr.active m = true → (s.lanes.get m).state = .blocked ∨
      ((s.foil.set n { s.foil.get n with out := true }).get m).faulty = true) ↔
      ∀ m, c.hdr.active m = true → m = n ∨ (s.lane m).state = .blocked ∨ (s.drive m).faulty = true := by
    refine forall₂_congr fun m _ => ?_
    by_cases same : m = n
    · subst same
      simp [Foil.faulty]
    · simp [PerLane.get_set_ne _ _ _ _ same, same, State.lane, State.drive]
  obtain ⟨clear, _⟩ := Bool.or_eq_false_iff.1 sound
  have raised : (if s.station.mode = .run ∧ ∀ m, c.hdr.active m = true → (s.lanes.get m).state = .blocked ∨
      ((s.foil.set n { s.foil.get n with out := true }).get m).faulty = true
      then [(⟨.allLanesDown, none⟩ : RaisedFault)] else []) = lanesDownFault c n s :=
    if_congr (and_congr_right' lanes) rfl rfl
  rw [addOut]
  dsimp only
  rw [if_neg (by rw [show (s.foil.get n).out = false from clear]; exact Bool.false_ne_true),
    testLanesDown_eq (c := c) (by exact loaded), ← raised]
  rfl

/-- What a start leaves when no foil remains: OUT is added and FOIL latched, and the record goes (R157, R163). -/
theorem beginPull_of_empty (loaded : s.loader.loaded = some c) (at_ : ArmedAt (s.drive n).records pre r post)
    (can : Beginnable n r.ownEnd.pos s) (empty : (s.drive n).remaining = 0) :
    beginPull n r.row s = { s with
      foil := s.foil.set n { s.drive n with records := pre ++ post, out := true }
      msgs := { s.msgs with
        faults := s.msgs.faults ++ lanesDownFault c n s
        pulls := s.msgs.pulls.set n (s.msgs.pulls.get n ++ [⟨r.row, .notBegun, 0⟩]) }
      rep := { s.rep with latched := s.rep.latched ||| Cause.foil.mask } } := by
  obtain ⟨run, sound, ahead⟩ := can
  rw [beginPull_of_beginnable loaded at_ ⟨run, sound, ahead⟩]
  dsimp only
  rw [if_pos (by exact empty), addOut_of_sound loaded sound,
    refusePull_eq (pre := pre) (post := post) (by rw [State.drive, drive_set_same]; exact at_)]
  dsimp only
  rw [PerLane.set_set, State.drive, drive_set_same, State.drive]

theorem beginPull_of_merge (loaded : s.loader.loaded = some c) (at_ : ArmedAt (s.drive n).records pre r post)
    (can : Beginnable n r.ownEnd.pos s) (foil : (s.drive n).remaining ≠ 0) (active : (s.drive n).activePull = true)
    {h : Held} (pullEnd : (s.drive n).pullEnd = some h) :
    beginPull n r.row s = { s with
      msgs := { s.msgs with pulls := s.msgs.pulls.set n (s.msgs.pulls.get n ++ [⟨r.row, .begun, 0⟩]) }
      foil := s.foil.set n { s.drive n with
        records := pre ++ { r with served := true, ownEnd := ⟨r.ownEnd.pos, false⟩ } :: post
        pullEnd := some (if 0 < (r.ownEnd.pos - h.pos).toInt then ⟨r.ownEnd.pos, false⟩ else h) } } := by
  have served := at_.serve s.web.high
  obtain ⟨_, _, ahead⟩ := id can
  rw [hold_of_ahead ahead] at served
  have merged : mergedEnd s.web.high (s.drive n).pullEnd r.ownEnd.pos =
      if 0 < (r.ownEnd.pos - h.pos).toInt then ⟨r.ownEnd.pos, false⟩ else h := by
    rw [pullEnd, mergedEnd, hold_of_ahead ahead, isAfter, delta]
    exact if_congr decide_eq_true_iff rfl rfl
  rw [beginPull_of_beginnable loaded at_ can, ← served, ← merged]
  dsimp only
  rw [if_neg (by exact foil), if_pos (by exact active)]
  rfl

theorem beginPull_of_fresh (loaded : s.loader.loaded = some c) (at_ : ArmedAt (s.drive n).records pre r post)
    (can : Beginnable n r.ownEnd.pos s) (foil : (s.drive n).remaining ≠ 0) (inactive : (s.drive n).activePull = false) :
    beginPull n r.row s = { s with
      msgs := { s.msgs with pulls := s.msgs.pulls.set n (s.msgs.pulls.get n ++ [⟨r.row, .begun, 0⟩]) }
      foil := s.foil.set n { s.drive n with
        records := pre ++ { r with served := true, ownEnd := ⟨r.ownEnd.pos, false⟩ } :: post
        pullEnd := some ⟨r.ownEnd.pos, false⟩
        acc := c.hdr.ratioDen - 1 } } := by
  have served := at_.serve s.web.high
  obtain ⟨_, _, ahead⟩ := id can
  rw [hold_of_ahead ahead] at served
  rw [beginPull_of_beginnable loaded at_ can, ← served, ← hold_of_ahead ahead]
  dsimp only
  rw [if_neg (by exact foil), if_neg (by rw [← State.drive, inactive]; exact Bool.false_ne_true)]
  rfl

/-- The start taken: the first ARMED record whose start is reached, after every end (R157, R159). -/
theorem pullStart_of_taken (at_ : ArmedAt (s.drive n).records pre r post)
    (taken : r.start.reached = true ∧ (∀ y ∈ pre, y.served = true ∨ y.start.reached = false) ∧
      (∀ y ∈ (s.drive n).records, y.served = true → y.ownEnd.reached = false) ∧
      ∀ h, (s.drive n).pullEnd = some h → h.reached = false) : pullStart n s = beginPull n r.row s := by
  obtain ⟨reached, earlier, own, pullEnd⟩ := taken
  have quiet : (s.drive n).endDue = false := by
    rw [Foil.endDue, Bool.or_eq_false_iff, List.any_eq_false]
    refine ⟨?_, fun y mem => by
      rw [Bool.and_eq_true]
      rintro ⟨served, ended⟩
      rw [own y mem served] at ended
      cases ended⟩
    cases held : (s.drive n).pullEnd with
    | none => rfl
    | some h => exact pullEnd h held
  have first : ((s.drive n).records.find? fun x => !x.served && x.start.reached) = some r := by
    rw [at_.split, List.find?_append, List.find?_eq_none.2 fun y mem => by
      rcases earlier y mem with served | waiting
      · simp [served]
      · simp [waiting]]
    simp [at_.armed, reached]
  rw [State.drive] at quiet first
  rw [pullStart, if_neg (by rw [quiet]; exact Bool.false_ne_true), first]

/-! ## An end reached -/

theorem Foil.ownEndDue_of_first {f : Foil} (split : f.records = pre ++ r :: post) (served : r.served = true)
    (ended : r.ownEnd.reached = true) (apart : ∀ h, f.pullEnd = some h → h.pos ≠ r.ownEnd.pos)
    (first : ∀ y ∈ pre, ¬ (y.served = true ∧ y.ownEnd.reached = true)) : f.ownEndDue = some r := by
  have other : (f.pullEnd.map Held.pos == some r.ownEnd.pos) = false := by
    cases held : f.pullEnd with
    | none => rfl
    | some h => simpa using apart h held
  rw [Foil.ownEndDue, split, List.find?_append, List.find?_eq_none.2 fun y mem => by
    have := first y mem
    simp only [Bool.and_eq_true]
    exact fun due => this due.1]
  simp [served, ended, other]

theorem Foil.ownEndDue_eq_none {f : Foil} {h : Held} (held : f.pullEnd = some h)
    (own : ∀ y ∈ f.records, y.served = true → y.ownEnd.reached = true → y.ownEnd.pos = h.pos) :
    f.ownEndDue = none := by
  rw [Foil.ownEndDue, List.find?_eq_none]
  intro y mem
  simp only [Bool.and_eq_true, Bool.not_eq_true', beq_eq_false_iff_ne, held, Option.map_some, ne_eq, Option.some.injEq]
  rintro ⟨⟨served, ended⟩, other⟩
  exact other (own y mem served ended).symm

theorem ownPullEnd_of_due (split : (s.drive n).records = pre ++ r :: post) (served : r.served = true)
    (due : (s.drive n).ownEndDue = some r) (others : ∀ y ∈ pre ++ post, y.row ≠ r.row) :
    ownPullEnd n s = { s with
      foil := s.foil.set n { s.drive n with records := pre ++ post }
      msgs := { s.msgs with pulls := s.msgs.pulls.set n (s.msgs.pulls.get n ++ [⟨r.row, .ended, r.credit⟩]) } } := by
  have kept : ((s.drive n).records.filter fun x => !(x.served && x.row == r.row)) = pre ++ post := by
    rw [split, List.filter_append, List.filter_cons_of_neg (by simp [served]), ← List.filter_append,
      List.filter_eq_self.2 fun y mem => by simp [others y mem]]
  rw [← kept]
  rw [State.drive] at due ⊢
  rw [ownPullEnd, due] <;> rfl

end

/-- Settles O57: the break by its lane's pull, a start by its five cases, an end by the records that are SERVED. -/
theorem pulls : Obligations.Pulls := by
  intro n s f reports lit covered fault
  refine ⟨fun unwatched => ?_, fun c cover loaded active => ?_, fun c pre r post loaded split armed others => ?_,
    fun pre r post split served ended apart first others => ?_, fun h held reached own => ?_⟩
  · rw [show exec (.foilbrkAsserted n) s = .next (finish s (foilbrkAssert n s)) from rfl, foilbrkAssert,
      if_neg (by exact mt (foilbrkWatched_iff n _).1 unwatched)]
  · have asserts : ∀ u, addBreak n lit = u → exec (.foilbrkAsserted n) s = .next (finish s u) := by
      rintro u rfl
      rw [← foilbrkAssert_of_watched cover loaded active]
      rfl
    cases pulling : f.activePull with
    | true =>
      have breaks := addBreak_of_active (n := n) (s := lit) loaded pulling
      rw [pullLeft_broken] at breaks
      have wound := woundDown_testWindDown (brokenLeft c n lit)
      have test : ∀ m : Messages, m = (brokenLeft c n lit).msgs →
          testWindDown { brokenLeft c n lit with msgs := m } = testWindDown (brokenLeft c n lit) := by
        rintro m rfl
        rfl
      obtain ⟨foil, msgs⟩ := testWindDown_drive (brokenLeft c n lit)
      have pins := congrArg State.pins wound.eq
      generalize testWindDown (brokenLeft c n lit) = t at breaks foil msgs pins test
      have drive : (latch .foil t).drive n = { f with brk := true }.stopped :=
        (congrArg (PerLane.get · n) foil).trans (drive_set_same s n _)
      refine ⟨latch .foil t, asserts _ breaks, pins, congrArg Foil.brk drive, (congrArg Foil.out drive).trans rfl,
        (congrArg Foil.remaining drive).trans rfl, (congrArg Foil.activePull drive).trans (Foil.activePull_stopped _),
        congrArg Foil.records drive,
        fun m other => (congrArg (PerLane.get · m) foil).trans (PerLane.get_set_ne _ _ _ _ other), or_mask_and _ _,
        congrArg Messages.faults msgs, (congrArg Messages.pulls msgs).trans rfl, ?_⟩
      intro v latching
      exact ⟨fun _ => congrArg latching (test _ msgs).symm, fun idle => nomatch idle⟩
    | false =>
      obtain ⟨records, silent⟩ := Foil.all_armed pulling
      have drive : (broken c n lit).drive n = { f with brk := true } := drive_set_same s n _
      refine ⟨_, asserts _ (addBreak_of_inactive (n := n) (s := lit) loaded pulling), rfl, congrArg Foil.brk drive,
        (congrArg Foil.out drive).trans rfl, (congrArg Foil.remaining drive).trans rfl,
        (congrArg Foil.activePull drive).trans pulling, (congrArg Foil.records drive).trans records.symm, fun m other => PerLane.get_set_ne _ _ _ _ other,
        or_mask_and _ _, rfl, ?_, ?_⟩
      · show s.msgs.pulls = s.msgs.pulls.set n (s.msgs.pulls.get n ++ f.stopReports)
        rw [silent, List.append_nil, PerLane.set_get]
      · intro v latching
        exact ⟨fun busy => (nomatch busy), fun _ => rfl⟩
  · intro taken answers high own refused served possible
    have at_ : ArmedAt (s.drive n).records pre r post := ⟨split, armed, others⟩
    have reach : ∀ u, beginPull n r.row s = u → answers u := fun u begins =>
      ⟨begins, fun take => by rw [← begins, ← pullStart_of_taken at_ take]; rfl⟩
    refine ⟨fun refuse => reach _ ((beginPull_of_refused loaded at_ refuse).trans (refusePull_eq at_)),
      fun can empty => ⟨_, reach _ (beginPull_of_empty loaded at_ can empty), rfl, drive_set_same .., fun m other =>
        PerLane.get_set_ne _ _ _ _ other, rfl, rfl⟩,
      fun can foil active h pullEnd => reach _ (beginPull_of_merge loaded at_ can foil active pullEnd),
      fun can foil inactive => reach _ (beginPull_of_fresh loaded at_ can foil inactive)⟩
  · rw [← ownPullEnd_of_due split served (Foil.ownEndDue_of_first split served ended apart first) others]
    rfl
  · rw [show exec (.pullEndReached n) s = .next (finish s (pullEnd n s)) from rfl, pullEnd]
    dsimp only
    rw [if_pos (by rw [show (s.foil.get n).ownEndDue = none from Foil.ownEndDue_eq_none held own,
      show (s.foil.get n).pullEnd = some h from held]; exact Bool.and_eq_true _ _ ▸ ⟨reached, rfl⟩), reportRecords_eq]
    rfl

end Sys2Proof.Machine

/-! SUPPORT. The splice list (R86 to R91, R125). -/

namespace Sys2Proof.Machine

/-! ## One element of a list of distinct names -/

section
variable {α : Type} {key : α → Nat} {pre post : List α} {x : α}

theorem names_around (names : (pre ++ x :: post).Pairwise fun a b => key a ≠ key b) :
    ∀ y ∈ pre ++ post, key y ≠ key x := by
  obtain ⟨_, tail, across⟩ := List.pairwise_append.1 names
  intro y mem
  rcases List.mem_append.1 mem with before | after
  · exact across y before x (by simp)
  · exact (List.rel_of_pairwise_cons tail after).symm

theorem map_replace_of_names (names : (pre ++ x :: post).Pairwise fun a b => key a ≠ key b) (z : α) :
    ((pre ++ x :: post).map fun y => if key y = key x then z else y) = pre ++ z :: post := by
  have others : ∀ l : List α, (∀ y ∈ l, y ∈ pre ++ post) → (l.map fun y => if key y = key x then z else y) = l :=
    fun l sub => (List.map_congr_left fun y mem => if_neg (names_around names y (sub y mem))).trans (List.map_id' l)
  rw [List.map_append, List.map_cons, if_pos rfl, others pre fun _ => List.mem_append_left _,
    others post fun _ => List.mem_append_right _]

theorem filter_others_of_names (names : (pre ++ x :: post).Pairwise fun a b => key a ≠ key b) :
    ((pre ++ x :: post).filter fun y => key y != key x) = pre ++ post := by
  rw [List.filter_append, List.filter_cons_of_neg (by simp), ← List.filter_append,
    List.filter_eq_self.2 fun y mem => by simpa using names_around names y mem]

theorem find?_of_first {p : α → Bool} (hit : p x = true) (earlier : ∀ y ∈ pre, p y = false) :
    (pre ++ x :: post).find? p = some x := by
  rw [List.find?_append, List.find?_eq_none.2 fun y mem => Bool.eq_false_iff.1 (earlier y mem), Option.none_or,
    List.find?_cons_of_pos hit]

theorem find?_reverse_of_last {p : α → Bool} (hit : p x = true) (later : ∀ y ∈ post, p y = false) :
    (pre ++ x :: post).reverse.find? p = some x := by
  rw [List.reverse_append, List.reverse_cons, List.append_assoc, List.singleton_append]
  exact find?_of_first hit fun y mem => later y (List.mem_reverse.1 mem)

end

/-! ## Spans -/

theorem Span.isOpen_iff (p : Span) : p.isOpen = true ↔ ∃ n, p.openLanes.get n = true :=
  exists_lane_iff (p := p.openLanes.get)

theorem Span.isOpen_eq_false_iff (p : Span) : p.isOpen = false ↔ ∀ n, p.openLanes.get n = false := by
  rw [← Bool.not_eq_true, Span.isOpen_iff, not_exists]
  simp only [Bool.not_eq_true]

theorem Span.covers_iff (p : Span) (x : Pos) : p.covers x = true ↔ ¬ 0 < (p.start - x).toInt ∧
    ((∃ n, p.openLanes.get n = true) ∨ ∃ e, p.endSoFar = some e ∧ ¬ 0 < (x - e).toInt) := by
  rw [Span.covers, Bool.and_eq_true, Bool.or_eq_true, Span.isOpen_iff]
  cases p.endSoFar <;> simp [isAfter, delta]

theorem displaceable_iff (c : Loaded) (high : Pos) (p : Span) :
    displaceable c high p = true ↔ (∀ n, p.openLanes.get n = false) ∧
      ∃ e, p.endSoFar = some e ∧ ¬ 0 < (e + c.hdr.nipToReject - high).toInt := by
  rw [displaceable, Bool.and_eq_true, Bool.not_eq_true', Span.isOpen_eq_false_iff]
  cases p.endSoFar <;> simp [isAfter, delta]

theorem earlierPos_eq (a b : Pos) : earlierPos a b = if 0 < (b - a).toInt then a else b :=
  if_congr decide_eq_true_iff rfl rfl

theorem laterPos_eq (a b : Pos) : laterPos a b = if 0 < (a - b).toInt then a else b :=
  if_congr decide_eq_true_iff rfl rfl

theorem coveringSpan_eq_none {l : List Span} {x : Pos} (bare : ∀ p ∈ l, p.covers x = false) :
    coveringSpan l x = none :=
  List.find?_eq_none.2 fun p mem => Bool.eq_false_iff.1 (bare p (List.mem_reverse.1 mem))

/-- A span of the list replaced, in a list of distinct names. -/
theorem reopenSpan_of_split {s : State} {pre post : List Span} {p q : Span} (names : TrackNames s)
    (split : s.track.splices = pre ++ p :: post) (same : q.uid = p.uid) :
    reopenSpan q s = { s with track := { s.track with
      splices := pre ++ q :: post
      resumes := s.track.resumes.filter fun x => x.span != p.uid || x.at_.reached } } := by
  obtain ⟨_, spans, _, _⟩ := names
  rw [split] at spans
  have replaced := map_replace_of_names (key := Span.uid) spans q
  rw [reopenSpan, same, split, replaced]
  rfl

/-! ## A detection -/

section
variable {c : Loaded} {n : Lane} {dark : Pos} {s : State}

theorem takeDetection_of_bare
    (bare : ∀ p ∈ s.track.splices, p.covers (dark + c.hdr.sensorToNip.get n) = false) :
    takeDetection c n dark s =
      let start := dark + c.hdr.sensorToNip.get n - c.hdr.spliceMarginBefore
      if s.track.splices.length < 2 then
        newSplice n dark start (flagRows (addSpan s.track.splices start n s))
      else
        match s.track.splices.find? (displaceable c s.web.high) with
        | some old =>
          newSplice n dark start
            (flagRows (addSpan (s.track.splices.filter fun x => x.uid != old.uid) start n s))
        | none =>
          match s.track.splices.getLast? with
          | some p =>
            newSplice n dark p.start
              (flagRows (reopenSpan { p with openLanes := p.openLanes.set n true } s))
          | none => s := by
  rw [takeDetection, coveringSpan_eq_none bare] <;> rfl

theorem takeDetection_of_covered {pre post : List Span} {p : Span}
    (split : s.track.splices = pre ++ p :: post) (covered : p.covers (dark + c.hdr.sensorToNip.get n) = true)
    (newer : ∀ y ∈ post, y.covers (dark + c.hdr.sensorToNip.get n) = false) :
    takeDetection c n dark s = flagRows (reopenSpan { p with
      start := earlierPos p.start (dark + c.hdr.sensorToNip.get n - c.hdr.spliceMarginBefore)
      openLanes := p.openLanes.set n true } s) := by
  rw [takeDetection, coveringSpan, split, find?_reverse_of_last (p := fun p : Span => p.covers (dark + c.hdr.sensorToNip.get n)) covered
    newer]

end

/-! ## A light return -/

theorem takeLightReturn_of_quiet {c : Loaded} {n : Lane} {x : Pos} {s : State}
    (quiet : ∀ p ∈ s.track.splices, p.openLanes.get n = false) : takeLightReturn c n x s = s := by
  rw [takeLightReturn, List.find?_eq_none.2 fun p mem => Bool.eq_false_iff.1 (quiet p mem)]

theorem takeLightReturn_of_open {c : Loaded} {n : Lane} {x : Pos} {s : State} {pre post : List Span} {p : Span}
    (split : s.track.splices = pre ++ p :: post) (isOpen : p.openLanes.get n = true)
    (older : ∀ y ∈ pre, y.openLanes.get n = false) :
    takeLightReturn c n x s =
      let laneEnd := x + c.hdr.sensorToNip.get n + c.hdr.spliceMarginAfter
      let e :=
        match p.endSoFar with
        | some x => laterPos x laneEnd
        | none => laneEnd
      let p' := { p with openLanes := p.openLanes.set n false, endSoFar := some e }
      { s with track := { s.track with
          splices := s.track.splices.map fun x => if x.uid = p.uid then p' else x
          resumes :=
            if p'.isOpen then s.track.resumes
            else s.track.resumes ++ spanResumes c s.web.high p' e } } := by
  have found : (s.track.splices.find? fun p => p.openLanes.get n) = some p := by
    rw [split]
    exact find?_of_first (p := fun p : Span => p.openLanes.get n) isOpen older
  rw [takeLightReturn, found] <;> rfl

/-- Settles O52: the span by its place in the list, whose names are distinct. -/
theorem spliceList : Obligations.SpliceList := by
  refine ⟨Span.covers_iff, fun n s c loaded names => ⟨fun dark later msg => ?_, fun x later msg => ?_⟩⟩
  · intro msgs nd start answers flagged newSpan reported kept free
    have reach : ∀ u, takeDetection c n dark { s with msgs := msgs } = u → answers u := by
      rintro u rfl
      show exec (.spliceDetectionTaken n) s = _
      rw [show exec (.spliceDetectionTaken n) s = .next (finish s (spliceDetectionTaken n s)) from rfl,
        spliceDetectionTaken, msg]
      dsimp only
      rw [withLoaded_of_loaded (by exact loaded)]
    have free_iff : ∀ p, displaceable c s.web.high p = true ↔ free p := displaceable_iff c s.web.high
    refine ⟨fun pre p post split covered newer => ?_, fun bare => ⟨fun few => ?_, fun pre old post many split hit older =>
      ?_, fun pre p many split stuck => ?_⟩⟩
    · intro l
      refine reach _ ?_
      rw [takeDetection_of_covered (by exact split) covered newer,
        reopenSpan_of_split (by exact names) (by exact split) (by rfl), earlierPos_eq]
      rfl
    · intro l
      refine reach _ ?_
      rw [takeDetection_of_bare (by exact bare)]
      dsimp only
      rw [if_pos few]
      rfl
    · intro l
      refine reach _ ?_
      have first := find?_of_first (post := post) ((free_iff old).2 hit)
        fun y mem => Bool.eq_false_iff.2 (mt (free_iff y).1 (older y mem))
      obtain ⟨_, spans, _, _⟩ := names
      rw [split] at spans
      rw [takeDetection_of_bare (by exact bare)]
      dsimp only
      rw [if_neg (Nat.not_lt.2 many), split, first]
      dsimp only
      rw [filter_others_of_names (key := Span.uid) spans]
      rfl
    · intro l
      refine reach _ ?_
      have none : s.track.splices.find? (displaceable c s.web.high) = none :=
        List.find?_eq_none.2 fun y mem => mt (free_iff y).1 (stuck y mem)
      rw [takeDetection_of_bare (by exact bare)]
      dsimp only
      rw [if_neg (Nat.not_lt.2 many), none, split, List.getLast?_concat]
      dsimp only
      rw [reopenSpan_of_split (post := []) (by exact names) (by exact split) (by rfl)]
      rfl
  · intro msgs answers laneEnd
    have reach : ∀ u, takeLightReturn c n x { s with msgs := msgs } = u → answers u := by
      rintro u rfl
      show exec (.lightReturnTaken n) s = _
      rw [show exec (.lightReturnTaken n) s = .next (finish s (lightReturnTaken n s)) from rfl, lightReturnTaken, msg]
      dsimp only
      rw [withLoaded_of_loaded (by exact loaded)]
    refine ⟨fun quiet => reach _ (takeLightReturn_of_quiet (by exact quiet)), fun pre p post split isOpen older => ?_⟩
    intro e left resume closed
    refine reach _ ?_
    obtain ⟨_, spans, _, _⟩ := names
    rw [split] at spans
    have ended : (match p.endSoFar with
        | some y => laterPos y laneEnd
        | none => laneEnd) = e := by
      dsimp only [e]
      cases p.endSoFar with
      | none => rfl
      | some y => exact laterPos_eq y laneEnd
    rw [takeLightReturn_of_open (by exact split) isOpen older]
    dsimp only
    rw [ended, split, map_replace_of_names (key := Span.uid) spans]
    by_cases shut : closed
    · rw [if_pos shut, if_neg (by rw [(Span.isOpen_eq_false_iff _).2 shut]; exact Bool.false_ne_true)]
      rfl
    · rw [if_neg shut, if_pos (by
        refine Bool.of_not_eq_false fun ends => shut ((Span.isOpen_eq_false_iff _).1 ends))]

end Sys2Proof.Machine

/-! SUPPORT. Placing a cell in the row track (R113 to R117). -/

namespace Sys2Proof.Machine

/-! ## The row that a cell joins -/

/-- A row that a cell with a nip position can join: OPEN, and within the skew tolerance (R113). -/
def Near (c : Loaded) (nip : Pos) (r : Row) : Prop :=
  r.stage = .opened ∧ (nip - r.nip).toInt.natAbs ≤ c.hdr.skewTolerance.toNat

theorem near_test (c : Loaded) (nip : Pos) (r : Row) :
    (r.stage == .opened && withinSkew c nip r.nip) = true ↔ Near c nip r := by
  simp [Near, withinSkew, delta]

theorem joinRow_of_last {c : Loaded} {nip : Pos} {pre post : List Row} {r : Row} (near : Near c nip r)
    (newer : ∀ y ∈ post, ¬ Near c nip y) : joinRow c nip (pre ++ r :: post) = some r :=
  find?_reverse_of_last (p := fun r : Row => r.stage == .opened && withinSkew c nip r.nip) ((near_test c nip r).2 near)
    fun y mem => Bool.eq_false_iff.2 (mt (near_test c nip y).1 (newer y mem))

theorem joinRow_eq_none {c : Loaded} {nip : Pos} {rows : List Row} (far : ∀ y ∈ rows, ¬ Near c nip y) :
    joinRow c nip rows = none :=
  List.find?_eq_none.2 fun y mem => mt (near_test c nip y).1 (far y (List.mem_reverse.1 mem))

/-- A row at a nip position stands between its neighbours (R115). -/
def InOrder (nip : Pos) (pre post : List Row) : Prop :=
  (∀ y, pre.getLast? = some y → 0 < (nip - y.nip).toInt) ∧ ∀ y, post.head? = some y → 0 < (y.nip - nip).toInt

theorem keepsOrder_iff {pre post : List Row} {r : Row} (apart : Apart pre r post) (nip : Pos) :
    keepsOrder r.uid nip (pre ++ r :: post) = true ↔ InOrder nip pre post := by
  have others : ∀ y ∈ pre, (y.uid != r.uid) = true := fun y mem => by simpa using apart.1 y mem
  rw [keepsOrder, List.takeWhile_append_of_pos others, List.dropWhile_append_of_pos others,
    List.takeWhile_cons_of_neg (by simp), List.dropWhile_cons_of_neg (by simp), List.append_nil, List.drop_one,
    List.tail_cons, Bool.and_eq_true, InOrder]
  refine and_congr ?_ ?_
  · cases pre.getLast? <;> simp [isAfter, delta]
  · cases post <;> simp [isAfter, delta]

/-! ## A decision point reached as it is set -/

section
variable {s : State} {pre post : List Row} {r : Row}

theorem decideIfReached_of_waiting (apart : Apart pre r post) (split : s.track.rows = pre ++ r :: post)
    (opened : r.stage = .opened)
    (waits : r.decisionPoint.reached = false ∨ ∃ y ∈ pre, y.stage = .opened) : decideIfReached r.uid s = s := by
  unfold decideIfReached oldestOpen
  rw [split, List.find?_append]
  cases older : pre.find? fun r => r.stage == .opened with
  | some y =>
    have other := apart.1 y (List.mem_of_find?_eq_some older)
    rw [Option.some_or]
    dsimp only
    rw [if_neg (by simp [other])]
  | none =>
    rw [Option.none_or, List.find?_cons_of_pos (by rw [opened]; rfl)]
    dsimp only
    rw [if_neg]
    rcases waits with waiting | ⟨y, mem, first⟩
    · simp [waiting]
    · exact absurd (by rw [first]; rfl) (List.find?_eq_none.1 older y mem)

theorem decideIfReached_of_due (split : s.track.rows = pre ++ r :: post) (opened : r.stage = .opened)
    (reached : r.decisionPoint.reached = true) (oldest : ∀ y ∈ pre, y.stage ≠ .opened) :
    decideIfReached r.uid s = decideRow r.uid s := by
  unfold decideIfReached oldestOpen
  rw [split, find?_of_first (p := fun r : Row => r.stage == .opened) (by rw [opened]; rfl)
    fun y mem => by simpa using oldest y mem]
  dsimp only
  rw [if_pos (by simp [reached])]

end

/-! ## The cases of a placed cell -/

section
variable {c : Loaded} {n : Lane} {cell : Cell} {nip : Pos} {s : State} {pre post : List Row} {r : Row}

/-- A row with a cell added at its own nip position, flagged by the spans (R113, R125). -/
def joinedRow (n : Lane) (cell : Cell) (spans : List Span) (r : Row) : Row :=
  flagRow spans { r with cells := r.cells.set n (some cell) }

/-- A row with a lead cell added, moved to the nip position of that cell (R115). -/
def movedRow (c : Loaded) (n : Lane) (cell : Cell) (nip high : Pos) (spans : List Span) (r : Row) : Row :=
  flagRow spans { r with
    cells := r.cells.set n (some cell), nip := nip, decisionPoint := hold high (nip - c.hdr.throwLead) }

theorem joinCell_of_still (apart : Apart pre r post) (split : s.track.rows = pre ++ r :: post)
    (still : n.val ≠ c.hdr.leadLane ∨ ¬ InOrder nip pre post) :
    joinCell c n cell nip r s =
      { s with track := { s.track with rows := pre ++ joinedRow n cell s.track.splices r :: post } } := by
  have stays : ¬ (n.val == c.hdr.leadLane && keepsOrder r.uid nip s.track.rows) = true := by
    rw [Bool.and_eq_true, beq_iff_eq, split, keepsOrder_iff apart]
    rintro ⟨lead, order⟩
    exact still.elim (· lead) (· order)
  rw [joinCell]
  dsimp only
  rw [if_neg stays, if_neg stays, updateRow_of_apart apart split, joinedRow]

theorem joinCell_of_move (apart : Apart pre r post) (split : s.track.rows = pre ++ r :: post)
    (lead : n.val = c.hdr.leadLane) (order : InOrder nip pre post) :
    joinCell c n cell nip r s = decideIfReached r.uid { s with track := { s.track with
      rows := pre ++ movedRow c n cell nip s.web.high s.track.splices r :: post } } := by
  have moves : (n.val == c.hdr.leadLane && keepsOrder r.uid nip s.track.rows) = true := by
    rw [Bool.and_eq_true, beq_iff_eq, split, keepsOrder_iff apart]
    exact ⟨lead, order⟩
  rw [joinCell]
  dsimp only
  rw [if_pos moves, if_pos moves, updateRow_of_apart apart split, movedRow]

theorem placeCell_of_near (split : s.track.rows = pre ++ r :: post) (near : Near c nip r)
    (newer : ∀ y ∈ post, ¬ Near c nip y) :
    placeCell c n cell nip s =
      match r.cells.get n with
      | none => joinCell c n cell nip r s
      | some _ => skewDiscard n s := by
  rw [placeCell, split, joinRow_of_last near newer] <;> rfl

/-- The cell is beyond the newest row by more than the tolerance (R114). -/
def Beyond (c : Loaded) (nip : Pos) (rows : List Row) : Prop :=
  ∀ y, rows.getLast? = some y → (c.hdr.skewTolerance.toNat : Int) < (nip - y.nip).toInt

theorem placeCell_of_far (far : ∀ y ∈ s.track.rows, ¬ Near c nip y) :
    (Beyond c nip s.track.rows → placeCell c n cell nip s = needRow c n cell nip s) ∧
      (¬ Beyond c nip s.track.rows → placeCell c n cell nip s = skewDiscard n s) := by
  unfold Beyond
  rw [placeCell, joinRow_eq_none far]
  dsimp only
  cases s.track.rows.getLast? with
  | none => exact ⟨fun _ => rfl, fun close => absurd (fun _ empty => nomatch empty) close⟩
  | some y =>
    refine ⟨fun beyond => if_pos (decide_eq_true (beyond y rfl)), fun close => if_neg fun ahead => close ?_⟩
    rintro _ ⟨⟩
    exact of_decide_eq_true ahead

theorem cellTaken_of_placed {later : List Cell} (working : s.station.mode.working = true)
    (loaded : s.loader.loaded = some c) (msg : s.msgs.cells.get n = cell :: later) (active : c.hdr.active n = true)
    (nipPos : cell.nipPos = some nip) :
    cellTaken n s = placeCell c n cell nip { s with msgs := { s.msgs with cells := s.msgs.cells.set n later } } := by
  rw [cellTaken, msg]
  dsimp only
  rw [if_pos working, withLoaded_of_loaded (by exact loaded), nipPos]
  dsimp only
  rw [if_pos active]

theorem cellTaken_of_dropped {later : List Cell} (msg : s.msgs.cells.get n = cell :: later)
    (dropped : s.station.mode.working = false ∨ ∃ c, s.loader.loaded = some c ∧ c.hdr.active n = false) :
    cellTaken n s = { s with msgs := { s.msgs with cells := s.msgs.cells.set n later } } := by
  rw [cellTaken, msg]
  dsimp only
  rcases dropped with idle | ⟨c, loaded, inactive⟩
  · rw [if_neg (by rw [idle]; exact Bool.false_ne_true)]
  · rw [withLoaded_of_loaded (by exact loaded)]
    cases cell.nipPos with
    | none => rw [ite_self]
    | some nip =>
      dsimp only
      rw [inactive, if_neg Bool.false_ne_true, ite_self]

/-- A new row with its first cell (R114). -/
def newRow (c : Loaded) (n : Lane) (cell : Cell) (nip : Pos) (s : State) : Row where
  uid := s.uid
  serial := s.track.serial
  nip := nip
  decisionPoint := hold s.web.high (nip - c.hdr.throwLead)
  stage := .opened
  slot := none
  regError := none
  splice := inSplice s.track.splices nip
  throwAtNip := none
  rejectPoint := none
  cells := (PerLane.const none).set n (some cell)

/-- The track with a new row as its newest. -/
def rowAdded (c : Loaded) (n : Lane) (cell : Cell) (nip : Pos) (s : State) : State :=
  { s with
    track := { s.track with rows := s.track.rows ++ [newRow c n cell nip s], serial := s.track.serial + 1 }
    uid := s.uid + 1 }

theorem createRow_eq (c : Loaded) (n : Lane) (cell : Cell) (nip : Pos) (s : State) :
    createRow c n cell nip s = decideIfReached s.uid (rowAdded c n cell nip s) := rfl

theorem apart_newRow (names : TrackNames s) : Apart s.track.rows (newRow c n cell nip s) [] := by
  obtain ⟨_, _, named, _⟩ := names
  exact ⟨fun y mem => Nat.ne_of_lt (named y mem), fun _ mem => absurd mem List.not_mem_nil⟩

end

theorem hold_reached_of_ahead {high p : Pos} (ahead : 0 < (p - high).toInt) : (hold high p).reached = false := by
  rw [hold_of_ahead ahead]

theorem hold_reached_of_passed {high p : Pos} (passed : (p - high).toInt ≤ 0) : (hold high p).reached = true := by
  rw [hold, (isAfter_eq_false_iff p high).2 passed, Bool.not_false]

/-- Settles O51: the row joined is the newest near one, and the decision is left to `decideRow`. -/
theorem cellPlaced : Obligations.CellPlaced := by
  refine ⟨fun lv n s cell later msg dropped => ?_, fun lv n s c cell later nip loaded msg active nipPos names => ?_⟩
  · show Host.Outcome.next (finish s (cellTaken n (sense lv s))) = _
    rw [cellTaken_of_dropped (s := sense lv s) msg dropped]
    rfl
  · intro m v high rows near answers discarded point working
    have reach : ∀ u, placeCell c n cell nip v = u → answers u := by
      rintro u rfl
      show Host.Outcome.next (finish s (cellTaken n (sense lv s))) = _
      rw [cellTaken_of_placed (s := sense lv s) working loaded msg active nipPos]
      rfl
    refine ⟨fun pre r post split close newer => ?_, fun far => ?_⟩
    · have apart : Apart pre r post := apart_of_names names split
      have place := placeCell_of_near (n := n) (cell := cell) (s := v) split close newer
      refine ⟨fun held => reach _ ?_, fun vacant => ?_⟩
      · obtain ⟨x, cells⟩ := Option.isSome_iff_exists.1 held
        rw [place, cells]
        rfl
      · rw [vacant] at place
        intro joined inOrder
        refine ⟨fun still => reach _ (place.trans (joinCell_of_still apart split still)), fun lead order => ?_⟩
        intro moved w
        have moves := place.trans (joinCell_of_move apart split lead order)
        exact ⟨fun waits => reach _ (moves.trans (decideIfReached_of_waiting (r := moved) apart rfl close.1
            (waits.imp_left fun ahead => hold_reached_of_ahead ahead))),
          fun passed oldest => reach _ (moves.trans (decideIfReached_of_due (r := moved) rfl close.1
            (hold_reached_of_passed passed) oldest))⟩
    · intro beyond row added
      obtain ⟨places, discards⟩ := placeCell_of_far (n := n) (cell := cell) (s := v) far
      have creates : beyond → rows.length < 32 → placeCell c n cell nip v = decideIfReached s.uid added :=
        fun ahead few => (places ahead).trans (if_pos few)
      have apart : Apart rows row [] := apart_newRow (c := c) (n := n) (cell := cell) (nip := nip) names
      exact ⟨fun close => reach _ (discards close),
        fun ahead few waits => reach _ ((creates ahead few).trans (decideIfReached_of_waiting (r := row) apart rfl rfl
          (waits.imp_left fun later => hold_reached_of_ahead later))),
        fun ahead few passed oldest => reach _ ((creates ahead few).trans (decideIfReached_of_due (r := row) rfl rfl
          (hold_reached_of_passed passed) oldest)),
        fun ahead full => reach _ ((places ahead).trans (if_neg (Nat.not_lt.2 full)))⟩

end Sys2Proof.Machine

/-! SUPPORT. Pulls handed to the drives, and the decision of a row (R119 to R124, R137, R142, R155). -/

namespace Sys2Proof.Machine

/-! ## A record placed by its start -/

theorem insertRecord_split (x : PullRec) (l : List PullRec) :
    ∃ a b, l = a ++ b ∧ insertRecord x l = a ++ x :: b ∧ (∀ y ∈ a, ¬ 0 < (y.start.pos - x.start.pos).toInt) ∧
      ∀ y, b.head? = some y → 0 < (y.start.pos - x.start.pos).toInt := by
  induction l with
  | nil => exact ⟨[], [], rfl, rfl, fun _ mem => absurd mem List.not_mem_nil, fun _ none => nomatch none⟩
  | cons y t ih =>
    rw [insertRecord]
    by_cases later : isAfter y.start.pos x.start.pos = true
    · rw [if_pos later]
      refine ⟨[], y :: t, rfl, rfl, fun _ mem => absurd mem List.not_mem_nil, ?_⟩
      rintro _ ⟨⟩
      exact of_decide_eq_true later
    · rw [if_neg later]
      obtain ⟨a, b, split, inserted, before, after⟩ := ih
      refine ⟨y :: a, b, by rw [split, List.cons_append], by rw [inserted, List.cons_append], ?_, after⟩
      exact List.forall_mem_cons.2 ⟨fun ahead => later (decide_eq_true ahead), before⟩

theorem mem_insertRecord {x y : PullRec} {l : List PullRec} (mem : y ∈ insertRecord x l) : y = x ∨ y ∈ l := by
  obtain ⟨a, b, rfl, inserted, _, _⟩ := insertRecord_split x l
  rw [inserted] at mem
  simp only [List.mem_append, List.mem_cons] at mem ⊢
  tauto

/-! ## A pull handed to a drive -/

/-- A drive with the record of a pull handed to it (R155). -/
def pullAdded (n : Lane) (row : Nat) (p : Pull) (s : State) : State :=
  { s with foil := s.foil.set n { s.drive n with
    records := insertRecord ⟨row, hold s.web.high p.start, ⟨p.stop, false⟩, false, 0⟩ (s.drive n).records } }

section
variable {n : Lane} {row : Nat} {p : Pull} {s : State}

theorem armPull_of_full (full : 32 ≤ (s.drive n).records.length) :
    armPull n row p s = handPull n ⟨row, .notBegun, 0⟩ s := by
  rw [armPull]
  exact if_neg (Nat.not_lt.2 full)

theorem armPull_of_room (room : (s.drive n).records.length < 32) :
    armPull n row p s =
      if (hold s.web.high p.start).reached = true then beginPull n row (pullAdded n row p s) else pullAdded n row p s := by
  rw [armPull]
  exact if_pos room

theorem armPull_of_ahead (room : (s.drive n).records.length < 32) (ahead : 0 < (p.start - s.web.high).toInt) :
    armPull n row p s = { s with foil := s.foil.set n { s.drive n with
      records := insertRecord ⟨row, ⟨p.start, false⟩, ⟨p.stop, false⟩, false, 0⟩ (s.drive n).records } } := by
  rw [armPull_of_room room, hold_of_ahead ahead, if_neg Bool.false_ne_true, pullAdded, hold_of_ahead ahead]

theorem armPull_drive_of_ahead (room : (s.drive n).records.length < 32) (ahead : 0 < (p.start - s.web.high).toInt) :
    (armPull n row p s).drive n = { s.drive n with
      records := insertRecord ⟨row, ⟨p.start, false⟩, ⟨p.stop, false⟩, false, 0⟩ (s.drive n).records } := by
  rw [armPull_of_ahead room ahead]
  exact drive_set_same s n _

end

/-! ## What a pull handed to one lane leaves of the others -/

section
variable {n m : Lane} (other : m ≠ n)
include other

theorem drive_set_ne (s : State) (f : Foil) : (s.foil.set n f).get m = s.drive m := PerLane.get_set_ne _ _ _ _ other

theorem refusePull_drive_ne (row : Nat) (s : State) : (refusePull n row s).drive m = s.drive m :=
  drive_set_ne other s _

theorem addOut_drive_ne (s : State) : (addOut n s).drive m = s.drive m := by
  rw [addOut]
  split
  · rfl
  · rw [testLanesDown]
    split <;> exact drive_set_ne other s _

theorem beginPull_drive_ne (row : Nat) (s : State) : (beginPull n row s).drive m = s.drive m := by
  unfold beginPull withLoaded
  dsimp only
  split
  · split
    · rfl
    · split_ifs
      · exact refusePull_drive_ne other _ _
      · exact refusePull_drive_ne other _ _
      · exact refusePull_drive_ne other _ _
      · exact (refusePull_drive_ne other _ _).trans (addOut_drive_ne other s)
      · exact drive_set_ne other s _
      · exact drive_set_ne other s _
  · rfl

theorem armPull_drive_ne (row : Nat) (p : Pull) (s : State) : (armPull n row p s).drive m = s.drive m := by
  have added : (pullAdded n row p s).drive m = s.drive m := drive_set_ne other s _
  rcases Nat.lt_or_ge (s.drive n).records.length 32 with room | full
  · rw [armPull_of_room room]
    split
    · rw [beginPull_drive_ne other, added]
    · exact added
  · rw [armPull_of_full full]
    rfl

end

/-! ## No pull begins outside RUN -/

theorem beginPull_inactive {n : Lane} {row : Nat} {s : State} (mode : s.station.mode ≠ .run)
    (inactive : (s.drive n).activePull = false) : ((beginPull n row s).drive n).activePull = false := by
  unfold beginPull withLoaded
  dsimp only
  split
  · split
    · exact inactive
    · rw [if_pos mode, Foil.activePull_eq_false_iff]
      intro x mem
      have records : ((refusePull n row s).drive n).records = dropArmed row (s.drive n).records :=
        congrArg Foil.records (drive_set_same s n _)
      rw [records] at mem
      exact (Foil.activePull_eq_false_iff _).1 inactive x (List.mem_filter.1 mem).1
  · exact inactive

theorem armPull_inactive {n : Lane} {row : Nat} {p : Pull} {s : State} (mode : s.station.mode ≠ .run)
    (inactive : (s.drive n).activePull = false) : ((armPull n row p s).drive n).activePull = false := by
  have added : ((pullAdded n row p s).drive n).activePull = false := by
    rw [Foil.activePull_eq_false_iff]
    intro x mem
    have records : ((pullAdded n row p s).drive n).records = insertRecord _ (s.drive n).records :=
      congrArg Foil.records (drive_set_same s n _)
    rw [records] at mem
    rcases mem_insertRecord mem with rfl | old
    · rfl
    · exact (Foil.activePull_eq_false_iff _).1 inactive x old
  rcases Nat.lt_or_ge (s.drive n).records.length 32 with room | full
  · rw [armPull_of_room room]
    split
    · exact beginPull_inactive (by exact mode) added
    · exact added
  · rw [armPull_of_full full]
    exact inactive

/-! ## The pulls of a decided row handed to the drives, lane by lane -/

section
variable {uid : Nat} {cells : PerLane (Option Cell)}

/-- The pull of a lane's cell. -/
def cellPull (cells : PerLane (Option Cell)) (n : Lane) : Option Pull := (cells.get n).bind fun x => x.pull

theorem armLane_of_none {n : Lane} (none : cellPull cells n = none) (s : State) : armLane uid cells n s = s := by
  rw [armLane, show ((cells.get n).bind fun x => x.pull) = .none from none]

theorem armLane_of_some {n : Lane} {p : Pull} (pull : cellPull cells n = some p) (s : State) :
    armLane uid cells n s = armPull n uid p s := by
  rw [armLane, show ((cells.get n).bind fun x => x.pull) = some p from pull]

theorem armed_armLane (n : Lane) (s : State) : Armed s (armLane uid cells n s) := by
  cases pull : cellPull cells n with
  | none =>
    rw [armLane_of_none pull]
    exact .refl s
  | some p =>
    rw [armLane_of_some pull]
    exact armed_armPull n uid p s

theorem armLane_drive_ne {n m : Lane} (other : m ≠ n) (s : State) : (armLane uid cells n s).drive m = s.drive m := by
  cases pull : cellPull cells n with
  | none => rw [armLane_of_none pull]
  | some p => rw [armLane_of_some pull, armPull_drive_ne other]

/-- A lane's drive after all four lanes: what its own lane makes of it. -/
theorem forLanes_armLane_drive (n : Lane) (s : State) :
    ∃ y, Armed s y ∧ y.drive n = s.drive n ∧
      (forLanes (armLane uid cells) s).drive n = (armLane uid cells n y).drive n := by
  have one : ∀ k t, Armed t (armLane uid cells k t) := fun k t => armed_armLane k t
  have other : ∀ k, n ≠ k → ∀ t, (armLane uid cells k t).drive n = t.drive n := fun k ne t => armLane_drive_ne ne t
  unfold forLanes
  match n with
  | 0 => exact ⟨s, .refl s, rfl, by rw [other 3 (by decide), other 2 (by decide), other 1 (by decide)]⟩
  | 1 => exact ⟨_, one 0 s, other 0 (by decide) s, by rw [other 3 (by decide), other 2 (by decide)]⟩
  | 2 =>
    exact ⟨_, (one 0 s).trans (one 1 _), by rw [other 1 (by decide), other 0 (by decide)], by rw [other 3 (by decide)]⟩
  | 3 =>
    exact ⟨_, ((one 0 s).trans (one 1 _)).trans (one 2 _),
      by rw [other 2 (by decide), other 1 (by decide), other 0 (by decide)], rfl⟩

theorem forLanes_armLane_drive_of_none {n : Lane} (none : cellPull cells n = none) (s : State) :
    (forLanes (armLane uid cells) s).drive n = s.drive n := by
  obtain ⟨y, _, drive, final⟩ := forLanes_armLane_drive (uid := uid) (cells := cells) n s
  rw [final, armLane_of_none none, drive]

theorem forLanes_armLane_drive_of_ahead {n : Lane} {p : Pull} {s : State} (pull : cellPull cells n = some p)
    (room : (s.drive n).records.length < 32) (ahead : 0 < (p.start - s.web.high).toInt) :
    (forLanes (armLane uid cells) s).drive n = { s.drive n with
      records := insertRecord ⟨uid, ⟨p.start, false⟩, ⟨p.stop, false⟩, false, 0⟩ (s.drive n).records } := by
  obtain ⟨y, armed, drive, final⟩ := forLanes_armLane_drive (uid := uid) (cells := cells) n s
  have web : y.web = s.web := (congrArg State.web armed.eq).trans rfl
  rw [final, armLane_of_some pull, armPull_drive_of_ahead (by rw [drive]; exact room) (by rw [web]; exact ahead), drive]

theorem forLanes_armLane_none (none : ∀ n, cellPull cells n = none) (s : State) :
    forLanes (armLane uid cells) s = s := by
  unfold forLanes
  simp only [armLane_of_none (none _)]

/-- Pulls that all start ahead, on drives with room, are taken without a report. -/
theorem forLanes_armLane_quiet {s : State} (quiet : ∀ n p, cellPull cells n = some p →
      (s.drive n).records.length < 32 ∧ 0 < (p.start - s.web.high).toInt) :
    (forLanes (armLane uid cells) s).msgs = s.msgs ∧ (forLanes (armLane uid cells) s).rep = s.rep := by
  have one : ∀ n t, t.drive n = s.drive n → t.web = s.web →
      (armLane uid cells n t).msgs = t.msgs ∧ (armLane uid cells n t).rep = t.rep ∧
        (armLane uid cells n t).web = t.web := by
    intro n t drive web
    cases pull : cellPull cells n with
    | none => rw [armLane_of_none pull]; exact ⟨rfl, rfl, rfl⟩
    | some p =>
      obtain ⟨room, ahead⟩ := quiet n p pull
      rw [armLane_of_some pull, armPull_of_ahead (by rw [drive]; exact room) (by rw [web]; exact ahead)]
      exact ⟨rfl, rfl, rfl⟩
  have other : ∀ {m k : Lane}, m ≠ k → ∀ t, (armLane uid cells k t).drive m = t.drive m := fun ne t =>
    armLane_drive_ne ne t
  obtain ⟨msgs0, rep0, web0⟩ := one 0 s rfl rfl
  obtain ⟨msgs1, rep1, web1⟩ := one 1 _ (other (by decide) s) web0
  obtain ⟨msgs2, rep2, web2⟩ := one 2 _ ((other (by decide) _).trans (other (by decide) s)) (web1.trans web0)
  obtain ⟨msgs3, rep3, _⟩ := one 3 _ ((other (by decide) _).trans ((other (by decide) _).trans (other (by decide) s)))
    (web2.trans (web1.trans web0))
  exact ⟨msgs3.trans (msgs2.trans (msgs1.trans msgs0)), rep3.trans (rep2.trans (rep1.trans rep0))⟩

theorem forLanes_armLane_inactive {s : State} (mode : s.station.mode ≠ .run)
    (inactive : ∀ n, (s.drive n).activePull = false) (n : Lane) :
    ((forLanes (armLane uid cells) s).drive n).activePull = false := by
  obtain ⟨y, armed, drive, final⟩ := forLanes_armLane_drive (uid := uid) (cells := cells) n s
  have still : y.station.mode ≠ .run := by rw [armed.eq]; exact mode
  rw [final]
  cases pull : cellPull cells n with
  | none => rw [armLane_of_none pull, drive]; exact inactive n
  | some p =>
    rw [armLane_of_some pull]
    exact armPull_inactive still (by rw [drive]; exact inactive n)

end

end Sys2Proof.Machine

/-! SUPPORT. The decision of a row (R119 to R124, R137, R142). -/

namespace Sys2Proof.Machine

/-! ## The cells decided -/

theorem decidedCells_get (c : Loaded) (d : RowView) (s : State) (r : Row) (n : Lane) :
    (decidedCells c d s r).get n =
      if c.hdr.active n then
        let cell := (r.cells.get n).getD absentCell
        some (decideCell c d.mode (reasonOf c d (s.drive n) (s.lane n).skip cell) cell)
      else none :=
  PerLane.get_mapLane ..

theorem decidedCells_inactive {c : Loaded} {d : RowView} {s : State} {r : Row} {n : Lane}
    (inactive : c.hdr.active n = false) : (decidedCells c d s r).get n = none := by
  rw [decidedCells_get, inactive]
  rfl

theorem decidedCells_active {c : Loaded} {n : Lane} (active : c.hdr.active n = true) (d : RowView) (s : State) (r : Row) :
    ∃ k cell, (decidedCells c d s r).get n = some (decideCell c d.mode k cell) ∧
      k = reasonOf c d (s.drive n) (s.lane n).skip cell := by
  rw [decidedCells_get, active]
  exact ⟨_, _, rfl, rfl⟩

theorem pullOf_of_not_strike {c : Loaded} {k : Reason} (cell : Cell) (other : k ≠ .strike) : pullOf c k cell = none := by
  unfold pullOf
  split
  · exact absurd rfl other
  · rfl

theorem decision_eq_strike_iff (k : Reason) : k.decision = .strike ↔ k = .strike := by
  cases k <;> simp [Reason.decision]

/-- STRIKE is the reason of no cell while a wind-down is set (R120). -/
theorem windDown_of_reason_strike {c : Loaded} {d : RowView} {f : Foil} {skip : Nat} {cell : Cell}
    (strike : reasonOf c d f skip cell = .strike) : d.windDown = false := by
  have found := reasonOf_eq_find c d f skip cell
  rw [strike] at found
  exact not_of_find?_of_rising everyReason_rising found (mem_everyReason .stopped) (by decide)

section
variable {c : Loaded} {d : RowView} {s : State} {r : Row}

/-- A row as decided. -/
def decidedRow (c : Loaded) (d : RowView) (s : State) (r : Row) : Row :=
  { r with stage := .decided, cells := decidedCells c d s r }

theorem cellPull_of_not_strike (still : (decidedRow c d s r).isStrike = false) (n : Lane) :
    cellPull (decidedCells c d s r) n = none := by
  rw [cellPull]
  cases active : c.hdr.active n with
  | false => rw [decidedCells_inactive active]; rfl
  | true =>
    obtain ⟨k, cell, cells, _⟩ := decidedCells_active active d s r
    have other : k ≠ .strike := by
      rintro rfl
      rw [← Bool.not_eq_true, isStrike_iff] at still
      exact still ⟨n, _, cells, rfl⟩
    rw [cells]
    exact pullOf_of_not_strike cell other

theorem windDown_of_isStrike (strike : (decidedRow c d s r).isStrike = true) : d.windDown = false := by
  obtain ⟨n, x, held, decision⟩ := (isStrike_iff _).1 strike
  have cells : (decidedCells c d s r).get n = some x := held
  cases active : c.hdr.active n with
  | false =>
    rw [decidedCells_inactive active] at cells
    cases cells
  | true =>
    obtain ⟨k, cell, here, reason⟩ := decidedCells_active active d s r
    rw [here] at cells
    obtain rfl := Option.some.inj cells
    have strikes := (decision_eq_strike_iff k).1 (Option.some.inj decision)
    exact windDown_of_reason_strike (reason.symm.trans strikes)

theorem cellReason_decidedCells (n : Lane) :
    (match cellReason (decidedCells c d s r) n with
      | some k => some k
      | none => s.track.lastReason.get n) =
      if c.hdr.active n then cellReason (decidedCells c d s r) n else s.track.lastReason.get n := by
  unfold cellReason
  cases active : c.hdr.active n with
  | false => rw [decidedCells_inactive active]; rfl
  | true =>
    obtain ⟨k, cell, cells, _⟩ := decidedCells_active active d s r
    rw [cells]
    rfl

end

/-! ## The row handed on -/

/-- The state with a row decided, its last reasons set and the skips lowered (R107, R120). -/
def rowDecided (c : Loaded) (d : RowView) (pre post : List Row) (r : Row) (s : State) : State :=
  let cells := decidedCells c d s r
  { s with
    track := { s.track with
      rows := pre ++ decidedRow c d s r :: post
      lastReason := s.track.lastReason.mapLane fun n o => if c.hdr.active n then cellReason cells n else o }
    lanes := s.lanes.mapLane fun n t => if cellReason cells n = some .ordered then { t with skip := t.skip - 1 } else t }

/-- A nip taken at once when it is reached and no other was held (log 30). -/
def takenIfDue (held : List HeldNip) (nip : Held) (s : State) : State :=
  if held.isEmpty && nip.reached then takeNip s else s

theorem takeDecided_nips (c : Loaded) (r : Row) (s : State) :
    (takeDecided c r s).imp.nips = s.imp.nips ++ [⟨r.uid, hold s.web.high r.nip⟩] := by
  rw [takeDecided]
  dsimp only
  split <;> rfl

theorem handDecided_eq (c : Loaded) (r : Row) (s : State) :
    handDecided c r s = takenIfDue s.imp.nips (hold s.web.high r.nip) (takeDecided c r s) := by
  rw [handDecided, takenIfDue]
  rw [takeDecided_nips]
  cases s.imp.nips with
  | nil => rfl
  | cons h t => cases t <;> rfl

/-- What a decision reads of a state for one row (R119). -/
def rowView (c : Loaded) (r : Row) (s : State) : RowView :=
  ⟨s.station.mode, s.station.windDown, r.splice, predictedSlot c s, s.pins.heatRdy⟩

theorem decideRow_of_split {s : State} {c : Loaded} {pre post : List Row} {r : Row} (loaded : s.loader.loaded = some c)
    (apart : Apart pre r post) (split : s.track.rows = pre ++ r :: post) :
    let d := rowView c r s
    let row := decidedRow c d s r
    let x := rowDecided c d pre post r s
    decideRow r.uid s = handDecided c row
      (forLanes (armLane r.uid row.cells) (if row.isStrike then countStrikeRow x else x)) := by
  intro d row x
  have decided : setLastReasons row.cells (lowerSkips row.cells (updateRow r.uid (fun _ => row) s)) = x := by
    have last : (s.track.lastReason.mapLane fun n o => match cellReason row.cells n with
        | some k => some k
        | none => o) = s.track.lastReason.mapLane fun n o => if c.hdr.active n then cellReason row.cells n else o :=
      PerLane.ext_get fun n => by
        rw [PerLane.get_mapLane, PerLane.get_mapLane]
        exact cellReason_decidedCells n
    rw [updateRow_of_apart apart split, lowerSkips, setLastReasons]
    dsimp only
    rw [show x = rowDecided c d pre post r s from rfl, rowDecided]
    dsimp only
    rw [← show row.cells = decidedCells c d s r from rfl, ← last] <;> rfl
  rw [decideRow, withLoaded_of_loaded loaded, findRow_of_apart apart split]
  dsimp only
  rw [← decided]
  rfl

theorem takeDecided_of_still {c : Loaded} {r : Row} {s : State}
    (still : r.isStrike = false ∨ s.station.mode ≠ .run) :
    takeDecided c r s = { s with imp := { s.imp with nips := s.imp.nips ++ [⟨r.uid, hold s.web.high r.nip⟩] } } := by
  rw [takeDecided]
  refine if_neg ?_
  rw [Bool.and_eq_true, beq_iff_eq]
  rintro ⟨strike, run⟩
  rcases still with other | mode
  · rw [other] at strike
    cases strike
  · exact mode run

/-- The Impression Controller engaged for a strike row (R137). -/
def engagedImp (c : Loaded) (r : Row) (s : State) : Impression :=
  { s.imp with
    nips := s.imp.nips ++ [⟨r.uid, hold s.web.high r.nip⟩]
    horizon := some r.nip
    release := some (hold s.web.high (r.nip + c.hdr.releaseClearance))
    throw := match s.imp.throw with
      | .engaging => .engaging
      | .on => .on
      | _ => if s.pins.throwOk then .on else .engaging }

theorem takeDecided_of_engage {c : Loaded} {r : Row} {s : State} (strike : r.isStrike = true)
    (run : s.station.mode = .run) : takeDecided c r s = { s with imp := engagedImp c r s } := by
  rw [takeDecided]
  refine (if_pos (by rw [strike, Bool.true_and, beq_iff_eq]; exact run)).trans ?_
  rw [engage, engagedImp]
  dsimp only
  cases s.imp.throw <;> rfl

/-! ## A strike row counted -/

theorem countStrikeRow_of_many {s : State}
    (many : s.station.countTarget = none ∨ ∃ k, s.station.countTarget = some k ∧ 2 ≤ k) :
    countStrikeRow s = { s with
      cnt := { s.cnt with strikeRows := s.cnt.strikeRows + 1 }
      station := { s.station with countTarget := s.station.countTarget.map fun k => k - 1 } } := by
  unfold countStrikeRow
  rcases many with none | ⟨k, some, two⟩
  · rw [none]
    dsimp only [Option.map_none]
    rw [← none]
  · rw [some]
    dsimp only
    rw [if_neg (Nat.not_le.2 two)]
    rfl

/-- A strike row counted that lowers the count target to 0: the target is removed and wind-down set (R37, R123). -/
def targetReached (s : State) : State :=
  { s with
    cnt := { s.cnt with strikeRows := s.cnt.strikeRows + 1 }
    station := { s.station with countTarget := none, windDown := true }
    orders := { s.orders with slots := { s.orders.slots with countTarget := none } }
    rep := match s.orders.slots.countTarget with
      | some x => { s.rep with
          latched := s.rep.latched ||| Cause.order.mask
          offers := s.rep.offers ++ [(.orderUnit, .orderDone .countTarget x .done)] }
      | none => s.rep }

theorem countStrikeRow_of_last {s : State} (last : s.station.countTarget = some 1) (steady : s.station.windDown = false) :
    countStrikeRow s = testWindDown (targetReached s) := by
  unfold countStrikeRow
  rw [last]
  dsimp only
  rw [if_pos (le_refl 1), removeTarget_eq, if_neg (by dsimp only; rw [steady]; exact Bool.false_ne_true)]
  rfl

end Sys2Proof.Machine

/-! SUPPORT. DECISION_POINT_REACHED (R119 to R124, R129, R137, R142, R155). -/

namespace Sys2Proof.Machine

theorem Armed.frame {s t : State} (armed : Armed s t) : t = { s with
    foil := t.foil, rep := t.rep, msgs := { s.msgs with pulls := t.msgs.pulls, faults := t.msgs.faults } } := by
  rw [armed.eq]

theorem Armed.offers {s t : State} (armed : Armed s t) : t.rep.offers = s.rep.offers := by
  rw [armed.eq]

theorem and_or_of_and {x m : BitVec 12} (held : x &&& m = m) (y : BitVec 12) : (x ||| y) &&& m = m := by
  rw [← held]
  ext i
  simp only [BitVec.getElem_and, BitVec.getElem_or]
  cases x[i] <;> cases y[i] <;> cases m[i] <;> rfl

theorem Armed.latched_of {s t : State} (armed : Armed s t) {m : BitVec 12} (held : s.rep.latched &&& m = m) :
    t.rep.latched &&& m = m := by
  rcases armed.latched with same | foil
  · rw [same]
    exact held
  · rw [foil]
    exact and_or_of_and held _

theorem decideCell_eq (c : Loaded) (mode : Mode) (k : Reason) (cell : Cell) :
    decideCell c mode k cell = { cell with
      decision := some k.decision
      reason := some k
      pull := pullOf c k cell
      reject := cell.reject || (k.sets && (mode == .run || mode == .safe))
      foilUsed := 0 } := by
  rw [decideCell, rejects_eq]

theorem decisionTaken_of_due {s : State} {pre post : List Row} {r : Row} (split : s.track.rows = pre ++ r :: post)
    (older : ∀ y ∈ pre, y.stage ≠ .opened) (opened : r.stage = .opened) (reached : r.decisionPoint.reached = true) :
    decisionTaken s = decideRow r.uid s := by
  rw [decisionTaken, oldestOpen, split, find?_of_first (p := fun r : Row => r.stage == .opened) (by rw [opened]; rfl)
    fun y mem => by simpa using older y mem]
  exact if_pos reached

/-! ## A strike row taken in RUN -/

section
variable {c : Loaded} {row : Row} {x y : State}

/-- What the Impression Controller takes of a strike row in RUN, when the pulls have been handed over. -/
theorem takeDecided_of_armed (armed : Armed x y) (strike : row.isStrike = true) (run : x.station.mode = .run) :
    takeDecided c row y = { y with imp := engagedImp c row x } := by
  have imp : engagedImp c row y = engagedImp c row x := by rw [armed.eq]; rfl
  rw [takeDecided_of_engage strike (by rw [armed.eq]; exact run), imp]

theorem engagedImp_throw (c : Loaded) (row : Row) (s : State) :
    (engagedImp c row s).throw = .engaging ∨ (engagedImp c row s).throw = .on := by
  rw [engagedImp]
  dsimp only
  cases s.imp.throw with
  | engaging => exact .inl rfl
  | on => exact .inr rfl
  | off | releasing =>
    cases s.pins.throwOk with
    | true => exact .inr rfl
    | false => exact .inl rfl

/-- The throw OFF and no active pull: a wind-down set in RUN is complete at once (R37). -/
def Complete (s : State) : Prop := s.imp.throw = .off ∧ ∀ n, (s.drive n).activePull = false

theorem windDownDone_targetReached {s : State} (run : s.station.mode = .run) :
    windDownDone (targetReached s) = true ↔ Complete s := by
  rw [windDownDone_iff, Complete]
  simp only [Foil.activePull_eq_false_iff]
  exact ⟨fun ⟨_, _, throw, idle⟩ => ⟨throw, idle⟩, fun ⟨throw, idle⟩ => ⟨run, rfl, throw, idle⟩⟩

/-- The count target reached with the wind-down tested, in what both outcomes have in common. -/
theorem testWindDown_targetReached (s : State) :
    let t := testWindDown (targetReached s)
    t.cnt.strikeRows = s.cnt.strikeRows + 1 ∧ t.track = s.track ∧ t.lanes = s.lanes ∧ t.imp = s.imp ∧ t.web = s.web ∧
      t.foil = s.foil ∧ t.orders.slots.countTarget = none ∧
      (∀ o, s.orders.slots.countTarget = some o → (.orderUnit, Report.orderDone .countTarget o .done) ∈ t.rep.offers) ∧
      (s.orders.slots.countTarget.isSome = true → t.rep.latched &&& Cause.order.mask = Cause.order.mask) := by
  intro t
  have frame : t = _ := (woundDown_testWindDown (targetReached s)).eq
  have latched := (woundDown_testWindDown (targetReached s)).latched
  have offered : ∀ o, s.orders.slots.countTarget = some o →
      (.orderUnit, Report.orderDone .countTarget o .done) ∈ (targetReached s).rep.offers := by
    intro o slot
    rw [targetReached, slot]
    exact List.mem_append_right _ (List.mem_singleton.2 rfl)
  have held : s.orders.slots.countTarget.isSome = true →
      (targetReached s).rep.latched &&& Cause.order.mask = Cause.order.mask := by
    intro pending
    obtain ⟨o, slot⟩ := Option.isSome_iff_exists.1 pending
    rw [targetReached, slot]
    exact or_mask_and _ _
  refine ⟨by rw [frame]; rfl, by rw [frame]; rfl, by rw [frame]; rfl, by rw [frame]; rfl, by rw [frame]; rfl,
    by rw [frame]; rfl, ?_, fun o slot => ?_, fun pending => ?_⟩
  · by_cases done : windDownDone (targetReached s) = true
    · rw [show t = _ from testWindDown_of_done done]
      rfl
    · rw [show t = _ from testWindDown_of_not_done done]
      rfl
  · by_cases done : windDownDone (targetReached s) = true
    · rw [show t = _ from testWindDown_of_done done]
      exact List.mem_append_left _ (List.mem_append_left _ (List.mem_append_left _ (offered o slot)))
    · rw [show t = _ from testWindDown_of_not_done done]
      exact offered o slot
  · rcases latched with same | order
    · rw [show t.rep.latched = _ from same]
      exact held pending
    · rw [show t.rep.latched = _ from order]
      exact and_or_of_and (held pending) _

/-- The wind-down that the target completes: WATCH, the STAMP_OFF done (R37). -/
theorem testWindDown_targetReached_complete {s : State} (run : s.station.mode = .run) (complete : Complete s) :
    let t := testWindDown (targetReached s)
    t.station = { s.station with mode := .watch, cause := .windDown, countTarget := none, windDown := false } ∧
      t.orders.slots.stampOff = none ∧
      ∀ o, s.orders.slots.stampOff = some o → (.orderUnit, Report.orderDone .stampOff o .done) ∈ t.rep.offers ∧
        t.rep.latched &&& Cause.order.mask = Cause.order.mask := by
  intro t
  rw [show t = _ from testWindDown_of_done ((windDownDone_targetReached run).2 complete)]
  refine ⟨rfl, rfl, fun o slot => ?_⟩
  have pending : (targetReached s).orders.slots.stampOff = some o := slot
  dsimp only
  rw [pending]
  exact ⟨List.mem_append_left _ (List.mem_append_right _ (List.mem_singleton.2 rfl)), or_mask_and _ _⟩

/-- Once the wind-down is complete no pull of the row begins. -/
theorem handed_inactive_of_complete (run : x.station.mode = .run) (complete : Complete x) (uid : Nat)
    (cells : PerLane (Option Cell)) (n : Lane) :
    ((forLanes (armLane uid cells) (testWindDown (targetReached x))).drive n).activePull = false := by
  obtain ⟨_, _, _, _, _, foil, _⟩ := testWindDown_targetReached x
  obtain ⟨station, _⟩ := testWindDown_targetReached_complete run complete
  generalize testWindDown (targetReached x) = t at foil station ⊢
  refine forLanes_armLane_inactive (by rw [station]; exact fun watch => nomatch watch) (fun n => ?_) n
  rw [State.drive, foil]
  exact complete.2 n

/-- What the count target reached leaves, once the pulls have been handed over, whether or not the wind-down completes. -/
structure TargetHanded (x y : State) : Prop where
  strikeRows : y.cnt.strikeRows = x.cnt.strikeRows + 1
  track : y.track = x.track
  lanes : y.lanes = x.lanes
  imp : y.imp = x.imp
  web : y.web = x.web
  countTarget : y.orders.slots.countTarget = none
  offered : ∀ o, x.orders.slots.countTarget = some o →
    (.orderUnit, Report.orderDone .countTarget o .done) ∈ y.rep.offers
  latched : x.orders.slots.countTarget.isSome = true → y.rep.latched &&& Cause.order.mask = Cause.order.mask

variable (armed : Armed (testWindDown (targetReached x)) y)
include armed

theorem targetHanded_of_armed : TargetHanded x y := by
  have common := testWindDown_targetReached x
  generalize testWindDown (targetReached x) = t at armed common
  obtain ⟨strikeRows, track, lanes, imp, web, _, countTarget, offered, latched⟩ := common
  rw [← armed.offers] at offered
  have latched := fun pending => armed.latched_of (latched pending)
  have frame := armed.eq
  exact ⟨(congrArg (fun t : State => t.cnt.strikeRows) frame).trans strikeRows, (congrArg State.track frame).trans track,
    (congrArg State.lanes frame).trans lanes, (congrArg State.imp frame).trans imp, (congrArg State.web frame).trans web,
    (congrArg (fun t : State => t.orders.slots.countTarget) frame).trans countTarget, offered, latched⟩

/-- The wind-down complete before the row is handed over: it does not engage (log 11). -/
theorem takeDecided_of_complete (run : x.station.mode = .run) (complete : Complete x) :
    takeDecided c row y = { y with imp := { x.imp with
        nips := x.imp.nips ++ [⟨row.uid, hold x.web.high row.nip⟩] } } ∧
      y.station = { x.station with mode := .watch, cause := .windDown, countTarget := none, windDown := false } ∧
      y.orders.slots.stampOff = none ∧
      ∀ o, x.orders.slots.stampOff = some o → (.orderUnit, Report.orderDone .stampOff o .done) ∈ y.rep.offers ∧
        y.rep.latched &&& Cause.order.mask = Cause.order.mask := by
  have handed := targetHanded_of_armed armed
  obtain ⟨station, stampOff, stampDone⟩ := testWindDown_targetReached_complete run complete
  have station := (congrArg State.station armed.eq).trans station
  refine ⟨?_, station, (congrArg (fun t : State => t.orders.slots.stampOff) armed.eq).trans stampOff, fun o pending => ?_⟩
  · refine (takeDecided_of_still (.inr ?_)).trans (congrArg (fun i => { y with imp := i }) ?_)
    · rw [station]
      exact fun watch => nomatch watch
    · rw [handed.imp, handed.web]
  · obtain ⟨offer, cause⟩ := stampDone o pending
    exact ⟨armed.offers.symm ▸ offer, armed.latched_of cause⟩

/-- The wind-down still to come: the row engages. -/
theorem takeDecided_of_incomplete (strike : row.isStrike = true) (run : x.station.mode = .run)
    (incomplete : ¬ Complete x) :
    takeDecided c row y = { y with imp := engagedImp c row x } ∧
      y.station = { x.station with countTarget := none, windDown := true } := by
  rw [testWindDown_of_not_done (mt (windDownDone_targetReached run).1 incomplete)] at armed
  exact ⟨takeDecided_of_armed (x := targetReached x) armed strike run, congrArg State.station armed.eq⟩

end

end Sys2Proof.Machine

/-! SUPPORT. The obligation of the decision point, assembled from the decision's parts (R119 to R124). -/

namespace Sys2Proof.Machine

/-- Settles O54: one decided row, handed on with no strike cell, with the throw engaged, or with the count target reached. -/
theorem decisionTakesRow : Obligations.DecisionTaken := by
  refine ⟨fun lv s c pre post r loaded split older opened reached names => ?_, fun n row p s => ?_, insertRecord_split⟩
  · intro d decided reasonAt striking row track lanes nip nips due hands handed engaged counted answers done
    have apart : Apart pre r post := apart_of_names names split
    -- The statement's row, track and lanes are those of `rowDecided`, its `handed` is `armLane` on each lane.
    have got : ∀ n, row.cells.get n = decided n := fun n => match n with
      | 0 | 1 | 2 | 3 => rfl
    have cells : ∀ n, (decidedCells c d (sense lv s) r).get n = decided n := fun n => by
      rw [decidedCells_get]
      dsimp only
      rw [decideCell_eq]
      rfl
    have rowEq : decidedRow c (rowView c r (sense lv s)) (sense lv s) r = row :=
      congrArg (fun x => { r with stage := .decided, cells := x })
        (PerLane.ext_get fun n => (cells n).trans (got n).symm)
    have x_eq : rowDecided c (rowView c r (sense lv s)) pre post r (sense lv s) =
        { sense lv s with track := track, lanes := lanes } := by
      rw [rowDecided, rowEq]
      have reason : ∀ n, cellReason (decidedCells c (rowView c r (sense lv s)) (sense lv s) r) n = reasonAt n :=
        fun n => congrArg (fun o : Option Cell => o.bind fun x => x.reason) (cells n)
      simp only [reason]
      rfl
    have strike_iff : row.isStrike = true ↔ striking := by
      rw [isStrike_iff]
      exact exists₂_congr fun n x => by rw [got]
    have pulled : ∀ n, cellPull row.cells n = (decided n).bind fun x => x.pull := fun n => by rw [cellPull, got]
    have hand : ∀ x, handed x = forLanes (armLane r.uid row.cells) x := by
      intro x
      have one : ∀ n x, hands n x = armLane r.uid row.cells n x := fun n x => by
        rw [armLane, got] <;> rfl
      show hands 3 (hands 2 (hands 1 (hands 0 x))) = _
      rw [one, one, one, one, forLanes]
    have decides := decideRow_of_split (s := sense lv s) loaded apart split
    dsimp only at decides
    rw [rowEq, x_eq, ← hand] at decides
    -- What the Impression Controller takes, with the nip taken at once where it is due.
    have reach : ∀ y w, y.imp.nips = s.imp.nips → y.web = s.web → decideRow r.uid (sense lv s) = handDecided c row y →
        takeDecided c row y = w → done w := by
      rintro y w held web decided rfl
      have due_iff : ((s.imp.nips.isEmpty && nip.reached) = true) ↔ due := by
        rw [Bool.and_eq_true, List.isEmpty_iff]
      rw [handDecided_eq, held, web] at decided
      have answer : ∀ w, decideRow r.uid (sense lv s) = w → answers w := by
        rintro w rfl
        refine ⟨?_, rfl⟩
        rw [show exec (.decisionPointReached lv) s = .next (finish s (decisionTaken (sense lv s))) from rfl,
          decisionTaken_of_due (by exact split) older opened reached]
      exact ⟨fun isDue => answer _ (decided.trans (if_pos (due_iff.2 isDue))),
        fun notDue => answer _ (decided.trans (if_neg (mt due_iff.1 notDue)))⟩
    refine ⟨fun still => ?_, fun strike run target => ?_, fun strike run last => ?_⟩
    · have quiet : row.isStrike = false := Bool.eq_false_iff.2 (mt strike_iff.1 still)
      have none : ∀ n, cellPull row.cells n = none := fun n => by
        rw [← rowEq]
        exact cellPull_of_not_strike (by rw [rowEq]; exact quiet) n
      rw [if_neg (by rw [quiet]; exact Bool.false_ne_true), hand, forLanes_armLane_none none] at decides
      exact reach _ _ (by rfl) (by rfl) decides (takeDecided_of_still (.inl quiet))
    · have strikes := strike_iff.2 strike
      rw [if_pos strikes, countStrikeRow_of_many (by exact target)] at decides
      -- The counted row as a name, so that the terms stay small.
      obtain ⟨x, x_def⟩ : ∃ x : State, x = { counted with
        station := { s.station with countTarget := s.station.countTarget.map fun k => k - 1 } } := ⟨_, rfl⟩
      have decides : decideRow r.uid (sense lv s) = handDecided c row (handed x) := by
        rw [x_def]
        exact decides
      have armed : Armed x (handed x) := by
        rw [hand]
        exact armed_armLanes _ _ _
      have drives : x.drive = s.drive := by rw [x_def]; rfl
      have web : x.web = s.web := (congrArg State.web x_def).trans rfl
      have imp : engagedImp c row x = engaged := by rw [x_def]; rfl
      have takes := takeDecided_of_armed (c := c) armed strikes (by rw [x_def]; exact run)
      rw [imp] at takes
      have frame := congrArg (fun t : State => { t with imp := engaged }) armed.frame
      refine ⟨{ handed x with imp := engaged }, reach _ _ (by rw [armed.eq, x_def]; rfl) (by rw [armed.eq]; exact web)
        decides takes, ?_, by rw [← x_def], fun n none => ?_, fun n p pull room ahead => ?_, fun quiet => ?_⟩
      · rw [x_def] at frame ⊢
        exact frame
      · rw [hand, ← drives]
        exact forLanes_armLane_drive_of_none ((pulled n).trans none) x
      · rw [← drives] at room ⊢
        rw [← web] at ahead
        rw [hand]
        exact forLanes_armLane_drive_of_ahead ((pulled n).trans pull) room ahead
      · rw [hand]
        obtain ⟨msgs, rep⟩ := forLanes_armLane_quiet (uid := r.uid) (cells := row.cells) (s := x)
          fun n p pull => by
            rw [drives, web]
            exact quiet n p ((pulled n).symm.trans pull)
        exact ⟨msgs.trans (by rw [x_def]; rfl), rep.trans (by rw [x_def]; rfl)⟩
    · have strikes := strike_iff.2 strike
      have steady : s.station.windDown = false :=
        windDown_of_isStrike (d := rowView c r (sense lv s)) (by rw [rowEq]; exact strikes)
      rw [if_pos strikes, countStrikeRow_of_last (by exact last) (by exact steady)] at decides
      obtain ⟨x, x_def⟩ : ∃ x : State, x = { sense lv s with track := track, lanes := lanes } := ⟨_, rfl⟩
      have decides : decideRow r.uid (sense lv s) = handDecided c row (handed (testWindDown (targetReached x))) := by
        rw [x_def]
        exact decides
      have mode : x.station.mode = .run := by rw [x_def]; exact run
      have complete_iff : Complete x ↔ s.imp.throw = .off ∧ ∀ n, (s.drive n).activePull = false := by
        rw [x_def]
        rfl
      have armed : Armed (testWindDown (targetReached x)) (handed (testWindDown (targetReached x))) := by
        rw [hand]
        exact armed_armLanes _ _ _
      -- What both outcomes of the wind-down test have in common, in the terms of `s`.
      have left := targetHanded_of_armed armed
      have x_orders : x.orders = s.orders := by rw [x_def]; rfl
      have x_station : x.station = s.station := by rw [x_def]; rfl
      have offered := left.offered
      have latched := left.latched
      rw [x_orders] at offered latched
      have strikeRows : _ = s.cnt.strikeRows + 1 := left.strikeRows.trans (by rw [x_def]; rfl)
      have kept : _ = track ∧ _ = lanes := ⟨left.track.trans (by rw [x_def]), left.lanes.trans (by rw [x_def])⟩
      have nips_still : _ = s.imp.nips := (congrArg Impression.nips left.imp).trans (by rw [x_def]; rfl)
      have web : _ = s.web := left.web.trans (by rw [x_def]; rfl)
      by_cases complete : Complete x
      · obtain ⟨takes, station, stampOff, stampDone⟩ :=
          takeDecided_of_complete (c := c) (row := row) armed mode complete
        rw [x_station] at station
        rw [x_orders] at stampDone
        have still : { x.imp with nips := x.imp.nips ++ [⟨row.uid, hold x.web.high row.nip⟩] } =
          { s.imp with nips := nips } := by rw [x_def]; rfl
        rw [still] at takes
        refine ⟨_, reach _ _ nips_still web decides takes, ?_⟩
        intro settled target
        have settles : settled := complete_iff.1 complete
        have target_eq : targetReached x = target := by rw [x_def]; rfl
        refine ⟨by rw [if_pos settles, ← target_eq], latched, left.countTarget, strikeRows, kept.1, kept.2, rfl, offered,
          fun other => absurd settles other, fun _ => ⟨station, stampOff, stampDone, settles.1, rfl, fun n => ?_⟩⟩
        rw [hand]
        exact handed_inactive_of_complete mode complete r.uid row.cells n
      · obtain ⟨takes, station⟩ := takeDecided_of_incomplete (c := c) armed strikes mode complete
        rw [x_station] at station
        have engages : engagedImp c row x = engaged := by rw [x_def]; rfl
        have throw := engagedImp_throw c row x
        rw [engages] at takes throw
        refine ⟨_, reach _ _ nips_still web decides takes, ?_⟩
        intro settled target
        have unsettled : ¬ settled := mt complete_iff.2 complete
        have target_eq : targetReached x = target := by rw [x_def]; rfl
        exact ⟨by rw [if_neg unsettled, ← target_eq], latched, left.countTarget, strikeRows, kept.1, kept.2, rfl, offered,
          fun _ => ⟨station, rfl, throw⟩, fun settles => absurd settles unsettled⟩
  · intro f late added
    have held : hold s.web.high p.start = ⟨p.start, late⟩ := rfl
    refine ⟨fun full => armPull_of_full full, fun room => ?_⟩
    rw [armPull_of_room room, pullAdded, held]

end Sys2Proof.Machine

/-! SUPPORT. What the table of throw states reads of a state, and the operations that leave it (R136). -/

namespace Sys2Proof.Machine

/-! ## The view of the throw -/

/-- What R136 reads: the throw state, whether horizon and release point are present, THROW_OK, and the mode. -/
structure ThrowView where
  throw : ThrowState
  horizon : Bool
  release : Bool
  throwOk : Bool
  mode : Mode

/-- A state as R136 sees it. -/
def State.view (s : State) : ThrowView :=
  ⟨s.imp.throw, s.imp.horizon.isSome, s.imp.release.isSome, s.pins.throwOk, s.station.mode⟩

/-- The table of R136, on a view. -/
def ThrowView.lawful (v : ThrowView) : Prop :=
  match v.throw with
  | .off => v.horizon = false ∧ v.release = false
  | .engaging => v.throwOk = false ∧ v.mode = .run ∧ v.horizon = true ∧ v.release = true
  | .on => v.throwOk = true ∧ v.mode = .run ∧ v.horizon = true ∧ v.release = true
  | .releasing => v.throwOk = true ∧ v.mode ≠ .bypass ∧ v.horizon = false ∧ v.release = false

theorem throwTable_iff_lawful (s : State) : ThrowTable s ↔ s.view.lawful := by
  rw [ThrowTable, ThrowView.lawful, State.view]
  dsimp only
  cases s.imp.throw <;> simp only [Option.isSome_eq_false_iff, Option.isNone_iff_eq_none]

/-- The table survives whatever leaves the view. -/
theorem throwTable_of_view {s t : State} (same : t.view = s.view) (table : ThrowTable s) : ThrowTable t := by
  rw [throwTable_iff_lawful] at table ⊢
  rw [same]
  exact table

theorem view_withLoaded {s : State} {f : Loaded → State} {v : ThrowView} (here : s.view = v) (each : ∀ c, (f c).view = v) :
    (withLoaded s f).view = v := by
  unfold withLoaded
  split
  · exact each _
  · exact here

theorem view_forLanes {f : Lane → State → State} (each : ∀ n t, (f n t).view = t.view) (s : State) :
    (forLanes f s).view = s.view := by
  rw [forLanes, each, each, each, each]

theorem view_finish (old s : State) : (finish old s).view = s.view := by
  simp only [State.view, finish_imp, finish_pins, finish_station]

theorem Armed.view {s t : State} (armed : Armed s t) : t.view = s.view := by
  rw [armed.eq]
  rfl

theorem Flushed.view {s t : State} (flushed : Flushed s t) : t.view = s.view := by
  rw [flushed.eq]
  rfl

/-! ## The standing orders and the survey -/

theorem view_completeStanding (k : OrderKind) (e : Completion) (s : State) : (completeStanding k e s).view = s.view := by
  unfold completeStanding
  split <;> rfl

theorem view_removeTarget (e : Completion) (s : State) : (removeTarget e s).view = s.view :=
  view_completeStanding ..

theorem view_endRunningSurvey (o : SurveyOutcome) (s : State) : (endRunningSurvey o s).view = s.view := by
  obtain ⟨_, _, _, _, shape⟩ := endRunningSurvey_shape o s
  rw [shape]
  rfl

theorem view_endSurvey (o : SurveyOutcome) (s : State) : (endSurvey o s).view = s.view :=
  view_withLoaded rfl fun _ => view_completeStanding ..

theorem view_testSurvey (c : Loaded) (s : State) : (testSurvey c s).view = s.view := by
  unfold testSurvey
  split
  · exact view_endSurvey ..
  · split
    · exact view_endSurvey ..
    · rfl

theorem view_surveyRow (r : Row) (s : State) : (surveyRow r s).view = s.view :=
  view_withLoaded rfl fun c => by
    split
    · exact view_testSurvey c _
    · rfl

theorem view_surveyPulse (n : Lane) (e : Pos) (s : State) : (surveyPulse n e s).view = s.view := by
  unfold surveyPulse
  split <;> rfl

theorem view_surveyRead (n : Lane) (mark stop : Pos) (s : State) : (surveyRead n mark stop s).view = s.view := by
  unfold surveyRead
  split <;> rfl

/-! ## The Foil Drives -/

theorem view_testLanesDown (s : State) : (testLanesDown s).view = s.view := by
  unfold testLanesDown
  split <;> rfl

theorem view_testRunOut (old : State) (n : Lane) (s : State) : (testRunOut old n s).view = s.view := by
  unfold testRunOut
  split <;> rfl

theorem view_testLow (c : Loaded) (n : Lane) (s : State) : (testLow c n s).view = s.view := by
  unfold testLow
  dsimp only
  split <;> rfl

theorem view_beginPull (n : Lane) (row : Nat) (s : State) : (beginPull n row s).view = s.view :=
  (armed_beginPull n row s).view

theorem view_pullStart (n : Lane) (s : State) : (pullStart n s).view = s.view := by
  unfold pullStart
  dsimp only
  split
  · rfl
  · split
    · exact view_beginPull ..
    · rfl

theorem view_ownPullEnd (n : Lane) (s : State) : (ownPullEnd n s).view = s.view := by
  unfold ownPullEnd
  dsimp only
  split <;> rfl

theorem view_reportRecords (n : Lane) (e : PullEvent) (l : List PullRec) (s : State) :
    (reportRecords n e l s).view = s.view := by
  rw [reportRecords_eq]
  rfl

theorem view_foilAtLoad (n : Lane) (s : State) : (foilAtLoad n s).view = s.view := by
  rw [foilAtLoad_eq]
  rfl

/-! ## The memory port -/

theorem view_grantPort (s : State) : (grantPort s).view = s.view := by
  unfold grantPort
  split_ifs <;> rfl

theorem view_completeOwn (o : OwnAccess) (s : State) : (completeOwn o s).view = s.view := by
  rw [completeOwn, endOwn, landOwn]
  dsimp only
  split <;> rfl

theorem view_endOwn (o : OwnAccess) (k : Nat) (s : State) : (endOwn o k s).view = s.view := by
  rw [endOwn, landOwn]
  dsimp only
  split <;> rfl

theorem view_endForwarded (a : Access) (k : Nat) (s : State) : (endForwarded a k s).view = s.view := by
  unfold endForwarded
  dsimp only
  split <;> rfl

theorem view_guardDrop (why : GuardReason) (a : Access) (s : State) : (guardDrop why a s).view = s.view := by
  cases why <;> rfl

theorem view_settleRead (a : Access) (s : State) : (settleRead a s).view = s.view := by
  unfold settleRead
  split <;> rfl

theorem view_recordHandoff (e gen : Nat) (s : State) : (recordHandoff e gen s).view = s.view := by
  unfold recordHandoff
  split <;> rfl

theorem view_recordRelease (e gen : Nat) (s : State) : (recordRelease e gen s).view = s.view := by
  unfold recordRelease
  split <;> rfl

/-! ## Orders taken and accesses ended -/

theorem view_takeBegin (s : State) : (takeBegin s).view = s.view := by
  unfold takeBegin
  split
  · split <;> rfl
  · rfl

theorem view_countRefusal (code : ResultCode) (s : State) : (countRefusal code s).view = s.view := by
  unfold countRefusal
  split <;> rfl

theorem view_takeError (s : State) : (takeError s).view = s.view := by
  unfold takeError
  split
  · exact view_countRefusal ..
  · rfl

theorem view_endTake (s : State) : (endTake s).view = s.view := by
  unfold endTake
  split <;> rfl

theorem view_endFill (s : State) : (endFill s).view = s.view := by
  unfold endFill
  split <;> rfl

theorem view_fillError (s : State) : (fillError s).view = s.view := by
  unfold fillError
  split <;> rfl

theorem view_restartLoad (s : State) : (restartLoad s).view = s.view := by
  unfold restartLoad
  dsimp only
  split <;> rfl

theorem view_seedOrderRead (b : Bounds) (first : Nat) (ws : List Word) (s : State) :
    (seedOrderRead b first ws s).view = s.view := by
  unfold seedOrderRead
  dsimp only
  split <;> rfl

/-! ## The Lane Trackers -/

theorem view_enterBlocked (n : Lane) (src : LaneSource) (s : State) : (enterBlocked n src s).view = s.view :=
  view_testLanesDown _

theorem view_applyJudged (n : Lane) (j : Judged) (s : State) : (applyJudged n j s).view = s.view := by
  have counted : ∀ (b : Bool) (t : State), (if b then countUnread t else t).view = t.view := fun b t => by
    cases b <;> rfl
  have resynced : ∀ (b : Bool) (t : State),
      (if b then { t with cnt := { t.cnt with resyncs := t.cnt.resyncs + 1 } } else t).view = t.view := fun b t => by
    cases b <;> rfl
  have before := (resynced j.resync _).trans (counted j.cell.status.countedHere (setLane n j.tracker s))
  unfold applyJudged
  dsimp only
  split
  · exact (view_enterBlocked ..).trans before
  · exact before

theorem view_readTakenBy (n : Lane) (s : State) : (readTakenBy n s).view = s.view := by
  unfold readTakenBy
  split
  · rfl
  · refine view_withLoaded rfl fun c => ?_
    split
    · exact view_applyJudged ..
    · exact view_applyJudged ..
    · exact view_applyJudged ..
    all_goals rfl

theorem view_noticeTaken (n : Lane) (src : LaneSource) (s : State) : (noticeTaken n src s).view = s.view := by
  by_cases counts : (s.lanes.get n).state.counts
  · rw [noticeTaken_of_counts counts]
    split
    · exact view_enterBlocked ..
    · rfl
  · rw [noticeTaken_of_quiet counts]

theorem view_strayTaken (n : Lane) (s : State) : (strayTaken n s).view = s.view := by
  unfold strayTaken
  split
  · rfl
  · exact view_noticeTaken ..

theorem view_skewTaken (n : Lane) (s : State) : (skewTaken n s).view = s.view := by
  unfold skewTaken
  split
  · rfl
  · exact view_noticeTaken ..

theorem view_resumeTaken (n : Lane) (s : State) : (resumeTaken n s).view = s.view := by
  unfold resumeTaken
  split
  · rfl
  · dsimp only
    split <;> rfl

/-! ## The Mark Readers -/

theorem view_missMark (c : Loaded) (n : Lane) (s : State) : (missMark c n s).view = s.view := by
  unfold missMark
  dsimp only
  split <;> rfl

theorem view_windowEndTaken (n : Lane) (s : State) : (windowEndTaken n s).view = s.view :=
  view_withLoaded rfl fun c => by
    dsimp only
    split
    · split
      · rfl
      · split
        · split
          · rfl
          · exact view_missMark ..
        · exact view_missMark ..
    · rfl

theorem view_leadingEdge (n : Lane) (s : State) : (leadingEdge n s).view = s.view := by
  unfold leadingEdge
  split
  · rfl
  · refine view_withLoaded rfl fun c => ?_
    dsimp only
    split
    · rfl
    · split <;> rfl

theorem view_endPulse (c : Loaded) (n : Lane) (p : Pulse) (s : State) : (endPulse c n p s).view = s.view := by
  unfold endPulse
  dsimp only
  split
  · exact view_missMark ..
  · rfl

theorem view_pulseTrailing (c : Loaded) (n : Lane) (p : Pulse) (s : State) : (pulseTrailing c n p s).view = s.view := by
  unfold pulseTrailing
  dsimp only
  split
  · exact view_endPulse ..
  · split
    · exact view_endPulse ..
    · split
      · exact view_surveyPulse ..
      · exact (view_endPulse ..).trans (view_surveyPulse n p.lead s)

theorem view_lightReturn (n : Lane) (s : State) : (lightReturn n s).view = s.view := by
  unfold lightReturn
  dsimp only
  split <;> rfl

theorem view_trailingEdge (n : Lane) (s : State) : (trailingEdge n s).view = s.view := by
  unfold trailingEdge
  split
  · refine view_withLoaded rfl fun c => ?_
    dsimp only
    split
    · rfl
    · exact view_lightReturn ..
    · exact view_lightReturn ..
    · split
      · exact (view_lightReturn ..).trans (view_pulseTrailing ..)
      · exact view_lightReturn ..
  · rfl

theorem view_sampleTaken (n : Lane) (s : State) : (sampleTaken n s).view = s.view :=
  view_withLoaded rfl fun c => by
    dsimp only
    split
    · rfl
    · split
      · rfl
      · split <;> rfl

theorem view_handResult (n : Lane) (x : ReadInHand) (result : ReadResult) (s : State) :
    (handResult n x result s).view = s.view := by
  cases result with
  | complete code => exact view_surveyRead ..
  | unread cause | absent => rfl

theorem view_stopTaken (n : Lane) (s : State) : (stopTaken n s).view = s.view := by
  unfold stopTaken
  dsimp only
  split
  · rfl
  · split
    · exact view_handResult ..
    · rfl

theorem view_abortForSplice (n : Lane) (r : Reader) (s : State) : (abortForSplice n r s).view = s.view := by
  unfold abortForSplice
  split
  · split
    · split <;> rfl
    · rfl
  · split <;> rfl
  all_goals rfl

theorem view_spliceDetected (n : Lane) (s : State) : (spliceDetected n s).view = s.view := by
  unfold spliceDetected
  dsimp only
  split
  · rfl
  · split
    · exact view_abortForSplice ..
    · rfl

theorem view_backwardReader (n : Lane) (s : State) : (backwardReader n s).view = s.view := by
  unfold backwardReader
  dsimp only
  split
  · split <;> rfl
  · rfl

/-! ## The Row Track -/

theorem view_newSplice (n : Lane) (dark start : Pos) (s : State) : (newSplice n dark start s).view = s.view :=
  view_endRunningSurvey ..

theorem view_takeDetection (c : Loaded) (n : Lane) (dark : Pos) (s : State) :
    (takeDetection c n dark s).view = s.view := by
  unfold takeDetection
  dsimp only
  split
  · rfl
  · split
    · exact view_newSplice ..
    · split
      · exact view_newSplice ..
      · split
        · exact view_newSplice ..
        · rfl

theorem view_spliceDetectionTaken (n : Lane) (s : State) : (spliceDetectionTaken n s).view = s.view := by
  unfold spliceDetectionTaken
  split
  · exact view_withLoaded rfl fun c => view_takeDetection ..
  · rfl

theorem view_takeLightReturn (c : Loaded) (n : Lane) (x : Pos) (s : State) :
    (takeLightReturn c n x s).view = s.view := by
  unfold takeLightReturn
  split <;> rfl

theorem view_lightReturnTaken (n : Lane) (s : State) : (lightReturnTaken n s).view = s.view := by
  unfold lightReturnTaken
  split
  · exact view_withLoaded rfl fun c => view_takeLightReturn ..
  · rfl

theorem view_pullReportTaken (n : Lane) (s : State) : (pullReportTaken n s).view = s.view := by
  unfold pullReportTaken
  split <;> rfl

theorem view_retireRow (r : Row) (s : State) : (retireRow r s).view = s.view :=
  view_surveyRow ..

theorem view_rejectPointTaken (s : State) : (rejectPointTaken s).view = s.view :=
  view_withLoaded rfl fun c => by
    split
    · rfl
    · split
      · refine (view_retireRow ..).trans (view_forLanes (fun n t => ?_) s)
        rw [pulseLane_eq]
        rfl
      · rfl

theorem view_rejectEndTaken (n : Lane) (s : State) : (rejectEndTaken n s).view = s.view := by
  unfold rejectEndTaken
  split <;> rfl

/-! ## The Impression Controller away from the throw -/

theorem view_applyCorrection (c : Loaded) (x : Int) (s : State) : (applyCorrection c x s).view = s.view := by
  unfold applyCorrection
  dsimp only
  split <;> rfl

theorem view_trimAt (c : Loaded) (err : Option Int) (s : State) : (trimAt c err s).view = s.view := by
  unfold trimAt
  split
  · dsimp only
    split
    · exact view_applyCorrection ..
    · rfl
  · rfl

theorem view_takeNip (s : State) : (takeNip s).view = s.view := by
  refine view_withLoaded rfl fun c => ?_
  split
  · rfl
  · dsimp only
    split
    · rfl
    · refine (view_trimAt ..).trans ?_
      split <;> rfl

theorem view_nipTaken (s : State) : (nipTaken s).view = s.view := by
  unfold nipTaken
  split
  · split
    · exact view_takeNip s
    · rfl
  · rfl

theorem view_cylIndexTaken (s : State) : (cylIndexTaken s).view = s.view := by
  unfold cylIndexTaken
  split
  · dsimp only
    split <;> rfl
  · rfl

theorem view_heatFall (s : State) : (heatFall s).view = s.view := by
  unfold heatFall
  dsimp only
  split <;> rfl

/-! ## The web and the station -/

theorem view_reachPositions (s : State) : (reachPositions s).view = s.view := by
  simp only [State.view, reachPositions, Impression.advance, advanceHeld, Option.isSome_map]

theorem view_backwardCount (s : State) : (backwardCount s).view = s.view := by
  unfold backwardCount
  split
  · rfl
  · dsimp only
    split
    · refine view_withLoaded rfl fun c => ?_
      split
      · rfl
      · exact view_forLanes view_backwardReader _
    · rfl

theorem view_doubleChange (s : State) : (doubleChange s).view = s.view := by
  unfold doubleChange
  split <;> rfl

theorem view_noteFault (f : RaisedFault) (s : State) : (noteFault f s).view = s.view := by
  have recorded : (latch .fault (recordFault f.kind f.lane s)).view = s.view := by
    rw [recordFault]
    split <;> rfl
  unfold noteFault
  dsimp only
  split
  · exact recorded
  · exact recorded

theorem view_takenIfDue (held : List HeldNip) (nip : Held) (s : State) : (takenIfDue held nip s).view = s.view := by
  unfold takenIfDue
  split
  · exact view_takeNip s
  · rfl

end Sys2Proof.Machine

/-! SUPPORT. The table of throw states through the operations that release the throw, change the mode or wind down (R37,
R136, R137, R141). -/

namespace Sys2Proof.Machine

/-! ## The throw lowered, and changes of mode -/

section
variable {s t : State}

theorem throwOn_of_not_run (table : ThrowTable s) (mode : s.station.mode ≠ .run) : s.throwOn = false := by
  rw [ThrowTable] at table
  rw [State.throwOn]
  cases throw : s.imp.throw with
  | off | releasing => rfl
  | engaging | on =>
    rw [throw] at table
    obtain ⟨_, run, _⟩ := table
    exact absurd run mode

/-- With THROW_ON negated the table holds in every mode but BYPASS. -/
theorem throwTable_of_lowered {m : Mode} (lowered : s.throwOn = false) (mode : m ≠ .bypass)
    (view : t.view = { s.view with mode := m }) (table : ThrowTable s) : ThrowTable t := by
  rw [throwTable_iff_lawful] at table ⊢
  rw [view]
  rw [State.throwOn] at lowered
  rw [ThrowView.lawful] at table ⊢
  dsimp only [State.view] at table ⊢
  cases throw : s.imp.throw with
  | off =>
    rw [throw] at table
    exact table
  | engaging | on =>
    rw [throw] at lowered
    cases lowered
  | releasing =>
    rw [throw] at table
    obtain ⟨confirmed, _, horizon, release⟩ := table
    exact ⟨confirmed, mode, horizon, release⟩

/-- THROW_ON negated from ENGAGING or ON: the table holds in every mode but BYPASS. -/
theorem throwTable_of_negated {m : Mode} (mode : m ≠ .bypass)
    (view : t.view = ⟨if s.pins.throwOk then .releasing else .off, false, false, s.pins.throwOk, m⟩) : ThrowTable t := by
  rw [throwTable_iff_lawful, view, ThrowView.lawful]
  cases s.pins.throwOk with
  | true => exact ⟨rfl, mode, rfl, rfl⟩
  | false => exact ⟨rfl, rfl⟩

theorem throwTable_of_idle (view : t.view.throw = .off ∧ t.view.horizon = false ∧ t.view.release = false) :
    ThrowTable t := by
  obtain ⟨throw, horizon, release⟩ := view
  rw [throwTable_iff_lawful, ThrowView.lawful, throw]
  exact ⟨horizon, release⟩

/-- Horizon and release point are absent while THROW_ON is negated. -/
theorem view_of_lowered (lowered : s.throwOn = false) (table : ThrowTable s) :
    s.view.horizon = false ∧ s.view.release = false := by
  rw [throwTable_iff_lawful, ThrowView.lawful] at table
  rw [State.throwOn] at lowered
  dsimp only [State.view] at table ⊢
  cases throw : s.imp.throw with
  | off =>
    rw [throw] at table
    exact table
  | engaging | on =>
    rw [throw] at lowered
    cases lowered
  | releasing =>
    rw [throw] at table
    obtain ⟨_, _, absent⟩ := table
    exact absent

/-- The throw released if it was on, its horizon and release point gone, in another mode (R31, R136, R141). -/
theorem throwTable_of_released {m : Mode} (mode : m ≠ .bypass)
    (view : t.view = ⟨if s.throwOn then (if s.pins.throwOk then .releasing else .off) else s.imp.throw, false, false,
      s.pins.throwOk, m⟩) (table : ThrowTable s) : ThrowTable t := by
  cases on : s.throwOn with
  | true =>
    rw [on, if_pos rfl] at view
    exact throwTable_of_negated mode view
  | false =>
    obtain ⟨horizon, release⟩ := view_of_lowered on table
    rw [on, if_neg Bool.false_ne_true, ← horizon] at view
    refine throwTable_of_lowered on mode (view.trans ?_) table
    rw [horizon, ← release]
    exact congrArg (fun h => (⟨_, h, _, _, _⟩ : ThrowView)) (release.trans horizon.symm)

theorem throwTable_forLanes {f : Lane → State → State} (each : ∀ n t, ThrowTable t → ThrowTable (f n t))
    (table : ThrowTable s) : ThrowTable (forLanes f s) :=
  each _ _ (each _ _ (each _ _ (each _ _ table)))

theorem throwTable_withLoaded {f : Loaded → State} (each : ∀ c, s.loader.loaded = some c → ThrowTable (f c))
    (table : ThrowTable s) : ThrowTable (withLoaded s f) := by
  unfold withLoaded
  split
  · exact each _ (by assumption)
  · exact table

end

/-! ## The wind-down -/

theorem throwTable_testWindDown {s : State} (table : ThrowTable s) : ThrowTable (testWindDown s) := by
  by_cases done : windDownDone s = true
  · obtain ⟨_, _, off, _⟩ := (windDownDone_iff s).1 done
    refine throwTable_of_lowered (m := .watch) (by rw [State.throwOn, off]) (by decide) ?_ table
    rw [testWindDown_of_done done]
    rfl
  · rw [testWindDown_of_not_done done]
    exact table

theorem throwTable_stopPull (n : Lane) {s : State} (table : ThrowTable s) : ThrowTable (stopPull n s) := by
  rw [stopPull_eq]
  split
  · exact throwTable_testWindDown (throwTable_of_view rfl table)
  · exact table

theorem throwTable_negateThrow {s : State} (table : ThrowTable s) (on : s.throwOn = true) : ThrowTable (negateThrow s) := by
  have mode : s.station.mode ≠ .bypass := fun bypass => by
    rw [throwOn_of_not_run table (by rw [bypass]; decide)] at on
    cases on
  have either : ∀ (b : Bool) (t : State), ThrowTable t → ThrowTable (if b then t else testWindDown t) := fun b t negated => by
    cases b with
    | true => exact negated
    | false => exact throwTable_testWindDown negated
  exact either s.pins.throwOk _ (throwTable_of_negated (s := s) (m := s.station.mode) mode rfl)

/-! ## Losing and gaining a configuration -/

theorem throwTable_loseConfiguration (code : ErrorCode) (cause : ModeCause) {s : State} (table : ThrowTable s) :
    ThrowTable (loseConfiguration code cause s) :=
  throwTable_of_released (s := s) (m := .unconfigured) (by decide) rfl table

theorem throwTable_editInHeld {s : State} (table : ThrowTable s) : ThrowTable (editInHeld s) :=
  throwTable_loseConfiguration _ _ (throwTable_of_view (flushed_flushOffers s).view table)

theorem throwTable_failLoad (code : ErrorCode) {s : State} (table : ThrowTable s) : ThrowTable (failLoad code s) :=
  throwTable_of_view (s := loseConfiguration code .loadFailed s) rfl (throwTable_loseConfiguration _ _ table)

theorem throwTable_loadSucceeds (c : Loaded) {s : State} (table : ThrowTable s) : ThrowTable (loadSucceeds c s) :=
  throwTable_of_released (s := s) (m := .held) (by decide) (view_forLanes view_foilAtLoad _) table

theorem throwTable_runChecks {s : State} (table : ThrowTable s) : ThrowTable (runChecks s) := by
  unfold runChecks
  split
  · exact throwTable_failLoad _ table
  · split
    · exact throwTable_failLoad _ table
    · dsimp only
      split
      · exact throwTable_failLoad _ table
      · exact throwTable_loadSucceeds _ table

theorem throwTable_tableRead (k : Nat) (ws : List Word) {s : State} (table : ThrowTable s) :
    ThrowTable (tableRead k ws s) := by
  have checks : ∀ l : Loader, ThrowTable (runChecks { s with loader := l }) := fun l =>
    throwTable_runChecks (throwTable_of_view rfl table)
  unfold tableRead
  dsimp only
  split
  · exact throwTable_of_view rfl table
  · split
    · split
      · exact throwTable_of_view rfl table
      · exact checks _
    · exact checks _

theorem throwTable_seedReportRead (b : Bounds) (first : Nat) (ws : List Word) {s : State} (table : ThrowTable s) :
    ThrowTable (seedReportRead b first ws s) := by
  unfold seedReportRead
  dsimp only
  split
  · exact throwTable_of_view rfl table
  · exact throwTable_runChecks (throwTable_of_view rfl table)

theorem throwTable_commitEvent {s : State} (table : ThrowTable s) : ThrowTable (commitEvent s) := by
  have begins : s.station.mode ≠ .run → ThrowTable (beginLoad s) := fun mode =>
    throwTable_of_lowered (m := .loading) (throwOn_of_not_run table mode) (by decide) rfl table
  unfold commitEvent
  cases mode : s.station.mode with
  | unconfigured | held => exact begins (by rw [mode]; decide)
  | loading => exact throwTable_of_view (view_restartLoad s) table
  | bypass | watch | run | safe => exact table

theorem throwTable_editEvent {s : State} (table : ThrowTable s) : ThrowTable (editEvent s) := by
  unfold editEvent
  cases s.station.mode with
  | held => exact throwTable_editInHeld (throwTable_of_view rfl table)
  | loading | watch | run | safe => exact throwTable_of_view rfl table
  | bypass | unconfigured => exact table

theorem throwTable_configEvent (p : Bool) {s : State} (table : ThrowTable s) : ThrowTable (configEvent p s) := by
  unfold configEvent
  split
  · split
    · exact throwTable_commitEvent table
    · exact throwTable_editEvent table
  · split
    · exact throwTable_commitEvent table
    · exact throwTable_editEvent table
  · split
    · exact throwTable_commitEvent table
    · exact throwTable_editEvent table
  all_goals exact throwTable_editEvent table

/-! ## The Foil Drives -/

theorem throwTable_runOut (n : Lane) {s : State} (table : ThrowTable s) : ThrowTable (runOut n s) := by
  have stopped := throwTable_stopPull n (throwTable_of_view (t := setFoil n { s.foil.get n with out := true } s) rfl table)
  unfold runOut
  dsimp only
  split
  · exact stopped
  · exact throwTable_of_view rfl stopped

theorem throwTable_addBreak (n : Lane) {s : State} (table : ThrowTable s) : ThrowTable (addBreak n s) := by
  have tested : ∀ t : State, t.view = s.view → ThrowTable (latch .foil (stopPull n t)) := fun t same =>
    throwTable_of_view (s := stopPull n t) rfl (throwTable_stopPull n (throwTable_of_view same table))
  unfold addBreak
  dsimp only
  split
  · exact tested _ rfl
  · exact tested _ (view_testLanesDown _)

theorem throwTable_stepLoop (c : Loaded) (n : Lane) (fuel : Nat) {s : State} (table : ThrowTable s) :
    ThrowTable (stepLoop c n fuel s) := by
  induction fuel generalizing s with
  | zero => exact table
  | succ fuel ih =>
    have stepped : ThrowTable (testLow c n (setFoil n ((s.foil.get n).stepOnce c.hdr.ratioDen) s)) :=
      throwTable_of_view (view_testLow c n _) table
    unfold stepLoop
    dsimp only
    split
    · split
      · exact throwTable_runOut n stepped
      · exact ih stepped
    · exact table

theorem throwTable_foilAdvance (c : Loaded) (n : Lane) {s : State} (table : ThrowTable s) :
    ThrowTable (foilAdvance c n s) := by
  unfold foilAdvance
  dsimp only
  split
  · exact throwTable_stepLoop c n _ (throwTable_of_view rfl table)
  · exact table

theorem throwTable_pullEnd (n : Lane) {s : State} (table : ThrowTable s) : ThrowTable (pullEnd n s) := by
  unfold pullEnd
  dsimp only
  split
  · exact throwTable_testWindDown (throwTable_of_view (view_reportRecords n .ended _ s) table)
  · exact table

theorem throwTable_foilbrkAssert (n : Lane) {s : State} (table : ThrowTable s) : ThrowTable (foilbrkAssert n s) := by
  unfold foilbrkAssert
  dsimp only
  split
  · exact throwTable_addBreak n (throwTable_of_view rfl table)
  · exact throwTable_of_view rfl table

theorem throwTable_foilLoadTaken (c : Loaded) (n : Lane) (count : Word) {s : State} (table : ThrowTable s) :
    ThrowTable (foilLoadTaken c n count s) := by
  unfold foilLoadTaken
  dsimp only
  split
  · refine throwTable_of_view (view_testRunOut _ n _) (throwTable_runOut n ?_)
    exact throwTable_of_view (view_testLow c n _) table
  · exact throwTable_of_view (view_testLow c n _) table

/-! ## Station faults -/

theorem throwTable_enterSafe (k : FaultKind) {s : State} (table : ThrowTable s) (run : s.station.mode = .run) :
    ThrowTable (enterSafe k s) := by
  obtain ⟨shape, _, _⟩ := enterSafe_of_run k run
  cases on : s.throwOn with
  | true =>
    refine throwTable_of_negated (s := s) (m := .safe) (by decide) ?_
    rw [shape, State.view, on]
    rfl
  | false =>
    refine throwTable_of_lowered (m := .safe) on (by decide) ?_ table
    rw [shape, State.view, on]
    rfl

theorem mode_enterSafe (k : FaultKind) {s : State} (run : s.station.mode = .run) :
    (enterSafe k s).station.mode = .safe := by
  obtain ⟨shape, _, _⟩ := enterSafe_of_run k run
  exact congrArg (fun t : State => t.station.mode) shape

theorem throwTable_reverseEffects {s : State} (table : ThrowTable s) (stopped : s.station.mode ≠ .run) :
    ThrowTable (reverseEffects s) := by
  obtain ⟨d, shape⟩ := reverseEffects_eq stopped
  rw [shape]
  exact throwTable_of_view (view_endRunningSurvey .failIncomplete (reversedState d s)) table

theorem throwTable_applyFault (f : RaisedFault) {s : State} (table : ThrowTable s) : ThrowTable (applyFault f s) := by
  have noted : ThrowTable (noteFault f s) := throwTable_of_view (view_noteFault f s) table
  have mode_noted : (noteFault f s).station.mode = s.station.mode := congrArg ThrowView.mode (view_noteFault f s)
  unfold applyFault
  cases mode : s.station.mode with
  | bypass => exact table
  | unconfigured | loading | held => exact noted
  | watch =>
    dsimp only
    split
    · exact throwTable_reverseEffects noted (by rw [mode_noted, mode]; decide)
    · split
      · exact throwTable_of_view rfl noted
      · exact noted
  | run =>
    have run : (noteFault f s).station.mode = .run := mode_noted.trans mode
    have safe := throwTable_enterSafe f.kind noted run
    dsimp only
    split
    · have entered : (enterSafe f.kind (noteFault f s)).station.mode = .safe := mode_enterSafe f.kind run
      have stopped : (enterSafe f.kind (noteFault f s)).station.mode ≠ .run := fun still =>
        nomatch entered.symm.trans still
      generalize enterSafe f.kind (noteFault f s) = t at safe stopped ⊢
      exact throwTable_reverseEffects safe stopped
    · exact safe
  | safe =>
    dsimp only
    split
    · exact throwTable_reverseEffects noted (by rw [mode_noted, mode]; decide)
    · exact noted

theorem throwTable_faultTaken (which : Nat) {s : State} (table : ThrowTable s) : ThrowTable (faultTaken which s) := by
  unfold faultTaken
  split
  · exact throwTable_applyFault _ (throwTable_of_view rfl table)
  · exact table

/-! ## The web -/

theorem throwTable_advanceWeb {s : State} (table : ThrowTable s) : ThrowTable (advanceWeb s) := by
  refine throwTable_of_view (view_reachPositions _) ?_
  split
  · refine throwTable_of_view (view_forLanes (view_testRunOut _) _) ?_
    exact throwTable_forLanes (fun n t => throwTable_foilAdvance _ n) (throwTable_of_view rfl table)
  · exact throwTable_of_view rfl table

theorem throwTable_forwardCount {s : State} (table : ThrowTable s) : ThrowTable (forwardCount s) := by
  unfold forwardCount
  split
  · exact table
  · dsimp only
    split
    · split
      · exact throwTable_advanceWeb (throwTable_of_view rfl table)
      · split <;> exact throwTable_of_view rfl table
    · exact throwTable_of_view rfl table

end Sys2Proof.Machine

/-! SUPPORT. The table of throw states through the orders, the processor port and own accesses (R44, R136). -/

namespace Sys2Proof.Machine

/-! ## The orders -/

theorem throwTable_setWindDown {s : State} (table : ThrowTable s) : ThrowTable (setWindDown s) :=
  throwTable_testWindDown (throwTable_of_view rfl table)

theorem throwTable_orderWatch {s : State} (table : ThrowTable s) (mode : s.station.mode ≠ .run) :
    ThrowTable (orderWatch s).st := by
  have lowered := throwOn_of_not_run table mode
  unfold orderWatch
  dsimp only
  split
  · exact throwTable_of_lowered (m := .watch) lowered (by decide) rfl table
  · exact throwTable_of_lowered (m := .watch) lowered (by decide)
      ((view_removeTarget ..).trans (view_completeStanding ..)) table

theorem throwTable_orderRun (c : Loaded) {s : State} (table : ThrowTable s) (mode : s.station.mode ≠ .run) :
    ThrowTable (orderRun c s).st := by
  unfold orderRun
  split
  · exact table
  · split
    · exact table
    · split
      · exact table
      · exact throwTable_of_lowered (m := .run) (throwOn_of_not_run table mode) (by decide) rfl table

theorem throwTable_orderStampOff (g : Origin) {s : State} (table : ThrowTable s) :
    ThrowTable (orderStampOff g s).st := by
  unfold orderStampOff
  split
  · exact table
  · exact throwTable_setWindDown (throwTable_of_view rfl table)

theorem throwTable_heldState (c : Loaded) {s : State} (table : ThrowTable s) : ThrowTable (heldState c s) := by
  cases on : s.throwOn with
  | true =>
    refine throwTable_of_negated (s := s) (m := .held) (by decide) ?_
    rw [State.view, heldState, heldImpression, on]
    rfl
  | false =>
    refine throwTable_of_lowered (m := .held) on (by decide) ?_ table
    rw [State.view, heldState, heldImpression, on]
    rfl

theorem throwTable_orderHold {c : Loaded} {s : State} (table : ThrowTable s) (loaded : s.loader.loaded = some c) :
    ThrowTable (orderHold s).st := by
  unfold orderHold
  split
  · exact table
  · dsimp only
    rw [holdEffects_eq loaded]
    split
    · exact throwTable_heldState c table
    · exact throwTable_editInHeld (throwTable_heldState c table)

theorem throwTable_orderSkip (c : Loaded) (o : Order) {s : State} (table : ThrowTable s) :
    ThrowTable (orderSkip c o s).st := by
  unfold orderSkip
  split
  · exact throwTable_of_view rfl table
  · exact table

theorem throwTable_orderLaneRestart (c : Loaded) (o : Order) {s : State} (table : ThrowTable s) :
    ThrowTable (orderLaneRestart c o s).st := by
  unfold orderLaneRestart
  split
  · exact throwTable_of_view rfl table
  · exact table

theorem throwTable_orderSetPosition (c : Loaded) (o : Order) {s : State} (table : ThrowTable s) :
    ThrowTable (orderSetPosition c o s).st := by
  unfold orderSetPosition
  split
  · split
    · exact throwTable_of_view rfl table
    · exact table
  · exact table

theorem throwTable_orderTrimReset {s : State} (table : ThrowTable s) : ThrowTable (orderTrimReset s).st := by
  unfold orderTrimReset
  split
  · exact table
  · exact throwTable_of_view rfl table

theorem throwTable_orderFoilLoad (c : Loaded) (o : Order) {s : State} (table : ThrowTable s) :
    ThrowTable (orderFoilLoad c o s).st := by
  unfold orderFoilLoad
  split
  · exact throwTable_foilLoadTaken c _ _ table
  · exact table

theorem throwTable_orderCountTarget (o : Order) (g : Origin) {s : State} (table : ThrowTable s) :
    ThrowTable (orderCountTarget o g s).st := by
  unfold orderCountTarget
  split
  · exact throwTable_of_view (view_removeTarget ..) table
  · split
    · exact table
    · exact throwTable_of_view (s := s) (view_removeTarget .cancelled s) table

theorem throwTable_orderSurvey (o : Order) (g : Origin) {s : State} (table : ThrowTable s) :
    ThrowTable (orderSurvey o g s).st := by
  unfold orderSurvey
  split
  · exact table
  · split
    · exact table
    · exact throwTable_of_view rfl table

theorem throwTable_orderReportPolicy (c : Loaded) (o : Order) {s : State} (table : ThrowTable s) :
    ThrowTable (orderReportPolicy c o s).st := by
  unfold orderReportPolicy
  split
  · exact table
  · split
    · exact table
    · exact throwTable_of_view rfl table

theorem throwTable_orderAck (o : Order) {s : State} (table : ThrowTable s) : ThrowTable (orderAck o s).st := by
  unfold orderAck
  dsimp only
  split <;> exact throwTable_of_view rfl table

theorem throwTable_apply (k : OrderKind) {c : Loaded} (o : Order) (g : Origin) {s : State} (table : ThrowTable s)
    (accepted : k.acceptedIn s.station.mode = true) (loaded : s.loader.loaded = some c) :
    ThrowTable (k.apply c o g s).st := by
  cases k with
  | watch =>
    refine throwTable_orderWatch table fun run => ?_
    rw [run] at accepted
    cases accepted
  | run =>
    refine throwTable_orderRun c table fun run => ?_
    rw [run] at accepted
    cases accepted
  | stampOff => exact throwTable_orderStampOff g table
  | hold => exact throwTable_orderHold table loaded
  | skip => exact throwTable_orderSkip c o table
  | laneRestart => exact throwTable_orderLaneRestart c o table
  | setPosition => exact throwTable_orderSetPosition c o table
  | trimReset => exact throwTable_orderTrimReset table
  | foilLoad => exact throwTable_orderFoilLoad c o table
  | countTarget => exact throwTable_orderCountTarget o g table
  | survey => exact throwTable_orderSurvey o g table
  | reportPolicy => exact throwTable_orderReportPolicy c o table
  | ack => exact throwTable_orderAck o table

theorem throwTable_judgeOrder (o : Order) (g : Origin) {s : State} (table : ThrowTable s) :
    ThrowTable (judgeOrder o g s).st := by
  unfold judgeOrder
  split
  · exact table
  · split
    · split
      · exact throwTable_apply _ o g table (by assumption) (by assumption)
      · exact table
    · exact table

/-! ## Tap orders and ring orders -/

theorem throwTable_applyTap (t : TapOrder) {s : State} (table : ThrowTable s) : ThrowTable (applyTap t s) := by
  have judged : ThrowTable (judgeOrder t.order (.tap t.tap)
      { s with orders := { s.orders with tapOrders := s.orders.tapOrders + 1 } }).st :=
    throwTable_judgeOrder _ _ (throwTable_of_view rfl table)
  exact throwTable_of_view (view_countRefusal _ _) judged

theorem throwTable_serveTaps (fuel : Nat) {s : State} (table : ThrowTable s) : ThrowTable (serveTaps fuel s) := by
  induction fuel generalizing s with
  | zero => exact table
  | succ fuel ih =>
    unfold serveTaps
    split
    · split
      · exact table
      · exact ih (throwTable_applyTap _ (throwTable_of_view rfl table))
    · exact table

theorem throwTable_serveWaiting {s : State} (table : ThrowTable s) : ThrowTable (serveWaiting s) :=
  throwTable_serveTaps _ table

theorem throwTable_deliverTap (t : TapOrder) {s : State} (table : ThrowTable s) : ThrowTable (deliverTap t s) := by
  unfold deliverTap
  split
  · exact throwTable_serveWaiting (throwTable_of_view rfl table)
  · exact throwTable_of_view rfl table

theorem throwTable_applyEntry (t : Taking) (ws : List Word) {s : State} (table : ThrowTable s) :
    ThrowTable (applyEntry t ws s) :=
  throwTable_of_view (view_countRefusal _ _) (throwTable_judgeOrder (readOrder ws) (.ring t.entry) table)

theorem throwTable_completeOwn (o : OwnAccess) {s : State} (table : ThrowTable s) : ThrowTable (completeOwn o s) :=
  throwTable_of_view (view_completeOwn o s) table

theorem throwTable_entryReadDone (accepts : Byte → Bool) {s : State} (table : ThrowTable s) :
    ThrowTable (entryReadDone accepts s) := by
  unfold entryReadDone
  split
  · split
    · split
      · exact throwTable_applyEntry _ _ (throwTable_completeOwn _ table)
      · exact throwTable_completeOwn _ table
    · exact table
  · exact table

theorem throwTable_orderRow (kind : Byte) (accepts : Byte → Bool) (src : OrderSource) {s : State}
    (table : ThrowTable s) : ThrowTable (orderRow kind accepts src s) := by
  cases src with
  | entry => exact throwTable_entryReadDone accepts table
  | tap n lane arg =>
    unfold orderRow
    dsimp only
    split
    · exact throwTable_deliverTap _ table
    · exact table

/-! ## The processor port -/

theorem throwTable_passWrite (a : Access) (events : List Observed) {s : State} (table : ThrowTable s) :
    ThrowTable (passWrite a events s) := by
  unfold passWrite
  split
  · split
    · exact throwTable_deliverTap _ (throwTable_of_view rfl table)
    · exact throwTable_of_view rfl table
  · exact throwTable_of_view rfl table

theorem throwTable_settleWrite (a : Access) {s : State} (table : ThrowTable s) : ThrowTable (settleWrite a s) := by
  unfold settleWrite
  dsimp only
  split
  · split
    · exact throwTable_of_view (view_guardDrop ..) table
    · exact throwTable_passWrite _ _ table
  · exact throwTable_of_view rfl table

theorem throwTable_arrive (a : Access) {s : State} (table : ThrowTable s) : ThrowTable (arrive a s) := by
  unfold arrive
  split
  · exact table
  · split
    · exact throwTable_of_view rfl table
    · split
      · exact throwTable_of_view rfl table
      · split
        · exact throwTable_settleWrite a table
        · exact throwTable_of_view (view_settleRead a s) table

theorem throwTable_resettle {s : State} (table : ThrowTable s) : ThrowTable (resettle s) := by
  unfold resettle
  split
  · split
    · split
      · exact throwTable_settleWrite _ table
      · exact throwTable_of_view rfl table
    · exact table
  · exact table

theorem throwTable_deliverEvents (l : List Observed) {s : State} (table : ThrowTable s) :
    ThrowTable (deliverEvents l s) := by
  induction l generalizing s with
  | nil => exact table
  | cons e t ih =>
    refine ih ?_
    cases e.event with
    | config p => exact throwTable_configEvent p table
    | handoff e gen => exact throwTable_of_view (view_recordHandoff e gen s) table
    | release e gen => exact throwTable_of_view (view_recordRelease e gen s) table

theorem throwTable_forwardedEnd {s : State} (table : ThrowTable s) : ThrowTable (forwardedEnd s) := by
  unfold forwardedEnd
  split
  · rename_i h _
    have delivered := throwTable_deliverEvents h.events
      (throwTable_of_view (view_endForwarded h.acc h.acc.words.length s) table)
    unfold deliverTapOf
    split
    · exact throwTable_deliverTap _ delivered
    · exact delivered
  · exact table

theorem throwTable_forwardedError (k : Nat) {s : State} (table : ThrowTable s) : ThrowTable (forwardedError k s) := by
  unfold forwardedError
  split
  · split
    · exact throwTable_deliverEvents _ (throwTable_of_view (view_endForwarded _ _ s) table)
    · exact table
  · exact table

/-! ## Own accesses -/

theorem throwTable_headerDone {s : State} (table : ThrowTable s) : ThrowTable (headerDone s) := by
  unfold headerDone
  split
  · split
    · exact throwTable_of_view (s := completeOwn _ s) rfl (throwTable_completeOwn _ table)
    · exact table
  · exact table

theorem throwTable_tableDone {s : State} (table : ThrowTable s) : ThrowTable (tableDone s) := by
  unfold tableDone
  split
  · split
    · exact throwTable_tableRead _ _ (throwTable_completeOwn _ table)
    all_goals exact table
  · exact table

theorem throwTable_seedingRead (p : Purpose) (ws : List Word) {s : State} (table : ThrowTable s) :
    ThrowTable (seedingRead p ws s) := by
  unfold seedingRead
  split
  · exact throwTable_of_view (view_seedOrderRead ..) table
  · exact throwTable_seedReportRead _ _ _ table
  · exact table

theorem throwTable_seedingDone {s : State} (table : ThrowTable s) : ThrowTable (seedingDone s) := by
  unfold seedingDone
  split
  · split
    · exact throwTable_serveWaiting (throwTable_seedingRead _ _ (throwTable_completeOwn _ table))
    · exact table
  · exact table

theorem throwTable_discardedDone {s : State} (table : ThrowTable s) : ThrowTable (discardedDone s) := by
  unfold discardedDone
  split
  · split
    · exact throwTable_of_view (s := completeOwn _ s) rfl (throwTable_completeOwn _ table)
    · exact table
  · exact table

theorem throwTable_resultDone {s : State} (table : ThrowTable s) : ThrowTable (resultDone s) := by
  unfold resultDone
  split
  · split
    · exact throwTable_serveWaiting (throwTable_resettle
        (throwTable_of_view (view_endTake _) (throwTable_completeOwn _ table)))
    · exact table
  · exact table

theorem throwTable_fillDone {s : State} (table : ThrowTable s) : ThrowTable (fillDone s) := by
  unfold fillDone
  split
  · split
    · exact throwTable_resettle (throwTable_of_view (view_endFill _) (throwTable_completeOwn _ table))
    · exact table
  · exact table

theorem throwTable_statusDone {s : State} (table : ThrowTable s) : ThrowTable (statusDone s) := by
  unfold statusDone
  split
  · split
    · exact throwTable_resettle (throwTable_of_view (s := completeOwn _ s) rfl (throwTable_completeOwn _ table))
    · exact table
  · exact table

theorem throwTable_producerError (p : Purpose) {s : State} (table : ThrowTable s) : ThrowTable (producerError p s) := by
  have loader : ThrowTable (loaderError s) := by
    unfold loaderError
    split
    · exact throwTable_of_view rfl table
    · exact throwTable_failLoad _ table
  cases p with
  | header | table k | seedOrder k | seedReport k => exact loader
  | entryRead => exact throwTable_of_view (view_takeError s) table
  | resultWrite => exact throwTable_serveWaiting (throwTable_of_view (view_endTake s) table)
  | fill e => exact throwTable_of_view (view_fillError s) table
  | statusWrite => exact throwTable_of_view rfl table

theorem throwTable_ownError (k : Nat) {s : State} (table : ThrowTable s) : ThrowTable (ownError k s) := by
  unfold ownError
  split
  · split
    · exact throwTable_resettle (throwTable_producerError _ (throwTable_of_view (view_endOwn _ k s) table))
    · exact table
  · exact table

theorem throwTable_resetAsserted (k : Nat) {s : State} (table : ThrowTable s) : ThrowTable (resetAsserted k s) := by
  unfold resetAsserted
  split
  · exact table
  · exact throwTable_of_idle ⟨rfl, rfl, rfl⟩

theorem throwTable_resetReleased (straps : BitVec 2) (webA webB : Bool) {s : State} (table : ThrowTable s) :
    ThrowTable (resetReleased straps webA webB s) := by
  unfold resetReleased
  split
  · exact throwTable_of_idle ⟨rfl, rfl, rfl⟩
  · exact table

end Sys2Proof.Machine

/-! SUPPORT. The table of throw states through the throw's own commands and the decision of a row, and at every step
(R136 to R140). -/

namespace Sys2Proof.Machine

/-! ## The throw's own commands -/

theorem throwTable_releasePoint {s : State} (table : ThrowTable s) : ThrowTable (releasePoint s) := by
  unfold releasePoint
  split
  · rename_i due
    simp only [Bool.and_eq_true] at due
    obtain ⟨⟨_, on⟩, _⟩ := due
    exact throwTable_negateThrow table on
  · exact table

theorem throwTable_throwRise {s : State} (table : ThrowTable s) : ThrowTable (throwRise s) := by
  cases ok : s.pins.throwOk with
  | true =>
    rw [throwRise, if_pos ok]
    exact table
  | false =>
    have lawful := (throwTable_iff_lawful s).1 table
    rw [throwTable_iff_lawful, throwRise_of_low ok]
    rw [ThrowView.lawful] at lawful
    dsimp only [State.view] at lawful
    dsimp only
    cases throw : s.imp.throw with
    | off =>
      rw [throw] at lawful
      split <;> (rw [ThrowView.lawful]; dsimp only [State.view, raiseFault]; rw [throw]; exact lawful)
    | engaging =>
      rw [throw] at lawful
      obtain ⟨_, run, horizon, release⟩ := lawful
      rw [if_neg (by rw [run]; decide)]
      exact ⟨rfl, run, horizon, release⟩
    | on | releasing =>
      rw [throw, ok] at lawful
      exact absurd lawful.1 Bool.false_ne_true

theorem throwTable_throwFall {s : State} (table : ThrowTable s) : ThrowTable (throwFall s) := by
  cases ok : s.pins.throwOk with
  | false =>
    rw [throwFall, if_neg (by rw [ok]; exact Bool.false_ne_true)]
    exact table
  | true =>
    have lawful := (throwTable_iff_lawful s).1 table
    rw [throwFall_of_high ok]
    rw [ThrowView.lawful] at lawful
    dsimp only [State.view] at lawful
    dsimp only
    cases throw : s.imp.throw with
    | off =>
      rw [throw] at lawful
      rw [ite_self]
      exact throwTable_of_idle ⟨throw, lawful⟩
    | engaging =>
      rw [throw, ok] at lawful
      exact absurd lawful.1.symm Bool.false_ne_true
    | on =>
      rw [throw] at lawful
      obtain ⟨_, run, horizon, release⟩ := lawful
      rw [if_neg (by rw [run]; decide)]
      exact (throwTable_iff_lawful _).2 ⟨rfl, run, horizon, release⟩
    | releasing =>
      rw [throw] at lawful
      obtain ⟨_, mode, horizon, release⟩ := lawful
      rw [if_neg mode]
      exact throwTable_testWindDown (throwTable_of_idle ⟨rfl, horizon, release⟩)

/-! ## The decision of a row -/

theorem throwTable_takeDecided (c : Loaded) (r : Row) {s : State} (table : ThrowTable s) :
    ThrowTable (takeDecided c r s) := by
  by_cases engages : r.isStrike = true ∧ s.station.mode = .run
  · obtain ⟨strike, run⟩ := engages
    rw [takeDecided_of_engage strike run]
    have lawful := (throwTable_iff_lawful s).1 table
    rw [ThrowView.lawful] at lawful
    dsimp only [State.view] at lawful
    rw [throwTable_iff_lawful, ThrowView.lawful]
    dsimp only [State.view, engagedImp]
    cases throw : s.imp.throw with
    | engaging | on =>
      rw [throw] at lawful
      exact ⟨lawful.1, run, rfl, rfl⟩
    | off | releasing =>
      dsimp only
      cases ok : s.pins.throwOk with
      | true => exact ⟨rfl, run, rfl, rfl⟩
      | false => exact ⟨rfl, run, rfl, rfl⟩
  · have still : r.isStrike = false ∨ s.station.mode ≠ .run := by
      cases strike : r.isStrike with
      | false => exact .inl rfl
      | true => exact .inr fun run => engages ⟨strike, run⟩
    rw [takeDecided_of_still still]
    exact throwTable_of_view rfl table

theorem throwTable_countStrikeRow {s : State} (table : ThrowTable s) : ThrowTable (countStrikeRow s) := by
  unfold countStrikeRow
  dsimp only
  split
  · exact throwTable_of_view rfl table
  · split
    · have removed : ThrowTable (removeTarget .done { s with cnt := { s.cnt with strikeRows := s.cnt.strikeRows + 1 } }) :=
        throwTable_of_view (view_removeTarget ..) table
      split
      · exact removed
      · exact throwTable_setWindDown removed
    · exact throwTable_of_view rfl table

theorem throwTable_decideRow (uid : Nat) {s : State} (table : ThrowTable s) : ThrowTable (decideRow uid s) := by
  refine throwTable_withLoaded (fun c _ => ?_) table
  split
  · exact table
  · dsimp only
    rw [handDecided_eq]
    refine throwTable_of_view (view_takenIfDue ..) (throwTable_takeDecided _ _ ?_)
    refine throwTable_of_view (armed_armLanes uid _ _).view ?_
    split
    · exact throwTable_countStrikeRow (throwTable_of_view rfl table)
    · exact throwTable_of_view rfl table

theorem throwTable_decisionTaken {s : State} (table : ThrowTable s) : ThrowTable (decisionTaken s) := by
  unfold decisionTaken
  split
  · split
    · exact throwTable_decideRow _ table
    · exact table
  · exact table

theorem throwTable_decideIfReached (uid : Nat) {s : State} (table : ThrowTable s) :
    ThrowTable (decideIfReached uid s) := by
  unfold decideIfReached
  split
  · split
    · exact throwTable_decideRow _ table
    · exact table
  · exact table

theorem throwTable_needRow (c : Loaded) (n : Lane) (cell : Cell) (nip : Pos) {s : State} (table : ThrowTable s) :
    ThrowTable (needRow c n cell nip s) := by
  unfold needRow
  split
  · exact throwTable_decideIfReached _ (throwTable_of_view rfl table)
  · exact throwTable_of_view rfl table

theorem throwTable_joinCell (c : Loaded) (n : Lane) (cell : Cell) (nip : Pos) (r : Row) {s : State}
    (table : ThrowTable s) : ThrowTable (joinCell c n cell nip r s) := by
  unfold joinCell
  dsimp only
  split
  · exact throwTable_decideIfReached _ (throwTable_of_view rfl table)
  · exact throwTable_of_view rfl table

theorem throwTable_placeCell (c : Loaded) (n : Lane) (cell : Cell) (nip : Pos) {s : State} (table : ThrowTable s) :
    ThrowTable (placeCell c n cell nip s) := by
  unfold placeCell
  split
  · split
    · exact throwTable_joinCell c n cell nip _ table
    · exact throwTable_of_view rfl table
  · split
    · exact throwTable_needRow c n cell nip table
    · split
      · exact throwTable_needRow c n cell nip table
      · exact throwTable_of_view rfl table

theorem throwTable_cellTaken (n : Lane) {s : State} (table : ThrowTable s) : ThrowTable (cellTaken n s) := by
  unfold cellTaken
  split
  · exact table
  · dsimp only
    split
    · refine throwTable_withLoaded (fun c _ => ?_) (throwTable_of_view rfl table)
      split
      · split
        · exact throwTable_placeCell c n _ _ (throwTable_of_view rfl table)
        · exact throwTable_of_view rfl table
      · exact throwTable_of_view rfl table
    · exact throwTable_of_view rfl table

/-! ## Every command -/

/-- The end of a step leaves what R136 reads. -/
theorem throwTable_finish {old s : State} (table : ThrowTable s) : ThrowTable (finish old s) :=
  throwTable_of_view (view_finish old s) table

theorem throwTable_sense (lv : Levels) {s : State} (table : ThrowTable s) : ThrowTable (sense lv s) :=
  throwTable_of_view rfl table

theorem throwTable_exec (i : Instr) {s t : State} (next : exec i s = .next t) (table : ThrowTable s) : ThrowTable t := by
  cases i <;> (obtain rfl := Host.Outcome.next.inj next; refine throwTable_finish ?_)
  case processorWrite lv a w => exact throwTable_arrive _ (throwTable_sense lv table)
  case processorRead a w => exact throwTable_arrive _ table
  case portGrant => exact throwTable_of_view (view_grantPort s) table
  case forwardedBurstEnd lv => exact throwTable_forwardedEnd (throwTable_sense lv table)
  case forwardedAccessError lv k => exact throwTable_forwardedError k (throwTable_sense lv table)
  case resetNAsserted k => exact throwTable_resetAsserted k table
  case resetNReleased b x y => exact throwTable_resetReleased b x y table
  case headerReadComplete => exact throwTable_headerDone table
  case tableReadComplete => exact throwTable_tableDone table
  case seedingReadComplete lv => exact throwTable_seedingDone (throwTable_sense lv table)
  case discardedReadComplete => exact throwTable_discardedDone table
  case ownAccessError lv k => exact throwTable_ownError k (throwTable_sense lv table)
  case orderTakeBegin => exact throwTable_of_view (view_takeBegin s) table
  case resultWriteComplete lv => exact throwTable_resultDone (throwTable_sense lv table)
  case fillComplete lv => exact throwTable_fillDone (throwTable_sense lv table)
  case statusWriteComplete => exact throwTable_statusDone table
  case orderEntryReadComplete lv => exact throwTable_entryReadDone _ (throwTable_sense lv table)
  case stationFaultApplied k => exact throwTable_faultTaken k table
  case webForwardCount => exact throwTable_forwardCount table
  case webBackwardCount => exact throwTable_of_view (view_backwardCount s) table
  case encoderDoubleChange => exact throwTable_of_view (view_doubleChange s) table
  case markLeadingEdge n => exact throwTable_of_view (view_leadingEdge n s) table
  case markTrailingEdge n => exact throwTable_of_view (view_trailingEdge n s) table
  case windowEndReached n => exact throwTable_of_view (view_windowEndTaken n s) table
  case samplePositionReached n => exact throwTable_of_view (view_sampleTaken n s) table
  case stopSampleReached n => exact throwTable_of_view (view_stopTaken n s) table
  case spliceDetection n => exact throwTable_of_view (view_spliceDetected n s) table
  case readTaken n => exact throwTable_of_view (view_readTakenBy n s) table
  case strayNotice n => exact throwTable_of_view (view_strayTaken n s) table
  case skewDiscardNotice n => exact throwTable_of_view (view_skewTaken n s) table
  case cellPlaced lv n => exact throwTable_cellTaken n (throwTable_sense lv table)
  case spliceDetectionTaken n => exact throwTable_of_view (view_spliceDetectionTaken n s) table
  case lightReturnTaken n => exact throwTable_of_view (view_lightReturnTaken n s) table
  case resumePositionReached n => exact throwTable_of_view (view_resumeTaken n s) table
  case decisionPointReached lv => exact throwTable_decisionTaken (throwTable_sense lv table)
  case nipReached => exact throwTable_of_view (view_nipTaken s) table
  case releasePointReached => exact throwTable_releasePoint table
  case throwOkRise => exact throwTable_throwRise table
  case throwOkFall => exact throwTable_throwFall table
  case cylIndex => exact throwTable_of_view (view_cylIndexTaken s) table
  case heatRdyFall => exact throwTable_of_view (view_heatFall s) table
  case foilbrkAsserted n => exact throwTable_foilbrkAssert n table
  case pullStartReached n => exact throwTable_of_view (view_pullStart n s) table
  case ownPullEndReached n => exact throwTable_of_view (view_ownPullEnd n s) table
  case pullEndReached n => exact throwTable_pullEnd n table
  case pullReport n => exact throwTable_of_view (view_pullReportTaken n s) table
  case rejectPointReached => exact throwTable_of_view (view_rejectPointTaken s) table
  case rejectEndReached n => exact throwTable_of_view (view_rejectEndTaken n s) table
  all_goals exact throwTable_orderRow _ _ _ (throwTable_sense _ table)

/-- Settles O8, command by command. -/
theorem throwTableIsKept : Obligations.ThrowTableIsKept :=
  keptByStep_of_exec (fun _ _ table => table) fun i _ _ => throwTable_exec i

end Sys2Proof.Machine
